-- ==== Sys2Proof/Word.lean ====
section
/-! DEFINITION. The word types of the Agmen 7 and the plain operand types an instruction is written with
(scopes, registers, number types, MOD field values). Rules are those of spec/. -/

namespace Sys2Proof

/-- A 32-bit register value (R11). -/
abbrev Word := BitVec 32
/-- A byte of memory. -/
abbrev Byte := BitVec 8
/-- A 64-bit value: a register pair (R14). -/
abbrev DWord := BitVec 64

/-- The five scopes of R2; SC codes 0 to 4 of R41. -/
inductive Scope | L | S | G | T | W
  deriving DecidableEq, Repr, Inhabited

/-- The guard of R44: a predicate of the instruction's scope, negated or not. -/
structure Guard where
  neg : Bool
  p : BitVec 3
  deriving DecidableEq, Repr, Inhabited

/-- The issue hints of R41, R50 and R52. -/
structure Hints where
  yld : Bool
  gap : BitVec 3
  la : BitVec 4
  deriving DecidableEq, Repr, Inhabited

/-- What every instruction word carries besides its operands: scope, guard, the join mark MOD[15] and the hints. -/
structure Head where
  scope : Scope
  guard : Guard
  join : Bool
  hints : Hints
  deriving DecidableEq, Repr, Inhabited

/-- The special registers of R23. -/
inductive Special
  | lane | slice | group | team | pair | die | role | ctx
  | cwp (n : BitVec 4)
  | clk | clkhi | ref | refhi | tileinc
  deriving DecidableEq, Repr, Inhabited

/-- The registers of R47. -/
inductive Reg
  | v (n : BitVec 8)
  | g (n : BitVec 6)
  | t (n : BitVec 7)
  | w (n : BitVec 5)
  | p (n : BitVec 3)
  | lc (n : BitVec 2)
  | h (n : BitVec 4)
  | q (n : BitVec 5)
  | zero
  | sp (s : Special)
  deriving DecidableEq, Repr, Inhabited

/-- Operand B of an instruction that has both forms: a register, or IMM32 (R41). -/
inductive Src
  | reg (r : Reg)
  | imm (x : Word)
  deriving DecidableEq, Repr, Inhabited

/-- The integer types of R53. -/
inductive IntTy | i32 | n32 | i16 | n16 | i8 | n8 | i64 | n64
  deriving DecidableEq, Repr, Inhabited

/-- The parameters of a b8 format (R53, R77, R78): precision P, natural (no sign bit), finite. -/
structure B8 where
  p : BitVec 3
  natural : Bool
  finite : Bool
  deriving DecidableEq, Repr, Inhabited

/-- The floating-point formats of R70, R77 and R78. -/
inductive Fmt
  | f32 | bf16 | f16 | e4m3 | e5m2 | e2m1
  | b8 (k : B8)
  deriving DecidableEq, Repr, Inhabited

/-- A type of R53: an integer type or a floating-point format. -/
inductive NumTy
  | int (t : IntTy)
  | flt (f : Fmt)
  deriving DecidableEq, Repr, Inhabited

/-- Rounding modes of R54. -/
inductive Rnd | rne | rz | rd | ru
  deriving DecidableEq, Repr, Inhabited

/-- Comparison conditions of R56. -/
inductive Cond | eq | ne | lt | le | gt | ge | num | nan | equ | neu | ltu | leu | gtu | geu
  deriving DecidableEq, Repr, Inhabited

/-- The operations of REDUCE and SCAN (R55). -/
inductive RedOp | add | min | max | and | or | xor
  deriving DecidableEq, Repr, Inhabited

/-- The modes of SHFL (R55). -/
inductive ShflMode | get | rot | rev | spr
  deriving DecidableEq, Repr, Inhabited

/-- The local spaces of R57. -/
inductive Space | sh | pp | dz | pv
  deriving DecidableEq, Repr, Inhabited

/-- The spaces an engine reaches (R60). -/
inductive EngSpace | sh | pp | dz | mem
  deriving DecidableEq, Repr, Inhabited

/-- Access widths of R57. -/
inductive Width | w8 | w16 | w32 | w64 | w128
  deriving DecidableEq, Repr, Inhabited

/-- Memory orders of R57. -/
inductive MemOrder | rlx | acq | rel | ar
  deriving DecidableEq, Repr, Inhabited

/-- Memory scopes of R57 and R236. -/
inductive MemScope | slice | group | team | pair | die | package | system
  deriving DecidableEq, Repr, Inhabited

/-- The order and scope of an access. -/
structure MemOrd where
  order : MemOrder
  scope : MemScope
  deriving DecidableEq, Repr, Inhabited

/-- Atomic codes of R58. -/
inductive AtomOp
  | add | smin | smax | umin | umax | and | or | xor | exch
  | fadd | fmin | fmax | hadd2 | incw | decw | cas
  deriving DecidableEq, Repr, Inhabited

/-- The verdicts of VOTE (R94). -/
inductive VoteKind | every | none | split | maj
  deriving DecidableEq, Repr, Inhabited

/-- The classes of the outstanding counters (R20). -/
inductive OpClass | copy | gather | matrix | coll
  deriving DecidableEq, Repr, Inhabited

/-- The completion target of an engine instruction (R60, R175): a register holding the address of a barrier object
(`zero` for none), or a handle. -/
inductive Done
  | barrier (r : Reg)
  | handle (n : BitVec 4)
  deriving DecidableEq, Repr, Inhabited

/-- The kinds of PBAR (R62, R201). -/
inductive PbarKind | arrive | wait | sync
  deriving DecidableEq, Repr, Inhabited

/-- COLL operations (R62, R324). -/
inductive CollOp | allred | redscat | allgath | alltoall | bcast
  deriving DecidableEq, Repr, Inhabited

/-- COLL reduce operations (R62, R325). -/
inductive CollRed | add | min | max | avg
  deriving DecidableEq, Repr, Inhabited

/-- COLL element types (R62). -/
inductive CollTy | f32 | bf16 | i32
  deriving DecidableEq, Repr, Inhabited

/-- COLL policies (R62, R334). -/
inductive CollPolicy | restart | reweight | abort
  deriving DecidableEq, Repr, Inhabited

/-- Sparsity of a forme range (R61). -/
inductive Sparsity | dense | sp4 | sp2
  deriving DecidableEq, Repr, Inhabited

/-- Block length of a forme range (R61). -/
inductive BlkLen | none | k16 | k32 | k64
  deriving DecidableEq, Repr, Inhabited

/-- Scale kind of a forme range (R61). -/
inductive ScaleKind | none | e8m0 | ds4
  deriving DecidableEq, Repr, Inhabited

/-- A team by its launch number and its team number (R306, R396). -/
structure TeamId where
  launch : Nat
  num : Nat
  deriving DecidableEq, Repr, Inhabited

/-- An issuing context (R48): a slice, a group, team or grid context, or a compositor's grid context (R376). -/
inductive CtxId
  | slice (t : TeamId) (group slice : Nat)
  | group (t : TeamId) (group : Nat)
  | team (t : TeamId) (role : Nat)
  | grid (launch role : Nat)
  | firmware (die : Nat)
  deriving DecidableEq, Repr, Inhabited

/-- A read, write or link atomic that the host sends through its aperture or to region 0 (R346). -/
inductive HostAccess
  | read (bytes : Nat)
  | write (data : List Byte)
  | atomic (op : AtomOp) (value compare : DWord)
  deriving DecidableEq, Repr, Inhabited

/-- What a collective flit carries (R325, R326, R343): a partial value on its way up the tree from a position, the root's
value on its way down, a block of a member for the operations that do not reduce, each with the number `desc` that
describes its collective; that number alone, as a member begins; that the members' collectives differ; FIN of a position and CONFIRM
(R328); or the acknowledgement of a flit of some kind. DESIGN CHOICE, log 71, safe. -/
inductive Flit
  | up (desc level pos : Nat) (data : List Word)
  | down (desc : Nat) (data : List Word)
  | block (desc rank : Nat) (data : List Word)
  | describe (desc : Nat)
  | clash
  | fin (pos : Nat)
  | confirm
  | ack (kind : Nat)
  deriving DecidableEq, Repr, Inhabited

/-- What the timing sweep of R385 finds of one channel and layer: the first and the last step of 1/64 UI that pass, of the read delay and of
the write delay. -/
structure DelayMeas where
  channel : Nat
  layer : Nat
  rdLo : BitVec 8
  rdHi : BitVec 8
  wrLo : BitVec 8
  wrHi : BitVec 8
  deriving DecidableEq, Repr, Inhabited

/-- What training finds of one physical lane of the link (R386): the far receiver detected within 1 ms, the eye margin under the preset
chosen, the skew in UI, and whether it passes otherwise. -/
structure LaneTrain where
  found : Bool
  margin : BitVec 8
  skew : BitVec 16
  good : Bool
  deriving DecidableEq, Repr, Inhabited

/-- A bond lane that fails its built-in test (R385). -/
structure LaneFault where
  channel : Nat
  layer : Nat
  lane : Nat
  deriving DecidableEq, Repr, Inhabited

/-- The cause codes of R249, 0x01 to 0x1B in order. -/
inductive Cause
  | illop | illreg | scope | nonuniform | parted | member | xword | align | bounds | page | prot | stackgrow
  | quota | effect | abort | viewchg | waitbudget | bkpt | step | trap | format | galley | sigmismatch | strikeNr
  | handle | rcvovf | calldepth
  deriving DecidableEq, Repr, Inhabited

end Sys2Proof
end

