-- ==== Sys2Proof/Config.lean ====
section
/-! DEFINITION. What the part fixes (R1 and the rules named below), and the free values: the opaque constants that the
manual leaves open. No proof can see what a free value is. -/

namespace Sys2Proof.Config

/-- Galley window W in ns (R1, R243). -/
def galleyWindow : Nat := 48
/-- Cycles from the last arrival to the release of a package barrier (R1, R319). -/
def barrierRelease : Nat := 120
/-- Compute dies (R1). -/
def dies : Nat := 4
/-- Cores of one die (R1). -/
def coresPerDie : Nat := 160
/-- Bytes of device main memory (R1). -/
def dramBytes : Nat := 0x8000000000
/-- Bytes of one die's scratchpad (R1, R29). -/
def dzBytes : Nat := 0x10000000
/-- Bytes of one core's `sh` (R1, R29). -/
def shBytes : Nat := 0x100000
/-- Core cycles in 10 ns of reference ticks: 3.3 GHz against 1 GHz (R1). DEDUCED, log 3, unsafe. -/
def cyclesPer10ns : Nat := 33
/-- Entries of one galley (R281). -/
def galleyEntries : Nat := 4096
/-- Galley entries at which a store raises GALLEY in proof and audit mode (R297). -/
def galleyLimit : Nat := 3584
/-- Effects of one epoch, and the reserve that TRET grants (R290). -/
def effectQuota : Nat := 4096
def effectReserve : Nat := 256
/-- Tickets and ahead-log entries of one sequencer context (R26). -/
def maxTickets : Nat := 8
def maxLog : Nat := 16
/-- Variable results that a slice holds outstanding (R50). -/
def maxVariable : Nat := 8

/-- FREE VALUE: which of the enabled agents acts next, by the number of the step. DESIGN CHOICE, log 2, safe. -/
opaque choice : Nat → Nat
/-- FREE VALUE: how many cycles beyond the first an outcome takes whose latency the manual does not give. DESIGN CHOICE, log 8, safe. -/
opaque latency : Nat → Nat
/-- FREE VALUE: a word the manual leaves unspecified. DESIGN CHOICE, log 11, safe. -/
opaque freeWord : Nat → Word
/-- FREE VALUE: a word at a place of a store whose contents are unspecified; the first argument numbers the occasion. DESIGN CHOICE, log 11, safe. -/
opaque freeCell : Nat → Nat → Word
/-- FREE VALUE: the rank of a lane in the unspecified order of one store or atomic (R173, R238). DESIGN CHOICE, log 10, safe. -/
opaque laneRank : Nat → Nat → Nat
/-- FREE VALUE: the byte at an offset of a core's 1 KiB of the snapshot window, as the registers that the core latched give it: R392 lists
them and gives no place to any. DESIGN CHOICE, log 140, safe. -/
opaque snapByte : List Nat → Nat → Byte
/-- FREE VALUE: the power that the governor measures, by the number of the measurement (R391). DESIGN CHOICE, log 144, safe. -/
opaque watts : Nat → BitVec 16
/-- FREE VALUE: the refill rate that it sets: by GOVLIM, what it measured, and the number of the measurement. DESIGN CHOICE, log 144, safe. -/
opaque refillRate : Nat → BitVec 16 → Nat → BitVec 16
/-- FREE VALUE: the special functions of R145, within their bounds; the first argument numbers the function. DESIGN CHOICE, log 9, safe. -/
opaque special : Nat → Word → Word
/-- FREE VALUE: the Ed448 signature that a device key makes of a message (R368). DESIGN CHOICE, log 147, safe. -/
opaque ed448Sign : Nat → List Byte → List Byte
/-- FREE VALUE: the die whose DRAM holds a device address, modulo 4; R385 says only that addresses interleave. DESIGN CHOICE, log 106, safe. -/
opaque dramDie : Nat → Nat
/-- FREE VALUE: the place of a retained launch record in device memory, in units of 512 bytes modulo 2^30 (R357). DESIGN CHOICE, log 86, safe. -/
opaque recordPlace : Nat → Nat
/-- FREE VALUE: the place of a save area in device memory, in units of 4 KiB modulo 2^27 (R260); the argument numbers the saving.
DESIGN CHOICE, log 133, unsafe. -/
opaque savePlace : Nat → Nat
/-- FREE VALUE: how many bytes beyond one the check word has that holds a physical address (R298). DESIGN CHOICE, log 129, safe. -/
opaque checkBytes : Nat → Nat
/-- FREE VALUE: the channel of its die that holds a 256-byte block of device memory, modulo 64; R385 says only that addresses interleave.
DESIGN CHOICE, log 39, unsafe. -/
opaque dramChannel : Nat → Nat
/-- FREE VALUE: the device identity public key that a device key gives (R368). DESIGN CHOICE, log 147, safe. -/
opaque devicePub : Nat → List Byte
/-- FREE VALUE: the Horlys root key digest held in the boot ROM (R367), and the digest of the ROM that a measurement holds.
DESIGN CHOICE, log 147, safe. -/
opaque rootDigest : List Byte
/-- DESIGN CHOICE, log 147, safe. -/
opaque romDigest : List Byte
/-- FREE VALUE: where the compositors serialise their queue state in `dz` of die 0 (R370). DESIGN CHOICE, log 111, unsafe. -/
opaque handPlace : Nat → Nat
/-- FREE VALUE: the offset in the status page of a context's producer index (R364), modulo 4,089. DESIGN CHOICE, log 101, unsafe. -/
opaque indexPlace : Nat → Nat
/-- FREE VALUE: the expert unlock value of a boot (R372, R381). DESIGN CHOICE, log 105, safe. -/
opaque unlockValue : Nat → DWord

end Sys2Proof.Config
end

