-- ==== Sys2Proof/Syntax.lean ====
section
/-! DEFINITION. The instructions and steps of the Agmen 7: one constructor per row of the opcode table. The first 151
are the opcodes of R63, with their operands as R91, R128, R136, R145, R168, R175, R202 and R322 name them. The other 127
are the steps of the part that no instruction word issues; their operands say which agent the step befalls, and what the
outside world brings with it. -/

namespace Sys2Proof

/-- DESIGN CHOICE, log 116, safe. -/
inductive Instr
  -- control (R91)
  | nop (h : Head)
  | bra (h : Head) (off : Word)
  | br (h : Head) (cs : Scope) (neg : Bool) (a : Option (BitVec 3)) (off : Word)
  | brx (h : Head) (cs : Scope) (neg : Bool) (a : Option (BitVec 3)) (b : Reg)
  | call (h : Head) (off : Word)
  | callx (h : Head) (b : Reg)
  | ret (h : Head)
  | lcnt (h : Head) (d : BitVec 2) (src : Src)
  | loop (h : Head) (d : BitVec 2) (off : Word)
  | rcv (h : Head) (off : Word)
  | regang (h : Head)
  | exit (h : Head)
  | vote (h : Head) (cs : Scope) (neg : Bool) (kind : VoteKind) (d a : BitVec 3)
  | xissue (h : Head) (a : Reg)
  | trap (h : Head) (code : Word)
  | bkpt (h : Head)
  | tret (h : Head)
  | nap (h : Head) (n : Src)
  -- integer (R128)
  | add (h : Head) (ty : IntTy) (sat : Bool) (d a : Reg) (b : Src)
  | sub (h : Head) (ty : IntTy) (sat : Bool) (d a : Reg) (b : Src)
  | addc (h : Head) (ty : IntTy) (d a b : Reg) (pc : BitVec 3)
  | subb (h : Head) (ty : IntTy) (d a b : Reg) (pc : BitVec 3)
  | mul (h : Head) (ty : IntTy) (sat : Bool) (d a : Reg) (b : Src)
  | mulh (h : Head) (ty : IntTy) (d a : Reg) (b : Src)
  | mad (h : Head) (ty : IntTy) (sat : Bool) (d a b c : Reg)
  | madw (h : Head) (ty : IntTy) (d a b c : Reg)
  | min (h : Head) (ty : IntTy) (d a : Reg) (b : Src)
  | max (h : Head) (ty : IntTy) (d a : Reg) (b : Src)
  | abs (h : Head) (ty : IntTy) (sat : Bool) (d a : Reg)
  | neg (h : Head) (ty : IntTy) (sat : Bool) (d a : Reg)
  | and (h : Head) (ty : IntTy) (d a : Reg) (b : Src)
  | or (h : Head) (ty : IntTy) (d a : Reg) (b : Src)
  | xor (h : Head) (ty : IntTy) (d a : Reg) (b : Src)
  | not (h : Head) (ty : IntTy) (d a : Reg)
  | andn (h : Head) (ty : IntTy) (d a : Reg) (b : Src)
  | shl (h : Head) (ty : IntTy) (d a : Reg) (b : Src)
  | shr (h : Head) (ty : IntTy) (d a : Reg) (b : Src)
  | sar (h : Head) (ty : IntTy) (d a : Reg) (b : Src)
  | shf (h : Head) (right : Bool) (d a b c : Reg)
  | rot (h : Head) (ty : IntTy) (d a : Reg) (b : Src)
  | bfe (h : Head) (ty : IntTy) (d a b c : Reg)
  | bfi (h : Head) (d a b c : Reg)
  | popc (h : Head) (d a : Reg)
  | clz (h : Head) (d a : Reg)
  | brev (h : Head) (d a : Reg)
  | prmt (h : Head) (d a b c : Reg)
  | sel (h : Head) (ty : IntTy) (d a b : Reg) (pc : BitVec 3)
  | icmp (h : Head) (ty : IntTy) (cond : Cond) (d : BitVec 3) (a : Reg) (b : Src)
  | lea (h : Head) (ty : IntTy) (shift : BitVec 3) (d a : Reg) (b : Src)
  | dp4 (h : Head) (ty : IntTy) (sat : Bool) (d a b c : Reg)
  | dp2 (h : Head) (ty : IntTy) (sat : Bool) (d a b c : Reg)
  | sad (h : Head) (ty : IntTy) (sat : Bool) (d a b c : Reg)
  | clamp (h : Head) (ty : IntTy) (d a b c : Reg)
  -- floating point (R136)
  | fadd (h : Head) (f : Fmt) (rnd : Rnd) (d a : Reg) (b : Src)
  | fsub (h : Head) (f : Fmt) (rnd : Rnd) (d a : Reg) (b : Src)
  | fmul (h : Head) (f : Fmt) (rnd : Rnd) (d a : Reg) (b : Src)
  | ffma (h : Head) (f : Fmt) (rnd : Rnd) (d a b c : Reg)
  | fmin (h : Head) (f : Fmt) (d a : Reg) (b : Src)
  | fmax (h : Head) (f : Fmt) (d a : Reg) (b : Src)
  | fcmp (h : Head) (f : Fmt) (cond : Cond) (d : BitVec 3) (a : Reg) (b : Src)
  | fclass (h : Head) (f : Fmt) (d a : Reg)
  | frnd (h : Head) (f : Fmt) (rnd : Rnd) (d a : Reg)
  | fscale (h : Head) (f : Fmt) (rnd : Rnd) (d a : Reg) (b : Src)
  | fexp (h : Head) (f : Fmt) (d a : Reg)
  | cvt (h : Head) (dst src : NumTy) (rnd : Rnd) (sat sr : Bool) (d a : Reg)
  | pack (h : Head) (f : Fmt) (rnd : Rnd) (sat sr : Bool) (d a : Reg) (b : Src)
  | unpk (h : Head) (f : Fmt) (d a b : Reg)
  | hadd2 (h : Head) (f : Fmt) (rnd : Rnd) (d a : Reg) (b : Src)
  | hmul2 (h : Head) (f : Fmt) (rnd : Rnd) (d a : Reg) (b : Src)
  | hfma2 (h : Head) (f : Fmt) (rnd : Rnd) (d a b c : Reg)
  | hmin2 (h : Head) (f : Fmt) (d a : Reg) (b : Src)
  | hmax2 (h : Head) (f : Fmt) (d a : Reg) (b : Src)
  | dot2f (h : Head) (f : Fmt) (rnd : Rnd) (d a b c : Reg)
  | seed (h : Head) (b : Src)
  -- special functions (R145)
  | rcp (h : Head) (d a : Reg)
  | rsq (h : Head) (d a : Reg)
  | sqrt (h : Head) (rnd : Rnd) (d a : Reg)
  | ex2 (h : Head) (d a : Reg)
  | lg2 (h : Head) (d a : Reg)
  | sin (h : Head) (d a : Reg)
  | cos (h : Head) (d a : Reg)
  | sincos (h : Head) (d a : Reg)
  | tanh (h : Head) (d a : Reg)
  | rred (h : Head) (d a : Reg)
  -- cross-lane (R153 to R161); the member mask in c is zero or a scalar
  | shfl (h : Head) (mode : ShflMode) (seg : BitVec 3) (d a : Reg) (b : Src) (c : Reg)
  | pswap (h : Head) (d a c : Reg)
  | reduce (h : Head) (ty : NumTy) (op : RedOp) (d a : Reg) (pc : Option (BitVec 3))
  | scan (h : Head) (ty : NumTy) (op : RedOp) (excl : Bool) (d a : Reg) (pc : Option (BitVec 3))
  | matchLanes (h : Head) (float : Bool) (d a c : Reg)
  | ballot (h : Head) (d : Reg) (a : BitVec 3) (c : Option Reg)
  | elect (h : Head) (d : Reg) (a : BitVec 3)
  | bcast (h : Head) (d a : Reg) (b : Src)
  | firstl (h : Head) (d : Reg) (a : BitVec 3) (c : Reg)
  -- moves and predicates (R149 to R152)
  | mov (h : Head) (d a : Reg)
  | movi (h : Head) (d : Reg) (imm : Word)
  | plop (h : Head) (table : BitVec 8) (d a b c : BitVec 3)
  | p2r (h : Head) (d a : Reg)
  | registerToPredicate (h : Head) (a : Reg) (b : Src)
  | rdsr (h : Head) (d : Reg) (n : BitVec 12)
  | wrsr (h : Head) (n : BitVec 12) (a : Reg)
  -- local memory (R168)
  | ld (h : Head) (o : MemOrd) (w : Width) (sp : Space) (sx : Bool) (d a : Reg) (off : Src)
  | st (h : Head) (o : MemOrd) (w : Width) (sp : Space) (d a : Reg) (off : Src)
  | ldx (h : Head) (o : MemOrd) (w : Width) (sp : Space) (n : BitVec 4) (d a : Reg) (off : Src)
  | stx (h : Head) (o : MemOrd) (w : Width) (sp : Space) (n : BitVec 4) (d a : Reg) (off : Src)
  | atom (h : Head) (o : MemOrd) (w : Width) (sp : Space) (op : AtomOp) (d a : Reg) (off : Src)
  | red (h : Head) (o : MemOrd) (w : Width) (sp : Space) (op : AtomOp) (d a : Reg) (off : Src)
  | cas (h : Head) (o : MemOrd) (w : Width) (sp : Space) (d a b c : Reg)
  | fence (h : Head) (o : MemOrd)
  -- engines (R175, R184 to R190)
  | bcopy (h : Head) (ch : BitVec 4) (dsp ssp : EngSpace) (d a b : Reg) (done : Done)
  | bgath (h : Head) (k : BitVec 3) (dsp ssp : EngSpace) (d a b : Reg) (done : Done)
  | bscat (h : Head) (k : BitVec 3) (dsp ssp : EngSpace) (d a b : Reg) (done : Done)
  | bfill (h : Head) (ch : BitVec 4) (dsp : EngSpace) (d a b : Reg) (done : Done)
  | bred (h : Head) (op : AtomOp) (ch : BitVec 4) (dsp ssp : EngSpace) (d a b : Reg) (done : Done)
  | batom (h : Head) (op : AtomOp) (w64 : Bool) (dsp : EngSpace) (d a b : Reg) (done : Done)
  | bari (h : Head) (a : Reg) (b : Src)
  | barx (h : Head) (a : Reg) (b : Src)
  | bara (h : Head) (a : Reg)
  | barw (h : Head) (a : Reg) (b : Src)
  | bar (h : Head) (a : Reg) (b : Src)
  | cwait (h : Head) (cls : OpClass) (n : BitVec 6)
  | hwait (h : Head) (a : BitVec 4)
  | htest (h : Head) (d : BitVec 3) (a : BitVec 4)
  | hcancel (h : Head) (a : BitVec 4)
  | chwait (h : Head) (ch : BitVec 4) (a : Src)
  -- matrix (R202)
  | obres (h : Head) (f : Fmt) (sp : Sparsity) (blk : BlkLen) (scl : ScaleKind) (d a b : Reg) (base : Option Reg)
  | obrel (h : Head) (a : Reg)
  | obld (h : Head) (d a : Reg) (off : Src)
  | obsc (h : Head) (d a : Reg) (off : Src)
  | mma (h : Head) (at_ bt : Fmt) (pair : Bool) (d a b c : Reg)
  | mmag (h : Head) (at_ bt : Fmt) (pair : Bool) (d a b c : Reg)
  | mmas (h : Head) (at_ bt : Fmt) (pair : Bool) (d a b c : Reg)
  | acca (h : Head) (d a : Reg)
  | accf (h : Head) (a : Reg)
  | accz (h : Head) (a : Reg)
  | accld (h : Head) (f : Fmt) (sp : EngSpace) (d a b : Reg) (done : Option (BitVec 4))
  | accrd (h : Head) (f : Fmt) (d : BitVec 8) (a b : Reg)
  | accst (h : Head) (addOn : Bool) (f : Fmt) (rnd : Rnd) (sat sr : Bool) (sp : EngSpace) (d a b : Reg) (done : Option (BitVec 4))
  | accwr (h : Head) (f : Fmt) (d : Reg) (a : BitVec 8) (b : Reg)
  -- work and collectives (R191 to R201, R322, R329)
  | qtry (h : Head) (d : Reg) (q : BitVec 5) (push : Option Reg) (pc : BitVec 3)
  | qcnt (h : Head) (d : Reg) (q : BitVec 5)
  | tile (h : Head) (nr : Bool) (d : Reg) (pd : BitVec 3)
  | seal (h : Head)
  | pbar (h : Head) (kind : PbarKind) (id : Src)
  | coll (h : Head) (op : CollOp) (red : CollRed) (ty : CollTy) (policy : CollPolicy) (d : BitVec 4) (a b c : Reg)
  | view (h : Head) (d a : Reg)
  | qcfg (h : Head) (q : BitVec 5) (a b c : Reg)
  -- system (R119 to R122)
  | snap (h : Head) (a : Reg)
  | syscall (h : Head) (n : Word)
  | tlbi (h : Head) (a b : Reg)
  | csrr (h : Head) (d : Reg) (n : Word)
  | csrw (h : Head) (n : Word) (a : Reg)
  -- results and engines
  | resultArrival (c : CtxId) (id : Nat)
  | channelOperationBegin (die core ch : Nat)
  | delivery (op : Nat)
  | operationCompletion (op : Nat)
  | formeLoadFinish (op : Nat)
  | productStart (op : Nat)
  | productRetire (op : Nat)
  | accaGrant (die core : Nat)
  | teamReschedule (t : TeamId)
  -- strikes, seals, galley
  | checkpointValid (t : TeamId)
  | galleyRelease (die core : Nat)
  | abortCompletion (t : TeamId) (pa : Nat)
  -- time slices and teams
  | timeSliceEnd (ctx : Nat)
  | waitbudget (ctx : Nat)
  | teamRestore (t : TeamId)
  | teamEnd (t : TeamId)
  -- translation
  | translationWalk (die ctx : Nat) (va : Nat)
  | tlbiAck (die : Nat)
  -- waits and barriers
  | napExpiry (c : CtxId)
  | pbarRelease (id : Nat)
  | wScopeExecution (launch role : Nat)
  -- host link
  | packetConsume (q : Nat)
  | barrierAndSample (q : Nat)
  | placement (q : Nat)
  | gridEnd (launch : Nat)
  -- mailbox commands (R362); their arguments are in ARG0 to ARG13
  | createCtx (seq : BitVec 16)
  | destroyCtx (seq : BitVec 16)
  | createQueue (seq : BitVec 16)
  | destroyQueue (seq : BitVec 16)
  | resume (seq : BitVec 16)
  | kill (seq : BitVec 16)
  | setap (seq : BitVec 16)
  | domainCreate (seq : BitVec 16)
  | domainRejoin (seq : BitVec 16)
  | resync (seq : BitVec 16)
  | attest (seq : BitVec 16)
  | imageWrite (seq : BitVec 16)
  | imageCommit (seq : BitVec 16)
  | reset (seq : BitVec 16)
  -- compositor access port (R374) and queue registers (R373, R375)
  | accessRead (die : Nat) (c : Word)
  | accessWrite (die : Nat) (c : Word)
  | accessAdd (die : Nat) (c : Word)
  | accessExch (die : Nat) (c : Word)
  | accessCas (die : Nat) (c : Word)
  | accessCopy (die : Nat) (c : Word)
  | accessInvalid (die : Nat) (c : Word)
  | qnotl (die : Nat)
  | qrdl (die : Nat) (v : Word)
  | dispatch (die : Nat) (k : Word)
  | done (die : Nat)
  -- control pages (R380 to R394)
  | rstcmd (v : Word)
  | dierstSet (die : Nat)
  | dierstClear (die : Nat)
  | refreshSetup (die : Nat)
  | scrub (die : Nat)
  | defaultCircuits (die : Nat)
  | connValidSet (die n : Nat) (v : Word)
  | connValidClear (die n : Nat) (v : Word)
  | circuitTuned (die n : Nat)
  | tearDownDone (die n : Nat)
  | ringRemoval (die ring : Nat)
  | held (v : Word)
  | dbgtrig (v : Word)
  | exunlk (f : Nat) (v : DWord)
  | registerWrite (f : Nat) (expert : Bool) (off : Nat) (v : Word)
  -- membership and collectives (R330 to R343)
  | heartbeatSend (dom : Nat)
  | heartbeat (dom rank view : Nat) (hold : Bool)
  | suspicion (dom rank : Nat)
  | propose (dom v : Nat) (members : List Nat) (proposer : Nat)
  | ack (dom v rank : Nat) (seq : Word)
  | viewCommit (dom v : Nat) (members : List Nat) (seq : Word)
  | proposeTimeout (dom : Nat)
  | commitTimeout (dom : Nat)
  | messageResend (dom : Nat)
  | joinReq (dom rank : Nat)
  | joinOffer (dom v : Nat) (members : List Nat) (coordinator : Nat)
  | joinAck (dom v rank : Nat)
  | collectiveFlit (dom : Nat) (tag : BitVec 16) (seq sender : Nat) (f : Flit)
  | flitResend (dom : Nat)
  | fin (dom : Nat) (tag : BitVec 16) (seq pos : Nat)
  | confirm (dom : Nat) (tag : BitVec 16) (seq : Nat)
  | requestTimeout (t : TeamId) (pa : Nat)
  -- other steps
  | syscallAnswer (t : TeamId) (role : Nat)
  | dramStepEnd (die : Nat)
  | photonicStepEnd (die : Nat)
  | faultRingEntryFree (ctx : Nat)
  | otherCommandCode (seq code : BitVec 16)
  -- steps that only the outside world brings
  | governorUpdate (watts : BitVec 16) (rate : BitVec 16)
  | strikeReport (die cell : Nat)
  | hostApertureAccess (off : Nat) (acc : HostAccess)
  | linkAtomic (addr : DWord) (op : AtomOp) (value compare : DWord)
  | notify (q : Nat) (bytes : Nat) (value : DWord)
  | singleStep (t : TeamId) (group slice : Nat)
  | bondLaneRepair (die : Nat) (failing : List LaneFault)
  | timingCalibration (die : Nat) (meas : List DelayMeas)
  | refreshRejudge (die : Nat) (temp : BitVec 16)
  | light (die : Nat) (strong : Bool)
  | tune (die : Nat) (heats : List (Nat × BitVec 12))
  | lock (die : Nat) (rings : List Nat)
  | ringLockLoss (die ring : Nat)
  | passcomponenttable (component : BitVec 16)
  | updatecomponent (component : BitVec 16) (size : Nat)
  | requestfirmwaredata (off : Nat) (data : List Byte)
  | transfercomplete (ok : Bool)
  | linkUp (lanes : List LaneTrain) (zeroAt : Nat) (errors : List (List (BitVec 16)))
  -- steps without operands
  | budgetRefill
  | snapshotLatch
  | train
  | linkRetrain
  | flerrs
  | lcdatal
  | counterSave
  | powerGood
  | oscclk
  | stepLimitExpiry
  | querydeviceidentifiers
  | getfirmwareparameters
  | requestupdate
  | verifycomplete
  | applycomplete
  | activatefirmware
  | getstatus
  | cancelupdatecomponent
  | cancelupdate
  | activationTimeout
  | powerLoss
  | linkRetry
  deriving DecidableEq, Repr, Inhabited

end Sys2Proof
end

