-- ==== Sys2Proof/Decode.lean ====
section
/-! DEFINITION. The instruction word (R41 to R65): its fields, the five stages of decode checks in their order (R45), the
instruction a word stands for, and the encoder. -/

namespace Sys2Proof

/-- The fields of R41. `x` is bits [87:56]: IMM32, or the zero bits, C and B. -/
structure Fields where
  op : BitVec 10
  sc : BitVec 3
  gd : BitVec 4
  fm : Bool
  mod : BitVec 16
  d : BitVec 11
  a : BitVec 11
  x : BitVec 32
  la : BitVec 4
  gap : BitVec 3
  yld : Bool
  deriving DecidableEq, Repr, Inhabited

namespace Fields
/-- Operand B of the register form. -/
def b (f : Fields) : BitVec 11 := f.x.extractLsb' 0 11
/-- Operand C of the register form. -/
def c (f : Fields) : BitVec 11 := f.x.extractLsb' 11 11
/-- Bits [87:78], zero in the register form (R43). -/
def z (f : Fields) : BitVec 10 := f.x.extractLsb' 22 10
/-- Bits [hi:lo] of MOD. -/
def m (f : Fields) (hi lo : Nat) : Nat := (f.mod.toNat >>> lo) % 2 ^ (hi - lo + 1)
/-- Bit i of MOD. -/
def mb (f : Fields) (i : Nat) : Bool := f.mod.getLsbD i

/-- The fields of a 96-bit instruction (R41). -/
def ofWord (w : BitVec 96) : Fields where
  op := w.extractLsb' 0 10
  sc := w.extractLsb' 10 3
  gd := w.extractLsb' 13 4
  fm := w.getLsbD 17
  mod := w.extractLsb' 18 16
  d := w.extractLsb' 34 11
  a := w.extractLsb' 45 11
  x := w.extractLsb' 56 32
  la := w.extractLsb' 88 4
  gap := w.extractLsb' 92 3
  yld := w.getLsbD 95

/-- The 96-bit instruction of the fields (R41). -/
def toWord (f : Fields) : BitVec 96 :=
  BitVec.ofBool f.yld ++ f.gap ++ f.la ++ f.x ++ f.a ++ f.d ++ f.mod ++ BitVec.ofBool f.fm ++ f.gd ++ f.sc ++ f.op
end Fields

/-! Register specifiers (R47, R23) -/

/-- The special register of a specifier 0x240 to 0x25C (R23). -/
def specialOf (n : Nat) : Option Special :=
  match n with
  | 0x240 => some .lane | 0x241 => some .slice | 0x242 => some .group | 0x243 => some .team
  | 0x244 => some .pair | 0x245 => some .die | 0x246 => some .role | 0x247 => some .ctx
  | 0x258 => some .clk | 0x259 => some .clkhi | 0x25A => some .ref | 0x25B => some .refhi
  | 0x25C => some .tileinc
  | n => if 0x248 ≤ n ∧ n < 0x258 then some (.cwp (BitVec.ofNat 4 (n - 0x248))) else none

/-- The specifier of a special register (R23). -/
def Special.spec : Special → Nat
  | .lane => 0x240 | .slice => 0x241 | .group => 0x242 | .team => 0x243 | .pair => 0x244 | .die => 0x245
  | .role => 0x246 | .ctx => 0x247 | .cwp n => 0x248 + n.toNat
  | .clk => 0x258 | .clkhi => 0x259 | .ref => 0x25A | .refhi => 0x25B | .tileinc => 0x25C

/-- The register of a specifier; none for a reserved or illegal one (R47). -/
def regOf (s : BitVec 11) : Option Reg :=
  let n := s.toNat
  if n < 0x100 then some (.v (BitVec.ofNat 8 n))
  else if n < 0x140 then some (.g (BitVec.ofNat 6 (n - 0x100)))
  else if n < 0x1C0 then some (.t (BitVec.ofNat 7 (n - 0x140)))
  else if n < 0x1E0 then some (.w (BitVec.ofNat 5 (n - 0x1C0)))
  else if n < 0x1E8 then some (.p (BitVec.ofNat 3 (n - 0x1E0)))
  else if n < 0x1EC then some (.lc (BitVec.ofNat 2 (n - 0x1E8)))
  else if n < 0x1F0 then none
  else if n < 0x200 then some (.h (BitVec.ofNat 4 (n - 0x1F0)))
  else if n < 0x220 then some (.q (BitVec.ofNat 5 (n - 0x200)))
  else if n = 0x220 then some .zero
  else (specialOf n).map .sp

/-- The specifier of a register (R47). -/
def Reg.spec (r : Reg) : BitVec 11 :=
  BitVec.ofNat 11 (match r with
    | .v n => n.toNat | .g n => 0x100 + n.toNat | .t n => 0x140 + n.toNat | .w n => 0x1C0 + n.toNat
    | .p n => 0x1E0 + n.toNat | .lc n => 0x1E8 + n.toNat | .h n => 0x1F0 + n.toNat | .q n => 0x200 + n.toNat
    | .zero => 0x220 | .sp s => s.spec)

/-! Codes of MOD fields (R53 to R62) -/

/-- SC codes (R41). -/
def Scope.code : Scope → Nat
  | .L => 0 | .S => 1 | .G => 2 | .T => 3 | .W => 4
def scopeOf (n : Nat) : Option Scope :=
  match n with
  | 0 => some .L | 1 => some .S | 2 => some .G | 3 => some .T | 4 => some .W | _ => none

/-- Integer type codes (R53). -/
def IntTy.code : IntTy → Nat
  | .i32 => 0 | .n32 => 1 | .i16 => 2 | .n16 => 3 | .i8 => 4 | .n8 => 5 | .i64 => 6 | .n64 => 7
def intTyOf (n : Nat) : Option IntTy :=
  match n with
  | 0 => some .i32 | 1 => some .n32 | 2 => some .i16 | 3 => some .n16 | 4 => some .i8 | 5 => some .n8
  | 6 => some .i64 | 7 => some .n64 | _ => none

/-- Format codes (R53); a b8 format has code 14. -/
def Fmt.code : Fmt → Nat
  | .f32 => 8 | .bf16 => 9 | .f16 => 10 | .e4m3 => 11 | .e5m2 => 12 | .e2m1 => 13 | .b8 _ => 14
/-- The b8 parameters in MOD[10:6] (R53). -/
def B8.bits (k : B8) : Nat := k.p.toNat + 8 * k.natural.toNat + 16 * k.finite.toNat
def b8Of (n : Nat) : B8 := ⟨BitVec.ofNat 3 n, n.testBit 3, n.testBit 4⟩
def Fmt.b8bits : Fmt → Nat
  | .b8 k => k.bits
  | _ => 0
/-- The format of a type code, with the b8 parameters of a code 14. -/
def fmtOf (n b8 : Nat) : Option Fmt :=
  match n with
  | 8 => some .f32 | 9 => some .bf16 | 10 => some .f16 | 11 => some .e4m3 | 12 => some .e5m2
  | 13 => some .e2m1 | 14 => some (.b8 (b8Of b8)) | _ => none

def NumTy.code : NumTy → Nat
  | .int t => t.code
  | .flt f => f.code
def numTyOf (n : Nat) : Option NumTy := ((intTyOf n).map .int) <|> ((fmtOf n 0).map .flt)

/-- Bits of an integer type. -/
def IntTy.width : IntTy → Nat
  | .i32 | .n32 => 32 | .i16 | .n16 => 16 | .i8 | .n8 => 8 | .i64 | .n64 => 64
def IntTy.signed : IntTy → Bool
  | .i32 | .i16 | .i8 | .i64 => true
  | .n32 | .n16 | .n8 | .n64 => false
/-- Registers that an operand of a type code takes (R14). -/
def words (code : Nat) : Nat := if code = 6 ∨ code = 7 then 2 else 1
def IntTy.words (t : IntTy) : Nat := Sys2Proof.words t.code

def Rnd.code : Rnd → Nat
  | .rne => 0 | .rz => 1 | .rd => 2 | .ru => 3
def rndOf (n : Nat) : Rnd := match n with | 0 => .rne | 1 => .rz | 2 => .rd | _ => .ru

def Cond.code : Cond → Nat
  | .eq => 0 | .ne => 1 | .lt => 2 | .le => 3 | .gt => 4 | .ge => 5 | .num => 6 | .nan => 7 | .equ => 8
  | .neu => 9 | .ltu => 10 | .leu => 11 | .gtu => 12 | .geu => 13
def condOf (n : Nat) : Option Cond :=
  match n with
  | 0 => some .eq | 1 => some .ne | 2 => some .lt | 3 => some .le | 4 => some .gt | 5 => some .ge
  | 6 => some .num | 7 => some .nan | 8 => some .equ | 9 => some .neu | 10 => some .ltu | 11 => some .leu
  | 12 => some .gtu | 13 => some .geu | _ => none

def RedOp.code : RedOp → Nat
  | .add => 0 | .min => 1 | .max => 2 | .and => 3 | .or => 4 | .xor => 5
def redOpOf (n : Nat) : Option RedOp :=
  match n with
  | 0 => some .add | 1 => some .min | 2 => some .max | 3 => some .and | 4 => some .or | 5 => some .xor | _ => none

def ShflMode.code : ShflMode → Nat
  | .get => 0 | .rot => 1 | .rev => 2 | .spr => 3
def shflOf (n : Nat) : ShflMode := match n with | 0 => .get | 1 => .rot | 2 => .rev | _ => .spr

def Space.code : Space → Nat
  | .sh => 0 | .pp => 1 | .dz => 2 | .pv => 3
def spaceOf (n : Nat) : Option Space :=
  match n with
  | 0 => some .sh | 1 => some .pp | 2 => some .dz | 3 => some .pv | _ => none
def EngSpace.code : EngSpace → Nat
  | .sh => 0 | .pp => 1 | .dz => 2 | .mem => 4
def engSpaceOf (n : Nat) : Option EngSpace :=
  match n with
  | 0 => some .sh | 1 => some .pp | 2 => some .dz | 4 => some .mem | _ => none

def Width.code : Width → Nat
  | .w8 => 0 | .w16 => 1 | .w32 => 2 | .w64 => 3 | .w128 => 4
def widthOf (n : Nat) : Option Width :=
  match n with
  | 0 => some .w8 | 1 => some .w16 | 2 => some .w32 | 3 => some .w64 | 4 => some .w128 | _ => none
/-- Bytes of an access. -/
def Width.bytes : Width → Nat
  | .w8 => 1 | .w16 => 2 | .w32 => 4 | .w64 => 8 | .w128 => 16
/-- Registers of an access (R57). -/
def Width.words : Width → Nat
  | .w8 | .w16 | .w32 => 1 | .w64 => 2 | .w128 => 4

def MemOrder.code : MemOrder → Nat
  | .rlx => 0 | .acq => 1 | .rel => 2 | .ar => 3
def memOrderOf (n : Nat) : MemOrder := match n with | 0 => .rlx | 1 => .acq | 2 => .rel | _ => .ar
def MemScope.code : MemScope → Nat
  | .slice => 0 | .group => 1 | .team => 2 | .pair => 3 | .die => 4 | .package => 5 | .system => 6
def memScopeOf (n : Nat) : Option MemScope :=
  match n with
  | 0 => some .slice | 1 => some .group | 2 => some .team | 3 => some .pair | 4 => some .die
  | 5 => some .package | 6 => some .system | _ => none

def AtomOp.code : AtomOp → Nat
  | .add => 0 | .smin => 1 | .smax => 2 | .umin => 3 | .umax => 4 | .and => 5 | .or => 6 | .xor => 7
  | .exch => 8 | .fadd => 9 | .fmin => 10 | .fmax => 11 | .hadd2 => 12 | .incw => 13 | .decw => 14 | .cas => 15
def atomOpOf (n : Nat) : AtomOp :=
  match n with
  | 0 => .add | 1 => .smin | 2 => .smax | 3 => .umin | 4 => .umax | 5 => .and | 6 => .or | 7 => .xor
  | 8 => .exch | 9 => .fadd | 10 => .fmin | 11 => .fmax | 12 => .hadd2 | 13 => .incw | 14 => .decw | _ => .cas

def VoteKind.code : VoteKind → Nat
  | .every => 0 | .none => 1 | .split => 2 | .maj => 3
def voteOf (n : Nat) : VoteKind := match n with | 0 => .every | 1 => .none | 2 => .split | _ => .maj
def OpClass.code : OpClass → Nat
  | .copy => 0 | .gather => 1 | .matrix => 2 | .coll => 3
def opClassOf (n : Nat) : OpClass := match n with | 0 => .copy | 1 => .gather | 2 => .matrix | _ => .coll
def PbarKind.code : PbarKind → Nat
  | .arrive => 0 | .wait => 1 | .sync => 2
def pbarOf (n : Nat) : Option PbarKind :=
  match n with
  | 0 => some .arrive | 1 => some .wait | 2 => some .sync | _ => none
def CollOp.code : CollOp → Nat
  | .allred => 0 | .redscat => 1 | .allgath => 2 | .alltoall => 3 | .bcast => 4
def collOpOf (n : Nat) : Option CollOp :=
  match n with
  | 0 => some .allred | 1 => some .redscat | 2 => some .allgath | 3 => some .alltoall | 4 => some .bcast | _ => none
def CollRed.code : CollRed → Nat
  | .add => 0 | .min => 1 | .max => 2 | .avg => 3
def collRedOf (n : Nat) : CollRed := match n with | 0 => .add | 1 => .min | 2 => .max | _ => .avg
def CollTy.code : CollTy → Nat
  | .f32 => 0 | .bf16 => 1 | .i32 => 2
def collTyOf (n : Nat) : Option CollTy :=
  match n with
  | 0 => some .f32 | 1 => some .bf16 | 2 => some .i32 | _ => none
def CollPolicy.code : CollPolicy → Nat
  | .restart => 0 | .reweight => 1 | .abort => 2
def collPolicyOf (n : Nat) : Option CollPolicy :=
  match n with
  | 0 => some .restart | 1 => some .reweight | 2 => some .abort | _ => none
def Sparsity.code : Sparsity → Nat
  | .dense => 0 | .sp4 => 1 | .sp2 => 2
def sparsOf (n : Nat) : Option Sparsity :=
  match n with
  | 0 => some .dense | 1 => some .sp4 | 2 => some .sp2 | _ => none
def BlkLen.code : BlkLen → Nat
  | .none => 0 | .k16 => 1 | .k32 => 2 | .k64 => 3
def blkOf (n : Nat) : BlkLen := match n with | 0 => .none | 1 => .k16 | 2 => .k32 | _ => .k64
def ScaleKind.code : ScaleKind → Nat
  | .none => 0 | .e8m0 => 1 | .ds4 => 2
def sclOf (n : Nat) : Option ScaleKind :=
  match n with
  | 0 => some .none | 1 => some .e8m0 | 2 => some .ds4 | _ => none

/-! The opcode table (R63, R64): scopes, forms, MOD layout and operand kinds -/

/-- What an operand field must hold (R43, and the operand tables of the instruction chapters). -/
inductive Kind
  /-- 0x000 -/
  | none
  /-- a source of n registers; queue registers allowed or not (R126) -/
  | src (n : Nat) (queue : Bool)
  /-- a source of n registers that stands in D, where no handle may (R18) -/
  | data (n : Nat) (queue : Bool)
  /-- a destination of n registers -/
  | dst (n : Nat) (queue : Bool)
  /-- the destination of MOV, which may be a handle when A is one (R149) -/
  | mov (handle : Bool)
  /-- a predicate, written when `w` -/
  | pred (w : Bool)
  /-- a condition predicate of BR and BRX, or 0x000 (R91) -/
  | cond
  /-- a loop counter of the instruction's scope -/
  | lc
  /-- a handle; written when `w` -/
  | hand (w : Bool)
  /-- 0x000, `zero` or a handle (R202) -/
  | handOpt
  /-- a register with the address of a barrier object, or `zero` (R175) -/
  | barrier
  /-- a queue register -/
  | queue
  /-- n lane registers of the role's lanes, named at an upper scope; aligned when `even` (R161, R224) or not (R110) -/
  | lanes (n : Nat) (even : Bool)
  /-- `zero`, or a `g`, `t` or `w` register (R154) -/
  | mask
  /-- a `g`, `t` or `w` register (R203) -/
  | base
  /-- four scalars starting at a multiple of 4 (R215) -/
  | quad
  /-- four `t` registers starting at a multiple of 4 (R322) -/
  | tquad
  /-- an even register of the instruction's scope (R219) -/
  | own2
  /-- the first of three consecutive registers: `t0` to `t125` at T scope, lane registers at L scope (R197, R329) -/
  | three
  /-- `zero` or an even `t` register (R191) -/
  | tpair
  /-- a `w` register or `zero`, written (R91) -/
  | wreg
  /-- the destination of RDSR: a loop counter at S scope (R152) -/
  | rd
  /-- an even `w` register (R91) -/
  | wpair
  /-- n registers from a multiple of k (R170) -/
  | range (n k : Nat) (w : Bool)
  /-- a status register number in IMM32 (R65); written when `w` -/
  | status (w : Bool)
  deriving DecidableEq, Repr

/-- The forms of R64. -/
inductive Form | r | i | ri
  deriving DecidableEq, Repr

/-- What R64 and the operand tables say of one opcode, for the fields at hand. -/
structure Row where
  scopes : List Scope
  form : Form
  modOk : Bool
  d : Kind := .none
  a : Kind := .none
  b : Kind := .none
  c : Kind := .none

section rows
variable (f : Fields)

/-- MOD[14:0] is zero. -/
def modZero : Bool := f.m 14 0 == 0
/-- The arithmetic layout (R54, R55): types, rounding, SAT, and which of the bits [14:7] may be set. -/
def arith (tys : List Nat) (rnd sat : Bool) (cls : Nat) : Bool :=
  tys.contains (f.m 3 0) && (rnd || f.m 5 4 == 0) && (sat || f.m 6 6 == 0) && (f.m 14 7 &&& (0xFF ^^^ cls)) == 0

def scAll : List Scope := [.L, .S, .G, .T, .W]
def scUp : List Scope := [.S, .G, .T, .W]
def scLGT : List Scope := [.L, .G, .T]
def scGT : List Scope := [.G, .T]
def scSGT : List Scope := [.S, .G, .T]

/-- The control layout of BR and BRX: CSCOPE not above SC, CNEG, and no condition with either (R59, R91). -/
def brOk : Bool :=
  f.m 14 4 == 0 && f.m 2 0 ≤ 4 && f.m 2 0 ≤ f.sc.toNat && (f.a != 0 || f.m 3 0 == 0)

/-- Control (R64, R91). -/
def controlRow : Nat → Option Row
  | 0x000 => some { scopes := scAll, form := .r, modOk := modZero f }
  | 0x001 => some { scopes := scAll, form := .i, modOk := modZero f }
  | 0x002 => some { scopes := scAll, form := .i, modOk := brOk f, a := .cond }
  | 0x003 => some { scopes := scUp, form := .r, modOk := brOk f, a := .cond, b := .src 1 true }
  | 0x004 => some { scopes := scUp, form := .i, modOk := modZero f }
  | 0x005 => some { scopes := scUp, form := .r, modOk := modZero f, b := .src 1 true }
  | 0x006 => some { scopes := scUp, form := .r, modOk := modZero f }
  | 0x007 => some { scopes := scUp, form := .ri, modOk := modZero f, d := .lc, a := if f.fm then .none else .src 1 true }
  | 0x008 => some { scopes := scUp, form := .i, modOk := modZero f, d := .lc }
  | 0x009 => some { scopes := [.S], form := .i, modOk := modZero f }
  | 0x00A => some { scopes := [.S], form := .r, modOk := modZero f }
  | 0x00B => some { scopes := [.L, .S, .G, .T], form := .r, modOk := modZero f }
  | 0x00C => some {
      scopes := scUp, form := .r, modOk := f.m 14 6 == 0 && f.m 2 0 ≤ 4 && f.m 2 0 ≤ f.sc.toNat,
      d := .pred true, a := .pred false }
  | 0x00D => some { scopes := [.L], form := .r, modOk := modZero f, a := .lanes 3 false }
  | 0x00E => some { scopes := [.L, .S, .G, .T], form := .i, modOk := modZero f }
  | 0x00F => some { scopes := scAll, form := .r, modOk := modZero f }
  | 0x010 => some { scopes := [.T], form := .r, modOk := modZero f }
  | 0x011 => some { scopes := scSGT, form := .ri, modOk := modZero f, a := if f.fm then .none else .src 1 true }
  | _ => none

def ty4 : List Nat := [0, 1, 6, 7]
/-- Registers of an operand of the instruction's type. -/
def tw : Nat := words (f.m 3 0)

/-- Integer (R64, R128). -/
def integerRow : Nat → Option Row
  | 0x040 | 0x041 | 0x044 => some {
      scopes := scAll, form := .ri, modOk := arith f ty4 false true 0,
      d := .dst (tw f) true, a := .src (tw f) true, b := .src (tw f) true }
  | 0x042 | 0x043 => some {
      scopes := scAll, form := .r, modOk := arith f [0, 1] false false 0,
      d := .dst 1 true, a := .src 1 true, b := .src 1 true, c := .pred true }
  | 0x045 => some {
      scopes := scAll, form := .ri, modOk := arith f [0, 1] false false 0,
      d := .dst 1 true, a := .src 1 true, b := .src 1 true }
  | 0x046 => some {
      scopes := scAll, form := .r, modOk := arith f [0, 1] false true 0,
      d := .dst 1 true, a := .src 1 true, b := .src 1 true, c := .src 1 true }
  | 0x047 => some {
      scopes := scAll, form := .r, modOk := arith f [0, 1] false false 0,
      d := .dst 2 true, a := .src 1 true, b := .src 1 true, c := .src 2 true }
  | 0x048 | 0x049 | 0x04C | 0x04D | 0x04E | 0x050 => some {
      scopes := scAll, form := .ri,
      modOk := arith f ty4 false false 0, d := .dst (tw f) true, a := .src (tw f) true, b := .src (tw f) true }
  | 0x04A | 0x04B => some {
      scopes := scAll, form := .r, modOk := arith f [0, 6] false true 0,
      d := .dst (tw f) true, a := .src (tw f) true }
  | 0x04F => some {
      scopes := scAll, form := .r, modOk := arith f ty4 false false 0,
      d := .dst (tw f) true, a := .src (tw f) true }
  | 0x051 | 0x052 | 0x053 => some {
      scopes := scAll, form := .ri, modOk := arith f ty4 false false 0,
      d := .dst (tw f) true, a := .src (tw f) true, b := .src 1 true }
  | 0x054 => some {
      scopes := scAll, form := .r, modOk := arith f [1] false false 0x01,
      d := .dst 1 true, a := .src 1 true, b := .src 1 true, c := .src 1 true }
  | 0x055 => some {
      scopes := scAll, form := .ri, modOk := arith f [1, 7] false false 0,
      d := .dst (tw f) true, a := .src (tw f) true, b := .src 1 true }
  | 0x056 => some {
      scopes := scAll, form := .r, modOk := arith f [0, 1] false false 0,
      d := .dst 1 true, a := .src 1 true, b := .src 1 true, c := .src 1 true }
  | 0x057 | 0x05B => some {
      scopes := scAll, form := .r, modOk := arith f [1] false false 0,
      d := .dst 1 true, a := .src 1 true, b := .src 1 true, c := .src 1 true }
  | 0x058 | 0x059 | 0x05A => some {
      scopes := scAll, form := .r, modOk := arith f [1] false false 0,
      d := .dst 1 true, a := .src 1 true }
  | 0x05C => some {
      scopes := scAll, form := .r, modOk := arith f ty4 false false 0,
      d := .dst (tw f) true, a := .src (tw f) true, b := .src (tw f) true, c := .pred false }
  | 0x05D => some {
      scopes := scAll, form := .ri, modOk := arith f ty4 false false 0x0F && f.m 10 7 ≤ 5,
      d := .pred true, a := .src (tw f) true, b := .src (tw f) true }
  | 0x05E => some {
      scopes := scAll, form := .ri, modOk := arith f [1, 7] false false 0x07,
      d := .dst (tw f) true, a := .src (tw f) true, b := .src 1 true }
  | 0x05F => some {
      scopes := scAll, form := .r, modOk := arith f [4, 5] false true 0,
      d := .dst 1 true, a := .src 1 true, b := .src 1 true, c := .src 1 true }
  | 0x060 => some {
      scopes := scAll, form := .r, modOk := arith f [2, 3] false true 0,
      d := .dst 1 true, a := .src 1 true, b := .src 1 true, c := .src 1 true }
  | 0x061 => some {
      scopes := scAll, form := .r, modOk := arith f [0, 1, 4, 5] false true 0,
      d := .dst 1 true, a := .src 1 true, b := .src 1 true, c := .src 1 true }
  | 0x062 => some {
      scopes := scAll, form := .r, modOk := arith f ty4 false false 0,
      d := .dst (tw f) true, a := .src (tw f) true, b := .src (tw f) true, c := .src (tw f) true }
  | _ => none

def fty3 : List Nat := [8, 9, 10]
/-- IMM32[31:16] is zero in the scalar 16-bit forms (R124). -/
def imm16Ok : Bool := !(f.fm && (f.m 3 0 == 9 || f.m 3 0 == 10)) || f.x.toNat < 65536
/-- SR of CVT and PACK: RND 0, L scope, a destination of R83. -/
def srOk (sr : Bool) : Bool :=
  !sr || (f.m 5 4 == 0 && f.sc == 0 && [9, 10, 11, 12, 13, 14].contains (f.m 3 0))
/-- The b8 parameters in MOD[10:6] of type 14 (R53). -/
def b8Ok : Bool := f.m 8 6 != 0
/-- PACK: with type 14 SAT is MOD[11] and SR MOD[12] (R55). -/
def packOk : Bool :=
  if f.m 3 0 = 14 then b8Ok f && f.m 14 13 == 0 && srOk f (f.mb 12)
  else arith f [9, 10, 11, 12, 13] true true 0x01 && srOk f (f.mb 7)
/-- UNPK neither rounds nor saturates (R55). -/
def unpkOk : Bool :=
  if f.m 3 0 = 14 then b8Ok f && f.m 14 11 == 0 && f.m 5 4 == 0
  else arith f [9, 10, 11, 12, 13] false false 0

/-- Floating point (R64, R136). -/
def floatRow : Nat → Option Row
  | 0x100 | 0x101 | 0x102 => some {
      scopes := scAll, form := .ri, modOk := arith f fty3 true false 0 && imm16Ok f,
      d := .dst 1 true, a := .src 1 true, b := .src 1 true }
  | 0x103 => some {
      scopes := scAll, form := .r, modOk := arith f fty3 true false 0,
      d := .dst 1 true, a := .src 1 true, b := .src 1 true, c := .src 1 true }
  | 0x104 | 0x105 => some {
      scopes := scAll, form := .ri, modOk := arith f fty3 false false 0 && imm16Ok f,
      d := .dst 1 true, a := .src 1 true, b := .src 1 true }
  | 0x106 => some {
      scopes := scAll, form := .ri,
      modOk := arith f fty3 false false 0x0F && f.m 10 7 ≤ 13 && imm16Ok f,
      d := .pred true, a := .src 1 true, b := .src 1 true }
  | 0x107 | 0x10A => some {
      scopes := scAll, form := .r, modOk := arith f fty3 false false 0,
      d := .dst 1 true, a := .src 1 true }
  | 0x108 => some { scopes := scAll, form := .r, modOk := arith f fty3 true false 0, d := .dst 1 true, a := .src 1 true }
  | 0x109 => some {
      scopes := scAll, form := .ri, modOk := arith f fty3 true false 0,
      d := .dst 1 true, a := .src 1 true, b := .src 1 true }
  | 0x10B => some {
      scopes := scAll, form := .r,
      modOk := f.m 3 0 ≤ 13 && f.m 14 11 ≤ 13 && f.m 10 8 == 0 && srOk f (f.mb 7),
      d := .dst (tw f) true, a := .src (words (f.m 14 11)) true }
  | 0x10C => some { scopes := scAll, form := .ri, modOk := packOk f, d := .dst 1 true, a := .src 1 true, b := .src 1 true }
  | 0x10D => some { scopes := scAll, form := .r, modOk := unpkOk f, d := .dst 2 true, a := .src 1 true, b := .src 1 true }
  | 0x10E | 0x10F => some {
      scopes := scAll, form := .ri, modOk := arith f [9, 10] true false 0,
      d := .dst 1 true, a := .src 1 true, b := .src 1 true }
  | 0x110 | 0x113 => some {
      scopes := scAll, form := .r, modOk := arith f [9, 10] true false 0,
      d := .dst 1 true, a := .src 1 true, b := .src 1 true, c := .src 1 true }
  | 0x111 | 0x112 => some {
      scopes := scAll, form := .ri, modOk := arith f [9, 10] false false 0,
      d := .dst 1 true, a := .src 1 true, b := .src 1 true }
  | 0x114 => some { scopes := [.L], form := .ri, modOk := modZero f, b := .src 1 true }
  | _ => none

/-- Special functions (R64, R145). -/
def sfuRow : Nat → Option Row
  | 0x140 | 0x141 | 0x143 | 0x144 | 0x145 | 0x146 | 0x148 => some {
      scopes := scLGT, form := .r,
      modOk := arith f [8] false false 0, d := .dst 1 false, a := .src 1 false }
  | 0x142 => some { scopes := scLGT, form := .r, modOk := arith f [8] true false 0, d := .dst 1 false, a := .src 1 false }
  | 0x147 | 0x149 => some {
      scopes := scLGT, form := .r, modOk := arith f [8] false false 0,
      d := .dst 2 false, a := .src 1 false }
  | _ => none

/-- The lane operand A of a cross-lane instruction: an ordinary source at L scope, a lane register above. DEDUCED, log 136, unsafe. -/
def crossA : Kind := if f.sc = 0 then .src 1 false else .lanes 1 true
/-- REDUCE and SCAN: types i32, n32 and f32, no bitwise operation on f32, PO with C (R157, R158). -/
def reduceOk (excl : Bool) : Bool :=
  arith f [0, 1, 8] false false (if excl then 0x1F else 0x17) && f.m 9 7 ≤ 5 && !(f.m 3 0 == 8 && 3 ≤ f.m 9 7)

/-- Cross-lane (R64, R153 to R161). `FIRSTL` takes type code 0 alone. DEDUCED, log 152, unsafe. -/
def crossRow : Nat → Option Row
  | 0x180 => some {
      scopes := [.L], form := .ri, modOk := arith f [0] false false 0x1F && f.m 11 9 ≤ 5,
      d := .dst 1 false, a := .src 1 false, b := .src 1 false, c := .mask }
  | 0x181 => some {
      scopes := [.L], form := .r, modOk := arith f [8] false false 0,
      d := .dst 1 false, a := .src 1 false, c := .mask }
  | 0x182 => some {
      scopes := scLGT, form := .r, modOk := reduceOk f false,
      d := .dst 1 false, a := crossA f, c := if f.mb 11 then .pred true else .none }
  | 0x183 => some {
      scopes := [.L], form := .r, modOk := reduceOk f true,
      d := .dst 1 false, a := .src 1 false, c := if f.mb 11 then .pred true else .none }
  | 0x184 => some {
      scopes := [.L], form := .r,
      modOk := arith f [0, 8] false false 0x01 && (f.m 3 0 == 8) == f.mb 7,
      d := .dst 1 false, a := .src 1 false, c := .mask }
  | 0x185 => some {
      scopes := [.L, .G], form := .r, modOk := arith f [0] false false 0,
      d := .dst 1 false, a := .pred false, c := if f.sc = 0 then .mask else .none }
  | 0x186 => some { scopes := scGT, form := .r, modOk := arith f [0] false false 0, d := .dst 1 false, a := .pred false }
  | 0x187 => some {
      scopes := scGT, form := .ri, modOk := arith f [0] false false 0,
      d := .dst 1 false, a := .lanes 1 true, b := .src 1 false }
  | 0x188 => some {
      scopes := [.L], form := .r, modOk := arith f [0] false false 0,
      d := .dst 1 false, a := .pred false, c := .mask }
  | _ => none

/-- Whether a specifier names a handle. -/
def isHandle (s : BitVec 11) : Bool := 0x1F0 ≤ s.toNat && s.toNat < 0x200

/-- Moves and predicates (R64, R149 to R152). -/
def moveRow : Nat → Option Row
  | 0x1C0 => some { scopes := scAll, form := .r, modOk := modZero f, d := .mov (isHandle f.a), a := .src 1 true }
  | 0x1C1 => some { scopes := scAll, form := .i, modOk := modZero f, d := .dst 1 true }
  | 0x1C2 => some {
      scopes := scAll, form := .r, modOk := f.m 6 0 == 0,
      d := .pred true, a := .pred false, b := .pred false, c := .pred false }
  | 0x1C3 => some { scopes := scAll, form := .r, modOk := modZero f, d := .dst 1 true, a := .src 1 true }
  | 0x1C4 => some { scopes := scAll, form := .ri, modOk := modZero f, a := .src 1 true, b := .src 1 true }
  | 0x1C5 => some { scopes := scUp, form := .i, modOk := modZero f && f.x.toNat < 4096, d := .rd, b := .status false }
  | 0x1C6 => some { scopes := scGT, form := .i, modOk := modZero f && f.x.toNat < 4096, a := .src 1 true, b := .status true }
  | _ => none

/-- Words of a WIDTH code. -/
def widthWords (n : Nat) : Nat := match n with | 3 => 2 | 4 => 4 | _ => 1
/-- The memory layout (R57): `st` stores only, `lds` loads only, `atm` for atomics. -/
def memOk (ld st atm multi : Bool) : Bool :=
  f.m 10 8 ≤ 6 && f.m 5 3 ≤ 4 && f.m 2 0 ≤ 3
    && !(st && (f.m 7 6 == 1 || f.m 7 6 == 3)) && !(ld && (f.m 7 6 == 2 || f.m 7 6 == 3))
    && !((ld || (st && !atm)) && f.m 7 6 == 0 && f.m 10 8 != 0)
    && !((atm || multi) && f.m 2 0 == 3) && !(f.m 2 0 == 3 && f.sc != 0)
    && !(atm && !(f.m 5 3 == 2 || f.m 5 3 == 3)) && !(multi && f.m 5 3 < 2)
/-- Code 15 is CAS, for BATOM only; a code of R58 marked 32 needs width 32. -/
def atomOk : Bool := f.m 14 11 != 15 && !(f.m 5 3 == 3 && 9 ≤ f.m 14 11 && f.m 14 11 ≤ 12)

/-- Local memory (R64, R168). DEDUCED, log 122, unsafe. -/
def memoryRow : Nat → Option Row
  | 0x200 => some {
      scopes := scLGT, form := .ri, modOk := memOk f true false false false && f.m 14 12 == 0,
      d := .dst (widthWords (f.m 5 3)) true, a := .src 1 true, b := .src 1 true }
  | 0x201 => some {
      scopes := scLGT, form := .ri, modOk := memOk f false true false false && f.m 14 11 == 0,
      d := .data (widthWords (f.m 5 3)) true, a := .src 1 true, b := .src 1 true }
  | 0x202 => some {
      scopes := scLGT, form := .ri,
      modOk := memOk f true false false true && (f.m 14 11 + 1) % widthWords (f.m 5 3) == 0,
      d := .range (f.m 14 11 + 1) (widthWords (f.m 5 3)) true, a := .src 1 true, b := .src 1 true }
  | 0x203 => some {
      scopes := scLGT, form := .ri,
      modOk := memOk f false true false true && (f.m 14 11 + 1) % widthWords (f.m 5 3) == 0,
      d := .range (f.m 14 11 + 1) (widthWords (f.m 5 3)) false, a := .src 1 true, b := .src 1 true }
  | 0x204 => some {
      scopes := scLGT, form := .ri, modOk := memOk f false false true false && atomOk f,
      d := .dst (widthWords (f.m 5 3)) true, a := .src 1 true, b := .src 1 true }
  | 0x205 => some {
      scopes := scLGT, form := .ri, modOk := memOk f false true true false && atomOk f,
      d := .data (widthWords (f.m 5 3)) true, a := .src 1 true, b := .src 1 true }
  | 0x206 => some {
      scopes := scLGT, form := .r, modOk := memOk f false false true false && f.m 14 11 == 0,
      d := .dst (widthWords (f.m 5 3)) true, a := .src 1 true, b := .src 1 true, c := .src (widthWords (f.m 5 3)) true }
  | 0x207 => some {
      scopes := [.L, .S, .G, .T], form := .r,
      modOk := f.m 14 11 == 0 && f.m 10 8 ≤ 6 && f.m 7 6 != 0 && f.m 5 0 == 0 }
  | _ => none

/-- A space code of the engine layout (R60). -/
def engSpOk (n : Nat) : Bool := n ≤ 2 || n == 4
/-- The registers that an engine operand of a space takes (R165). -/
def engWords (n : Nat) : Nat := if n = 4 then 2 else 1
/-- The completion target in C (R175). -/
def doneKind : Kind := if f.mb 10 then .hand true else .barrier

/-- Engines and barriers (R64, R175, R184 to R190). -/
def engineRow : Nat → Option Row
  | 0x280 => some {
      scopes := scGT, form := .r, modOk := f.m 14 11 == 0 && engSpOk (f.m 9 7) && engSpOk (f.m 6 4),
      d := .data (engWords (f.m 6 4)) true, a := .src (engWords (f.m 9 7)) true, b := .src 1 true, c := doneKind f }
  | 0x281 | 0x282 => some {
      scopes := scGT, form := .r,
      modOk := f.m 14 14 == 0 && f.m 13 11 ≤ 5 && engSpOk (f.m 9 7) && engSpOk (f.m 6 4) && f.m 3 0 == 0,
      d := .data (engWords (f.m 6 4)) true, a := .src (engWords (f.m 9 7)) true, b := .src 2 true, c := doneKind f }
  | 0x283 => some {
      scopes := scGT, form := .r, modOk := f.m 14 11 == 0 && f.m 9 7 == 0 && engSpOk (f.m 6 4),
      d := .data (engWords (f.m 6 4)) true, a := .src 1 true, b := .src 1 true, c := doneKind f }
  | 0x284 => some {
      scopes := scGT, form := .r,
      modOk := !([8, 13, 14, 15].contains (f.m 14 11)) && engSpOk (f.m 9 7) && engSpOk (f.m 6 4),
      d := .data (engWords (f.m 6 4)) true, a := .src (engWords (f.m 9 7)) true, b := .src 1 true, c := doneKind f }
  | 0x285 => some {
      scopes := scGT, form := .r,
      modOk := f.m 9 7 == 0 && engSpOk (f.m 6 4) && f.m 3 1 == 0 && !(f.mb 0 && 9 ≤ f.m 14 11 && f.m 14 11 ≤ 12),
      d := .data 1 true, a := .src (engWords (f.m 6 4)) true, b := .src (if f.mb 0 then 2 else 1) true, c := doneKind f }
  | 0x286 | 0x287 | 0x289 => some { scopes := scGT, form := .ri, modOk := modZero f, a := .src 1 true, b := .src 1 true }
  | 0x288 => some { scopes := scGT, form := .r, modOk := modZero f, a := .src 1 true }
  | 0x28A => some { scopes := scLGT, form := .ri, modOk := modZero f, a := .src 1 true, b := .src 1 true }
  | 0x28B => some { scopes := scSGT, form := .i, modOk := f.m 14 2 == 0 && f.x.toNat ≤ 63 }
  | 0x28C | 0x28E => some { scopes := scSGT, form := .r, modOk := modZero f, a := .hand false }
  | 0x28D => some { scopes := scSGT, form := .r, modOk := modZero f, d := .pred true, a := .hand false }
  | 0x28F => some { scopes := scSGT, form := .ri, modOk := f.m 14 4 == 0, b := .src 1 true }
  | _ => none

/-- Width class of a format code (R76). -/
def widthClass (n : Nat) : Nat := match n with | 9 | 10 => 16 | 11 | 12 | 14 => 8 | 13 => 4 | _ => 0
/-- MMA, MMAG and MMAS: formats of one width class (R203). -/
def mmaOk : Bool :=
  f.m 10 5 == 0 && [9, 10, 11, 12, 13].contains (f.m 3 0) && [9, 10, 11, 12, 13].contains (f.m 14 11)
    && widthClass (f.m 3 0) == widthClass (f.m 14 11)
/-- OBRES (R61, R203): C only with ds4 scales. -/
def obresOk : Bool :=
  [9, 10, 11, 12, 13, 14].contains (f.m 3 0) && f.m 5 4 ≤ 2 && (if f.m 3 0 = 14 then b8Ok f else f.m 10 6 == 0)
    && f.m 14 13 ≤ 2 && (f.m 12 11 == 0) == (f.m 14 13 == 0) && (f.m 14 13 == 2 || f.c == 0)
/-- ACCST (R222). -/
def accstOk : Bool :=
  f.m 14 12 == 0 && engSpOk (f.m 10 8)
    && (if f.mb 11 then [8, 9].contains (f.m 3 0) && !f.mb 7 else [8, 9, 10, 11, 12, 13].contains (f.m 3 0))
    && (!f.mb 7 || (f.m 5 4 == 0 && f.m 3 0 != 8))
/-- Registers of an accumulator fragment: an even pair for f32 (R224). -/
def fragWords : Nat := if f.m 3 0 = 8 then 2 else 1

/-- Matrix (R64, R202). -/
def matrixRow : Nat → Option Row
  | 0x300 => some {
      scopes := scGT, form := .r, modOk := obresOk f, d := .dst 1 true, a := .src 1 true, b := .src 1 true,
      c := if f.m 14 13 = 2 then .base else .none }
  | 0x301 | 0x308 | 0x309 => some { scopes := scGT, form := .r, modOk := modZero f, a := .src 1 true }
  | 0x302 | 0x303 => some { scopes := scGT, form := .ri, modOk := modZero f, d := .data 1 true, a := .src 1 true, b := .src 1 true }
  | 0x304 | 0x306 => some {
      scopes := scGT, form := .r, modOk := mmaOk f,
      d := .data 1 true, a := .src 1 true, b := .src 1 true, c := .src 1 true }
  | 0x305 => some {
      scopes := scGT, form := .r, modOk := mmaOk f,
      d := .data 1 true, a := .src 1 true, b := .src 1 true, c := .quad }
  | 0x307 => some { scopes := scGT, form := .r, modOk := modZero f, d := .own2, a := .src 1 true }
  | 0x30A => some {
      scopes := scGT, form := .r,
      modOk := f.m 14 11 == 0 && engSpOk (f.m 10 8) && f.m 7 4 == 0 && [8, 9, 10].contains (f.m 3 0),
      d := .data 1 true, a := .src (engWords (f.m 10 8)) true, b := .src 1 true, c := .handOpt }
  | 0x30B => some {
      scopes := scGT, form := .r, modOk := f.m 14 4 == 0 && [8, 9, 10].contains (f.m 3 0),
      d := .lanes (fragWords f) true, a := .src 1 true, b := .src 1 true }
  | 0x30C => some {
      scopes := scGT, form := .r, modOk := accstOk f,
      d := .data (engWords (f.m 10 8)) true, a := .src 1 true, b := .src 1 true, c := .handOpt }
  | 0x30D => some {
      scopes := scGT, form := .r, modOk := f.m 14 4 == 0 && [8, 9, 10].contains (f.m 3 0),
      d := .data 1 true, a := .lanes (fragWords f) true, b := .src 1 true }
  | _ => none

/-- Work and collectives (R64, R191 to R201, R322, R329). -/
def workRow : Nat → Option Row
  | 0x340 => some {
      scopes := scLGT, form := .r, modOk := f.m 14 1 == 0,
      d := if f.mb 0 then .none else .dst 1 true, a := .queue, b := if f.mb 0 then .src 1 true else .none, c := .pred true }
  | 0x341 => some { scopes := scLGT, form := .r, modOk := modZero f, d := .dst 1 true, a := .queue }
  | 0x342 => some {
      scopes := [.L, .T], form := .r, modOk := f.m 14 1 == 0 && !(f.mb 0 && f.sc == 0),
      d := .three, a := .pred true }
  | 0x343 => some { scopes := [.T], form := .r, modOk := modZero f }
  | 0x344 => some {
      scopes := [.T], form := .ri, modOk := f.m 14 2 == 0 && f.m 1 0 ≤ 2,
      a := if f.fm then .none else .src 1 true }
  | 0x345 => some {
      scopes := [.T], form := .r,
      modOk := f.m 14 9 == 0 && f.m 2 0 ≤ 4 && f.m 6 5 ≤ 2 && f.m 8 7 ≤ 2 && (f.m 2 0 ≤ 1 || f.m 4 3 == 0)
        && !(f.m 6 5 == 2 && (f.m 4 3 == 3 || f.m 8 7 == 1)),
      d := .hand true, a := .tquad, b := .src 1 true, c := .src 1 true }
  | 0x346 => some { scopes := [.T], form := .r, modOk := modZero f, d := .three, a := .src 1 true }
  | 0x347 => some {
      scopes := [.T], form := .r, modOk := modZero f,
      d := .queue, a := .src 1 true, b := .tpair, c := .src 1 true }
  | _ => none

/-- System (R64, R91). -/
def systemRow : Nat → Option Row
  | 0x380 => some { scopes := [.T, .W], form := .r, modOk := modZero f, a := .src 1 true }
  | 0x381 => some { scopes := [.T], form := .i, modOk := modZero f }
  | 0x382 => some { scopes := [.W], form := .r, modOk := modZero f, a := .wpair, b := .src 1 true }
  | 0x383 => some { scopes := [.W], form := .i, modOk := modZero f, d := .wreg }
  | 0x384 => some { scopes := [.W], form := .i, modOk := modZero f, a := .src 1 true }
  | _ => none

/-- The row of an opcode; none for an unassigned one (R63). -/
def rowOf : Option Row :=
  let n := f.op.toNat
  if n < 0x040 then controlRow f n
  else if n < 0x100 then integerRow f n
  else if n < 0x140 then floatRow f n
  else if n < 0x180 then sfuRow f n
  else if n < 0x1C0 then crossRow f n
  else if n < 0x200 then moveRow f n
  else if n < 0x280 then memoryRow f n
  else if n < 0x300 then engineRow f n
  else if n < 0x340 then matrixRow f n
  else if n < 0x380 then workRow f n
  else if n < 0x3C0 then systemRow f n
  else none
end rows

/-! The checks of R45 -/

/-- Where a word is decoded: the role's register budget, and whether the code is compositor or recovery code. -/
structure DecEnv where
  budget : Nat
  firmware : Bool
  deriving DecidableEq, Repr

/-- A failed check: cause, and ADDR and AUX of R249. -/
structure DecodeFault where
  cause : Cause
  addr : Word := 0
  aux : Word := 0
  deriving DecidableEq, Repr, Inhabited

/-- Whether a specifier may stand for n words (R14): an aligned run of scalars, `zero`, or %clk and %ref as pairs. -/
def runOk (r : Reg) (n budget : Nat) (source : Bool) : Bool :=
  match r with
  | .v k => k.toNat % n == 0 && k.toNat + n ≤ budget
  | .g k => k.toNat % n == 0 && k.toNat + n ≤ 64
  | .t k => k.toNat % n == 0 && k.toNat + n ≤ 128
  | .w k => k.toNat % n == 0 && k.toNat + n ≤ 32
  | .zero => true
  | .sp .clk | .sp .ref => source && n ≤ 2
  | _ => n ≤ 1

/-- n consecutive scalars from a multiple of k, of one kind (R170, R215). -/
def rangeOk (r : Reg) (n k budget : Nat) (lane : Bool) : Bool :=
  match r with
  | .v j => lane && j.toNat % k == 0 && j.toNat + n ≤ budget
  | .g j => j.toNat % k == 0 && j.toNat + n ≤ 64
  | .t j => j.toNat % k == 0 && j.toNat + n ≤ 128
  | .w j => j.toNat % k == 0 && j.toNat + n ≤ 32
  | _ => false

/-- Status registers of R65: the scopes that read one, and whether it is RW. -/
def statusReg (n : Nat) : Option (List Scope × Bool) :=
  match n with
  | 0x000 => some ([.S, .G], false)
  | 0x001 => some ([.S], false)
  | 0x002 => some ([.S, .G, .T, .W], false)
  | 0x003 => some ([.S], false)
  | 0x010 => some ([.G, .T], true)
  | 0x011 => some ([.G, .T], false)
  | _ => none

/-- Stage 4 (R45) for one field: the specifier is legal for its kind. -/
def legal (budget : Nat) (sc : Scope) (k : Kind) (s : BitVec 11) (imm : Word) : Bool :=
  match k, regOf s with
  | .none, _ => true
  | .status w, _ => match statusReg imm.toNat with
    | some (_, rw) => rw || !w
    | Option.none => false
  | .cond, r => s == 0 || (match r with | some (.p _) => true | _ => false)
  | .handOpt, r => s == 0 || (match r with | some (.h _) | some .zero => true | _ => false)
  | _, Option.none => false
  | .src n q, some r => runOk r n budget true && (q || (match r with | .q _ => false | _ => true))
  | .data n q, some r => runOk r n budget true && (match r with | .q _ => q | .h _ => false | _ => true)
  | .dst n q, some r => runOk r n budget false && (match r with | .sp _ | .h _ => false | .q _ => q | _ => true)
  | .mov h, some r => (match r with
    | .sp _ => false
    | .h _ => h
    | .v k => k.toNat < budget
    | _ => true)
  | .pred _, some r => (match r with | .p _ => true | _ => false)
  | .lc, some r => (match r with | .lc _ => true | _ => false)
  | .hand _, some r => (match r with | .h _ => true | _ => false)
  | .barrier, some r => (match r with
    | .v _ | .g _ | .t _ | .w _ | .zero => runOk r 1 budget true
    | _ => false)
  | .queue, some r => (match r with | .q _ => true | _ => false)
  | .lanes n even, some r => (match r with
    | .v k => k.toNat + n ≤ budget && (!even || k.toNat % n == 0)
    | _ => false)
  | .mask, some r => (match r with | .g _ | .t _ | .w _ | .zero => true | _ => false)
  | .base, some r => (match r with | .g _ | .t _ | .w _ => true | _ => false)
  | .quad, some r => rangeOk r 4 4 budget false
  | .tquad, some r => (match r with | .t j => j.toNat % 4 == 0 | _ => false)
  | .own2, some r => (match r with
    | .g j => sc == .G && j.toNat % 2 == 0
    | .t j => sc == .T && j.toNat % 2 == 0
    | _ => false)
  | .three, some r => (match r with
    | .t j => sc == .T && j.toNat ≤ 125
    | .v j => sc == .L && j.toNat + 3 ≤ budget
    | _ => false)
  | .tpair, some r => (match r with | .t j => j.toNat % 2 == 0 | .zero => true | _ => false)
  | .wreg, some r => (match r with | .w _ | .zero => true | _ => false)
  | .rd, some r => runOk r 1 budget false && (match r with | .sp _ | .h _ => false | _ => true)
  | .wpair, some r => (match r with | .w j => j.toNat % 2 == 0 | _ => false)
  | .range n k _, some r => rangeOk r n k budget true

/-- The highest scope that may read a special register (R23). -/
def Special.highest : Special → Scope
  | .lane => .L | .slice => .S | .group => .G
  | .team | .pair | .die | .cwp _ | .tileinc => .T
  | .role | .ctx | .clk | .clkhi | .ref | .refhi => .W

/-- Whether a register may be read at a scope (R11, R12, R21, R23). -/
def readable (sc : Scope) (r : Reg) : Bool :=
  match r with
  | .v _ => sc == .L
  | .g _ => sc.code ≤ 2
  | .t _ => sc.code ≤ 3
  | .w _ | .p _ | .lc _ | .h _ | .zero => true
  | .q _ => sc == .L || sc == .G || sc == .T
  | .sp x => sc.code ≤ x.highest.code

/-- Whether a register may be written at a scope (R11, R12, R21). -/
def writable (sc : Scope) (r : Reg) : Bool :=
  match r with
  | .v _ => sc == .L
  | .g _ => sc == .G
  | .t _ => sc == .T
  | .w _ => sc == .W
  | .p _ | .zero => true
  | .lc _ | .h _ => sc != .L
  | .q _ => sc == .L || sc == .G || sc == .T
  | .sp _ => false

/-- Stage 5 (R45) for one field: the register scope rules. -/
def scopeOk (sc : Scope) (k : Kind) (s : BitVec 11) (imm : Word) : Bool :=
  match k, regOf s with
  | .status _, _ => match statusReg imm.toNat with
    | some (l, _) => l.contains sc
    | Option.none => true
  | .none, _ | .pred _, _ | .cond, _ | .handOpt, _ | .lanes _ _, _ | .own2, _ | .three, _ | .queue, _ => true
  | _, Option.none => true
  | .src _ _, some r | .data _ _, some r | .barrier, some r | .mask, some r | .base, some r | .quad, some r | .tquad, some r
  | .tpair, some r | .wpair, some r => readable sc r
  | .rd, some r => if sc = .S then (match r with | .lc _ => true | _ => false) else writable sc r
  | .dst _ _, some r | .mov _, some r | .lc, some r | .wreg, some r => writable sc r
  | .hand w, some r | .range _ _ w, some r => if w then writable sc r else readable sc r

/-- The kinds of the four fields in the form at hand: the immediate form has no B and no C (R41). -/
def Row.fieldKinds (row : Row) (f : Fields) : List (Kind × BitVec 11 × Nat) :=
  [(row.d, f.d, 0), (row.a, f.a, 1)]
    ++ (if f.fm then (match row.b with | .status w => [(.status w, 0, 2)] | _ => [])
        else [(row.b, f.b, 2), (row.c, f.c, 3)])

/-- Stage 3: the form, the fields that must be zero (R43), and MOD. -/
def stage3 (row : Row) (f : Fields) : Bool :=
  (match row.form with | .r => !f.fm | .i => f.fm | .ri => true)
    && (row.fieldKinds f).all (fun x => x.1 != .none || x.2.1 == 0)
    && (f.fm || f.z == 0) && row.modOk

/-- The checks of R45, in their order; the first failure is recorded. DEDUCED, log 138, unsafe. -/
def checkFields (env : DecEnv) (f : Fields) : Option DecodeFault :=
  match rowOf f with
  | none => some { cause := .illop }
  | some row =>
    if 5 ≤ f.sc.toNat then some { cause := .illop }
    else if [0x382, 0x383, 0x384].contains f.op.toNat && !env.firmware then some { cause := .illop }
    else match scopeOf f.sc.toNat with
    | none => some { cause := .illop }
    | some sc =>
      if !row.scopes.contains sc || (env.firmware && sc != .W) then some { cause := .scope }
      else if !stage3 row f then some { cause := .illop }
      else
        match (row.fieldKinds f).find? (fun x => !legal env.budget sc x.1 x.2.1 f.x) with
        | some (k, s, i) => some { cause := .illreg, addr := match k with | .status _ => f.x | _ => s.setWidth 32, aux := BitVec.ofNat 32 i }
        | none =>
          match (row.fieldKinds f).find? (fun x => !scopeOk sc x.1 x.2.1 f.x) with
          | some (.status _, _, _) => some { cause := .scope }
          | some (_, s, i) => some { cause := .scope, addr := s.setWidth 32, aux := BitVec.ofNat 32 i }
          | none => none

/-! The instruction of the fields -/

section build
variable (f : Fields)

/-- What every instruction carries. -/
def headOf : Option Head :=
  (scopeOf f.sc.toNat).map fun s =>
    { scope := s, guard := { neg := f.gd.getLsbD 3, p := f.gd.extractLsb' 0 3 }, join := f.mb 15,
      hints := { yld := f.yld, gap := f.gap, la := f.la } }

/-- Operand B, or IMM32. -/
def srcOf : Option Src := if f.fm then some (.imm f.x) else (regOf f.b).map .reg
/-- Operand A in the register form, or IMM32 (LCNT, NAP, PBAR). -/
def srcA : Option Src := if f.fm then some (.imm f.x) else (regOf f.a).map .reg
/-- The predicate of a specifier. -/
def predOf (s : BitVec 11) : Option (BitVec 3) :=
  match regOf s with | some (.p n) => some n | _ => none
def lcOf (s : BitVec 11) : Option (BitVec 2) :=
  match regOf s with | some (.lc n) => some n | _ => none
def handOf (s : BitVec 11) : Option (BitVec 4) :=
  match regOf s with | some (.h n) => some n | _ => none
def queueOf (s : BitVec 11) : Option (BitVec 5) :=
  match regOf s with | some (.q n) => some n | _ => none
def laneOf (s : BitVec 11) : Option (BitVec 8) :=
  match regOf s with | some (.v n) => some n | _ => none
/-- The condition of BR and BRX: none for 0x000. -/
def condPred : Option (Option (BitVec 3)) := if f.a = 0 then some none else (predOf f.a).map some
/-- The completion target of R175. -/
def doneOf : Option Done := if f.mb 10 then (handOf f.c).map .handle else (regOf f.c).map .barrier
/-- The handle of ACCLD and ACCST, if any (R202). -/
def handOpt : Option (Option (BitVec 4)) :=
  if f.c = 0 ∨ f.c = 0x220 then some none else (handOf f.c).map some
def memOrd : Option MemOrd := (memScopeOf (f.m 10 8)).map fun s => ⟨memOrderOf (f.m 7 6), s⟩
/-- The predicate output of REDUCE and SCAN. -/
def poOf : Option (Option (BitVec 3)) := if f.mb 11 then (predOf f.c).map some else some none
/-- The element format of PACK and UNPK. -/
def packFmt : Option Fmt := fmtOf (f.m 3 0) (f.m 10 6)
def packSat : Bool := if f.m 3 0 = 14 then f.mb 11 else f.mb 6
def packSr : Bool := if f.m 3 0 = 14 then f.mb 12 else f.mb 7

def buildControl (h : Head) : Nat → Option Instr
  | 0x000 => some (.nop h)
  | 0x001 => some (.bra h f.x)
  | 0x002 => do some (.br h (← scopeOf (f.m 2 0)) (f.mb 3) (← condPred f) f.x)
  | 0x003 => do some (.brx h (← scopeOf (f.m 2 0)) (f.mb 3) (← condPred f) (← regOf f.b))
  | 0x004 => some (.call h f.x)
  | 0x005 => do some (.callx h (← regOf f.b))
  | 0x006 => some (.ret h)
  | 0x007 => do some (.lcnt h (← lcOf f.d) (← srcA f))
  | 0x008 => do some (.loop h (← lcOf f.d) f.x)
  | 0x009 => some (.rcv h f.x)
  | 0x00A => some (.regang h)
  | 0x00B => some (.exit h)
  | 0x00C => do some (.vote h (← scopeOf (f.m 2 0)) (f.mb 3) (voteOf (f.m 5 4)) (← predOf f.d) (← predOf f.a))
  | 0x00D => do some (.xissue h (← regOf f.a))
  | 0x00E => some (.trap h f.x)
  | 0x00F => some (.bkpt h)
  | 0x010 => some (.tret h)
  | 0x011 => do some (.nap h (← srcA f))
  | _ => none

def buildInteger (h : Head) (n : Nat) : Option Instr := do
  let ty ← intTyOf (f.m 3 0)
  let sat := f.mb 6
  if n = 0x05D then
    return .icmp h ty (← condOf (f.m 10 7)) (← predOf f.d) (← regOf f.a) (← srcOf f)
  let d ← regOf f.d
  let a ← regOf f.a
  match n with
  | 0x040 => some (.add h ty sat d a (← srcOf f))
  | 0x041 => some (.sub h ty sat d a (← srcOf f))
  | 0x042 => some (.addc h ty d a (← regOf f.b) (← predOf f.c))
  | 0x043 => some (.subb h ty d a (← regOf f.b) (← predOf f.c))
  | 0x044 => some (.mul h ty sat d a (← srcOf f))
  | 0x045 => some (.mulh h ty d a (← srcOf f))
  | 0x046 => some (.mad h ty sat d a (← regOf f.b) (← regOf f.c))
  | 0x047 => some (.madw h ty d a (← regOf f.b) (← regOf f.c))
  | 0x048 => some (.min h ty d a (← srcOf f))
  | 0x049 => some (.max h ty d a (← srcOf f))
  | 0x04A => some (.abs h ty sat d a)
  | 0x04B => some (.neg h ty sat d a)
  | 0x04C => some (.and h ty d a (← srcOf f))
  | 0x04D => some (.or h ty d a (← srcOf f))
  | 0x04E => some (.xor h ty d a (← srcOf f))
  | 0x04F => some (.not h ty d a)
  | 0x050 => some (.andn h ty d a (← srcOf f))
  | 0x051 => some (.shl h ty d a (← srcOf f))
  | 0x052 => some (.shr h ty d a (← srcOf f))
  | 0x053 => some (.sar h ty d a (← srcOf f))
  | 0x054 => some (.shf h (f.mb 7) d a (← regOf f.b) (← regOf f.c))
  | 0x055 => some (.rot h ty d a (← srcOf f))
  | 0x056 => some (.bfe h ty d a (← regOf f.b) (← regOf f.c))
  | 0x057 => some (.bfi h d a (← regOf f.b) (← regOf f.c))
  | 0x058 => some (.popc h d a)
  | 0x059 => some (.clz h d a)
  | 0x05A => some (.brev h d a)
  | 0x05B => some (.prmt h d a (← regOf f.b) (← regOf f.c))
  | 0x05C => some (.sel h ty d a (← regOf f.b) (← predOf f.c))
  | 0x05E => some (.lea h ty (BitVec.ofNat 3 (f.m 9 7)) d a (← srcOf f))
  | 0x05F => some (.dp4 h ty sat d a (← regOf f.b) (← regOf f.c))
  | 0x060 => some (.dp2 h ty sat d a (← regOf f.b) (← regOf f.c))
  | 0x061 => some (.sad h ty sat d a (← regOf f.b) (← regOf f.c))
  | 0x062 => some (.clamp h ty d a (← regOf f.b) (← regOf f.c))
  | _ => none

def buildFloat (h : Head) (n : Nat) : Option Instr := do
  if n = 0x114 then return .seed h (← srcOf f)
  if n = 0x10B then
    return .cvt h (← numTyOf (f.m 3 0)) (← numTyOf (f.m 14 11)) (rndOf (f.m 5 4)) (f.mb 6) (f.mb 7) (← regOf f.d) (← regOf f.a)
  let fm ← packFmt f
  let r := rndOf (f.m 5 4)
  if n = 0x106 then
    return .fcmp h fm (← condOf (f.m 10 7)) (← predOf f.d) (← regOf f.a) (← srcOf f)
  let d ← regOf f.d
  let a ← regOf f.a
  match n with
  | 0x100 => some (.fadd h fm r d a (← srcOf f))
  | 0x101 => some (.fsub h fm r d a (← srcOf f))
  | 0x102 => some (.fmul h fm r d a (← srcOf f))
  | 0x103 => some (.ffma h fm r d a (← regOf f.b) (← regOf f.c))
  | 0x104 => some (.fmin h fm d a (← srcOf f))
  | 0x105 => some (.fmax h fm d a (← srcOf f))
  | 0x107 => some (.fclass h fm d a)
  | 0x108 => some (.frnd h fm r d a)
  | 0x109 => some (.fscale h fm r d a (← srcOf f))
  | 0x10A => some (.fexp h fm d a)
  | 0x10C => some (.pack h fm r (packSat f) (packSr f) d a (← srcOf f))
  | 0x10D => some (.unpk h fm d a (← regOf f.b))
  | 0x10E => some (.hadd2 h fm r d a (← srcOf f))
  | 0x10F => some (.hmul2 h fm r d a (← srcOf f))
  | 0x110 => some (.hfma2 h fm r d a (← regOf f.b) (← regOf f.c))
  | 0x111 => some (.hmin2 h fm d a (← srcOf f))
  | 0x112 => some (.hmax2 h fm d a (← srcOf f))
  | 0x113 => some (.dot2f h fm r d a (← regOf f.b) (← regOf f.c))
  | _ => none

def buildSfu (h : Head) (n : Nat) : Option Instr := do
  let d ← regOf f.d
  let a ← regOf f.a
  match n with
  | 0x140 => some (.rcp h d a)
  | 0x141 => some (.rsq h d a)
  | 0x142 => some (.sqrt h (rndOf (f.m 5 4)) d a)
  | 0x143 => some (.ex2 h d a)
  | 0x144 => some (.lg2 h d a)
  | 0x145 => some (.sin h d a)
  | 0x146 => some (.cos h d a)
  | 0x147 => some (.sincos h d a)
  | 0x148 => some (.tanh h d a)
  | 0x149 => some (.rred h d a)
  | _ => none

def buildCross (h : Head) (n : Nat) : Option Instr := do
  let d ← regOf f.d
  match n with
  | 0x180 => some (.shfl h (shflOf (f.m 8 7)) (BitVec.ofNat 3 (f.m 11 9)) d (← regOf f.a) (← srcOf f)
      (← if f.fm then some Reg.zero else regOf f.c))
  | 0x181 => some (.pswap h d (← regOf f.a) (← regOf f.c))
  | 0x182 => some (.reduce h (← numTyOf (f.m 3 0)) (← redOpOf (f.m 9 7)) d (← regOf f.a) (← poOf f))
  | 0x183 => some (.scan h (← numTyOf (f.m 3 0)) (← redOpOf (f.m 9 7)) (f.mb 10) d (← regOf f.a) (← poOf f))
  | 0x184 => some (.matchLanes h (f.mb 7) d (← regOf f.a) (← regOf f.c))
  | 0x185 => some (.ballot h d (← predOf f.a) (← if f.sc = 0 then (regOf f.c).map some else some none))
  | 0x186 => some (.elect h d (← predOf f.a))
  | 0x187 => some (.bcast h d (← regOf f.a) (← srcOf f))
  | 0x188 => some (.firstl h d (← predOf f.a) (← regOf f.c))
  | _ => none

def buildMove (h : Head) : Nat → Option Instr
  | 0x1C0 => do some (.mov h (← regOf f.d) (← regOf f.a))
  | 0x1C1 => do some (.movi h (← regOf f.d) f.x)
  | 0x1C2 => do some (.plop h (BitVec.ofNat 8 (f.m 14 7)) (← predOf f.d) (← predOf f.a) (← predOf f.b) (← predOf f.c))
  | 0x1C3 => do some (.p2r h (← regOf f.d) (← regOf f.a))
  | 0x1C4 => do some (.registerToPredicate h (← regOf f.a) (← srcOf f))
  | 0x1C5 => do some (.rdsr h (← regOf f.d) (f.x.extractLsb' 0 12))
  | 0x1C6 => do some (.wrsr h (f.x.extractLsb' 0 12) (← regOf f.a))
  | _ => none

def buildMemory (h : Head) (n : Nat) : Option Instr := do
  let o ← memOrd f
  if n = 0x207 then return .fence h o
  let w ← widthOf (f.m 5 3)
  let sp ← spaceOf (f.m 2 0)
  let d ← regOf f.d
  let a ← regOf f.a
  let k := BitVec.ofNat 4 (f.m 14 11)
  match n with
  | 0x200 => some (.ld h o w sp (f.mb 11) d a (← srcOf f))
  | 0x201 => some (.st h o w sp d a (← srcOf f))
  | 0x202 => some (.ldx h o w sp k d a (← srcOf f))
  | 0x203 => some (.stx h o w sp k d a (← srcOf f))
  | 0x204 => some (.atom h o w sp (atomOpOf (f.m 14 11)) d a (← srcOf f))
  | 0x205 => some (.red h o w sp (atomOpOf (f.m 14 11)) d a (← srcOf f))
  | 0x206 => some (.cas h o w sp d a (← regOf f.b) (← regOf f.c))
  | _ => none

def buildEngine (h : Head) (n : Nat) : Option Instr := do
  let ch := BitVec.ofNat 4 (f.m 3 0)
  match n with
  | 0x280 => some (.bcopy h ch (← engSpaceOf (f.m 6 4)) (← engSpaceOf (f.m 9 7)) (← regOf f.d) (← regOf f.a) (← regOf f.b) (← doneOf f))
  | 0x281 => some (.bgath h (BitVec.ofNat 3 (f.m 13 11)) (← engSpaceOf (f.m 6 4)) (← engSpaceOf (f.m 9 7)) (← regOf f.d) (← regOf f.a) (← regOf f.b) (← doneOf f))
  | 0x282 => some (.bscat h (BitVec.ofNat 3 (f.m 13 11)) (← engSpaceOf (f.m 6 4)) (← engSpaceOf (f.m 9 7)) (← regOf f.d) (← regOf f.a) (← regOf f.b) (← doneOf f))
  | 0x283 => some (.bfill h ch (← engSpaceOf (f.m 6 4)) (← regOf f.d) (← regOf f.a) (← regOf f.b) (← doneOf f))
  | 0x284 => some (.bred h (atomOpOf (f.m 14 11)) ch (← engSpaceOf (f.m 6 4)) (← engSpaceOf (f.m 9 7)) (← regOf f.d) (← regOf f.a) (← regOf f.b) (← doneOf f))
  | 0x285 => some (.batom h (atomOpOf (f.m 14 11)) (f.mb 0) (← engSpaceOf (f.m 6 4)) (← regOf f.d) (← regOf f.a) (← regOf f.b) (← doneOf f))
  | 0x286 => some (.bari h (← regOf f.a) (← srcOf f))
  | 0x287 => some (.barx h (← regOf f.a) (← srcOf f))
  | 0x288 => some (.bara h (← regOf f.a))
  | 0x289 => some (.barw h (← regOf f.a) (← srcOf f))
  | 0x28A => some (.bar h (← regOf f.a) (← srcOf f))
  | 0x28B => some (.cwait h (opClassOf (f.m 1 0)) (f.x.extractLsb' 0 6))
  | 0x28C => some (.hwait h (← handOf f.a))
  | 0x28D => some (.htest h (← predOf f.d) (← handOf f.a))
  | 0x28E => some (.hcancel h (← handOf f.a))
  | 0x28F => some (.chwait h ch (← srcOf f))
  | _ => none

def buildMatrix (h : Head) (n : Nat) : Option Instr := do
  if n = 0x307 then return .acca h (← regOf f.d) (← regOf f.a)
  match n with
  | 0x300 => some (.obres h (← fmtOf (f.m 3 0) (f.m 10 6)) (← sparsOf (f.m 5 4)) (blkOf (f.m 12 11)) (← sclOf (f.m 14 13))
      (← regOf f.d) (← regOf f.a) (← regOf f.b) (← if f.m 14 13 = 2 then (regOf f.c).map some else some none))
  | 0x301 => some (.obrel h (← regOf f.a))
  | 0x302 => some (.obld h (← regOf f.d) (← regOf f.a) (← srcOf f))
  | 0x303 => some (.obsc h (← regOf f.d) (← regOf f.a) (← srcOf f))
  | 0x304 => some (.mma h (← fmtOf (f.m 3 0) 0) (← fmtOf (f.m 14 11) 0) (f.mb 4) (← regOf f.d) (← regOf f.a) (← regOf f.b) (← regOf f.c))
  | 0x305 => some (.mmag h (← fmtOf (f.m 3 0) 0) (← fmtOf (f.m 14 11) 0) (f.mb 4) (← regOf f.d) (← regOf f.a) (← regOf f.b) (← regOf f.c))
  | 0x306 => some (.mmas h (← fmtOf (f.m 3 0) 0) (← fmtOf (f.m 14 11) 0) (f.mb 4) (← regOf f.d) (← regOf f.a) (← regOf f.b) (← regOf f.c))
  | 0x308 => some (.accf h (← regOf f.a))
  | 0x309 => some (.accz h (← regOf f.a))
  | 0x30A => some (.accld h (← fmtOf (f.m 3 0) 0) (← engSpaceOf (f.m 10 8)) (← regOf f.d) (← regOf f.a) (← regOf f.b) (← handOpt f))
  | 0x30B => some (.accrd h (← fmtOf (f.m 3 0) 0) (← laneOf f.d) (← regOf f.a) (← regOf f.b))
  | 0x30C => some (.accst h (f.mb 11) (← fmtOf (f.m 3 0) 0) (rndOf (f.m 5 4)) (f.mb 6) (f.mb 7) (← engSpaceOf (f.m 10 8))
      (← regOf f.d) (← regOf f.a) (← regOf f.b) (← handOpt f))
  | 0x30D => some (.accwr h (← fmtOf (f.m 3 0) 0) (← regOf f.d) (← laneOf f.a) (← regOf f.b))
  | _ => none

def buildWork (h : Head) : Nat → Option Instr
  | 0x340 => do some (.qtry h (← regOf f.d) (← queueOf f.a) (← if f.mb 0 then (regOf f.b).map some else some none) (← predOf f.c))
  | 0x341 => do some (.qcnt h (← regOf f.d) (← queueOf f.a))
  | 0x342 => do some (.tile h (f.mb 0) (← regOf f.d) (← predOf f.a))
  | 0x343 => some (.seal h)
  | 0x344 => do some (.pbar h (← pbarOf (f.m 1 0)) (← srcA f))
  | 0x345 => do some (.coll h (← collOpOf (f.m 2 0)) (collRedOf (f.m 4 3)) (← collTyOf (f.m 6 5)) (← collPolicyOf (f.m 8 7))
      (← handOf f.d) (← regOf f.a) (← regOf f.b) (← regOf f.c))
  | 0x346 => do some (.view h (← regOf f.d) (← regOf f.a))
  | 0x347 => do some (.qcfg h (← queueOf f.d) (← regOf f.a) (← regOf f.b) (← regOf f.c))
  | _ => none

def buildSystem (h : Head) : Nat → Option Instr
  | 0x380 => do some (.snap h (← regOf f.a))
  | 0x381 => some (.syscall h f.x)
  | 0x382 => do some (.tlbi h (← regOf f.a) (← regOf f.b))
  | 0x383 => do some (.csrr h (← regOf f.d) f.x)
  | 0x384 => do some (.csrw h f.x (← regOf f.a))
  | _ => none

/-- The instruction of fields that pass the checks (R63 and the operand tables). -/
def build : Option Instr := do
  let h ← headOf f
  let n := f.op.toNat
  if n < 0x040 then buildControl f h n
  else if n < 0x100 then buildInteger f h n
  else if n < 0x140 then buildFloat f h n
  else if n < 0x180 then buildSfu f h n
  else if n < 0x1C0 then buildCross f h n
  else if n < 0x200 then buildMove f h n
  else if n < 0x280 then buildMemory f h n
  else if n < 0x300 then buildEngine f h n
  else if n < 0x340 then buildMatrix f h n
  else if n < 0x380 then buildWork f h n
  else buildSystem f h n
end build

/-- Decoding of fields: the first failed check, or the instruction. -/
def decodeFields (env : DecEnv) (f : Fields) : Except DecodeFault Instr :=
  match checkFields env f with
  | some e => .error e
  | none => match build f with
    | some i => .ok i
    | none => .error { cause := .illop }

/-- Decoding of the three words of an instruction (R41, R45). -/
def decode (env : DecEnv) (w : BitVec 96) : Except DecodeFault Instr := decodeFields env (Fields.ofWord w)

/-- The instruction of twelve bytes in address order: three little-endian words (R41). Total on any bytes. -/
def decodeBytes (env : DecEnv) (bs : List Byte) : Except DecodeFault Instr :=
  decode env (BitVec.ofNat 96 ((bs.take 12).reverse.foldl (fun n b => n * 256 + b.toNat) 0))

/-- The widest environment of a word: every lane register within the budget, and compositor code for the privileged
opcodes. -/
def wideEnv (op : Nat) : DecEnv := { budget := 256, firmware := [0x382, 0x383, 0x384].contains op }

/-- The bytes of n bits, lowest first. -/
def bytesOf : Nat → Nat → List Byte
  | 0, _ => []
  | k + 1, w => BitVec.ofNat 8 w :: bytesOf k (w / 256)

/-- The instruction that the decoder reads from a word whose bits are numbered as the opcode table numbers them. -/
def decodeTableWord (nbits w : Nat) : Option Instr :=
  match decodeBytes (wideEnv (w % 1024)) (bytesOf 12 (w % 2 ^ nbits)) with
  | .ok i => some i
  | .error _ => none

/-! The encoder, from the same tables -/

/-- The fields of an opcode and MOD with the head's scope, guard and hints; MOD[15] is the join mark. -/
def mk (h : Head) (op mod : Nat) (d a : BitVec 11) (fm : Bool) (x : BitVec 32) : Fields where
  op := BitVec.ofNat 10 op
  sc := BitVec.ofNat 3 h.scope.code
  gd := BitVec.ofBool h.guard.neg ++ h.guard.p
  fm := fm
  mod := BitVec.ofBool h.join ++ BitVec.ofNat 15 mod
  d := d
  a := a
  x := x
  la := h.hints.la
  gap := h.hints.gap
  yld := h.hints.yld

/-- Register form. -/
def fr (h : Head) (op mod : Nat) (d a b c : BitVec 11) : Fields := mk h op mod d a false ((0 : BitVec 10) ++ c ++ b)
/-- Immediate form. -/
def fi (h : Head) (op mod : Nat) (d a : BitVec 11) (x : Word) : Fields := mk h op mod d a true x
/-- The form that operand B calls for. -/
def fs (h : Head) (op mod : Nat) (d a : BitVec 11) (b : Src) (c : BitVec 11 := 0) : Fields :=
  match b with
  | .reg r => fr h op mod d a r.spec c
  | .imm x => fi h op mod d a x
/-- The form that operand A calls for. -/
def fa (h : Head) (op mod : Nat) (d : BitVec 11) (a : Src) : Fields :=
  match a with
  | .reg r => fr h op mod d r.spec 0 0
  | .imm x => fi h op mod d 0 x

/-- Specifiers. -/
def ps (n : BitVec 3) : BitVec 11 := (Reg.p n).spec
def hs (n : BitVec 4) : BitVec 11 := (Reg.h n).spec
def cs (a : Option (BitVec 3)) : BitVec 11 := match a with | some n => ps n | none => 0
def ho (a : Option (BitVec 4)) : BitVec 11 := match a with | some n => hs n | none => 0
def Done.spec : Done → BitVec 11
  | .barrier r => r.spec
  | .handle n => hs n
def Done.ck : Done → Nat
  | .barrier _ => 0
  | .handle _ => 1
/-- The memory layout (R57). -/
def memMod (o : MemOrd) (w : Width) (sp : Space) (opx : Nat) : Nat :=
  opx * 2048 + o.scope.code * 256 + o.order.code * 64 + w.code * 8 + sp.code
/-- The engine layout (R60). -/
def engMod (xop : Nat) (k : Done) (ssp dsp : Nat) (ch : Nat) : Nat := xop * 2048 + k.ck * 1024 + ssp * 128 + dsp * 16 + ch
/-- PACK and UNPK (R55). -/
def packMod (f : Fmt) (rnd : Nat) (sat sr : Bool) : Nat :=
  f.code + rnd * 16 + (match f with
    | .b8 k => k.bits * 64 + sat.toNat * 2048 + sr.toNat * 4096
    | _ => sat.toNat * 64 + sr.toNat * 128)

/-- The fields of a coded instruction; none for a step that no word issues. -/
def Instr.fields : Instr → Option Fields
  | .nop h => fr h 0x000 0 0 0 0 0
  | .bra h off => fi h 0x001 0 0 0 off
  | .br h s n a off => fi h 0x002 (s.code + n.toNat * 8) 0 (cs a) off
  | .brx h s n a b => fr h 0x003 (s.code + n.toNat * 8) 0 (cs a) b.spec 0
  | .call h off => fi h 0x004 0 0 0 off
  | .callx h b => fr h 0x005 0 0 0 b.spec 0
  | .ret h => fr h 0x006 0 0 0 0 0
  | .lcnt h d s => fa h 0x007 0 (Reg.lc d).spec s
  | .loop h d off => fi h 0x008 0 (Reg.lc d).spec 0 off
  | .rcv h off => fi h 0x009 0 0 0 off
  | .regang h => fr h 0x00A 0 0 0 0 0
  | .exit h => fr h 0x00B 0 0 0 0 0
  | .vote h s n k d a => fr h 0x00C (s.code + n.toNat * 8 + k.code * 16) (ps d) (ps a) 0 0
  | .xissue h a => fr h 0x00D 0 0 a.spec 0 0
  | .trap h c => fi h 0x00E 0 0 0 c
  | .bkpt h => fr h 0x00F 0 0 0 0 0
  | .tret h => fr h 0x010 0 0 0 0 0
  | .nap h n => fa h 0x011 0 0 n
  | .add h t s d a b => fs h 0x040 (t.code + s.toNat * 64) d.spec a.spec b
  | .sub h t s d a b => fs h 0x041 (t.code + s.toNat * 64) d.spec a.spec b
  | .addc h t d a b p => fr h 0x042 t.code d.spec a.spec b.spec (ps p)
  | .subb h t d a b p => fr h 0x043 t.code d.spec a.spec b.spec (ps p)
  | .mul h t s d a b => fs h 0x044 (t.code + s.toNat * 64) d.spec a.spec b
  | .mulh h t d a b => fs h 0x045 t.code d.spec a.spec b
  | .mad h t s d a b c => fr h 0x046 (t.code + s.toNat * 64) d.spec a.spec b.spec c.spec
  | .madw h t d a b c => fr h 0x047 t.code d.spec a.spec b.spec c.spec
  | .min h t d a b => fs h 0x048 t.code d.spec a.spec b
  | .max h t d a b => fs h 0x049 t.code d.spec a.spec b
  | .abs h t s d a => fr h 0x04A (t.code + s.toNat * 64) d.spec a.spec 0 0
  | .neg h t s d a => fr h 0x04B (t.code + s.toNat * 64) d.spec a.spec 0 0
  | .and h t d a b => fs h 0x04C t.code d.spec a.spec b
  | .or h t d a b => fs h 0x04D t.code d.spec a.spec b
  | .xor h t d a b => fs h 0x04E t.code d.spec a.spec b
  | .not h t d a => fr h 0x04F t.code d.spec a.spec 0 0
  | .andn h t d a b => fs h 0x050 t.code d.spec a.spec b
  | .shl h t d a b => fs h 0x051 t.code d.spec a.spec b
  | .shr h t d a b => fs h 0x052 t.code d.spec a.spec b
  | .sar h t d a b => fs h 0x053 t.code d.spec a.spec b
  | .shf h r d a b c => fr h 0x054 (1 + r.toNat * 128) d.spec a.spec b.spec c.spec
  | .rot h t d a b => fs h 0x055 t.code d.spec a.spec b
  | .bfe h t d a b c => fr h 0x056 t.code d.spec a.spec b.spec c.spec
  | .bfi h d a b c => fr h 0x057 1 d.spec a.spec b.spec c.spec
  | .popc h d a => fr h 0x058 1 d.spec a.spec 0 0
  | .clz h d a => fr h 0x059 1 d.spec a.spec 0 0
  | .brev h d a => fr h 0x05A 1 d.spec a.spec 0 0
  | .prmt h d a b c => fr h 0x05B 1 d.spec a.spec b.spec c.spec
  | .sel h t d a b p => fr h 0x05C t.code d.spec a.spec b.spec (ps p)
  | .icmp h t c d a b => fs h 0x05D (t.code + c.code * 128) (ps d) a.spec b
  | .lea h t k d a b => fs h 0x05E (t.code + k.toNat * 128) d.spec a.spec b
  | .dp4 h t s d a b c => fr h 0x05F (t.code + s.toNat * 64) d.spec a.spec b.spec c.spec
  | .dp2 h t s d a b c => fr h 0x060 (t.code + s.toNat * 64) d.spec a.spec b.spec c.spec
  | .sad h t s d a b c => fr h 0x061 (t.code + s.toNat * 64) d.spec a.spec b.spec c.spec
  | .clamp h t d a b c => fr h 0x062 t.code d.spec a.spec b.spec c.spec
  | .fadd h f r d a b => fs h 0x100 (f.code + r.code * 16) d.spec a.spec b
  | .fsub h f r d a b => fs h 0x101 (f.code + r.code * 16) d.spec a.spec b
  | .fmul h f r d a b => fs h 0x102 (f.code + r.code * 16) d.spec a.spec b
  | .ffma h f r d a b c => fr h 0x103 (f.code + r.code * 16) d.spec a.spec b.spec c.spec
  | .fmin h f d a b => fs h 0x104 f.code d.spec a.spec b
  | .fmax h f d a b => fs h 0x105 f.code d.spec a.spec b
  | .fcmp h f c d a b => fs h 0x106 (f.code + c.code * 128) (ps d) a.spec b
  | .fclass h f d a => fr h 0x107 f.code d.spec a.spec 0 0
  | .frnd h f r d a => fr h 0x108 (f.code + r.code * 16) d.spec a.spec 0 0
  | .fscale h f r d a b => fs h 0x109 (f.code + r.code * 16) d.spec a.spec b
  | .fexp h f d a => fr h 0x10A f.code d.spec a.spec 0 0
  | .cvt h t u r s k d a => fr h 0x10B (t.code + r.code * 16 + s.toNat * 64 + k.toNat * 128 + u.code * 2048) d.spec a.spec 0 0
  | .pack h f r s k d a b => fs h 0x10C (packMod f r.code s k) d.spec a.spec b
  | .unpk h f d a b => fr h 0x10D (packMod f 0 false false) d.spec a.spec b.spec 0
  | .hadd2 h f r d a b => fs h 0x10E (f.code + r.code * 16) d.spec a.spec b
  | .hmul2 h f r d a b => fs h 0x10F (f.code + r.code * 16) d.spec a.spec b
  | .hfma2 h f r d a b c => fr h 0x110 (f.code + r.code * 16) d.spec a.spec b.spec c.spec
  | .hmin2 h f d a b => fs h 0x111 f.code d.spec a.spec b
  | .hmax2 h f d a b => fs h 0x112 f.code d.spec a.spec b
  | .dot2f h f r d a b c => fr h 0x113 (f.code + r.code * 16) d.spec a.spec b.spec c.spec
  | .seed h b => fs h 0x114 0 0 0 b
  | .rcp h d a => fr h 0x140 8 d.spec a.spec 0 0
  | .rsq h d a => fr h 0x141 8 d.spec a.spec 0 0
  | .sqrt h r d a => fr h 0x142 (8 + r.code * 16) d.spec a.spec 0 0
  | .ex2 h d a => fr h 0x143 8 d.spec a.spec 0 0
  | .lg2 h d a => fr h 0x144 8 d.spec a.spec 0 0
  | .sin h d a => fr h 0x145 8 d.spec a.spec 0 0
  | .cos h d a => fr h 0x146 8 d.spec a.spec 0 0
  | .sincos h d a => fr h 0x147 8 d.spec a.spec 0 0
  | .tanh h d a => fr h 0x148 8 d.spec a.spec 0 0
  | .rred h d a => fr h 0x149 8 d.spec a.spec 0 0
  | .shfl h m g d a b c => fs h 0x180 (m.code * 128 + g.toNat * 512) d.spec a.spec b c.spec
  | .pswap h d a c => fr h 0x181 8 d.spec a.spec 0 c.spec
  | .reduce h t o d a p => fr h 0x182 (t.code + o.code * 128 + p.isSome.toNat * 2048) d.spec a.spec 0 (cs p)
  | .scan h t o e d a p => fr h 0x183 (t.code + o.code * 128 + e.toNat * 1024 + p.isSome.toNat * 2048) d.spec a.spec 0 (cs p)
  | .matchLanes h k d a c => fr h 0x184 (if k then 136 else 0) d.spec a.spec 0 c.spec
  | .ballot h d a c => fr h 0x185 0 d.spec (ps a) 0 (match c with | some r => r.spec | none => 0)
  | .elect h d a => fr h 0x186 0 d.spec (ps a) 0 0
  | .bcast h d a b => fs h 0x187 0 d.spec a.spec b
  | .firstl h d a c => fr h 0x188 0 d.spec (ps a) 0 c.spec
  | .mov h d a => fr h 0x1C0 0 d.spec a.spec 0 0
  | .movi h d x => fi h 0x1C1 0 d.spec 0 x
  | .plop h t d a b c => fr h 0x1C2 (t.toNat * 128) (ps d) (ps a) (ps b) (ps c)
  | .p2r h d a => fr h 0x1C3 0 d.spec a.spec 0 0
  | .registerToPredicate h a b => fs h 0x1C4 0 0 a.spec b
  | .rdsr h d n => fi h 0x1C5 0 d.spec 0 (n.setWidth 32)
  | .wrsr h n a => fi h 0x1C6 0 0 a.spec (n.setWidth 32)
  | .ld h o w s x d a b => fs h 0x200 (memMod o w s x.toNat) d.spec a.spec b
  | .st h o w s d a b => fs h 0x201 (memMod o w s 0) d.spec a.spec b
  | .ldx h o w s n d a b => fs h 0x202 (memMod o w s n.toNat) d.spec a.spec b
  | .stx h o w s n d a b => fs h 0x203 (memMod o w s n.toNat) d.spec a.spec b
  | .atom h o w s k d a b => fs h 0x204 (memMod o w s k.code) d.spec a.spec b
  | .red h o w s k d a b => fs h 0x205 (memMod o w s k.code) d.spec a.spec b
  | .cas h o w s d a b c => fr h 0x206 (memMod o w s 0) d.spec a.spec b.spec c.spec
  | .fence h o => fr h 0x207 (o.scope.code * 256 + o.order.code * 64) 0 0 0 0
  | .bcopy h ch ds ss d a b k => fr h 0x280 (engMod 0 k ss.code ds.code ch.toNat) d.spec a.spec b.spec k.spec
  | .bgath h e ds ss d a b k => fr h 0x281 (engMod e.toNat k ss.code ds.code 0) d.spec a.spec b.spec k.spec
  | .bscat h e ds ss d a b k => fr h 0x282 (engMod e.toNat k ss.code ds.code 0) d.spec a.spec b.spec k.spec
  | .bfill h ch ds d a b k => fr h 0x283 (engMod 0 k 0 ds.code ch.toNat) d.spec a.spec b.spec k.spec
  | .bred h o ch ds ss d a b k => fr h 0x284 (engMod o.code k ss.code ds.code ch.toNat) d.spec a.spec b.spec k.spec
  | .batom h o w ds d a b k => fr h 0x285 (engMod o.code k 0 ds.code w.toNat) d.spec a.spec b.spec k.spec
  | .bari h a b => fs h 0x286 0 0 a.spec b
  | .barx h a b => fs h 0x287 0 0 a.spec b
  | .bara h a => fr h 0x288 0 0 a.spec 0 0
  | .barw h a b => fs h 0x289 0 0 a.spec b
  | .bar h a b => fs h 0x28A 0 0 a.spec b
  | .cwait h k n => fi h 0x28B k.code 0 0 (n.setWidth 32)
  | .hwait h a => fr h 0x28C 0 0 (hs a) 0 0
  | .htest h d a => fr h 0x28D 0 (ps d) (hs a) 0 0
  | .hcancel h a => fr h 0x28E 0 0 (hs a) 0 0
  | .chwait h ch a => fs h 0x28F ch.toNat 0 0 a
  | .obres h f s k l d a b c => fr h 0x300 (f.code + s.code * 16 + f.b8bits * 64 + k.code * 2048 + l.code * 8192)
      d.spec a.spec b.spec (match c with | some r => r.spec | none => 0)
  | .obrel h a => fr h 0x301 0 0 a.spec 0 0
  | .obld h d a b => fs h 0x302 0 d.spec a.spec b
  | .obsc h d a b => fs h 0x303 0 d.spec a.spec b
  | .mma h t u p d a b c => fr h 0x304 (t.code + p.toNat * 16 + u.code * 2048) d.spec a.spec b.spec c.spec
  | .mmag h t u p d a b c => fr h 0x305 (t.code + p.toNat * 16 + u.code * 2048) d.spec a.spec b.spec c.spec
  | .mmas h t u p d a b c => fr h 0x306 (t.code + p.toNat * 16 + u.code * 2048) d.spec a.spec b.spec c.spec
  | .acca h d a => fr h 0x307 0 d.spec a.spec 0 0
  | .accf h a => fr h 0x308 0 0 a.spec 0 0
  | .accz h a => fr h 0x309 0 0 a.spec 0 0
  | .accld h f s d a b k => fr h 0x30A (f.code + s.code * 256) d.spec a.spec b.spec (ho k)
  | .accrd h f d a b => fr h 0x30B f.code (Reg.v d).spec a.spec b.spec 0
  | .accst h o f r s k p d a b n =>
      fr h 0x30C (f.code + r.code * 16 + s.toNat * 64 + k.toNat * 128 + p.code * 256 + o.toNat * 2048) d.spec a.spec b.spec (ho n)
  | .accwr h f d a b => fr h 0x30D f.code d.spec (Reg.v a).spec b.spec 0
  | .qtry h d q b p => fr h 0x340 b.isSome.toNat d.spec (Reg.q q).spec (match b with | some r => r.spec | none => 0) (ps p)
  | .qcnt h d q => fr h 0x341 0 d.spec (Reg.q q).spec 0 0
  | .tile h n d p => fr h 0x342 n.toNat d.spec (ps p) 0 0
  | .seal h => fr h 0x343 0 0 0 0 0
  | .pbar h k i => fa h 0x344 k.code 0 i
  | .coll h o r t p d a b c => fr h 0x345 (o.code + r.code * 8 + t.code * 32 + p.code * 128) (hs d) a.spec b.spec c.spec
  | .view h d a => fr h 0x346 0 d.spec a.spec 0 0
  | .qcfg h q a b c => fr h 0x347 0 (Reg.q q).spec a.spec b.spec c.spec
  | .snap h a => fr h 0x380 0 0 a.spec 0 0
  | .syscall h n => fi h 0x381 0 0 0 n
  | .tlbi h a b => fr h 0x382 0 0 a.spec b.spec 0
  | .csrr h d n => fi h 0x383 0 d.spec 0 n
  | .csrw h n a => fi h 0x384 0 0 a.spec n
  | _ => none

/-- The three words of an instruction, word 0 first (R41). -/
def encodeWord (i : Instr) : Option (BitVec 96) := i.fields.map Fields.toWord
/-- The words of a coded instruction, word 0 first; none for a step that no word issues. -/
def encode (i : Instr) : List Word :=
  match encodeWord i with
  | some w => [w.extractLsb' 0 32, w.extractLsb' 32 32, w.extractLsb' 64 32]
  | none => []

end Sys2Proof
end

