-- ==== Sys2Proof/Machine/Num.lean ====
section
/-! DEFINITION. Number formats and exact arithmetic (04_numbers): values, Convert, stochastic rounding, exact sums. -/

namespace Sys2Proof.Machine

/-- An exact value: NaN, an infinity, or (−1)^neg × m × 2^e with a signed zero (R69 to R71). -/
inductive Val
  | nan
  | inf (neg : Bool)
  | fin (neg : Bool) (m : Nat) (e : Int)
  deriving DecidableEq, Repr, Inhabited

/-- The layout of a format: sign bit, trailing bits, bias, width, the largest finite magnitude code, the code of +∞ if the
format has one, and the canonical NaN if it has one (R70, R71, R77, R78). -/
structure Layout where
  signed : Bool
  trail : Nat
  bias : Nat
  width : Nat
  top : Nat
  inf : Option Nat
  nan : Option Nat
  deriving DecidableEq, Repr

/-- The formats of R70 and the b8 variants of R77 and R78. -/
def layout : Fmt → Layout
  | .f32 => ⟨true, 23, 127, 32, 0x7F7FFFFF, some 0x7F800000, some 0x7FC00000⟩
  | .bf16 => ⟨true, 7, 127, 16, 0x7F7F, some 0x7F80, some 0x7FC0⟩
  | .f16 => ⟨true, 10, 15, 16, 0x7BFF, some 0x7C00, some 0x7E00⟩
  | .e4m3 => ⟨true, 3, 7, 8, 0x7E, none, some 0x7F⟩
  | .e5m2 => ⟨true, 2, 15, 8, 0x7B, some 0x7C, some 0x7E⟩
  | .e2m1 => ⟨true, 1, 1, 4, 0x7, none, none⟩
  | .b8 k =>
    if k.natural then
      ⟨false, k.p.toNat - 1, 2 ^ (7 - k.p.toNat), 8, if k.finite then 0xFE else 0xFD,
        if k.finite then none else some 0xFE, some 0xFF⟩
    else
      ⟨true, k.p.toNat - 1, 2 ^ (7 - k.p.toNat), 8, if k.finite then 0x7F else 0x7E,
        if k.finite then none else some 0x7F, some 0x80⟩

/-- Whether a format has a b8 code space, in which there is no −0 and 0x80 is NaN (R77). -/
def isB8 : Fmt → Bool
  | .b8 _ => true
  | _ => false

/-- Sign and magnitude of a code. -/
def splitCode (l : Layout) (c : Nat) : Bool × Nat :=
  if l.signed then (decide (2 ^ (l.width - 1) ≤ c % 2 ^ l.width), c % 2 ^ (l.width - 1)) else (false, c % 2 ^ l.width)

/-- The value of a magnitude code under R69. -/
def magValue (l : Layout) (neg : Bool) (q : Nat) : Val :=
  let e := q / 2 ^ l.trail
  let t := q % 2 ^ l.trail
  if e = 0 then .fin neg t (1 - (l.bias : Int) - l.trail)
  else .fin neg (2 ^ l.trail + t) ((e : Int) - l.bias - l.trail)

/-- `Value(code, fmt)` (R69, R70, R77, R78). -/
def value (f : Fmt) (c : Nat) : Val :=
  let l := layout f
  let (s, q) := splitCode l c
  if isB8 f && l.nan == some (c % 256) then .nan
  else if q ≤ l.top then magValue l s q
  else if l.inf == some q then .inf s
  else .nan

/-- floor(log2 n) for n > 0. -/
def log2 (n : Nat) : Nat := Nat.log2 n

/-- n := round(m × 2^e / 2^q) with the part lost: the integer, and the remainder against half a unit. -/
structure Cut where
  n : Nat
  lost : Bool
  half : Ordering
  deriving DecidableEq, Repr

/-- The integer part of m × 2^(e−q) and where the rest lies. -/
def cut (m : Nat) (e q : Int) : Cut :=
  if q ≤ e then ⟨m * 2 ^ (e - q).toNat, false, .lt⟩
  else
    let s := (q - e).toNat
    let r := m % 2 ^ s
    ⟨m / 2 ^ s, r != 0, compare (2 * r) (2 ^ s)⟩

/-- Whether the rounding of R80 takes the next value up in magnitude. `down` sends a tie to the smaller magnitude. -/
def roundsUp (mode : Rnd) (neg down : Bool) (c : Cut) : Bool :=
  match mode with
  | .rz => false
  | .rd => neg && c.lost
  | .ru => !neg && c.lost
  | .rne => match c.half with
    | .lt => false
    | .gt => true
    | .eq => !down && c.n % 2 == 1

/-- Exponent of the grid step at m × 2^e, m > 0 (R69). -/
def stepExp (l : Layout) (m : Nat) (e : Int) : Int :=
  max ((log2 m : Int) + e) (1 - (l.bias : Int)) - l.trail

/-- The magnitude code of n × 2^q, where q is a grid step: codes go on without an upper limit (R80). -/
def gridCode (l : Layout) (n : Nat) (q : Int) : Nat :=
  (q + l.trail - (1 - (l.bias : Int))).toNat * 2 ^ l.trail + n

/-- Ties go to the smaller magnitude in e2m1 and in b8 with P = 1 (R80). -/
def tieDown : Fmt → Bool
  | .e2m1 => true
  | .b8 k => k.p == 1
  | _ => false

/-- The code of a magnitude with a sign; b8 has no −0. -/
def signCode (f : Fmt) (neg : Bool) (q : Nat) : Nat :=
  let l := layout f
  if neg && l.signed && !(isB8 f && q == 0) then 2 ^ (l.width - 1) + q else q

/-- The canonical NaN of a format; +0 in e2m1, which has none (R71, R81 step 1). -/
def nanCode (f : Fmt) : Nat := (layout f).nan.getD 0

/-- An infinity of R81 steps 2 and 3, without sat: NaN where the format has none, ±6 in e2m1. -/
def infCode (f : Fmt) (neg : Bool) : Nat :=
  match (layout f).inf with
  | some q => signCode f neg q
  | none => match f with
    | .e2m1 => signCode f neg 7
    | _ => nanCode f

/-- A negative value in a natural b8 variant (R78), by whether its magnitude came out zero. -/
def naturalNeg (f : Fmt) (sat zero : Bool) : Nat := if zero || sat then 0 else nanCode f

/-- Steps 2 and 3 of R81 for a finite value once its magnitude code is known. -/
def finish (f : Fmt) (mode : Rnd) (sat neg : Bool) (q : Nat) : Nat :=
  let l := layout f
  if neg && !l.signed then naturalNeg f sat (q == 0)
  else if q ≤ l.top then signCode f neg q
  else if sat then signCode f neg l.top
  else match mode with
    | .rne => infCode f neg
    | .rz => signCode f neg l.top
    | .rd => if neg then infCode f neg else signCode f neg l.top
    | .ru => if neg then signCode f neg l.top else infCode f neg

/-- An infinite value (R81 step 2). -/
def convertInf (f : Fmt) (sat neg : Bool) : Nat :=
  if neg && !(layout f).signed then naturalNeg f sat false
  else if sat then signCode f neg (layout f).top else infCode f neg

/-- `Convert(x, fmt, mode, sat)` for a floating-point destination (R81). -/
def convert (f : Fmt) (mode : Rnd) (sat : Bool) : Val → Nat
  | .nan => nanCode f
  | .inf neg => convertInf f sat neg
  | .fin neg m e =>
    if m = 0 then finish f mode sat neg 0
    else
      let l := layout f
      let q := stepExp l m e
      let c := cut m e q
      finish f mode sat neg (gridCode l (c.n + (roundsUp mode neg (tieDown f) c).toNat) q)

/-- One step of a lane's generator (R82). -/
def xorShift32 (x : Word) : Word :=
  let x := x ^^^ (x <<< 13)
  let x := x ^^^ (x >>> 17)
  x ^^^ (x <<< 5)

/-- `StochRound` (R83) with the low 16 bits of the stepped state. -/
def convertSr (f : Fmt) (sat : Bool) (r : Nat) : Val → Nat
  | .nan => nanCode f
  | .inf neg => convertInf f sat neg
  | .fin neg m e =>
    if m = 0 then finish f .rne sat neg 0
    else
      let l := layout f
      let q := stepExp l m e
      let c := cut m e q
      let up := if q ≤ e then false else
        let s := (q - e).toNat
        decide (r * 2 ^ s < (m % 2 ^ s) * 65536)
      finish f .rne sat neg (gridCode l (c.n + up.toNat) q)

/-- The range of an integer type. -/
def intMin (t : IntTy) : Int := if t.signed then -(2 ^ (t.width - 1) : Nat) else 0
def intMax (t : IntTy) : Int := if t.signed then (2 ^ (t.width - 1) : Nat) - 1 else (2 ^ t.width : Nat) - 1
def clampInt (t : IntTy) (x : Int) : Int := max (intMin t) (min (intMax t) x)

/-- `Convert` for an integer destination (R81 steps 1, 2 and 4). -/
def convertInt (t : IntTy) (mode : Rnd) : Val → Int
  | .nan => 0
  | .inf neg => if neg then intMin t else intMax t
  | .fin neg m e =>
    let c := cut m e 0
    let n : Int := c.n + (roundsUp mode neg false c).toNat
    clampInt t (if neg then -n else n)

/-! Exact arithmetic -/

/-- A dyadic number m × 2^e. -/
structure Dy where
  m : Int
  e : Int
  deriving DecidableEq, Repr, Inhabited

namespace Dy
def zero : Dy := ⟨0, 0⟩
/-- The integer m with its exponent lowered to e. -/
def at_ (a : Dy) (e : Int) : Int := a.m * 2 ^ (a.e - e).toNat
def add (a b : Dy) : Dy := let e := min a.e b.e; ⟨a.at_ e + b.at_ e, e⟩
def neg (a : Dy) : Dy := ⟨-a.m, a.e⟩
def sub (a b : Dy) : Dy := a.add b.neg
def mul (a b : Dy) : Dy := ⟨a.m * b.m, a.e + b.e⟩
def lt (a b : Dy) : Bool := let e := min a.e b.e; decide (a.at_ e < b.at_ e)
def le (a b : Dy) : Bool := !b.lt a
/-- The value of a dyadic, with the sign a zero is to have. -/
def val (a : Dy) (zeroNeg : Bool) : Val := .fin (if a.m = 0 then zeroNeg else decide (a.m < 0)) a.m.natAbs a.e
end Dy

namespace Val
/-- The dyadic of a finite value; 0 otherwise. -/
def dy : Val → Dy
  | .fin s m e => ⟨if s then -(m : Int) else m, e⟩
  | _ => .zero
def isNan : Val → Bool
  | .nan => true
  | _ => false
def isInf : Val → Bool
  | .inf _ => true
  | _ => false
def isNeg : Val → Bool
  | .nan => false
  | .inf s => s
  | .fin s _ _ => s
def isZero : Val → Bool
  | .fin _ 0 _ => true
  | _ => false
def neg : Val → Val
  | .nan => .nan
  | .inf s => .inf (!s)
  | .fin s m e => .fin (!s) m e
def abs : Val → Val
  | .nan => .nan
  | .inf _ => .inf false
  | .fin _ m e => .fin false m e
/-- The exact product; NaN for 0 × ∞ (R137). -/
def mul : Val → Val → Val
  | .nan, _ | _, .nan => .nan
  | .inf s, b => if b.isZero then .nan else .inf (s != b.isNeg)
  | a, .inf s => if a.isZero then .nan else .inf (s != a.isNeg)
  | .fin s m e, .fin t n f => .fin (s != t) (m * n) (e + f)
/-- The exact sum; an exact zero of opposite signs is +0, or −0 under RD (R137). -/
def add (mode : Rnd) : Val → Val → Val
  | .nan, _ | _, .nan => .nan
  | .inf s, .inf t => if s = t then .inf s else .nan
  | .inf s, _ | _, .inf s => .inf s
  | .fin s m e, .fin t n f =>
    let d := (Dy.mk (if s then -(m : Int) else m) e).add ⟨if t then -(n : Int) else n, f⟩
    d.val (if s = t then s else mode == .rd)
/-- Numeric order of values that are not NaN; −0 and +0 are equal. -/
def lt : Val → Val → Bool
  | .nan, _ | _, .nan => false
  | .inf s, .inf t => s && !t
  | .inf s, _ => s
  | _, .inf t => !t
  | a, b => a.dy.lt b.dy
end Val

/-- Add with one rounding to the format (R90, R137). -/
def fmaCode (f : Fmt) (mode : Rnd) (a b c : Val) : Nat := convert f mode false ((a.mul b).add mode c)
def addCode (f : Fmt) (mode : Rnd) (a b : Val) : Nat := convert f mode false (a.add mode b)
def mulCode (f : Fmt) (mode : Rnd) (a b : Val) : Nat := convert f mode false (a.mul b)

/-- Minimum and maximum of codes (R138): NaN gives way to the other operand, −0 orders below +0. -/
def minCode (f : Fmt) (a b : Nat) : Nat :=
  let x := value f a
  let y := value f b
  if x.isNan && y.isNan then nanCode f
  else if x.isNan then b
  else if y.isNan then a
  else if x.lt y then a
  else if y.lt x then b
  else if x.isNeg then a else b
def maxCode (f : Fmt) (a b : Nat) : Nat :=
  let x := value f a
  let y := value f b
  if x.isNan && y.isNan then nanCode f
  else if x.isNan then b
  else if y.isNan then a
  else if y.lt x then a
  else if x.lt y then b
  else if x.isNeg then b else a

/-- An exact sum of products and one addend with the specials of R86 steps 1 to 3; an exact zero is −0 when every term is −0, otherwise
+0, or −0 under RD (R90, R137). -/
def sumVal (mode : Rnd) (terms : List Val) : Val :=
  if terms.any Val.isNan then .nan
  else if terms.any (fun x => x.isInf && !x.isNeg) && terms.any (fun x => x.isInf && x.isNeg) then .nan
  else match terms.find? Val.isInf with
    | some x => x
    | none =>
      let d := terms.foldl (fun d x => d.add x.dy) Dy.zero
      d.val (terms.all (fun x => x.isNeg && x.isZero) || mode == .rd)

/-- `ExactSum` of a chunk: an exact zero is −0 only if every product is −0; a chunk with no products is −0 (R85, R86). -/
def chunkSum (ps : List Val) : Val := sumVal .rne ps

/-- `AddRoundNE(acc, S)` (R85, R86 steps 3 and 4). -/
def accumulate (acc : Nat) (s : Val) : Nat := convert .f32 .rne false ((value .f32 acc).add .rne s)

/-- An e8m0 scale (R73). -/
def e8m0 (c : Nat) : Val := if c = 0xFF then .nan else .fin false 1 ((c : Int) - 127)
/-- A ds4 scale with its base exponent (R74). -/
def ds4 (base : Int) (d : Nat) : Val := if d = 15 then .nan else .fin false 1 (base + d)

/-- The integer value of a bit pattern under a type (R53). -/
def intVal (t : IntTy) (x : Nat) : Int :=
  let y := x % 2 ^ t.width
  if t.signed && 2 ^ (t.width - 1) ≤ y then (y : Int) - (2 ^ t.width : Nat) else y

/-- The low n bits of an integer. -/
def lowBits (n : Nat) (x : Int) : Nat := (x % (2 ^ n : Nat)).toNat

/-- floor(√n), bit by bit from bit k down. -/
def isqrt : Nat → Nat → Nat → Nat
  | 0, r, n => if (r + 1) * (r + 1) ≤ n then r + 1 else r
  | k + 1, r, n => let r' := r + 2 ^ (k + 1); isqrt k (if r' * r' ≤ n then r' else r) n

/-- The class of a code: the bit number of R139. -/
def fclass (f : Fmt) (c : Nat) : Nat :=
  let l := layout f
  match value f c with
  | .nan => if (c / 2 ^ (l.trail - 1)) % 2 = 1 then 9 else 8
  | .inf s => if s then 0 else 7
  | .fin s m _ =>
    if m = 0 then (if s then 3 else 4)
    else if (splitCode l c).2 < 2 ^ l.trail then (if s then 2 else 5)
    else (if s then 1 else 6)

/-- `FRND`: the integral value nearest under RND; a zero takes the sign of a (R140). -/
def frndCode (f : Fmt) (mode : Rnd) (c : Nat) : Nat :=
  match value f c with
  | .nan => nanCode f
  | .inf s => infCode f s
  | .fin s m e =>
    let k := cut m e 0
    convert f mode false (.fin s (k.n + (roundsUp mode s false k).toNat) 0)

/-- `FSCALE`: a × 2^b (R140). -/
def fscaleCode (f : Fmt) (mode : Rnd) (c : Nat) (b : Int) : Nat :=
  match value f c with
  | .fin s m e => convert f mode false (.fin s m (e + b))
  | v => convert f mode false v

/-- `FEXP`: the i32 exponent of a (R140). -/
def fexpVal (f : Fmt) (c : Nat) : Int :=
  match value f c with
  | .fin _ m e => if m = 0 then -0x80000000 else (log2 m : Int) + e
  | _ => 0x7FFFFFFF

end Sys2Proof.Machine
end

