-- ==== Sys2Proof/Machine/State.lean ====
section
/-! DEFINITION. The state of the package as plain data, the reasons a step can stop, and the state after reset. -/

namespace Sys2Proof.Machine

/-! Sequencer contexts (01_machine_state) -/

/-- A handle register (R18): the operation it names, and the status word once complete. -/
inductive HandleSt
  | empty
  | pending (op : Nat)
  | complete (op : Nat) (status : Word)
  deriving DecidableEq, Repr, Inhabited

/-- A register cell of a context: a lane's register or predicate (by lane within the slice), a scalar, a predicate, a loop
counter. -/
inductive Loc
  | v (lane n : Nat)
  | lp (lane n : Nat)
  | sc (n : Nat)
  | p (n : Nat)
  | lc (n : Nat)
  deriving DecidableEq, Repr, Inhabited

/-- A fixed-latency result on its way (R48). -/
structure PendWr where
  loc : Loc
  val : Word
  due : Nat
  deriving DecidableEq, Repr, Inhabited

/-- A variable result outstanding (R50): what it writes, the instructions its window still admits, whether it has
arrived. -/
structure VarRes where
  id : Nat
  writes : List (Loc × Word)
  left : Nat
  arrived : Bool
  /-- the result of an acquire, which holds back later memory accesses (R171) -/
  acq : Bool
  deriving DecidableEq, Repr, Inhabited

/-- A reconvergence entry (R16); `bare` when a path ended without a join (R100). -/
structure REnt where
  pc : Word
  pend : BitVec 4
  phase : Bool
  deriving DecidableEq, Repr, Inhabited

/-- A lane (R7, R11, R82). -/
structure Lane where
  live : Bool
  path : Bool
  v : List Word
  p : BitVec 8
  gen : Word
  deriving DecidableEq, Repr, Inhabited

/-- A segment handed down (R106): where it starts, where the sequencer that handed it down goes on, and its ticket. -/
structure Seg where
  start : Word
  fin : Word
  tid : Nat
  deriving DecidableEq, Repr, Inhabited

/-- A ticket (R26): its number, the sequencer's PC, loop counters and call stack at the hand-down, and the position of the
ahead log. -/
structure Ticket where
  id : Nat
  pc : Word
  lc : List Word
  calls : List Word
  pos : Nat
  deriving DecidableEq, Repr, Inhabited

/-- An ahead-log entry (R26): the register and its old value. -/
structure LogEnt where
  loc : Loc
  old : Word
  deriving DecidableEq, Repr, Inhabited

/-- The four outstanding counters (R20). -/
structure Counts where
  copy : Nat
  gather : Nat
  matrix : Nat
  coll : Nat
  deriving DecidableEq, Repr, Inhabited

/-- What a unit waits for (R187, R262, R263 and the stall rules). -/
inductive Wait
  | result
  | lower
  | room
  | handle (spec : Nat) (op : Nat)
  | queuePop (q k : Nat)
  | queuePush (q k : Nat)
  | cls (c : OpClass) (n : Nat)
  | channel (ch : Nat) (n : Word)
  /-- barrier objects waited on: address in `sh`, and the generation that must change -/
  | barrier (objs : List (Word × BitVec 16)) (bar : Bool)
  | pbar (id phase : Nat)
  | regang
  | acca (n : Nat)
  | nap (until_ : Nat)
  | seal
  | galley
  | effects
  | held
  | fence (until_ : Nat)
  | engine
  /-- a draw on a steal (R310) -/
  | steal
  | matrix
  /-- a `SYSCALL`, with its service number and `t0` to `t3` as passed (R120) -/
  | service (n : Word) (args : List Word)
  | tlbi (id : Nat)
  | grid
  /-- a walk for an address, and the pages whose walks have ended since the wait began (R264) -/
  | walk (va : Nat) (ended : List Nat)
  | host
  | access
  /-- a place for a variable result: of each slice that had none the oldest result outstanding (R50) -/
  | full (ids : List Nat)
  deriving DecidableEq, Repr, Inhabited

/-- Why a unit issues nothing until something outside it acts (R251, R257, R269). -/
inductive Stop
  | fault
  | host
  | debug
  | saved
  deriving DecidableEq, Repr, Inhabited

/-- The control part of a context that a trap delivery sets aside (R255, R256). -/
structure Ctl where
  pc : Word
  lc : List Word
  calls : List Word
  rstk : List REnt
  paths : List Bool
  lives : List Bool
  segs : List Seg
  busy : Bool
  seen : Nat
  tickets : List Ticket
  nextTid : Nat
  log : List LogEnt
  logBase : Nat
  past : List (Nat × List (Loc × Word))
  wait : Option Wait
  parted : Bool
  /-- the join mark of the instruction at PC has acted (R99); `XISSUE` words to skip (R114) -/
  joined : Bool
  xk : Nat
  deriving DecidableEq, Repr, Inhabited

/-- One context (R11): a slice with its lanes, or a group, team or grid context. `sc` are its scalars: g0 to g63, t0 to t127
or w0 to w31. -/
structure Ctx where
  pc : Word := 0
  sc : List Word := []
  p : BitVec 8 := 0x80
  lc : List Word := [0, 0, 0, 0]
  h : List HandleSt := List.replicate 16 .empty
  /-- moves between handles on their way: register, value, cycle at which it is readable (R48, R127) -/
  hmoves : List (Nat × HandleSt × Nat) := []
  calls : List Word := []
  rstk : List REnt := []
  lanes : List Lane := []
  counts : Counts := ⟨0, 0, 0, 0⟩
  /-- effect counter (R288) -/
  eff : Nat := 0
  fixed : List PendWr := []
  vars : List VarRes := []
  segs : List Seg := []
  busy : Bool := false
  seen : Nat := 0
  tickets : List Ticket := []
  nextTid : Nat := 1
  log : List LogEnt := []
  logBase : Nat := 0
  /-- of the tickets that a rollback has dropped, the values that the units still in their segments read (R108, R109) -/
  past : List (Nat × List (Loc × Word)) := []
  /-- group only: the parted flag (R8) -/
  parted : Bool := false
  wait : Option Wait := none
  /-- earliest next issue cycle (R52), the last issue cycle plus one, cycles ready and not chosen, YLD (R312) -/
  next : Nat := 0
  last : Nat := 0
  skip : Nat := 0
  yld : Bool := false
  /-- the registers that the members of a fused group before the one that issues have written (R163) -/
  fresh : List Reg := []
  /-- `XISSUE` words to skip (R114) -/
  xk : Nat := 0
  /-- the join mark of the instruction at PC has already acted (R99) -/
  joined : Bool := false
  stop : Option Stop := none
  saved : Option Ctl := none
  deriving DecidableEq, Repr, Inhabited

/-- A fault as raised (R249, R253, R254). DESIGN CHOICE, log 31, unsafe. -/
structure FaultInfo where
  cause : Cause
  mask : Nat := 0
  wide : Bool := false
  addr : Word := 0
  aux : Word := 0
  sub : Nat := 0
  xword : BitVec 96 := 0
  xk : Nat := 0
  deriving DecidableEq, Repr, Inhabited

/-- A fault held for delivery: the unit that raised it (R251). -/
structure Pending where
  unit : CtxId
  info : FaultInfo
  pc : Word
  word : BitVec 96
  scope : Nat
  deriving DecidableEq, Repr, Inhabited

/-! Teams (R6, R24) -/

/-- A role queue (R191 to R194). Elements carry the role that pushed them, oldest first. -/
structure QueueSt where
  base : Nat
  cap : Nat
  allow : Nat
  prod : BitVec 4
  spill : Bool
  ring : Nat
  quota : Nat
  elems : List (Nat × Word)
  /-- elements ever popped from the front: the position in the `sh` storage and the ring -/
  head : Nat
  deriving DecidableEq, Repr, Inhabited

/-- A role of a team (R6, R9, R355). -/
structure RoleSt where
  first : Nat
  groups : Nat
  slices : Nat
  budget : Nat
  entry : Word
  ended : Bool
  /-- the fault being handled: its frame's level and unit -/
  handler : Option Pending
  /-- VIEWCHG due: domain, new view -/
  viewchg : List (Nat × Nat)
  /-- where its trap frame was written last, in the team's `sh` (R252) -/
  frame : Nat
  deriving DecidableEq, Repr, Inhabited

/-- What a checkpoint holds of one context (R283). -/
structure CkCtx where
  id : CtxId
  pc : Word
  lc : List Word
  calls : List Word
  rstk : List REnt
  parted : Bool
  lanes : List (Bool × Bool × Word)
  h : List HandleSt
  coll : Nat
  carry : List (Nat × Word)
  seen : Nat
  segs : List Seg
  busy : Bool
  tickets : List Ticket
  nextTid : Nat
  deriving DecidableEq, Repr, Inhabited

/-- A forme reservation record (R205). -/
structure Rec where
  valid : Bool := false
  moff : Nat := 0
  soff : Nat := 0
  base : BitVec 11 := 0
  scl : ScaleKind := .none
  blk : BlkLen := .none
  spars : Sparsity := .dense
  fmt : Fmt := .bf16
  size : Nat := 0
  start : Nat := 0
  owner : Option TeamId := none
  /-- the epoch in which its owner freed it, while it is not yet free to the other team (R227) -/
  freed : Option Nat := none
  deriving DecidableEq, Repr, Inhabited

/-- Storage with unspecified contents: written cells; the blocks whose other cells are unspecified, each with the number of
its free values; every further cell is zero. -/
structure Blob where
  cells : List (Nat × Word)
  fills : List (Nat × Nat)
  deriving DecidableEq, Repr, Inhabited

/-- An accumulator tile (R218); element (i, j) is cell 64 i + j. -/
structure Tile where
  elems : Blob
  vm : Nat
  vn : Nat
  owner : Option TeamId
  freed : Option Nat
  deriving DecidableEq, Repr, Inhabited

/-- A checkpoint of one team (R283). -/
structure Ckpt where
  /-- checkpoint time in ns, epoch, whether it is valid (R284), whether it is the one of team start (R282) -/
  c : Nat
  epoch : Nat
  valid : Bool
  start : Bool
  ctxs : List CkCtx
  queues : List (Option QueueSt)
  coord : List (Nat × Nat × Word)
  tileinc : Word
  tile : Option Nat
  tiles : List (Nat × Nat × Nat)
  recs : List (Nat × Rec)
  nr : Bool
  deriving DecidableEq, Repr, Inhabited

/-- What a team is doing. -/
inductive TeamSt
  | running
  | stopped (why : Stop)
  | saved
  | ended
  deriving DecidableEq, Repr, Inhabited

/-- A role that stands at a seal point (R198, R199): `TILE.T` or `SEAL.T`, `.NR`, the registers it writes, its LA, the cycle
of its arrival. -/
structure Sealer where
  role : Nat
  tile : Bool
  nr : Bool
  d : Reg
  pd : BitVec 3
  la : Nat
  at_ : Nat
  deriving DecidableEq, Repr, Inhabited

structure Team where
  ctx : Nat
  die : Nat
  /-- core of the package: 160 × die + number -/
  core : Nat
  pair : Option TeamId
  roles : List RoleSt
  shBase : Nat
  shSize : Nat
  chans : BitVec 16
  queues : List (Option QueueSt)
  state : TeamSt
  epoch : Nat
  inc : Word
  nr : Bool
  /-- what the last `TILE.T` wrote: role, `t` register or 128 + predicate, value (R283) -/
  coord : List (Nat × Nat × Word)
  /-- linear index of the current tile -/
  tile : Option Nat
  effReserve : Bool
  galReserve : Bool
  exited : Nat
  matstall : Word
  /-- the two checkpoint slots, newest first, and the checkpoint of team start (R282, R284) -/
  ckpts : List Ckpt
  ckpt0 : Option Ckpt
  sealers : List Sealer
  /-- faults raised by other roles, in order (R251) -/
  faults : List Pending
  sig : DWord
  sigPrev : Option DWord
  mismatches : Nat
  shadow : Option TeamId
  /-- abort completions: epoch, physical address (R298) -/
  aborts : List (Nat × Nat)
  /-- draws of `TILE.T`: the epoch that the seal opened, the index (R311) -/
  drawn : List (Nat × Option Nat)
  /-- a single step: group, slice, and its stage: the unit only, the whole team, in the handler (R270) -/
  stepping : Option (Nat × Nat × Nat)
  /-- being taken off its core (R258): whether only the host's command brings it back (R263), and the tiles of the requests that
  a wait cycle withdrew (R225) -/
  leaving : Bool
  toHold : Bool
  /-- faults raised for the host while it is taken off its core: role, fault (R258) -/
  late : List (Nat × Pending)
  requeue : Nat
  /-- STRIKE_NR was reported of it (R287) -/
  struck : Bool
  deriving DecidableEq, Repr, Inhabited

/-! Launches (R306, R309, R353 to R357) -/

/-- The key of an effect (R288, R289). -/
structure EffKey where
  ctx : Nat
  launch : Nat
  team : Nat
  epoch : Nat
  role : Nat
  group : Nat
  up : Bool
  slice : Nat
  lane : Nat
  seq : Nat
  deriving DecidableEq, Repr, Inhabited

/-- Draws in the queue of a die's spool (R309): of a `TILE.T`, with the teams of its seal, or of the lanes of a `TILE.L`, each with its
key. -/
structure Spooler where
  die : Nat
  unit : CtxId
  teams : List TeamId
  lanes : List ((CtxId × Nat) × EffKey)
  deriving DecidableEq, Repr, Inhabited

structure Launch where
  num : Nat
  ctx : Nat
  queue : Nat
  slot : Nat
  home : Nat
  pairMode : Bool
  snap : Bool
  proof : Bool
  audit : Bool
  rel : Nat
  n : Nat
  extent : Nat × Nat × Nat
  codeBase : Nat
  pvBase : Nat
  pvStride : Nat
  trapPc : Option Word
  carry : List (BitVec 11)
  signal : Nat
  record : Nat
  recK : Option Nat
  pbars : List (Nat × Nat)
  /-- per die the range of linear indices left (R309), and the steals under way: die, cycle at which it is served (R310) -/
  spool : List (Nat × Nat)
  steals : List (Nat × Nat)
  /-- draws that wait at a spool, in order of arrival -/
  draws : List Spooler
  status : Nat
  placed : Bool
  killed : List (TeamId × Nat)
  /-- roles whose W-scope instruction has its arrivals on the barrier tree, with the cycle of its release there, and those whose instruction may
execute (R96,
  R319) -/
  arrived : List (Nat × Nat)
  ready : List Nat
  deriving DecidableEq, Repr, Inhabited

/-! Cores: forme, accumulators, engines (R30, R176, R204, R211, R219, R229) -/

structure Chan where
  cwp : Word
  ops : List Nat
  running : Bool
  deriving DecidableEq, Repr, Inhabited

structure Core where
  num : Nat
  recs : List Rec
  /-- granules freed by a team and not yet free to the other one: granule, team, epoch (R227) -/
  granHold : List (Nat × TeamId × Nat)
  /-- bytes of the forme -/
  forme : Blob
  tiles : List Tile
  chans : List Chan
  gather : List Nat
  /-- matrix queue: operations in acceptance order, until they retire -/
  mq : List Nat
  /-- requests of `ACCA` in arrival order: context, count, tiles granted (R219) -/
  alloc : List (CtxId × Nat × Option (List Nat))
  bucket : Nat
  /-- cycle from which the array may start a product -/
  arrayFree : Nat
  ports : List (Nat × Option CtxId)
  /-- core translation cache: context, page number, page size as a power of two, entry (R264) -/
  tlb : List (Nat × Nat × Nat × Nat)
  deriving DecidableEq, Repr, Inhabited

/-- An endpoint of an engine operation: a space, and a local or 57-bit virtual address in it (R165). -/
structure EP where
  sp : EngSpace
  addr : Nat
  deriving DecidableEq, Repr, Inhabited

/-- How a product reads one operand (R208, R215): the elements and scales of each row as places in forme or `sh` bytes. -/
structure PArea where
  fmt : Fmt
  scl : ScaleKind
  block : Nat
  base : Int
  start : Nat
  soff : Nat
  rowBytes : Nat
  scaleBytes : Nat
  deriving DecidableEq, Repr, Inhabited

/-- What an engine operation does (R175, R202). -/
inductive OpKind
  | copy (dst src : EP) (len : Nat)
  | fill (dst : EP) (pat : Word) (len : Nat)
  | red (op : AtomOp) (dst src : EP) (len : Nat)
  | gath (size : Nat) (dst src : EP) (idx count : Nat)
  | scat (size : Nat) (dst src : EP) (idx count : Nat)
  | atom (op : AtomOp) (w64 : Bool) (slot : Nat) (dst : EP) (val cmp : Nat)
  /-- record, first byte in the range, data -/
  | formeLoad (rec_ lo : Nat) (data : List Byte)
  /-- tile, records of A and B, sizes, K, `.PAIR`, areas of A and B, masks of `MMAS`, gathered rows of `MMAG` -/
  | product (tile a b m n k : Nat) (pair : Bool) (areaA areaB : PArea) (masks : Option (List (List Nat)))
      (rows : Option (List (List Byte)))
  | zero (tile : Nat)
  | load (tile : Nat) (f : Fmt) (src : EP) (pitch : Nat)
  | store (tile : Nat) (f : Fmt) (add : Bool) (rnd : Rnd) (sat : Bool) (sr : Option (CtxId × Nat)) (dst : EP) (pitch : Nat)
  | put (tile : Nat) (elems : List (Nat × Word))
  | coll (op : CollOp) (red : CollRed) (ty : CollTy) (pol : CollPolicy) (dom root n : Nat) (src dst : EP)
  deriving DecidableEq, Repr, Inhabited

/-- An engine operation (R175 to R177). -/
structure Op where
  id : Nat
  kind : OpKind
  cls : Option OpClass
  team : TeamId
  core : Nat
  /-- the issuing context, and the contexts whose counters count it -/
  issuer : CtxId
  units : List CtxId
  chan : Option Nat := none
  /-- `sh` address of the barrier object to which deliveries are subtracted (R189) -/
  barrier : Option Nat := none
  /-- handle register named as its completion target -/
  handle : Option Nat := none
  epoch : Nat := 0
  key : Option EffKey := none
  /-- bytes or elements delivered, and blocks -/
  done : Nat := 0
  blocks : Nat := 0
  begun : Bool := false
  finished : Bool := false
  cancel : Bool := false
  suspended : Bool := false
  code : Nat := 0
  /-- the tick from which its completion may be seen: writes to host memory have been flushed (R245) -/
  flush : Nat := 0
  /-- the page on which the host was last asked (R267) -/
  asked : Option Nat := none
  /-- the address whose walk it waits for, and the pages whose walks have ended since it came to its present access -/
  walk : Option Nat := none
  walks : List Nat := []
  /-- taken off its engine at a pre-emption, with what is left to do (R259) -/
  parked : Bool := false
  /-- products: cycle of the start, times passed over -/
  started : Nat := 0
  passed : Nat := 0
  deriving DecidableEq, Repr, Inhabited

/-- A held write (R243, R281): bytes in memory, when it was performed in ns, the containment unit's team, the effect with the number of
its block, the contexts whose instruction wrote it, if one did, and whether it is the write-back of a private stack, which a strike leaves
(R234). -/
structure Held where
  core : Nat
  team : TeamId
  bytes : List (Nat × Byte)
  p : Nat
  key : Option EffKey
  part : Nat
  sealed : Bool
  who : List CtxId
  back : Bool
  deriving DecidableEq, Repr, Inhabited

/-- An effect-log entry (R288); `point` numbers the ordering point, `parts` the blocks that a `BRED` has updated there (R181). -/
structure Effect where
  key : EffKey
  point : Nat
  inc : Nat
  op : Nat
  kind : Nat
  addr : Nat
  result : DWord
  parts : List Nat
  deriving DecidableEq, Repr, Inhabited

/-! Memory -/

/-- Memory in canonical form: addresses strictly rising, no byte 0 listed; an unlisted address reads 0. Device memory
from 0, host memory from 2^56, `dz` of die d at 2^60 + 2^28 d, `sh` of core c at 2^61 + 2^20 c, the flash slots at 2^62. -/
structure Memory where
  cells : List Host.Cell
  deriving DecidableEq, Repr, Inhabited

/-! Dies, compositors and control pages -/

/-- The training and status registers of one die's DRAM (R385). -/
structure DramRegs where
  go : Bool
  step : Nat
  done : BitVec 4
  err : Bool
  code : Nat
  fail : DWord
  spare : Nat
  refi : Nat
  sel : Nat
  /-- the code with which the running step ends -/
  result : Nat
  /-- the spares have been mapped since reset (R385) -/
  mapped : Bool
  dly : List (Nat × Nat × Word)
  deriving DecidableEq, Repr, Inhabited

/-- The registers of one die's photonics (R316, R388, R389). -/
structure PhotRegs where
  go : Bool
  step : Nat
  done : BitVec 4
  err : Bool
  code : Nat
  drift : Nat
  lit : Bool
  rings : List (Nat × Bool × Nat)
  /-- rings out of lock in service, with the tick by which they must be locked again; rings removed -/
  lost : List (Nat × Nat)
  removed : List Nat
  /-- the code with which the running step ends -/
  result : Nat
  /-- connection table: entry, VALID, STATE, WAVES, DEST, FIRST -/
  conn : List (Nat × Bool × Nat × Nat × Nat × Nat)
  /-- circuits being torn down whose entry has taken a new request: entry, WAVES, DEST, FIRST (R317) -/
  draining : List (Nat × Nat × Nat × Nat)
  defaults : Bool
  deriving DecidableEq, Repr, Inhabited

/-- The compositor registers of R373. -/
structure AccRegs where
  ctx : Nat
  addr : DWord
  dat : DWord
  dst : DWord
  cause : Nat
  err : Bool
  qsel : Nat
  qnoth : Word
  qrdh : Word
  rec_ : DWord
  dones : List Word
  /-- its access has timed out (R337) -/
  timedOut : Bool
  deriving DecidableEq, Repr, Inhabited

structure Die where
  num : Nat
  dram : DramRegs
  phot : PhotRegs
  acc : AccRegs
  temp : BitVec 16
  /-- die translation cache: context, page number, page size as a power of two, entry -/
  tlb : List (Nat × Nat × Nat × Nat)
  /-- miss merge table: context and virtual address of each walk in progress -/
  merge : List (Nat × Nat)
  /-- it is halted for debug, and since which tick (R338) -/
  halted : Bool
  haltedAt : Nat
  /-- the step of R383 that its bring-up is at, 0 for none and 9 for one that waits for the other dies; the tick by which the running
  step of its DRAM or photonics must end, and that by which a step 5 or 8 must -/
  phase : Nat
  limit : Option Nat
  phaseBy : Option Nat
  deriving DecidableEq, Repr, Inhabited

/-- A context (R363). -/
structure Context where
  num : Nat
  desc : Nat
  root : Nat
  frBase : Nat
  frLog : Nat
  slice : Nat
  waitb : Nat
  timeout : Nat
  pvmark : Nat
  debug : Bool
  part : List Nat
  used : Nat
  usedFrac : Nat
  sliceEnd : Nat
  frProd : Nat
  frFree : Nat
  frSeq : Nat
  /-- entries held while the ring is full -/
  frHeld : List (List Byte)
  exhausted : Bool
  deriving DecidableEq, Repr, Inhabited

/-- A packet read and not yet dispatched (R351, R357): its retained record, or the record that firmware keeps, its 64 bytes
with, for a launch, its arguments, descriptor and role table at 64, 320 and 576, and its slot index. -/
structure Packet where
  rec_ : Nat
  recK : Option Nat
  bytes : List Byte
  slot : Nat
  deriving DecidableEq, Repr, Inhabited

/-- A user-mode queue (R348 to R351). -/
structure HQueue where
  num : Nat
  ctx : Nat
  home : Nat
  prio : Nat
  slots : Nat
  ring : Nat
  rdAddr : Nat
  rd : Nat
  notify : Nat
  state : Nat
  drops : Nat
  stale : Nat
  /-- packets read and not yet dispatched, oldest first -/
  ready : List Packet
  /-- signals not yet satisfied of the barrier-AND packet at the head, once it is being sampled; for a copy packet, that its fault
  has been reported -/
  deps : Option (List Nat)
  /-- the tick of the next sample (R304) -/
  sampleAt : Nat
  /-- when a packet of it was last taken, and a launch of it last placed (R303, R307) -/
  served : Nat
  placed : Nat
  deriving DecidableEq, Repr, Inhabited

/-- A package barrier (R201, R318). -/
structure PBar where
  launch : Nat
  expect : Nat
  phase : Nat
  /-- team contexts that arrived in the open phase, and those whose roles have ended -/
  arrived : List (TeamId × Nat)
  ended : List (TeamId × Nat)
  /-- the phase has closed, and the cycle of the tree at which it is released (R319) -/
  releasing : Bool
  due : Nat
  deriving DecidableEq, Repr, Inhabited

/-! Collective domains (16_collectives) -/

inductive MemberSt | normal | leading | acked | excluded | joining
  deriving DecidableEq, Repr, Inhabited

/-- A collective accepted at this member and not yet complete. -/
structure Collective where
  seq : Nat
  op : Nat
  /-- number that describes it: MOD[8:0], ROOT and n (R326) -/
  desc : Nat
  /-- the own source is read under the current view, and its bytes read so far, page by page (R323) -/
  started : Bool
  read : List Byte
  /-- the bytes of the source that the own destination reads, as they were at issue: offset, place, value (R242) -/
  source : List (Nat × Nat × Byte)
  /-- size and number of the view in which it was accepted to run; number 0 while an offer keeps it from starting (R336) -/
  startSize : Nat
  startView : Nat
  /-- values of tree nodes received or formed: level, position, elements -/
  nodes : List (Nat × Nat × List Word)
  /-- blocks received: rank, elements -/
  blocks : List (Nat × List Word)
  /-- the own value has gone up the tree, or the own blocks out -/
  sent : Bool
  root : Option (List Word)
  /-- the places of its destination written so far, and that all of it is -/
  dest : List Nat
  written : Bool
  /-- the bytes that stand there once it completes: until then they are undefined (R242) -/
  data : List Byte
  /-- offsets of source bytes that have changed since the issue (R242) -/
  tainted : List Nat
  fins : List Nat
  finSent : Bool
  deriving DecidableEq, Repr, Inhabited

/-- A flit sent and not acknowledged (R343): rank, sequence, ticks of the first sending and of the next, and how long after the first it is
late (R337). -/
structure Unacked where
  rank : Nat
  seq : Nat
  first : Nat
  again : Nat
  limit : Nat
  flit : Flit
  deriving DecidableEq, Repr, Inhabited

structure Domain where
  num : Nat
  ranks : Nat
  own : Nat
  hold : Nat
  ports : Nat
  view : Nat
  members : List Nat
  state : MemberSt
  noQuorum : Bool
  /-- the highest number acked or proposed, and its proposer -/
  ackedNum : Nat
  ackedFrom : Nat
  proposal : Option (Nat × List Nat)
  acks : List (Nat × Word)
  suspected : List Nat
  /-- per member: tick of its last heartbeat, and HOLD -/
  heard : List (Nat × Nat × Bool)
  deadline : Option Nat
  nextSeq : Nat
  confirmed : Option Nat
  colls : List Collective
  /-- flits taken of collectives not yet accepted here, or while the domain's collectives stall: sequence, sender, flit -/
  early : List (Nat × Nat × Flit)
  /-- members that a proposal has excluded and no view yet (R330, R339) -/
  dropped : List Nat
  unacked : List Unacked
  /-- sequences of collectives that ended here as their members differed: whoever has not heard of it is told again (R326) -/
  clashed : List Nat
  /-- JOIN_OFFER under way: number, coordinator, members -/
  offer : Option (Nat × Nat × List Nat)
  joinAcks : List Nat
  frozen : Bool
  /-- packages answered with VIEW_COMMIT, and when (R332) -/
  answered : List (Nat × Nat)
  /-- the committed sequence, and the members not yet heard under the view -/
  commit : Word
  commitTo : List Nat
  /-- ticks of the next heartbeat, and of the next resending of messages -/
  beat : Nat
  again : Nat
  deriving DecidableEq, Repr, Inhabited

/-! Messages to the outside, and firmware update -/

/-- What the package sends to other packages, the host, the debug agent and the management controller. -/
inductive OutMsg
  | membership (dom dest : Nat) (m : Instr)
  | flit (dom dest : Nat) (tag : BitVec 16) (seq : Nat) (f : Flit)
  | debug (team : TeamId) (frame : List Byte)
  | hostRead (data : List Byte)
  /-- a host request completes as unsupported (R346), or with an abort (R298) -/
  | hostUnsupported
  | hostAbort (pa : Nat)
  | auditRecord (team : TeamId) (coord epoch : Nat) (s0 s1 : DWord)
  | pldm (cmd : Nat) (code : Nat) (data : List Nat)
  | errorIrq (die : Nat)
  /-- a snapshot that is held: the effect-log entries and the reservation records of each core, in their layouts (R205, R288) -/
  | snapshot (effects : List (BitVec 256)) (recs : List (Nat × List (BitVec 128)))
  deriving DecidableEq, Repr, Inhabited

/-- The state of an update by PLDM (R369). -/
inductive UpdSt | idle | learn | ready | download | verify | apply | activate
  deriving DecidableEq, Repr, Inhabited

structure Pldm where
  state : UpdSt
  comp : Nat
  size : Nat
  staged : List Nat
  /-- new firmware has been started and has not taken over, and the tick by which it must -/
  activating : Bool
  until_ : Nat
  deriving DecidableEq, Repr, Inhabited

/-- The steps of power-up (R383). -/
inductive Boot | cold | osc | link | dies | running | recovery
  deriving DecidableEq, Repr, Inhabited

structure Mailbox where
  seq : BitVec 16
  code : BitVec 16
  args : List DWord
  stSeq : BitVec 16
  err : Nat
  busy : Bool
  results : List DWord
  dropped : Bool
  deriving DecidableEq, Repr, Inhabited

/-- A snapshot trigger on its way (R392): the cycle of the barrier tree and the tick it fired at, its source as a bit of SRC, tag, context, PC. -/
structure Trigger where
  cycle : Nat
  tick : Nat
  src : Nat
  tag : Word
  ctx : Nat
  pc : Word
  deriving DecidableEq, Repr, Inhabited

/-- The package's control registers that are not per die (functions 0, 9 to 13). -/
structure Pages where
  failstep : Nat
  dieok : BitVec 4
  dramok : BitVec 4
  phok : BitVec 4
  linkup : Bool
  osclk : Bool
  unlkfail : Nat
  dierst : BitVec 4
  unlocked : List Nat
  /-- per function, the low word of EXUNLK as `CSRW` wrote it last -/
  exlow : List (Nat × Word)
  -- function 9
  narrow : Bool
  train : Bool
  phase : Nat
  /-- the tick at which the running training began, and the retries in a row of one flit (R387) -/
  trainAt : Nat
  retries : Nat
  width : Nat
  recoveryProfile : Bool
  fllmap : Word
  flrev : Bool
  flerrs : Word
  fleq : List (BitVec 8 × BitVec 4)
  -- function 10
  govlim : Nat
  fixed : Bool
  govfix : Nat
  govrate : Nat
  govpwr : Nat
  govstr : Word
  /-- the tick of the governor's next update (R391) -/
  govAt : Nat
  -- function 11
  held : Bool
  src : Nat
  dropped : Nat
  faulten : Bool
  dbgen : Bool
  sntag : Word
  snctx : Nat
  snpc : Word
  snref : Nat
  /-- what the blocks latched for the held snapshot: per core, slice PCs, parted flags, outstanding counters, galley entries, matrix queue
  depth and effect counters, its reservation records and its effects; the number of the free values of the other blocks; and the triggers
  on the barrier tree -/
  snap : List (Nat × List Nat)
  snapNo : Nat
  triggers : List Trigger
  -- functions 12 and 13
  lcsel : Nat
  lcdatah : Word
  /-- tick of the last write of the counters to MRAM -/
  savedAt : Nat
  smsel : Nat
  -- boot status block (R371)
  stage : Nat
  slot : Nat
  /-- the slot whose configuration block is in effect, coded as SLOT: it changes at a reset only (R390) -/
  cfgSlot : Nat
  reasonA : Nat
  reasonB : Nat
  deriving DecidableEq, Repr, Inhabited

/-- Non-volatile MRAM (R367, R368, R385, R393). -/
structure Mram where
  bootSel : Nat
  minSvn : List Nat
  fieldMap : List (Nat × Nat × Nat × Nat)
  counters : List (Nat × Nat)
  deriving DecidableEq, Repr, Inhabited

/-- A pre-empted team (R258 to R260): the condition it was in, the bytes of its `sh` window, its tiles, its records with the
bytes of their ranges, its restart records, its channels' pointers; its contexts stay in `ctxs`. `requeue` is the number of tiles of an
accumulator request withdrawn by a wait cycle (R225), `grants` the requests granted and not yet taken; `held` when only the host brings
it back. -/
structure SavedTeam where
  id : TeamId
  state : TeamSt
  sh : List (Nat × Byte)
  tiles : List (Nat × Tile)
  recs : List (Nat × Rec × List (Nat × Word))
  ops : List Op
  chans : List (Nat × Word)
  requeue : Nat
  grants : List (CtxId × Nat × Option (List Nat))
  /-- granules freed and not yet free to another team (R227) -/
  granHold : List (Nat × TeamId × Nat)
  held : Bool
  /-- the bytes of `sh` that it reached, and where its save area holds its scope registers and handles (R259, R261) -/
  reach : Nat
  scopeAt : Nat
  deriving DecidableEq, Repr, Inhabited

/-- What the last `exec` did with its instruction. -/
inductive Took | none | issued | joined | stalled | trapped | gone
  deriving DecidableEq, Repr, Inhabited

/-- A word of an `XISSUE` (R112): the lanes it issues for, and what its meaning did with it. -/
structure XMode where
  parts : List (CtxId × Nat)
  written : List (CtxId × Loc)
  trap : Option FaultInfo
  stall : Option Wait
  deriving DecidableEq, Repr, Inhabited

/-- The package. -/
structure State where
  /-- core cycles, reference ticks in ns, and the fraction of a tick in 1/33 -/
  cycle : Nat
  tick : Nat
  frac : Nat
  stretched : Bool
  /-- the model's own: step number, number of the next free value, of the next operation, the outside's events to take,
  outcomes that fall due at a cycle, the context whose instruction runs, what `exec` did with it, and the word of an
  `XISSUE` that runs -/
  turn : Nat
  nonce : Nat
  opNum : Nat
  inbox : List Instr
  timers : List (Nat × Instr)
  cur : Option CtxId
  took : Took
  xm : Option XMode
  mem : Memory
  ctxs : List (CtxId × Ctx)
  teams : List (TeamId × Team)
  launches : List Launch
  launchCtr : Nat
  cores : List Core
  ops : List Op
  galley : List Held
  effects : List Effect
  /-- writes to private stacks not yet written back (R234), oldest first -/
  pvCache : List Held
  /-- check words that hold uncorrectable data: first byte, number of bytes (R298) -/
  bad : List (Nat × Nat)
  dies : List Die
  contexts : List Context
  queues : List HQueue
  pbars : List (Nat × PBar)
  domains : List Domain
  saved : List SavedTeam
  retained : List (Nat × List Byte)
  /-- completions whose signal meets another unit's held write: context, address, status (R243) -/
  signals : List (Nat × Nat × Nat)
  tlbis : List (Nat × Nat × List Nat)
  mailbox : Mailbox
  apbase : Nat
  pages : Pages
  mram : Mram
  /-- the lifetime counters as they count, between writes to MRAM -/
  counters : List (Nat × Nat)
  boot : Boot
  bootCount : Nat
  /-- the tick by which the running step of power-up must end -/
  limit : Option Nat
  measurements : List (List Byte)
  pldm : Pldm
  out : List OutMsg
  deriving DecidableEq, Repr, Inhabited

/-! Why a step can stop -/

/-- The machine stops. -/
inductive Fault
  /-- raised by an access to a physical address that the part does not have (R1, R29); the manual gives no effect. Safe. -/
  | noSuchAddress
  /-- raised by exec of a coded instruction in a state where no context of the instruction's scope stands at it: no word
  issues there, so the manual gives no effect. Safe. -/
  | noContext
  deriving DecidableEq, Repr, Inhabited

/-- No meaning. -/
inductive Refusal
  /-- raised by the arm of an instruction that has no meaning yet. Safe. -/
  | notModelled (mnemonic : String)
  deriving DecidableEq, Repr, Inhabited

/-! Reset -/

def DramRegs.reset : DramRegs := ⟨false, 0, 0, false, 0, 0, 0, 0, 0, 0, false, []⟩
def PhotRegs.reset : PhotRegs := ⟨false, 0, 0, false, 0, 0, false, [], [], [], 0, [], [], false⟩
def AccRegs.reset : AccRegs := ⟨0, 0, 0, 0, 0, false, 0, 0, 0, 0, [], false⟩
def Die.reset (n : Nat) : Die := ⟨n, .reset, .reset, .reset, 0, [], [], false, 0, 0, none, none⟩
def Pages.reset : Pages where
  failstep := 0
  dieok := 0
  dramok := 0
  phok := 0
  linkup := false
  osclk := false
  unlkfail := 0
  dierst := 0xF
  unlocked := []
  exlow := []
  narrow := true
  train := false
  phase := 0
  trainAt := 0
  retries := 0
  width := 0
  recoveryProfile := false
  fllmap := 0
  flrev := false
  flerrs := 0
  fleq := []
  govlim := 0x1068
  fixed := false
  govfix := 0
  govrate := 0
  govpwr := 0
  govstr := 0
  govAt := 10000
  held := false
  src := 0
  dropped := 0
  faulten := true
  dbgen := false
  sntag := 0
  snctx := 0
  snpc := 0
  snref := 0
  snap := []
  snapNo := 0
  triggers := []
  lcsel := 0
  lcdatah := 0
  savedAt := 0
  smsel := 0
  stage := 0
  slot := 0
  cfgSlot := 0
  reasonA := 0
  reasonB := 0
def Mailbox.reset : Mailbox := ⟨0, 0, List.replicate 14 0, 0, 0, false, List.replicate 4 0, false⟩
def Mram.reset : Mram := ⟨0, [0, 0], [], []⟩
def Pldm.reset : Pldm := ⟨.idle, 0, 0, [], false, 0⟩

/-- The package right after reset (R383, R396 and the Reset columns of the register tables): nothing powered but the
recovery sequencer, no context, memory with nothing listed. DESIGN CHOICE, log 5, unsafe. -/
def State.reset : State where
  cycle := 0
  tick := 0
  frac := 0
  stretched := false
  turn := 0
  nonce := 0
  opNum := 1
  inbox := []
  timers := []
  cur := none
  took := .none
  xm := none
  mem := ⟨[]⟩
  ctxs := []
  teams := []
  launches := []
  launchCtr := 1
  cores := []
  ops := []
  galley := []
  effects := []
  pvCache := []
  bad := []
  dies := [.reset 0, .reset 1, .reset 2, .reset 3]
  contexts := []
  queues := []
  pbars := []
  domains := []
  saved := []
  retained := []
  signals := []
  tlbis := []
  mailbox := .reset
  apbase := 0
  pages := .reset
  mram := .reset
  counters := []
  boot := .cold
  bootCount := 0
  limit := none
  measurements := []
  pldm := .reset
  out := []

end Sys2Proof.Machine
end

