-- ==== Sys2Proof/Machine/Ops.lean ====
section
/-! DEFINITION. The named operations over the state: contexts and registers, issuing units, time, memory and the galley,
translation, faults and the return from them, and the shared frame of every instruction. -/

namespace Sys2Proof

/-- The team that a context belongs to; a grid context belongs to no one team. -/
def CtxId.team? : CtxId → Option TeamId
  | .slice t _ _ | .group t _ | .team t _ => some t
  | .grid _ _ | .firmware _ => none

/-- The scope at which a context executes instructions itself; a slice serves L and S. -/
def CtxId.serves : CtxId → Scope → Bool
  | .slice .., .L | .slice .., .S | .group .., .G | .team .., .T | .grid .., .W | .firmware _, .W => true
  | _, _ => false
/-- A number for the level of a context, in the order of R2. -/
def CtxId.level : CtxId → Nat
  | .slice .. => 1
  | .group .. => 2
  | .team .. => 3
  | .grid .. | .firmware _ => 4
def Scope.level : Scope → Nat
  | .L | .S => 1
  | .G => 2
  | .T => 3
  | .W => 4
/-- The SC code (R41). -/
def Scope.num : Scope → Nat
  | .L => 0
  | .S => 1
  | .G => 2
  | .T => 3
  | .W => 4

/-- The register n places above (R14). -/
def Reg.up : Reg → Nat → Reg
  | .v m, n => .v (m + BitVec.ofNat 8 n)
  | .g m, n => .g (m + BitVec.ofNat 6 n)
  | .t m, n => .t (m + BitVec.ofNat 7 n)
  | .w m, n => .w (m + BitVec.ofNat 5 n)
  | .sp .clk, 1 => .sp .clkhi
  | .sp .ref, 1 => .sp .refhi
  | r, _ => r

/-- The number of a space in a signature (R295). -/
def EngSpace.num : EngSpace → Nat
  | .sh => 0
  | .pp => 1
  | .dz => 2
  | .mem => 3

/-- The space of a local operand, as an engine space; `pv` has its own path. -/
def Space.eng : Space → EngSpace
  | .sh => .sh
  | .pp => .pp
  | .dz => .dz
  | .pv => .mem

/-- Whether an order acquires. -/
def MemOrd.acquires (o : MemOrd) : Bool := o.order = .acq || o.order = .ar

end Sys2Proof

namespace Sys2Proof.Machine

/-! Lists of pairs -/

/-- The list with the entry of a key replaced, or added at the end. -/
def put {κ α : Type} [DecidableEq κ] (k : κ) (v : α) : List (κ × α) → List (κ × α)
  | [] => [(k, v)]
  | e :: r => if e.1 = k then (k, v) :: r else e :: put k v r

/-- The first entry of a key. -/
def get? {κ α : Type} [DecidableEq κ] (k : κ) : List (κ × α) → Option α
  | [] => none
  | e :: r => if e.1 = k then some e.2 else get? k r

/-- The list without a key. -/
def drop {κ α : Type} [DecidableEq κ] (k : κ) (l : List (κ × α)) : List (κ × α) := l.filter (fun e => e.1 ≠ k)

/-- The elements of a list that come for the first time. -/
def distinct {α : Type} [DecidableEq α] (l : List α) : List α := l.foldl (fun r x => if r.contains x then r else r ++ [x]) []

/-- The word at an index of a list of registers, 0 beyond it. -/
def word (l : List Word) (n : Nat) : Word := l.getD n 0
/-- A register of a list written. -/
def setWord (l : List Word) (n : Nat) (w : Word) : List Word :=
  if n < l.length then l.set n w else l ++ List.replicate (n - l.length) 0 ++ [w]

/-- The little-endian bytes of a number. -/
def leBytes (n x : Nat) : List Byte := (List.range n).map (fun i => BitVec.ofNat 8 (x / 256 ^ i))
/-- The number of little-endian bytes. -/
def leNat : List Byte → Nat
  | [] => 0
  | b :: r => b.toNat + 256 * leNat r
/-- The words of a number, lowest first. -/
def wordsOf (n x : Nat) : List Word := (List.range n).map (fun i => BitVec.ofNat 32 (x / 2 ^ (32 * i)))
/-- The number of words, lowest first. -/
def natOf : List Word → Nat
  | [] => 0
  | w :: r => w.toNat + 2 ^ 32 * natOf r

/-! Teams, roles and contexts -/

namespace State
/-- A team (R6). -/
def team? (s : State) (t : TeamId) : Option Team := get? t s.teams
/-- The launch of a team. -/
def launch? (s : State) (n : Nat) : Option Launch := s.launches.find? (fun l => l.num == n)
/-- The context numbered n (R363). -/
def context? (s : State) (n : Nat) : Option Context := s.contexts.find? (fun x => x.num == n)
def core? (s : State) (n : Nat) : Option Core := s.cores.find? (fun c => c.num == n)
def die? (s : State) (n : Nat) : Option Die := s.dies.find? (fun d => d.num == n)
def queue? (s : State) (n : Nat) : Option HQueue := s.queues.find? (fun q => q.num == n)
def domain? (s : State) (n : Nat) : Option Domain := s.domains.find? (fun d => d.num == n)
def op? (s : State) (n : Nat) : Option Op := s.ops.find? (fun o => o.id == n)
/-- A sequencer context or slice (R11); one that does not exist reads as an empty one. -/
def ctx (s : State) (c : CtxId) : Ctx := (get? c s.ctxs).getD {
  }
def hasCtx (s : State) (c : CtxId) : Bool := (get? c s.ctxs).isSome
def setCtx (s : State) (c : CtxId) (x : Ctx) : State := { s with ctxs := put c x s.ctxs }
def modCtx (s : State) (c : CtxId) (f : Ctx → Ctx) : State :=
  { s with ctxs := s.ctxs.map (fun e => if e.1 = c then (e.1, f e.2) else e) }
def modCtxs (s : State) (cs : List CtxId) (f : Ctx → Ctx) : State :=
  { s with ctxs := s.ctxs.map (fun e => if e.1 ∈ cs then (e.1, f e.2) else e) }
def modTeam (s : State) (t : TeamId) (f : Team → Team) : State :=
  { s with teams := s.teams.map (fun e => if e.1 = t then (e.1, f e.2) else e) }
def modLaunch (s : State) (n : Nat) (f : Launch → Launch) : State :=
  { s with launches := s.launches.map (fun l => if l.num = n then f l else l) }
def modContext (s : State) (n : Nat) (f : Context → Context) : State :=
  { s with contexts := s.contexts.map (fun x => if x.num = n then f x else x) }
def modCore (s : State) (n : Nat) (f : Core → Core) : State :=
  { s with cores := s.cores.map (fun c => if c.num = n then f c else c) }
def modDie (s : State) (n : Nat) (f : Die → Die) : State :=
  { s with dies := s.dies.map (fun d => if d.num = n then f d else d) }
def modQueue (s : State) (n : Nat) (f : HQueue → HQueue) : State :=
  { s with queues := s.queues.map (fun q => if q.num = n then f q else q) }
def modDomain (s : State) (n : Nat) (f : Domain → Domain) : State :=
  { s with domains := s.domains.map (fun d => if d.num = n then f d else d) }
def modOp (s : State) (n : Nat) (f : Op → Op) : State :=
  { s with ops := s.ops.map (fun o => if o.id = n then f o else o) }
/-- The number of the next free value, and the state after it is taken. -/
def fresh (s : State) : Nat × State := (s.nonce, { s with nonce := s.nonce + 1 })
/-- An event that falls due a free number of cycles from now, at least one. -/
def later (s : State) (i : Instr) : State :=
  { s with timers := s.timers ++ [(s.cycle + 1 + Config.latency s.nonce, i)], nonce := s.nonce + 1 }
/-- An event due at a cycle. -/
def at_ (s : State) (c : Nat) (i : Instr) : State := { s with timers := s.timers ++ [(c, i)] }
def say (s : State) (m : OutMsg) : State := { s with out := s.out ++ [m] }
end State

/-- The role that holds a group (R6). -/
def Team.roleOfGroup (t : Team) (g : Nat) : Nat :=
  (t.roles.findIdx? (fun r => r.first ≤ g && g < r.first + r.groups)).getD 0

/-- The role of a context. -/
def roleOf (s : State) : CtxId → Nat
  | .slice t g _ | .group t g => ((s.team? t).map (fun x => x.roleOfGroup g)).getD 0
  | .team _ r | .grid _ r => r
  | .firmware _ => 0

/-- The record of a role. -/
def role? (s : State) (t : TeamId) (r : Nat) : Option RoleSt := (s.team? t).bind (fun x => x.roles[r]?)

/-- The groups of a role. -/
def groupsOf (s : State) (t : TeamId) (r : Nat) : List Nat :=
  match role? s t r with
  | some x => (List.range x.groups).map (fun i => x.first + i)
  | none => []

/-- The slices of a group, live or not. -/
def slicesOf (s : State) (t : TeamId) (g : Nat) : List CtxId :=
  match s.team? t with
  | some x => match x.roles[x.roleOfGroup g]? with
    | some r => (List.range r.slices).map (fun i => CtxId.slice t g i)
    | none => []
  | none => []

/-- A slice with a live lane. -/
def Ctx.live (x : Ctx) : Bool := x.lanes.any (fun l => l.live)
/-- A slice with an active lane (R7). -/
def Ctx.active (x : Ctx) : Bool := x.lanes.any (fun l => l.live && l.path)

/-- The live slices of a group. -/
def liveSlices (s : State) (t : TeamId) (g : Nat) : List CtxId := (slicesOf s t g).filter (fun c => (s.ctx c).live)

/-- Whether a group is parted (R8). -/
def isParted (s : State) (t : TeamId) (g : Nat) : Bool := (s.ctx (.group t g)).parted

/-- The slices that an issuing context stands for: the gang, or the parted slice (R8). -/
def unitOf (s : State) : CtxId → List CtxId
  | .slice t g i => if isParted s t g then [.slice t g i] else liveSlices s t g
  | c => [c]

/-- All contexts of a role of a team. -/
def roleCtxs (s : State) (t : TeamId) (r : Nat) : List CtxId :=
  .team t r :: (groupsOf s t r).flatMap (fun g => .group t g :: slicesOf s t g)

/-- The number of a lane within its group (R6). -/
def laneNum : CtxId → Nat → Nat
  | .slice _ _ i, k => 4 * i + k
  | _, k => k
/-- The team-wide number of a lane (R6). -/
def teamLane : CtxId → Nat → Nat
  | .slice _ g i, k => 32 * g + 4 * i + k
  | _, k => k

/-- The active lanes of some slices, in ascending order. -/
def activeLanes (s : State) (cs : List CtxId) : List (CtxId × Nat) :=
  cs.flatMap (fun c => ((List.range 4).filter (fun k =>
    match (s.ctx c).lanes[k]? with
    | some l => l.live && l.path
    | none => false)).map (fun k => (c, k)))

/-- The active lanes of a group, and of a role. -/
def groupLanes (s : State) (t : TeamId) (g : Nat) : List (CtxId × Nat) := activeLanes s (slicesOf s t g)
def roleLanes (s : State) (t : TeamId) (r : Nat) : List (CtxId × Nat) := (groupsOf s t r).flatMap (groupLanes s t)

/-- The teams of a grid, in ascending order. -/
def gridTeams (s : State) (n : Nat) : List TeamId := (s.teams.map (fun e => e.1)).filter (fun t => t.launch = n)

/-- The context above (R26): a slice's group, a group's team context, a team context's grid context. -/
def parent (s : State) : CtxId → Option CtxId
  | .slice t g _ => some (.group t g)
  | .group t g => some (.team t (roleOf s (.group t g)))
  | .team t r => some (.grid t.launch r)
  | _ => none

/-- The contexts below that receive the segments of a context. -/
def children (s : State) : CtxId → List CtxId
  | .group t g => liveSlices s t g
  | .team t r => ((groupsOf s t r).filter (fun g => !(liveSlices s t g).isEmpty)).map (fun g => CtxId.group t g)
  | .grid n r => ((gridTeams s n).filter (fun t => ((role? s t r).map (fun x => !x.ended)).getD false)).map
      (fun t => CtxId.team t r)
  | _ => []

/-! Register cells (R11, R13) -/

/-- The word of a truth value, and back. -/
def ofBool (b : Bool) : Word := if b then 1 else 0

/-- Predicate n of a predicate byte; bit 7 is always set (R13). -/
def predBit (p : BitVec 8) (n : Nat) : Bool := n == 7 || p.getLsbD n
/-- A predicate written; `p7` discards (R13). -/
def setPred (p : BitVec 8) (n : Nat) (b : Bool) : BitVec 8 :=
  if n < 7 then (if b then p ||| (1#8 <<< n) else p &&& ~~~(1#8 <<< n)) else p

/-- The value of a cell. -/
def Ctx.cell (x : Ctx) : Loc → Word
  | .v k n => ((x.lanes[k]?).map (fun l => word l.v n)).getD 0
  | .lp k n => ((x.lanes[k]?).map (fun l => ofBool (predBit l.p n))).getD 0
  | .sc n => word x.sc n
  | .p n => ofBool (predBit x.p n)
  | .lc n => word x.lc n

/-- A context with one lane changed. -/
def Ctx.modLane (x : Ctx) (k : Nat) (f : Lane → Lane) : Ctx := { x with lanes := x.lanes.modify k f }

/-- A cell written. -/
def Ctx.setCell (x : Ctx) (l : Loc) (w : Word) : Ctx :=
  match l with
  | .v k n => x.modLane k (fun y => { y with v := setWord y.v n w })
  | .lp k n => x.modLane k (fun y => { y with p := setPred y.p n (w ≠ 0) })
  | .sc n => { x with sc := setWord x.sc n w }
  | .p n => { x with p := setPred x.p n (w ≠ 0) }
  | .lc n => { x with lc := setWord x.lc n w }

/-- The value of a cell once every result on its way is written: a variable result that is on its way beside a fixed one of the
same cell is the later of the two (R50). DEDUCED, log 17, unsafe. -/
def Ctx.through (x : Ctx) (l : Loc) : Word :=
  let base := x.fixed.foldl (fun w e => if e.loc = l then e.val else w) (x.cell l)
  x.vars.foldl (fun w r => (r.writes.foldl (fun w e => if e.1 = l then e.2 else w) w)) base

/-- The handles once some moves between them are made (R127). -/
def movedHandles (hs : List HandleSt) (ms : List (Nat × HandleSt × Nat)) : List HandleSt := ms.foldl (fun l e => l.set e.1 e.2.1) hs

/-- The fixed results that are due (R48). -/
def Ctx.settle (now : Nat) (x : Ctx) : Ctx :=
  (x.fixed.filter (fun e => e.due ≤ now)).foldl (fun y e => y.setCell e.loc e.val)
    { x with
      fixed := x.fixed.filter (fun e => now < e.due)
      h := movedHandles x.h (x.hmoves.filter (fun e => e.2.2 ≤ now))
      hmoves := x.hmoves.filter (fun e => now < e.2.2) }

/-- A variable result written: the older fixed results of its cells go first (R50). -/
def Ctx.commit (x : Ctx) (r : VarRes) : Ctx :=
  r.writes.foldl (fun y e => y.setCell e.1 e.2)
    { x with vars := x.vars.filter (fun q => q.id ≠ r.id)
             fixed := x.fixed.filter (fun e => !(r.writes.any (fun w => w.1 = e.loc))) }

/-- Every result on its way is written: what a trap, a switch or a stop leaves (R49). -/
def Ctx.flush (x : Ctx) : Ctx :=
  let y := x.vars.foldl (fun y r => y.commit r) x
  y.fixed.foldl (fun z e => z.setCell e.loc e.val) { y with fixed := [], h := movedHandles x.h x.hmoves, hmoves := [] }

/-- The ticket that a context holds for a segment. -/
def Ctx.ticket? (x : Ctx) (tid : Option Nat) : Option Ticket := tid.bind (fun i => x.tickets.find? (fun t => t.id == i))
/-- The ahead-log entries since a ticket. -/
def Ctx.logSince (x : Ctx) (t : Ticket) : List LogEnt := x.log.drop (t.pos - x.logBase)
/-- The value that a lower unit reads of a register of an upper context: as of the ticket of its segment, whatever is on its way
(R51, R108); of a segment whose ticket a rollback has dropped, as it was then (R109). DEDUCED, log 123, unsafe. -/
def Ctx.asOf (x : Ctx) (tid : Option Nat) (l : Loc) : Word :=
  match x.ticket? tid with
  | some t => (((x.logSince t).find? (fun e => e.loc == l)).map (fun e => e.old)).getD (x.through l)
  | none => ((tid.bind (fun i => get? i x.past)).bind (fun v => get? l v)).getD (x.through l)
/-- Whether the value of a register as of the ticket of a segment is still on its way: of the results on their way, each write since the
ticket has an entry in the log (R51). -/
def Ctx.pendingAsOf (x : Ctx) (now : Nat) (tid : Option Nat) (l : Loc) : Bool :=
  let coming := (x.fixed.filter (fun e => e.loc = l && decide (now < e.due))).length
    + (x.vars.filter (fun r => !r.arrived && r.writes.any (fun e => e.1 = l))).length
  match x.ticket? tid with
  | some t => ((x.logSince t).filter (fun e => e.loc == l)).length < coming
  | none => (tid.bind (fun i => get? i x.past)).isNone && 0 < coming

/-- The ticket of the segment a unit works on. DEDUCED, log 25, safe. -/
def Ctx.headTid (x : Ctx) : Option Nat := x.segs.head?.map (fun g => g.tid)

/-- The segment of an upper context in which a unit below it works. -/
def segmentOf (s : State) (reader owner : CtxId) : Option Nat :=
  match reader, owner with
  | .slice .., .group .. => (s.ctx reader).headTid
  | .slice t g _, .team .. => (s.ctx (.group t g)).headTid
  | .group .., .team .. => (s.ctx reader).headTid
  | .slice t g _, .grid .. => (s.ctx (.team t (roleOf s (.group t g)))).headTid
  | .group t g, .grid .. => (s.ctx (.team t (roleOf s (.group t g)))).headTid
  | .team .., .grid .. => (s.ctx reader).headTid
  | _, _ => none
/-- A cell of a context read by a unit that may stand below it. -/
def readAt (s : State) (reader owner : CtxId) (l : Loc) : Word :=
  if reader = owner then (s.ctx owner).cell l else (s.ctx owner).asOf (segmentOf s reader owner) l

/-- The group, team and grid context of a unit. -/
def groupCtx : CtxId → CtxId
  | .slice t g _ => .group t g
  | c => c
def teamCtx (s : State) : CtxId → CtxId
  | .slice t g _ => .team t (roleOf s (.group t g))
  | .group t g => .team t (roleOf s (.group t g))
  | c => c
def gridCtx (s : State) : CtxId → CtxId
  | .slice t g _ => .grid t.launch (roleOf s (.group t g))
  | .group t g => .grid t.launch (roleOf s (.group t g))
  | .team t r => .grid t.launch r
  | c => c

/-- The cell that a register names for a lane or context at a scope, and the context that holds it. -/
def cellOf (s : State) (x : Scope) (c : CtxId) (k : Nat) : Reg → Option (CtxId × Loc)
  | .v n => some (c, .v k n.toNat)
  | .g n => some (groupCtx c, .sc n.toNat)
  | .t n => some (teamCtx s c, .sc n.toNat)
  | .w n => some (gridCtx s c, .sc n.toNat)
  | .p n => some (c, match x with
    | .L => .lp k n.toNat
    | _ => .p n.toNat)
  | .lc n => some (c, .lc n.toNat)
  | _ => none

/-- The number of the first shadow team of a launch in proof mode: the shadow of team k is team shadowBase + k, and reads
`%team` as its primary (R294). -/
def shadowBase : Nat := 1024

/-- The die of a core. -/
def dieOf (core : Nat) : Nat := core / Config.coresPerDie

/-- The cores of a package pair (R31): leader and follower. -/
def pairCores (p : Nat) : Nat × Nat :=
  let d := p / 80
  let k := p % 80
  if k < 72 then (160 * d + 2 * k, 160 * d + 2 * k + 1)
  else (160 * d + 144 + (k - 72), 160 * ((d + 1) % 4) + 152 + (k - 72))
/-- The pair of a core (R31). -/
def pairOf (core : Nat) : Nat :=
  let d := core / 160
  let k := core % 160
  if k < 144 then 80 * d + k / 2
  else if k < 152 then 80 * d + 72 + (k - 144)
  else 80 * ((d + 3) % 4) + 72 + (k - 152)

/-- The value of a special register (R23, R22). -/
def readSpecial (s : State) (c : CtxId) (k : Nat) : Special → Word
  | .lane => BitVec.ofNat 32 (laneNum c k)
  | .slice => match c with
    | .slice _ _ i => BitVec.ofNat 32 i
    | _ => 0
  | .group => match c with
    | .slice _ g _ | .group _ g => BitVec.ofNat 32 g
    | _ => 0
  | .team => BitVec.ofNat 32 ((c.team?.map (fun t => t.num % shadowBase)).getD 0)
  | .pair => BitVec.ofNat 32 (((c.team?.bind s.team?).map (fun t => pairOf t.core)).getD 0)
  | .die => BitVec.ofNat 32 (((c.team?.bind s.team?).map (fun t => dieOf t.core)).getD 0)
  | .role => BitVec.ofNat 32 (roleOf s c)
  | .ctx => match c with
    | .grid n _ => BitVec.ofNat 32 (((s.launch? n).map (fun l => l.ctx)).getD 0)
    | _ => BitVec.ofNat 32 (((c.team?.bind s.team?).map (fun t => t.ctx)).getD 0)
  | .cwp n => match c.team?.bind s.team? with
    | some t => if t.chans.getLsbD n.toNat then
        (((s.core? t.core).bind (fun x => x.chans[n.toNat]?)).map (fun h => h.cwp)).getD 0 else 0
    | none => 0
  | .clk => BitVec.ofNat 32 s.cycle
  | .clkhi => BitVec.ofNat 32 (s.cycle / 2 ^ 32)
  | .ref => BitVec.ofNat 32 s.tick
  | .refhi => BitVec.ofNat 32 (s.tick / 2 ^ 32)
  | .tileinc => ((c.team?.bind s.team?).map (fun t => t.inc)).getD 0

/-- The word of a complete handle (R18, R19). -/
def statusWord : HandleSt → Word
  | .complete _ w => w
  | _ => 0

/-- A register cell as a lane or context (c, k) of an instruction at scope x finds it (R48). -/
def readCell (s : State) (x : Scope) (c : CtxId) (k : Nat) (r : Reg) : Word :=
  match cellOf s x c k r with
  | some (o, l) => readAt s c o l
  | none => 0
/-- A register read as one word by lane or context (c, k) of an instruction at scope x. A queue register is popped, not read:
see `Operands`. The result of the member of a fused group that the instruction is linked to reads new (R163). -/
def readReg (s : State) (x : Scope) (c : CtxId) (k : Nat) (r : Reg) : Word :=
  match r with
  | .zero | .q _ => 0
  | .sp y => readSpecial s c k y
  | .h n => statusWord ((s.ctx c).h.getD n.toNat .empty)
  | r => match cellOf s x c k r with
    | some (o, l) => if o = c ∧ r ∈ (s.ctx c).fresh then (s.ctx c).through l else readAt s c o l
    | none => 0

/-- A register, pair, quad or range read as one number, lowest register first. -/
def readNat (s : State) (x : Scope) (c : CtxId) (k n : Nat) (r : Reg) : Nat :=
  natOf ((List.range n).map (fun i => readReg s x c k (r.up i)))
/-- Whether a register of a higher scope is read while its value is on its way, or within its latency: the reader waits (R51).
DEDUCED, log 117, unsafe. -/
def readsPending (s : State) (x : Scope) (c : CtxId) (k n : Nat) (r : Reg) : Bool :=
  (List.range n).any (fun i => match cellOf s x c k (r.up i) with
    | some (o, l) => o ≠ c && (s.ctx o).pendingAsOf s.cycle (segmentOf s c o) l
    | none => false)

/-- A predicate of a lane or context. -/
def readPred (s : State) (x : Scope) (c : CtxId) (k : Nat) (n : BitVec 3) : Bool := readReg s x c k (.p n) ≠ 0

/-- The guard of a lane or context (R44); what a fused group has just written is no linked operand of it (R163). -/
def guardOn (s : State) (x : Scope) (c : CtxId) (k : Nat) (g : Guard) : Bool := decide (readCell s x c k (.p g.p) ≠ 0) ^^ g.neg

/-! Writing registers -/

/-- A write of registers by a lane or context: the cells with their values. `zero`, `p7` and what is no cell fall away. -/
def cellsOf (s : State) (x : Scope) (c : CtxId) (k n : Nat) (r : Reg) (val : Nat) : List (CtxId × Loc × Word) :=
  if r = .p 7 then []
  else ((List.range n).zip (wordsOf n val)).filterMap (fun (i, w) =>
    (cellOf s x c k (r.up i)).map (fun (o, l) => (o, l, w)))

/-- Whether a write changes a logged cell: a scope register, predicate or loop counter of an upper context (R26). -/
def logged (c : CtxId) : Bool := 2 ≤ c.level

/-- The log entries that some writes take: one for each cell while a ticket is held (R26). -/
def logNeed (x : Ctx) (ws : List (Loc × Word)) : Nat := if x.tickets.isEmpty then 0 else ws.length

/-- Whether the ahead log has room for the writes of a context (R27). -/
def logRoom (s : State) (c : CtxId) (ws : List (Loc × Word)) : Bool :=
  let x := s.ctx c
  !logged c || x.log.length + logNeed x ws ≤ Config.maxLog

/-- The old values of the cells entered in the ahead log. -/
def Ctx.note (x : Ctx) (ws : List (Loc × Word)) : Ctx :=
  if x.tickets.isEmpty then x
  else { x with log := x.log ++ ws.map (fun e => LogEnt.mk e.1 (x.through e.1)) }

/-- Cells of one context written at once. -/
def Ctx.setCells (x : Ctx) (ws : List (Loc × Word)) : Ctx := ws.foldl (fun y e => y.setCell e.1 e.2) x

/-- Cells of one context written when they fall due. -/
def Ctx.delay (x : Ctx) (due : Nat) (ws : List (Loc × Word)) : Ctx :=
  { x with fixed := x.fixed ++ ws.map (fun e => PendWr.mk e.1 e.2 due) }

/-- The writes of one context out of those of a whole instruction. -/
def writesOf (c : CtxId) (ws : List (CtxId × Loc × Word)) : List (Loc × Word) :=
  (ws.filter (fun e => e.1 = c)).map (fun e => e.2)

/-- The contexts that some writes touch. -/
def ownersOf (ws : List (CtxId × Loc × Word)) : List CtxId := distinct (ws.map (fun e => e.1))

/-- Every write of an instruction applied to its contexts by f. -/
def writeAll (s : State) (ws : List (CtxId × Loc × Word)) (f : Ctx → List (Loc × Word) → Ctx) : State :=
  (ownersOf ws).foldl (fun s c => s.modCtx c (fun x =>
    f (if logged c then x.note (writesOf c ws) else x) (writesOf c ws))) s

/-! Time (R1, R23) -/

/-- One core cycle takes 10/33 ns; `%clk` stands still while the clock is stretched (R23). DEDUCED, log 3, unsafe. -/
def State.passCycles (s : State) (n : Nat) : State :=
  let f := s.frac + 10 * n
  { s with cycle := if s.stretched then s.cycle else s.cycle + n
           tick := s.tick + f / Config.cyclesPer10ns
           frac := f % Config.cyclesPer10ns }

/-- The cycles of the unstretched core clock, which the package barrier tree counts (R319). -/
def State.treeCycle (s : State) : Nat := (Config.cyclesPer10ns * s.tick + s.frac) / 10

/-! Memory -/

/-- The order and contents that the cells of memory keep. -/
def sortedCells : List Host.Cell → Bool
  | [] => true
  | [c] => c.2 ≠ 0
  | c :: d :: r => c.2 ≠ 0 && c.1 < d.1 && sortedCells (d :: r)
/-- Memory is in its canonical form. -/
def Memory.wf (m : Memory) : Bool := sortedCells m.cells

/-- One byte; an unlisted one reads 0. DESIGN CHOICE, log 4, unsafe. -/
def Memory.read (m : Memory) (a : Nat) : Byte := (get? a m.cells).getD 0

/-- A byte put in its place. -/
def insertCell (a : Nat) (b : Byte) : List Host.Cell → List Host.Cell
  | [] => if b = 0 then [] else [(a, b)]
  | c :: r =>
    if a < c.1 then (if b = 0 then c :: r else (a, b) :: c :: r)
    else if a = c.1 then (if b = 0 then r else (a, b) :: r)
    else c :: insertCell a b r
def Memory.write (m : Memory) (a : Nat) (b : Byte) : Memory := ⟨insertCell a b m.cells⟩
def Memory.writes (m : Memory) (bs : List (Nat × Byte)) : Memory := bs.foldl (fun m e => m.write e.1 e.2) m
/-- Bytes of memory as it stands behind every galley. -/
def Memory.bytes (m : Memory) (a n : Nat) : List Byte := (List.range n).map (fun i => m.read (a + i))

/-- Where the spaces lie (see `Memory`). -/
def hostBase : Nat := 2 ^ 56
/-- Whether a place is in host memory. -/
def isHost (a : Nat) : Bool := hostBase ≤ a && a < 2 ^ 57
def dzAddr (die a : Nat) : Nat := 2 ^ 60 + Config.dzBytes * die + a
/-- The byte a of a core's `sh`, round past its end (R1). -/
def shAddr (core a : Nat) : Nat := 2 ^ 61 + Config.shBytes * core + a % Config.shBytes
/-- The core of a place in `sh`. -/
def coreOfSh (a : Nat) : Nat := (a - 2 ^ 61) / Config.shBytes
/-- The place i bytes on from one: within `sh` it goes round past the end of the core's. -/
def nextCell (p i : Nat) : Nat := if 2 ^ 61 ≤ p ∧ p < 2 ^ 62 then shAddr (coreOfSh p) ((p - 2 ^ 61) % Config.shBytes + i) else p + i
/-- The places of n bytes. -/
def cellsFrom (p n : Nat) : List Nat := (List.range n).map (nextCell p)
/-- DESIGN CHOICE, log 93, unsafe. -/
def flashAddr (a : Nat) : Nat := 2 ^ 62 + a

/-- Bytes with their addresses. -/
def placed (a : Nat) (bs : List Byte) : List (Nat × Byte) := (List.range bs.length).zip bs |>.map (fun e => (a + e.1, e.2))

/-! The galley (R243, R280, R281) -/

/-- The containment unit of a team: itself, or both teams of its pair (R243). -/
def unitTeams (s : State) (t : TeamId) : List TeamId :=
  match (s.team? t).bind (fun x => x.pair) with
  | some p => [t, p]
  | none => [t]

/-- A byte as a reader of a containment unit sees it; `none` as the reader is an agent of no unit. -/
def readByte (s : State) (u : List TeamId) (a : Nat) : Byte :=
  match s.galley.reverse.findSome? (fun h => if h.team ∈ u then get? a h.bytes else none) with
  | some b => b
  | none => s.mem.read a
def readBytes (s : State) (u : List TeamId) (a n : Nat) : List Byte := (List.range n).map (fun i => readByte s u (a + i))

/-- Whether a held write is one that the other unit of a proof-mode tile holds until their common seal: neither waits for it, as the two
run the tile side by side (R294). DEDUCED, log 160, safe. -/
def heldByTwin (s : State) (u : List TeamId) (h : Held) : Bool :=
  h.sealed && u.any (fun t => decide ((s.team? t).bind (fun x => x.shadow) = some h.team))
/-- Whether an access to some bytes has to wait: another unit's write to them is still held, or a release of the own unit is
not performed yet (R243), or the host link trains (R387). -/
def mustWait (s : State) (u : List TeamId) (a n : Nat) : Bool :=
  (s.pages.train && decide (2 ^ 56 ≤ a ∧ a < 2 ^ 57)) || s.galley.any (fun h =>
    (if u.contains h.team then decide (s.tick < h.p) else !heldByTwin s u h) && h.bytes.any (fun e => a ≤ e.1 && e.1 < a + n))

/-- The first of some bytes whose data is uncorrectable for a reader of a unit: no held write forwards it (R298). -/
def badAt (s : State) (u : List TeamId) (l : List Nat) : Option Nat := if s.bad.isEmpty then none else l.find? (fun a =>
  s.bad.any (fun w => w.1 ≤ a && a < w.1 + w.2) && !s.galley.any (fun h => u.contains h.team && (get? a h.bytes).isSome))
/-- The abort completion of a read of such a byte, on its way to a team. -/
def abortSoon (s : State) (t : TeamId) (pa : Nat) : State :=
  if s.timers.any (fun e => e.2 = .abortCompletion t pa) then s else s.later (.abortCompletion t pa)

/-- When a release at die, package or system scope is performed: after every held write of its unit has become visible
outside (R171, R243); any other write now. DESIGN CHOICE, log 26, unsafe. -/
def performAt (s : State) (u : List TeamId) (o : MemOrd) : Nat :=
  if (o.order = .rel ∨ o.order = .ar) ∧ (o.scope = .die ∨ o.scope = .package ∨ o.scope = .system) then
    (s.galley.filter (fun h => u.contains h.team && !h.sealed)).foldl (fun n h => max n (h.p + Config.galleyWindow)) s.tick
  else s.tick

/-- The galley entries of a core: the 64-byte blocks of its held writes (R281). -/
def galleyBlocks (s : State) (core : Nat) : List Nat :=
  distinct ((s.galley.filter (fun h => h.core == core)).flatMap (fun h => h.bytes.map (fun e => e.1 / 64)))

/-- Whether a team runs in proof mode, or in incarnation 0 of a tile in audit mode: its writes are held to the seal
(R293, R294). DEDUCED, log 69, unsafe. -/
def holdsToSeal (s : State) (t : TeamId) : Bool :=
  match s.launch? t.launch, s.team? t with
  | some l, some x => l.proof || (l.audit && !x.nr && x.sigPrev.isNone && x.tile.isSome)
  | _, _ => false

/-- The entries that the galley takes from a team now (R281, R297). -/
def galleyLimit (s : State) (t : TeamId) : Nat :=
  if holdsToSeal s t && !((s.team? t).map (fun x => x.galReserve)).getD false then Config.galleyLimit - 1
  else Config.galleyEntries

/-- Whether some writes fit the galley of the team's core. -/
def galleyFits (s : State) (t : TeamId) (bs : List (Nat × Byte)) : Bool :=
  match s.team? t with
  | none => true
  | some x =>
    let old := galleyBlocks s x.core
    let new := (distinct (bs.map (fun e => e.1 / 64))).filter (fun b => !old.contains b)
    new.isEmpty || old.length + new.length ≤ galleyLimit s t

/-- The number under which the collective engine's own held writes stand (R243, R280). -/
def collCore : Nat := Config.dies * Config.coresPerDie
/-- The number under which the compositors' held writes stand, and the agent that they are together (R243, R280). -/
def compCore : Nat := collCore + 1
/-- The team that stands for the compositors in the galley. DESIGN CHOICE, log 159, unsafe. -/
def compTeam : TeamId := ⟨2 ^ 64, 0⟩
/-- The contexts whose instruction runs, if one does. -/
def whoRuns (s : State) : List CtxId := (s.cur.map (unitOf s)).getD []
/-- Bytes written by an agent of a team: performed at p, or now, and held in the galley of its core (R243, R280); by some contexts, or
as a block of an effect. -/
def holdBy (s : State) (t : TeamId) (who : List CtxId) (part p : Nat) (bs : List (Nat × Byte)) (key : Option EffKey) : State :=
  match s.team? t with
  | none => s
  | some x => { s with galley := s.galley ++ [⟨x.core, t, bs, p, key, part, holdsToSeal s t, who, false⟩] }
/-- DESIGN CHOICE, log 6, unsafe. -/
def holdAt (s : State) (t : TeamId) (p : Nat) (bs : List (Nat × Byte)) (key : Option EffKey) : State := holdBy s t (whoRuns s) 0 p bs key
def holdWrite (s : State) (t : TeamId) (bs : List (Nat × Byte)) (key : Option EffKey) : State := holdAt s t s.tick bs key

/-- Bytes written by a compositor: a signal, or a message (R280). -/
def compHold (s : State) (bs : List (Nat × Byte)) : State :=
  { s with galley := s.galley ++ [⟨compCore, compTeam, bs, s.tick, none, 0, false, [], false⟩] }
/-- Bytes put into memory at last; the check words that they cover hold correctable data again (R298). -/
def putBytes (s : State) (bs : List (Nat × Byte)) : State :=
  { s with
    mem := s.mem.writes bs
    bad := if s.bad.isEmpty then [] else s.bad.filter (fun w => !(List.range w.2).all (fun i => (get? (w.1 + i) bs).isSome)) }

/-- Whether W has passed since a write was performed (R280). -/
def Held.due (h : Held) (tick : Nat) : Bool := !h.sealed && h.p + Config.galleyWindow ≤ tick
/-- Which of the entries that are due leave the galley, and which entries stay: writes to one byte reach memory in the order in which they
were performed (R237). -/
def releasable (due : Held → Bool) (kept : List Held) : List Held → List Held × List Held
  | [] => ([], kept)
  | h :: r =>
    if due h && !kept.any (fun k => k.bytes.any (fun b => (get? b.1 h.bytes).isSome)) then
      let (gone, left) := releasable due kept r
      (h :: gone, left)
    else releasable due (kept ++ [h]) r

/-! The signature of proof and audit mode (R295) -/

def mix64 (z : DWord) : DWord :=
  let z := (z ^^^ (z >>> 30)) * 0xBF58476D1CE4E5B9
  let z := (z ^^^ (z >>> 27)) * 0x94D049BB133111EB
  z ^^^ (z >>> 31)
def sigRecord (sp a be : Nat) (m : DWord) : DWord :=
  mix64 (BitVec.ofNat 64 (a / 8 + sp * 2 ^ 54 + be * 2 ^ 56) ^^^ mix64 m)
/-- The records of a write: one for each doubleword it touches. -/
def sigWrite (sp a : Nat) (bs : List Byte) : DWord :=
  let cells := placed a bs
  ((distinct (cells.map (fun e => e.1 / 8))).map (fun d =>
    let here := cells.filter (fun e => e.1 / 8 == d)
    let be := here.foldl (fun n e => n + 2 ^ (e.1 % 8)) 0
    let m := here.foldl (fun n e => n + e.2.toNat * 256 ^ (e.1 % 8)) 0
    sigRecord sp (8 * d) be (BitVec.ofNat 64 m))).foldl (fun a b => a + b) 0
/-- The value of an effect request. -/
def sigEffect (operand : DWord) (op kind sp a : Nat) : DWord :=
  sigRecord sp (8 * (a / 8)) 0 (mix64 operand + BitVec.ofNat 64 (op + 16 * kind))
/-- A term added to the signature of a team in proof or audit mode. -/
def sign (s : State) (t : TeamId) (v : DWord) : State :=
  match s.launch? t.launch with
  | some l => if l.proof || l.audit then s.modTeam t (fun x => { x with sig := x.sig + v }) else s
  | none => s

/-! Local addresses (R29, R164, R233) -/

/-- Whether a team is on its core. -/
def Team.present (x : Team) : Bool := x.state ≠ .ended && x.state ≠ .saved
/-- Whether a team has its core to itself. -/
def alone (s : State) (t : TeamId) (core : Nat) : Bool := !s.teams.any (fun e => e.1 ≠ t && e.2.core == core && e.2.present)
/-- The bytes of `sh` that a team reaches: its window, or the whole memory of a core that it has to itself, round past the end (R233).
DEDUCED, log 77, unsafe. -/
def shLimit (s : State) (t : TeamId) (x : Team) : Nat := if alone s t x.core then Config.shBytes else x.shSize
/-- The place in memory of n bytes of a local space; `none` is BOUNDS. DEDUCED, log 33, unsafe. -/
def resolve (s : State) (t : TeamId) (sp : EngSpace) (a n : Nat) : Option Nat :=
  match s.team? t with
  | none => none
  | some x => match sp with
    | .sh => if a + n ≤ shLimit s t x then some (shAddr x.core (x.shBase + a)) else none
    | .pp =>
      if a < 2 ^ 20 then (if a + n ≤ shLimit s t x then some (shAddr x.core (x.shBase + a)) else none)
      else match x.pair.bind (fun p => (s.team? p).map (fun y => (p, y))) with
        | some (p, y) =>
          if a - 2 ^ 20 + n ≤ shLimit s p y then some (shAddr y.core (y.shBase + (a - 2 ^ 20))) else none
        | none => none
    | .dz => if a + n ≤ Config.dzBytes then some (dzAddr (dieOf x.core) a) else none
    | .mem => none

/-! Translation (R264 to R267) -/

/-- What an access asks of a page. -/
inductive Want | read | write | fetch | pvRead | pvWrite
  deriving DecidableEq, Repr

/-- A leaf of the tables: its bits, and how many low bits of the address it keeps. -/
structure Leaf where
  bits : Nat
  shift : Nat
  deriving DecidableEq, Repr, Inhabited

def bit (n i : Nat) : Bool := n.testBit i

/-- Whether an entry is well formed at a level (R266): reserved bits, LEAF, alignment of its address. -/
def entryOk (level e : Nat) : Bool :=
  let pa := e / 256 % 2 ^ 48 * 256
  e / 2 ^ 56 == 0 && e / 64 % 4 == 0
    && (if bit e 1 then level != 0 && pa % (2 ^ (if level = 1 then 30 else if level = 2 then 21 else 16)) == 0
        else level != 3 && pa % (if level = 0 then 65536 else if level = 1 then 4096 else 256) == 0)

/-- The walk of a virtual address of 57 bits from a root table (R265, R266); tables lie in device memory as released. -/
def walkFrom (m : Memory) (va : Nat) : Nat → Nat → Except Cause Leaf
  | 0, _ => .error .prot
  | fuel + 1, table =>
    let level := 3 - fuel
    let shift := if level = 0 then 43 else if level = 1 then 30 else if level = 2 then 21 else 16
    let width := if level = 0 then 14 else if level = 1 then 13 else if level = 2 then 9 else 5
    let e := leNat (m.bytes (table + 8 * (va / 2 ^ shift % 2 ^ width)) 8)
    if !bit e 0 then .error .page
    else if !entryOk level e then .error .prot
    else if bit e 1 then .ok ⟨e, shift⟩
    else walkFrom m va fuel (e / 256 % 2 ^ 48 * 256)
def walk (s : State) (ctx va : Nat) : Except Cause Leaf :=
  match s.context? ctx with
  | none => .error .page
  | some x => walkFrom s.mem va 4 x.root
/-- The entries that a walk reads. -/
def walkReads (m : Memory) (va : Nat) : Nat → Nat → List Nat
  | 0, _ => []
  | fuel + 1, table =>
    let level := 3 - fuel
    let shift := if level = 0 then 43 else if level = 1 then 30 else if level = 2 then 21 else 16
    let width := if level = 0 then 14 else if level = 1 then 13 else if level = 2 then 9 else 5
    let a := table + 8 * (va / 2 ^ shift % 2 ^ width)
    let e := leNat (m.bytes a 8)
    if !bit e 0 || bit e 1 then [a] else a :: walkReads m va fuel (e / 256 % 2 ^ 48 * 256)
/-- Whether a walk meets an entry whose write is still held: the walker is outside every containment unit (R243, R265). -/
def walkWaits (s : State) (ctx va : Nat) : Bool :=
  match s.context? ctx with
  | none => false
  | some x => !s.galley.isEmpty && (walkReads s.mem va 4 x.root).any (fun a => mustWait s [] a 8)

/-- Whether a page serves an access (R266); engines and drains alone reach host memory (R347). DEDUCED, log 145, safe. -/
def Leaf.serves (l : Leaf) (va : Nat) (w : Want) : Bool :=
  bit l.bits 5 == decide (hostBase ≤ va)
    && (match w with
      | .fetch | .pvRead | .pvWrite => !bit l.bits 5
      | _ => true)
    && (match w with
      | .write | .pvWrite => bit l.bits 2
      | .fetch => bit l.bits 3
      | _ => true)
    && (match w with
      | .pvRead | .pvWrite => bit l.bits 4
      | _ => !bit l.bits 4)
/-- The place in memory of an address in a page. -/
def Leaf.place (l : Leaf) (va : Nat) : Nat :=
  let pa := l.bits / 256 % 2 ^ 48 * 256 + va % 2 ^ l.shift
  if bit l.bits 5 then hostBase + pa else pa

/-- What a translation answers. -/
inductive Trans
  | ok (pa : Nat)
  | fault (c : Cause)
  | miss
  deriving DecidableEq, Repr

/-- The cached leaf of an address: the core's cache, then the die's (R264). -/
def cachedLeaf (s : State) (core ctx va : Nat) : Option Leaf :=
  let hit (l : List (Nat × Nat × Nat × Nat)) : Option Leaf :=
    (l.find? (fun e => e.1 == ctx && e.2.1 == va / 2 ^ e.2.2.1)).map (fun e => Leaf.mk e.2.2.2 e.2.2.1)
  match (s.core? core).bind (fun c => hit c.tlb) with
  | some l => some l
  | none => (s.die? (dieOf core)).bind (fun d => hit d.tlb)

def Leaf.answer (l : Leaf) (va : Nat) (w : Want) : Trans := if l.serves va w then .ok (l.place va) else .fault .prot

/-- Whether a walk for the page of an address is in the merge table of a die. -/
def walking (s : State) (die ctx va : Nat) : Bool :=
  ((s.die? die).map (fun d => d.merge.any (fun e => e.1 == ctx && e.2 / 65536 == va / 65536))).getD false

/-- An address translated for a core: from the caches, or from the tables for an access that waited for the walk of its page (R264). -/
def translate (s : State) (core ctx va : Nat) (w : Want) (ended : List Nat) : Trans :=
  match cachedLeaf s core ctx va with
  | some l => l.answer va w
  | none =>
    if ended.contains (va / 65536) && !walking s (dieOf core) ctx va && !walkWaits s ctx va then
      match walk s ctx va with
      | .ok l => l.answer va w
      | .error c => .fault c
    else .miss

/-- The pages whose walks have ended while a context waits for its present access. -/
def walksOf (s : State) (c : CtxId) : List Nat :=
  match (s.ctx c).wait with
  | some (.walk _ l) => l
  | _ => []
/-- A walk begun for a page, if the merge table has room (R264), and once the die has acknowledged what it invalidates (R268).
DEDUCED, log 44, safe. -/
def startWalk (s : State) (core ctx va : Nat) : State :=
  let d := dieOf core
  if walking s d ctx va || s.tlbis.any (fun t => t.2.2.contains d) then s
  else if ((s.die? d).map (fun x => x.merge.length)).getD 0 < 512 then
    (s.modDie d (fun x => { x with merge := x.merge ++ [(ctx, va)] })).later (.translationWalk d ctx va)
  else s

/-- Whether physical bytes exist: device memory, host memory, scratchpad, `sh` (R1, R29). DESIGN CHOICE, log 114, safe. -/
def exists_ (a n : Nat) : Bool :=
  a + n ≤ Config.dramBytes || (hostBase ≤ a && a + n ≤ 2 ^ 57)
    || (2 ^ 60 ≤ a && a + n ≤ dzAddr Config.dies 0) || (2 ^ 61 ≤ a && a + n ≤ shAddr (Config.dies * Config.coresPerDie) 0)

/-! Faults (R249 to R257) -/

end Sys2Proof.Machine

namespace Sys2Proof

/-- The cause code (R249). -/
def Cause.code : Cause → Nat
  | .illop => 0x01 | .illreg => 0x02 | .scope => 0x03 | .nonuniform => 0x04 | .parted => 0x05 | .member => 0x06
  | .xword => 0x07 | .align => 0x08 | .bounds => 0x09 | .page => 0x0A | .prot => 0x0B | .stackgrow => 0x0C
  | .quota => 0x0D | .effect => 0x0E | .abort => 0x0F | .viewchg => 0x10 | .waitbudget => 0x11 | .bkpt => 0x12
  | .step => 0x13 | .trap => 0x14 | .format => 0x15 | .galley => 0x16 | .sigmismatch => 0x17 | .strikeNr => 0x18
  | .handle => 0x19 | .rcvovf => 0x1A | .calldepth => 0x1B

/-- Where a cause is delivered (R249). -/
inductive Dest | handler | host | debug
  deriving DecidableEq, Repr

def Cause.dest : Cause → Dest
  | .page | .prot | .stackgrow | .abort | .waitbudget | .sigmismatch | .strikeNr => .host
  | .bkpt | .step => .debug
  | _ => .handler

/-- Causes that stop the faulting unit only (R257). -/
def Cause.unitOnly : Cause → Bool
  | .page | .prot | .stackgrow => true
  | _ => false

end Sys2Proof

namespace Sys2Proof.Machine

/-- Where the faulting level resumes (R117). -/
def resumePc (c : Cause) (pc : Word) : Word :=
  match c with
  | .trap | .bkpt | .step => pc + 1
  | _ => pc

/-- The control state of a context. -/
def Ctx.ctl (x : Ctx) : Ctl where
  pc := x.pc
  lc := x.lc
  calls := x.calls
  rstk := x.rstk
  paths := x.lanes.map (fun l => l.path)
  lives := x.lanes.map (fun l => l.live)
  segs := x.segs
  busy := x.busy
  seen := x.seen
  tickets := x.tickets
  nextTid := x.nextTid
  log := x.log
  logBase := x.logBase
  past := x.past
  wait := x.wait
  parted := x.parted
  joined := x.joined
  xk := x.xk

/-- What a wait is after a trap, a switch or a stop: one that follows an effect of its instruction (an arrival, a request)
is kept, so that the effect is not made again; a nap has ended (R118); every other wait is executed afresh (R189). DEDUCED, log 13, unsafe. -/
def keptWait : Option Wait → Option Wait
  | some (.barrier objs true) => some (.barrier objs true)
  | some (.pbar i n) => some (.pbar i n)
  | some (.nap _) => some (.nap 0)
  | some (.service n a) => some (.service n a)
  | some (.tlbi n) => some (.tlbi n)
  | _ => none

/-- The control state put back (R256), but for the live bits: a lane that has exited in the handler stays exited (R7), and the path bit of a lane
that is not live is ignored. DEDUCED, log 118, unsafe. -/
def Ctx.setCtl (x : Ctx) (k : Ctl) : Ctx :=
  { x with
    pc := k.pc
    lc := k.lc
    calls := k.calls
    rstk := k.rstk
    lanes := (x.lanes.zip k.paths).map (fun (l, b) => { l with path := if l.live then b else l.path })
    segs := k.segs
    busy := k.busy
    seen := k.seen
    tickets := k.tickets
    nextTid := k.nextTid
    log := k.log
    logBase := k.logBase
    past := k.past
    wait := keptWait k.wait
    parted := k.parted
    joined := k.joined
    xk := k.xk
    saved := none }

/-- What the units in the segments that a rollback to a ticket has dropped go on reading: the registers that the undone entries restore,
as of each of those segments (R108, R109). -/
def Ctx.pastOf (x : Ctx) (k : Ticket) : List (Nat × List (Loc × Word)) :=
  let undone := (x.logSince k).map (fun e => e.loc)
  let kept (i : Nat) : List Loc := ((get? i x.past).getD []).map (fun v => v.1)
  (distinct ((x.tickets.filter (fun q => k.id < q.id)).map (fun q => q.id) ++ x.past.map (fun v => v.1))).map (fun i =>
    (i, (distinct (undone ++ kept i)).map (fun l => (l, x.asOf (some i) l))))
/-- A context returned to a ticket: PC, loop counters, call stack; results on their way written (R49), the log undone newest
first; younger tickets dropped (R28, R109). -/
def Ctx.rollback (tid : Option Nat) (x : Ctx) : Ctx :=
  match x.ticket? tid with
  | none => x
  | some k =>
    let n := k.pos - x.logBase
    let y := (x.log.drop n).reverse.foldl (fun y e => y.setCell e.loc e.old) x.flush
    { y with
      pc := k.pc
      lc := k.lc
      calls := k.calls
      log := x.log.take n
      past := x.pastOf k
      tickets := x.tickets.filter (fun q => q.id ≤ k.id)
      nextTid := k.id + 1
      wait := none }

/-- Every upper context of a unit returned to the ticket of its segment (R28, R109). -/
def rollbackPath (s : State) : CtxId → State
  | .slice t g i =>
    let gc := CtxId.group t g
    let tc := teamCtx s gc
    let s := s.modCtx gc (Ctx.rollback (s.ctx (.slice t g i)).headTid)
    let s := s.modCtx tc (Ctx.rollback (s.ctx gc).headTid)
    s.modCtx (gridCtx s tc) (Ctx.rollback (s.ctx tc).headTid)
  | .group t g =>
    let tc := teamCtx s (.group t g)
    let s := s.modCtx tc (Ctx.rollback (s.ctx (.group t g)).headTid)
    s.modCtx (gridCtx s tc) (Ctx.rollback (s.ctx tc).headTid)
  | .team t r => s.modCtx (.grid t.launch r) (Ctx.rollback (s.ctx (.team t r)).headTid)
  | _ => s

/-- A word of the trap frame. -/
def le4 (n : Nat) : List Byte := leBytes 4 n
/-- n words from a list, zero beyond it. -/
def words4 (n : Nat) (l : List Word) : List Byte := (List.range n).flatMap (fun i => le4 (word l i).toNat)

/-- The group and slice of a unit. -/
def groupNo : CtxId → Nat
  | .slice _ g _ | .group _ g => g
  | _ => 0
def sliceNo : CtxId → Nat
  | .slice _ _ i => i
  | _ => 0

/-- Whether the faulting unit was a parted slice. -/
def partedUnit (s : State) : CtxId → Bool
  | .slice t g _ => isParted s t g
  | _ => false

/-- The INFO word (R254). DEDUCED, log 32, unsafe. -/
def infoWord (p : Pending) (partu : Bool) : Nat :=
  p.info.cause.code + 2 ^ 8 * p.scope + 2 ^ 11 * p.info.wide.toNat + 2 ^ 12 * p.info.sub
    + (if p.scope = 3 ∨ p.scope = 4 then 0 else 2 ^ 25 + 2 ^ 16 * groupNo p.unit)
    + (if partu then 2 ^ 24 + 2 ^ 21 * sliceNo p.unit else 0)

/-- An entry of a reconvergence stack as the frame holds it (R253). -/
def rentBytes (e : REnt) : List Byte := le4 e.pc.toNat ++ le4 (e.pend.toNat + 16 * e.phase.toNat)

/-- The live and path bits of a slice block (R253). -/
def laneBits (l : List Bool) : Nat := ((List.range 4).zip l).foldl (fun n e => n + e.2.toNat * 2 ^ e.1) 0

/-- A slice block of 192 bytes (R253). -/
def sliceBlock (k : Ctl) : List Byte :=
  le4 k.pc.toNat ++ words4 4 k.lc ++ le4 k.calls.length ++ le4 k.rstk.length
    ++ le4 (laneBits k.lives + 16 * laneBits k.paths) ++ words4 8 k.calls.reverse
    ++ (List.range 16).flatMap (fun i => match k.rstk.reverse[i]? with
      | some e => rentBytes e
      | none => le4 0 ++ le4 0)

/-- The blocks of a team, a group and a grid context in a frame (R253). -/
def teamBlock (k : Ctl) : List Byte :=
  le4 k.pc.toNat ++ words4 4 k.lc ++ le4 k.calls.length ++ words4 32 k.calls.reverse ++ List.replicate 8 0
def groupBlock (pc : Word) (k : Ctl) : List Byte :=
  le4 pc.toNat ++ words4 4 k.lc ++ le4 k.parted.toNat ++ le4 k.calls.length ++ List.replicate 4 0 ++ words4 16 k.calls.reverse
def gridBlock (k : Ctl) : List Byte := le4 k.pc.toNat ++ words4 4 k.lc ++ le4 k.calls.length ++ words4 8 k.calls.reverse

/-- The trap frame (R253), from the control state of each context. The PC of a ganged group is that of its gang (R109). -/
def frameBytes (s : State) (t : TeamId) (r : Nat) (p : Pending) (partu : Bool) (ctl : CtxId → Ctl) : List Byte :=
  let tc := ctl (.team t r)
  let gv := p.scope ≠ 3 ∧ p.scope ≠ 4
  let g := groupNo p.unit
  let gc := ctl (.group t g)
  let gpc := match p.unit, partu with
    | .slice .., false => (ctl p.unit).pc
    | _, _ => gc.pc
  let z (n : Nat) : List Byte := List.replicate n 0
  let w := match p.unit with
    | .grid n q => some (ctl (.grid n q))
    | _ => none
  le4 (infoWord p partu) ++ le4 p.pc.toNat ++ le4 (p.info.mask % 2 ^ 32) ++ le4 p.info.addr.toNat ++ le4 p.info.aux.toNat
    ++ le4 p.info.xk ++ leBytes 12 p.word.toNat ++ leBytes 12 p.info.xword.toNat ++ z 16
    ++ teamBlock tc
    ++ (if gv then groupBlock gpc gc ++ (List.range 8).flatMap (fun i =>
            if (slicesOf s t g).contains (.slice t g i) then sliceBlock (ctl (.slice t g i)) else z 192)
        else z (0x740 - 0x0E0))
    ++ (match w with
      | some k => gridBlock k
      | none => z 0x38)
    ++ (if p.info.wide then leBytes 128 p.info.mask else z 128) ++ z 8

/-- The control state a frame shows: what the context holds at the fault, in a handler as elsewhere (R253, R255), with every result on
its way written (R49). -/
def shownCtl (s : State) (c : CtxId) : Ctl := (s.ctx c).flush.ctl

/-- The words of an instruction as memory holds them, past every permission; 0 where nothing is mapped. -/
def peekWord (s : State) (c : CtxId) (pc : Word) : BitVec 96 :=
  match (match c with
    | .grid n _ => s.launch? n
    | c => c.team?.bind (fun t => s.launch? t.launch)) with
  | none => 0
  | some l =>
    let va := (l.codeBase + 12 * pc.toNat) % 2 ^ 57
    match walk s l.ctx va with
    | .error _ => 0
    | .ok e =>
      if va % 2 ^ e.shift + 12 ≤ 2 ^ e.shift then BitVec.ofNat 96 (leNat (s.mem.bytes (e.place va) 12))
      else BitVec.ofNat 96 (leNat ((List.range 12).map (fun i => match walk s l.ctx (va + i) with
        | .ok e => s.mem.read (e.place (va + i))
        | .error _ => 0)))

/-- The address of the retained record of a launch: in device memory, or in the firmware's record area (R357, R373). -/
def recordAddr (n : Nat) : Nat := 512 * (Config.recordPlace n % 2 ^ 30)
def recordOf (s : State) (l : Launch) : Nat :=
  match l.recK with
  | some k => ((s.die? l.home).map (fun d => d.acc.rec_.toNat)).getD 0 + 512 * k
  | none => recordAddr l.record

/-- Whether the owner of a record is the younger of two teams on a core (R205). -/
def Rec.younger (s : State) (core : Nat) (r : Rec) : Bool := r.owner.any (fun t =>
  s.teams.any (fun e => e.2.core == core && e.2.present && e.1.launch < t.launch))
/-- A record as fault records, snapshots and save areas show it (R205); one that describes no range reads FMT 0. -/
def Rec.word (s : State) (core : Nat) (r : Rec) : BitVec 128 :=
  0#52 ++ BitVec.ofBool (r.younger s core) ++ BitVec.ofBool r.valid ++ BitVec.ofNat 15 (r.moff / 16) ++ BitVec.ofNat 15 (r.soff / 16)
    ++ r.base ++ BitVec.ofNat 2 r.scl.code ++ BitVec.ofNat 2 r.blk.code ++ BitVec.ofNat 5 r.fmt.b8bits ++ BitVec.ofNat 2 r.spars.code
    ++ (if r.size = 0 then 0#4 else BitVec.ofNat 4 r.fmt.code) ++ 0#1 ++ BitVec.ofNat 9 r.size ++ BitVec.ofNat 8 r.start

/-- The reservation records of a team's core, in the layout of R205. DESIGN CHOICE, log 139, unsafe. -/
def recordBytes (s : State) (t : TeamId) : List Byte :=
  match (s.team? t).bind (fun x => s.core? x.core) with
  | some c => c.recs.flatMap (fun r => leBytes 16 (r.word s c.num).toNat)
  | none => []

/-- A fault-ring entry of R364 without its sequence, which is written with it: 56 bytes of header, the frame, the rest.
DESIGN CHOICE, log 80, unsafe. -/
def ringEntry (s : State) (ctx : Nat) (t : Option TeamId) (cause : Nat) (frame rest : List Byte) : List Byte :=
  let x := t.bind s.team?
  le4 ctx ++ le4 ((t.map (fun k => k.num)).getD 0) ++ le4 ((x.map (fun y => pairOf y.core)).getD 0)
    ++ le4 ((x.map (fun y => dieOf y.core)).getD 0) ++ leBytes 8 s.tick ++ leBytes 8 cause
    ++ leBytes 8 (((t.bind (fun k => s.launch? k.launch)).map (recordOf s)).getD 0) ++ leBytes 16 0
    ++ frame ++ List.replicate (2048 - frame.length) 0 ++ rest

/-- Whether some bytes of a context's address space are written by a write that is still held: the compositor waits with its access
(R243). -/
def vaHeld (s : State) (ctx va n : Nat) : Bool := !s.galley.isEmpty && (List.range n).any (fun i =>
  walkWaits s ctx (va + i) || (match walk s ctx (va + i) with
    | .ok l => mustWait s [compTeam] (l.place (va + i)) 1
    | .error _ => false))
/-- The bytes of an entry of a fault ring (R364); what does not fit in one falls away. -/
def ringSlot : Nat := 16384
/-- Where the next entry of a fault ring lies. -/
def Context.ringPlace (x : Context) : Nat := x.frBase + ringSlot * (x.frProd % 2 ^ x.frLog)
/-- Whether the fault ring of a context takes an entry now. -/
def ringTakes (s : State) (ctx : Nat) (x : Context) (n : Nat) : Bool := x.frProd - x.frFree < 2 ^ x.frLog && !vaHeld s ctx x.ringPlace n
/-- An entry put into the fault ring of a context, or held while the ring is full (R364). -/
def writeRing (s : State) (ctx : Nat) (entry : List Byte) : State :=
  match s.context? ctx with
  | none => s
  | some x =>
    if x.frHeld.isEmpty && ringTakes s ctx x (min ringSlot (entry.length + 8)) then
      let va := x.ringPlace
      let body := (entry.take 56 ++ leBytes 8 x.frSeq ++ entry.drop 56).take ringSlot
      let s := match walk s ctx va with
        | .ok l => compHold s (placed (l.place va) body)
        | .error _ => s
      s.modContext ctx (fun x => { x with frProd := x.frProd + 1, frSeq := x.frSeq + 1 })
    else s.modContext ctx (fun x => { x with frHeld := x.frHeld ++ [entry] })

/-- The oldest entry that is held for a fault ring put into it as it takes it. -/
def flushRing (s : State) (ctx : Nat) : State :=
  match (s.context? ctx).bind (fun x => x.frHeld.head?.map (fun b => (x, b))) with
  | some (x, b) =>
    if ringTakes s ctx x (min ringSlot (b.length + 8)) then
      (writeRing (s.modContext ctx (fun x => { x with frHeld := [] })) ctx b).modContext ctx (fun y => { y with frHeld := x.frHeld.tail })
    else s
  | none => s

/-- A context that stops at a boundary: its run-ahead is undone, results on their way are written (R258, R269). -/
def Ctx.halt (x : Ctx) : Ctx := (Ctx.rollback (x.tickets.head?.map (fun k => k.id)) x).flush

/-- A team stopped (R250, R257, R269). -/
def stopTeam (s : State) (t : TeamId) (why : Stop) : State :=
  let s := s.modCtxs ((s.ctxs.map (fun e => e.1)).filter (fun c => c.team? = some t)) Ctx.halt
  s.modTeam t (fun x => { x with state := .stopped why })

/-- The faulting unit left standing at its resumption point (R255), an `XISSUE` with the words that have taken effect (R114), and the
slices of a ganged group that faults at the faulting instruction (R109). VIEWCHG befalls a unit between instructions, whose wait stands
(R335). -/
def standAt (s : State) (p : Pending) : State :=
  let at_ := (s.ctx p.unit).pc
  let pc := resumePc p.info.cause at_
  let below := match p.unit with
    | .group t g => if isParted s t g then [] else liveSlices s t g
    | _ => []
  let stand (x : Ctx) : Ctx := if p.info.cause = .viewchg then x else
    { x with pc := pc, wait := none, xk := p.info.xk, joined := x.joined && pc = at_ }
  (s.modCtxs (unitOf s p.unit) stand).modCtxs below (fun x => { x with pc := at_ })

/-- A trigger of the common snapshot (R392): on the barrier tree, or dropped and counted while a snapshot is held. DEDUCED, log 97, unsafe. -/
def fireTrigger (s : State) (src : Nat) (tag : Word) (ctx : Nat) (pc : Word) : State :=
  if s.pages.held then { s with pages := { s.pages with dropped := min 0xFFFF (s.pages.dropped + 1) } }
  else
    { s with pages := { s.pages with triggers := s.pages.triggers ++ [⟨s.treeCycle, s.tick, src, tag, ctx, pc⟩] } }
/-- A fault delivered to a handler or the host fires the trigger, where FAULTEN is set; its tag is unspecified. DESIGN CHOICE, log 113, safe. -/
def faultTrigger (s : State) (t : TeamId) (p : Pending) : State :=
  if s.pages.faulten then
    fireTrigger { s with nonce := s.nonce + 1 } 4 (Config.freeWord s.nonce) (((s.team? t).map (fun x => x.ctx)).getD 0) p.pc
  else s

/-- A fault reported to the host with its frame (R250, R257). -/
def reportHost (s : State) (t : TeamId) (r : Nat) (p : Pending) : State :=
  let partu := partedUnit s p.unit
  let s := standAt (rollbackPath (faultTrigger s t p) p.unit) p
  let frame := frameBytes s t r p partu (shownCtl s)
  let s := match s.team? t with
    | some x => writeRing s x.ctx (ringEntry s x.ctx (some t) p.info.cause.code frame (recordBytes s t))
    | none => s
  if p.info.sub = 4 then stopTeam s t .host
  else if p.info.cause.unitOnly then s.modCtxs (unitOf s p.unit) (fun x => { x.flush with stop := some .host })
  else if p.info.cause.dest = .host then (unitTeams s t).foldl (fun s u => stopTeam s u .host) s
  else stopTeam s t .host

/-- A fault for the host, or, while the team is taken off its core, kept for its return (R258). -/
def toHost (s : State) (t : TeamId) (r : Nat) (p : Pending) : State :=
  if ((s.team? t).map (fun x => x.leaving)).getD false then s.modTeam t (fun x => { x with late := x.late ++ [(r, p)] })
  else reportHost s t r p

/-- A fault delivered to the debug agent (R116, R269). -/
def toDebug (s : State) (t : TeamId) (r : Nat) (p : Pending) : State :=
  let partu := partedUnit s p.unit
  let s := standAt (rollbackPath s p.unit) p
  let s := s.say (.debug t (frameBytes s t r p partu (shownCtl s)))
  let teams := match p.unit with
    | .grid n _ => gridTeams s n
    | _ => [t]
  teams.foldl (fun s u => stopTeam s u .debug) s

/-- A context as it stands at the `.trap` entry (R255). -/
def Ctx.enter (entry : Word) (x : Ctx) : Ctx :=
  let y := x.flush
  { y with
    saved := some y.ctl
    pc := entry
    lc := [0, 0, 0, 0]
    calls := []
    rstk := []
    lanes := y.lanes.map (fun l => { l with path := l.live || l.path })
    segs := []
    busy := false
    seen := 0
    tickets := []
    nextTid := 1
    log := []
    logBase := 0
    past := []
    wait := none
    parted := false
    fresh := []
    xk := 0
    joined := false
    stop := none }

/-- Where the trap frame of a role lies in its team's `sh` (R252). -/
def frameOffset (s : State) (t : TeamId) (x : Team) (r : Nat) : Nat := shLimit s t x - 8192 + 2048 * r
def frameAddr (s : State) (t : TeamId) (x : Team) (r : Nat) : Nat := shAddr x.core (x.shBase + frameOffset s t x r)
/-- The contexts that a fault of a role concerns: those of the role, and the grid context that raised a W-scope one (R251). -/
def faultCtxs (s : State) (t : TeamId) (r : Nat) (p : Pending) : List CtxId :=
  roleCtxs s t r ++ (match p.unit with
    | .grid n q => [CtxId.grid n q]
    | _ => [])
/-- Whether the galley has room for the frame of a role; a delivery waits for it as a store does (R281). DEDUCED, log 127, safe. -/
def frameFits (s : State) (t : TeamId) (x : Team) (r : Nat) : Bool :=
  let old := galleyBlocks s x.core
  let new := ((List.range 32).map (fun i => frameAddr s t x r / 64 + i)).filter (fun b => !old.contains b)
  old.length + new.length ≤ Config.galleyEntries

/-- TAKING AN EXCEPTION: a fault delivered to the handler of a role (R251 to R255). The run-ahead of the path is undone, the
frame is written to `sh`, and the role stands at the `.trap` entry. -/
def deliver (s : State) (t : TeamId) (r : Nat) (entry : Word) (p : Pending) : State :=
  match s.team? t with
  | none => s
  | some x =>
    let partu := partedUnit s p.unit
    let s := standAt (rollbackPath (faultTrigger s t p) p.unit) p
    let own := faultCtxs s t r p
    let frame := frameBytes s t r p partu (shownCtl s)
    let off := frameOffset s t x r
    let s := sign (holdWrite s t (placed (frameAddr s t x r) frame) none) t (sigWrite 0 off frame)
    let s := s.modCtxs (own.filter (fun c => c.level < 4)) (Ctx.enter entry)
    let s := s.modCtxs (own.filter (fun c => c.level = 4)) (fun y => { y.flush with saved := some y.flush.ctl, stop := some .fault })
    s.modTeam t (fun y => { y with
      roles := y.roles.modify r (fun q => { q with handler := some p, frame := off })
      sealers := y.sealers.filter (fun q => q.role ≠ r) })

/-- Whether some role of a team is in its handler. -/
def Team.handling (x : Team) : Bool := x.roles.any (fun r => r.handler.isSome)

/-- A fault brought to its destination (R249 to R251); it waits while another role is in its handler, and for room in the galley. -/
def route (s : State) (t : TeamId) (r : Nat) (p : Pending) : State :=
  match s.team? t with
  | none => s
  | some x =>
    if ((x.roles[r]?).bind (fun q => q.handler)).isSome && p.info.cause.dest != .debug then
      toHost s t r { p with info := { p.info with sub := 4 } }
    else match p.info.cause.dest with
      | .debug => toDebug s t r p
      | .host => toHost s t r p
      | .handler => match (s.launch? t.launch).bind (fun l => l.trapPc) with
        | none => toHost s t r p
        | some e =>
          if x.handling || !frameFits s t x r then
            (s.modTeam t (fun y => { y with faults := y.faults ++ [p] })).modCtxs (faultCtxs s t r p)
              (fun c => { c with stop := some .fault })
          else deliver s t r e p

/-- The team and role to whose handler a unit's fault goes (R251). -/
def faultHome (s : State) : CtxId → Option (TeamId × Nat)
  | .slice t g i => some (t, roleOf s (.slice t g i))
  | .group t g => some (t, roleOf s (.group t g))
  | .team t r => some (t, r)
  | .grid n r => ((gridTeams s n).find? (fun t => ((role? s t r).map (fun x => !x.ended)).getD false)).map (fun t => (t, r))
  | .firmware _ => none

/-- A fault raised at a unit by the instruction at its PC, of scope code sc. -/
def raise (s : State) (c : CtxId) (sc : Nat) (f : FaultInfo) : State :=
  let f := { f with xk := max f.xk (s.ctx c).xk }
  let s := s.modCtxs (unitOf s c) (fun x => { x with wait := none, fresh := [] })
  let s := match c with
    | .team t r => s.modTeam t (fun x => { x with sealers := x.sealers.filter (fun q => q.role ≠ r) })
    | _ => s
  let f := match c with
    | .grid _ _ => { f with sub := if f.sub = 0 then 3 else f.sub }
    | _ => f
  let p : Pending := ⟨c, f, (s.ctx c).pc, peekWord s c (s.ctx c).pc, sc⟩
  let s := { s with took := .trapped }
  match faultHome s c with
  | some (t, r) => route s t r p
  | none => s.modCtx c (fun x => { x with stop := some .fault })

/-! Barrier objects (R188, R189) -/

/-- The 128 bits of the object at a `sh` address of a team. -/
def barrierAt (s : State) (t : TeamId) (a : Nat) : Nat :=
  match resolve s t .sh a 16 with
  | some p => leNat (readBytes s (unitTeams s t) p 16)
  | none => 0
/-- An object by its fields (R188). -/
structure Bar where
  pend : Nat
  lane : Bool
  expect : Nat
  arrived : Nat
  gen : Nat
  deriving DecidableEq, Repr
def Bar.ofNat (n : Nat) : Bar := ⟨n % 2 ^ 56, n.testBit 56, n / 2 ^ 64 % 2 ^ 16, n / 2 ^ 80 % 2 ^ 16, n / 2 ^ 112 % 2 ^ 16⟩
def Bar.toNat (b : Bar) : Nat :=
  b.pend + 2 ^ 56 * b.lane.toNat + 2 ^ 64 * b.expect + 2 ^ 80 * b.arrived + 2 ^ 96 * (b.gen % 2) + 2 ^ 112 * b.gen
def getBar (s : State) (t : TeamId) (a : Nat) : Bar := .ofNat (barrierAt s t a)
/-- The object written, by its owning port. -/
def setBar (s : State) (t : TeamId) (a : Nat) (b : Bar) : State :=
  match resolve s t .sh a 16 with
  | some p => sign (holdWrite s t (placed p (leBytes 16 b.toNat)) none) t (sigWrite 0 a (leBytes 16 b.toNat))
  | none => s
/-- PEND read in two's complement (R189). -/
def Bar.signedPend (b : Bar) : Int := if b.pend < 2 ^ 55 then b.pend else (b.pend : Int) - 2 ^ 56

/-- The objects of a wait that have not ended a phase yet, as their generations stand (R189). -/
def stillWaiting (s : State) (t : TeamId) (objs : List (Word × BitVec 16)) : List (Word × BitVec 16) :=
  objs.filter (fun o => (getBar s t o.1.toNat).gen = o.2.toNat)

/-- A wait that is executed again tests its objects afresh (R189). -/
def retest (s : State) (t : TeamId) : Wait → Wait
  | .barrier objs true => .barrier (stillWaiting s t objs) true
  | w => w

/-- A phase of an object has ended: its waiters test (R189). -/
def wakeBar (s : State) (t : TeamId) (a : Nat) : State :=
  let gen := (getBar s t a).gen
  s.modCtxs ((s.ctxs.map (fun e => e.1)).filter (fun c => c.team? = some t)) (fun x =>
    match x.wait with
    | some (.barrier objs bar) =>
      { x with wait := some (.barrier (objs.filter (fun o => o.1.toNat ≠ a ∨ o.2.toNat = gen)) bar) }
    | _ => x)

/-- A nap that ends early (R118). -/
def Ctx.rouse (x : Ctx) : Ctx :=
  match x.wait with
  | some (.nap _) => { x with wait := some (.nap 0) }
  | _ => x
/-- The naps of a team end early (R118). -/
def rouseTeam (s : State) (t : TeamId) : State :=
  s.modCtxs ((s.ctxs.map (fun e => e.1)).filter (fun c => c.team? = some t)) Ctx.rouse

/-- `Advance` (R189). -/
def advanceBar (s : State) (t : TeamId) (a : Nat) : State :=
  let b := getBar s t a
  let present := b.arrived + (if b.lane then ((s.team? t).map (fun x => x.exited)).getD 0 else 0)
  if b.pend = 0 ∧ b.expect ≤ present then
    rouseTeam (wakeBar (setBar s t a { b with gen := (b.gen + 1) % 2 ^ 16, arrived := 0 }) t a) t
  else s

/-- Bytes delivered to an object (R189). -/
def deliverBar (s : State) (t : TeamId) (a n : Nat) : State :=
  let b := getBar s t a
  advanceBar (setBar s t a { b with pend := (b.pend + 2 ^ 56 - n % 2 ^ 56) % 2 ^ 56 }) t a

/-- Words read back from a frame in `sh`. -/
def frameWord (s : State) (t : TeamId) (a off : Nat) : Word := BitVec.ofNat 32 (leNat (readBytes s (unitTeams s t) (a + off) 4))
def frameWords (s : State) (t : TeamId) (a off n : Nat) : List Word := (List.range n).map (fun i => frameWord s t a (off + 4 * i))

/-- A control state with PC, loop counters and call stack as the frame at a gives them, entry 0 at the bottom (R253, R256). -/
def Ctl.readBack (k : Ctl) (s : State) (t : TeamId) (a pcOff lcOff csOff : Nat) : Ctl :=
  { k with
    pc := frameWord s t a pcOff
    lc := frameWords s t a lcOff 4
    calls := (frameWords s t a csOff k.calls.length).reverse }

/-- A slice's control state as its block of the frame gives it (R253, R256). -/
def Ctl.readSlice (k : Ctl) (s : State) (t : TeamId) (a : Nat) : Ctl :=
  let y := k.readBack s t a 0x00 0x04 0x20
  let lanes := frameWord s t a 0x1C
  { y with
    paths := (List.range 4).map (fun i => lanes.getLsbD (4 + i))
    rstk := ((List.range k.rstk.length).map (fun i =>
      let w := frameWord s t a (0x40 + 8 * i + 4)
      REnt.mk (frameWord s t a (0x40 + 8 * i)) (w.extractLsb' 0 4) (w.getLsbD 4))).reverse }

/-- The PC of a ganged group as its frame gives it, for a fault of its gang: where the handler has moved it, the group hands down
afresh from there (R109, R256). -/
def Ctl.movedGang (k : Ctl) (pc : Word) (was : Word) : Ctl :=
  if pc = was then k else { k with pc := pc, tickets := [], nextTid := ((k.tickets.head?.map (fun q => q.id)).getD k.nextTid) }
/-- The slices of a ganged group whose PC the handler has moved: they take a segment from it again. -/
def Ctl.movedSlice (k : Ctl) (moved : Bool) : Ctl :=
  if moved then { k with segs := [], busy := false, seen := ((k.segs.head?.map (fun q => q.tid - 1)).getD k.seen) } else k

/-- A slice without live lanes has exited, and its entries go with it (R100). -/
def Ctx.bury (x : Ctx) : Ctx :=
  if x.lanes.isEmpty || x.live then x else { x with rstk := [], calls := [], segs := [], busy := false, wait := none }

/-- THE RETURN FROM AN EXCEPTION (R256): every level of the faulting path from the frame, the other units as they stood. -/
def returnFrom (s : State) (t : TeamId) (r : Nat) : State :=
  match s.team? t, (role? s t r).bind (fun q => q.handler) with
  | some x, some p =>
    let a := shAddr x.core (x.shBase + ((x.roles[r]?).map (fun q => q.frame)).getD 0)
    let g := groupNo p.unit
    let gv := p.scope ≠ 3 ∧ p.scope ≠ 4
    let xk := (frameWord s t a 0x14).toNat
    let gang := match p.unit with
      | .slice .. => ((s.ctx (.group t g)).saved.map (fun k => !k.parted)).getD false
      | _ => false
    let was := ((s.ctx p.unit).saved.map (fun k => k.pc)).getD 0
    let now := frameWord s t a 0x0E0
    let back (c : CtxId) (k : Ctl) : Ctl := match c with
      | .team .. => k.readBack s t a 0x040 0x044 0x058
      | .group _ h =>
        if gv ∧ h = g then
          let y := k.readBack s t a 0x0E0 0x0E4 0x100
          if gang then Ctl.movedGang { y with pc := k.pc } now was else y
        else k
      | .slice _ h i =>
        if gv ∧ h = g then (k.readSlice s t (a + 0x140 + 0xC0 * i)).movedSlice (gang && now != was) else k
      | _ => k.readBack s t a 0x740 0x744 0x758
    let s := (faultCtxs s t r p).foldl (fun s c => match (s.ctx c).saved with
        | some k => s.modCtx c (fun y =>
          let z := (y.flush.setCtl (back c k)).bury
          { z with
            wait := z.wait.map (retest s t)
            stop := none
            joined := z.joined && z.pc == k.pc
            xk := if c ∈ unitOf s p.unit then (if z.pc = k.pc then xk else 0) else z.xk })
        | none => s) s
    let s := s.modTeam t (fun y => { y with roles := y.roles.modify r (fun q => { q with handler := none }) })
    (unitTeams s t).foldl (fun s u => s.modTeam u (fun y => { y with
      effReserve := y.effReserve || p.info.cause == .effect
      galReserve := y.galReserve || p.info.cause == .galley })) s
  | _, _ => s

/-- The oldest fault that waits in a team whose roles are in no handler goes to its handler once the galley has room (R251). -/
def deliverQueued (s : State) (t : TeamId) : State :=
  match s.team? t with
  | none => s
  | some x => match x.faults with
    | [] => s
    | f :: rest =>
      let q := roleOf s f.unit
      if x.handling || x.state ≠ .running || !frameFits s t x q then s
      else route ((s.modTeam t (fun y => { y with faults := rest })).modCtxs (faultCtxs s t q f) (fun c => { c with stop := none })) t q f

/-! The frame of every instruction -/

/-- What a body answers. -/
inductive Res
  | next (s : State)
  /-- the body has set the PCs itself -/
  | jump (s : State)
  /-- the body has done everything, the hints and counts of the unit as well -/
  | done (s : State)
  | stall (s : State) (w : Wait)
  /-- the body has set the waits itself -/
  | hold (s : State)
  | trap (s : State) (f : FaultInfo)
  /-- the body has raised a fault itself, after effects that stay (R114) -/
  | raised (s : State)
  /-- an access to a physical address that the part does not have -/
  | gone (s : State)

/-- What a body is given: the issuing context, the scope, the contexts it stands for, the participating lanes or contexts. -/
structure Env where
  c : CtxId
  x : Scope
  h : Head
  unit : List CtxId
  parts : List (CtxId × Nat)

/-- The team of the issuing context; a team of number 0 for grid and firmware contexts. -/
def Env.team (e : Env) : TeamId := e.c.team?.getD ⟨0, 0⟩

/-- The write of an instruction that the galley cannot take: a stall, or GALLEY in proof and audit mode (R281, R297). -/
def galleyBar (s : State) (t : TeamId) (bs : List (Nat × Byte)) (otherwise : Res) : Res :=
  if galleyFits s t bs then otherwise
  else if holdsToSeal s t then .trap s { cause := .galley } else .stall s .galley

/-- How an instruction issues: anchored (R107), variable-latency (R48), barred in a handler (R255). -/
structure How where
  anchored : Bool := false
  varying : Bool := false
  noHandler : Bool := false
  /-- an S-scope control instruction that decides slice by slice (R97): the body applies the guard -/
  raw : Bool := false
  /-- an effect instruction (R288) -/
  effect : Bool := false

/-- Variable results still to arrive in some contexts. -/
def outstanding (s : State) (cs : List CtxId) : Bool := cs.any (fun c => (s.ctx c).vars.any (fun r => !r.arrived))

/-- The variable results of a context that have not arrived. -/
def Ctx.coming (x : Ctx) : List Nat := (x.vars.filter (fun r => !r.arrived)).map (fun r => r.id)
/-- The results that a unit waits for with a variable result of its own (R50): in a slice that holds eight, the oldest, until it arrives.
The manual gives the number for a slice; the model takes the same one for every context. -/
def fullOn (s : State) (cs : List CtxId) : List Nat := cs.flatMap (fun c =>
  let out := (s.ctx c).coming
  (match (s.ctx c).wait with
    | some (.full ids) => out.filter (fun i => ids.contains i)
    | _ => []) ++ (if Config.maxVariable ≤ out.length then out.take 1 else []))
/-- Whether a unit has no place for a variable result. DEDUCED, log 119, unsafe. -/
def varFull (s : State) (cs : List CtxId) : Bool := !(fullOn s cs).isEmpty

/-- Whether a window has closed on a result that has not arrived (R50). -/
def windowShut (x : Ctx) : Bool := x.vars.any (fun r => r.left == 0 && !r.arrived)

/-- Arrived results whose window has closed, written. -/
def Ctx.collect (x : Ctx) : Ctx := (x.vars.filter (fun r => r.left == 0 && r.arrived)).foldl (fun y r => y.commit r) x

/-- The stack checks of a join (R17, R99). -/
def joinFault (s : State) (cs : List CtxId) : Bool := cs.any (fun c => (s.ctx c).rstk.isEmpty)

/-- Whether a join switches to the waiting lanes (R99). -/
def joinSwitches (s : State) (cs : List CtxId) : Bool :=
  cs.all (fun c => ((s.ctx c).rstk.head?.map (fun e => !e.phase)).getD true)
    && cs.any (fun c => ((s.ctx c).rstk.head?.map (fun e => e.pend != 0)).getD false)

/-- The active lanes of a slice as a mask of four. -/
def Ctx.activeMask (x : Ctx) : BitVec 4 :=
  BitVec.ofNat 4 (laneBits (x.lanes.map (fun l => l.live && l.path)))

/-- The switch of a join in one slice (R99): the waiting lanes run from the entry's PC. `bare` is R100's path that ended with
no lane arriving. -/
def Ctx.switch (x : Ctx) (join : Word) : Ctx :=
  match x.rstk with
  | [] => x
  | e :: r =>
    let arrived := x.activeMask
    { x with
      pc := e.pc
      lanes := ((List.range 4).zip x.lanes).map (fun (k, l) =>
        { l with path := if e.pend.getLsbD k then true else if arrived.getLsbD k then false else l.path })
      rstk := ⟨join, arrived, true⟩ :: r }

/-- The merge of a join in one slice (R99). -/
def Ctx.merge (x : Ctx) : Ctx :=
  match x.rstk with
  | [] => x
  | e :: r => { x with
      lanes := ((List.range 4).zip x.lanes).map (fun (k, l) => { l with path := l.path || e.pend.getLsbD k })
      rstk := r }

/-- The participating lanes or contexts under the guard (R44, R125). -/
def participants (s : State) (x : Scope) (c : CtxId) (unit : List CtxId) (g : Guard) : List (CtxId × Nat) :=
  match x with
  | .L => (activeLanes s unit).filter (fun p => guardOn s .L p.1 p.2 g)
  | .S => (unit.map (fun u => (u, 0))).filter (fun p => guardOn s .S p.1 0 g)
  | _ => if guardOn s x c 0 g then [(c, 0)] else []

/-- An instruction has issued: the hints, windows and counts of its unit (R50, R52, R312). -/
def retire (s : State) (e : Env) (ids : List Nat) (advance : Bool) : State :=
  let low := e.x.level = 1
  let s := s.modCtxs e.unit (fun x => { x with
    pc := if advance then x.pc + 1 else x.pc
    wait := none
    joined := false
    xk := 0
    next := s.cycle + 1 + (if low then e.h.hints.gap.toNat else 0)
    last := s.cycle + 1
    skip := 0
    yld := low && e.h.hints.yld
    vars := x.vars.map (fun r => if ids.contains r.id then { r with left := r.left - 1 } else r) })
  { s with took := .issued }

/-- The results of a unit that were on their way before the instruction. -/
def varIds (s : State) (cs : List CtxId) : List Nat := cs.flatMap (fun c => (s.ctx c).vars.map (fun r => r.id))

/-- A unit that waits. DESIGN CHOICE, log 12, unsafe. -/
def stand (s : State) (e : Env) (w : Wait) : State :=
  { s.modCtxs e.unit (fun x => { x with wait := some w }) with took := .stalled }

/-- Whether the role of a unit is in its handler. -/
def inHandler (s : State) (c : CtxId) : Bool :=
  match c.team? with
  | some t => ((role? s t (roleOf s c)).map (fun q => q.handler.isSome)).getD false
  | none => false

/-- The effect counters of some contexts counted (R288). -/
def countEffect (s : State) (cs : List CtxId) : State := s.modCtxs cs (fun x => { x with eff := (x.eff + 1) % 8192 })
/-- An instruction whose guard is false in every lane and unit issues (R44): an effect instruction is counted (R288). -/
def guardedOff (s : State) (how : How) (cs : List CtxId) : State := if how.effect then countEffect s cs else s

/-- A word of an `XISSUE`: the body runs for the word's lanes, and what it did is noted (R112). -/
def issueWord (h : Head) (how : How) (m : XMode) (c : CtxId) (body : Env → State → Res) (s : State) : State :=
  let parts := m.parts.filter (fun p => guardOn s .L p.1 p.2 h.guard)
  let e : Env := ⟨c, .L, h, unitOf s c, parts⟩
  if parts.isEmpty then guardedOff s how e.unit
  else match body e s with
    | .next t | .jump t | .done t => t
    | .stall t w => { s with timers := t.timers, nonce := t.nonce, xm := some { m with stall := some w } }
    | .hold _ | .gone _ | .raised _ => { s with xm := some { m with stall := some .access } }
    | .trap _ f => { s with xm := some { m with trap := some f } }

/-- A stall or a trap leaves everything as it was before the instruction, but for the walks begun (R42, R166). -/
def unmade (s t : State) : State := { s with dies := t.dies, timers := t.timers, nonce := t.nonce }

/-- A wait that follows an effect of its instruction: what the body has done stays. -/
def holdWith (s : State) (e : Env) (w : Wait) : Res := .hold (s.modCtxs e.unit (fun x => { x with wait := some w }))

/-- A fault of an instruction: an upper context that has run ahead waits until program order has reached the instruction, since its
lower units have issued everything before it (R46, R107, R109). -/
def faultAt (s : State) (e : Env) (f : FaultInfo) : State :=
  if (s.ctx e.c).tickets.isEmpty then raise s e.c e.x.num f else stand s e .lower

/-- The body of an instruction whose join mark, if any, has acted. What a handler may not hold is ILLOP there whatever its guard, as a
check of the instruction as such (R255). DEDUCED, log 120, unsafe. -/
def issueBody (h : Head) (how : How) (c : CtxId) (body : Env → State → Res) (s : State) : State :=
  let unit := unitOf s c
  let e0 : Env := ⟨c, h.scope, h, unit, []⟩
  if how.noHandler && inHandler s c then faultAt s e0 { cause := .illop }
  else if how.varying && varFull s unit then stand s e0 (.full (fullOn s unit))
  else if how.anchored && !(s.ctx c).tickets.isEmpty then stand s e0 .lower
  else
    let e : Env := { e0 with parts := if how.raw then [] else participants s h.scope c unit h.guard }
    let ids := varIds s unit
    if e.parts.isEmpty && !how.raw then retire (guardedOff s how unit) e ids true
    else match body e s with
      | .next t => retire t e ids true
      | .jump t => retire t e ids false
      | .done t => { t with took := .issued }
      | .stall t w => stand (unmade s t) e w
      | .hold t => { t with took := .stalled }
      | .trap t f => faultAt (unmade s t) e f
      | .raised t => t
      | .gone t => { t with took := .gone }

/-- The outcome of an instruction that has run: an access to a physical address that is not there stops the machine. -/
def ended (s : State) : Host.Outcome State Fault Refusal := if s.took = .gone then .fault .noSuchAddress else .next s

/-- A coded instruction at the context whose turn it is: results that fall due, the window of R50, the join of R99, then the
body. DESIGN CHOICE, log 115, safe. -/
def issue (h : Head) (how : How) (body : Env → State → Res) (s : State) : Host.Outcome State Fault Refusal :=
  match s.cur with
  | none => .fault .noContext
  | some c =>
    match s.xm with
    | some m => .next (issueWord h how m c body s)
    | none =>
      if !s.hasCtx c then .fault .noContext
      else if !c.serves h.scope then
        match c with
        | .slice t g _ =>
          if isParted s t g then .next (raise (s.modCtx c (fun x => x.settle s.cycle)) c h.scope.num { cause := .parted })
          else .fault .noContext
        | _ => .fault .noContext
      else
        let unit := unitOf s c
        let s := s.modCtxs unit (fun x => (x.settle s.cycle).collect)
        let e : Env := ⟨c, h.scope, h, unit, []⟩
        if unit.any (fun u => windowShut (s.ctx u)) then .next (stand s e .result)
        else if h.join && h.scope.level == 1 && !(s.ctx c).joined then
          if joinFault s unit then .next (raise s c h.scope.num { cause := .rcvovf, sub := 1 })
          else if joinSwitches s unit then
            .next { s.modCtxs unit (fun x => { x.switch x.pc with wait := none, next := s.cycle + 1 }) with took := .joined }
          else ended (issueBody h how c body (s.modCtxs unit (fun x => { x.merge with joined := true })))
        else ended (issueBody h how c body s)

/-! Results -/

/-- Whether a write meets a variable result that has not arrived (R50). -/
def meetsPending (s : State) (ws : List (CtxId × Loc × Word)) : Bool :=
  ws.any (fun e => (s.ctx e.1).vars.any (fun r => !r.arrived && r.writes.any (fun w => w.1 = e.2.1)))

/-- Arrived results that a write meets, written first (R50). -/
def Ctx.yieldTo (x : Ctx) (ws : List (Loc × Word)) : Ctx :=
  (x.vars.filter (fun r => r.arrived && r.writes.any (fun w => ws.any (fun e => e.1 = w.1)))).foldl (fun y r => y.commit r) x

/-- The cycles after issue at which a fixed result is readable (R48). -/
def fixedLatency (x : Scope) : Nat :=
  match x with
  | .L => 4
  | _ => 2

/-- Results delivered: the stalls of R50 and R27, then f writes them. In a word of an `XISSUE` they are written at once. -/
def emitWith (s : State) (ws : List (CtxId × Loc × Word)) (f : State → Ctx → List (Loc × Word) → Ctx) : Res :=
  match s.xm with
  | some m =>
    .next { writeAll s ws (fun x v => x.setCells v) with xm := some { m with written := m.written ++ ws.map (fun e => (e.1, e.2.1)) } }
  | none =>
    if meetsPending s ws then .stall s .result
    else if (ownersOf ws).any (fun c => !logRoom s c (writesOf c ws)) then .stall s .room
    else .next (writeAll s ws (fun x v => f s (x.yieldTo v) v))

/-- Results of a fixed latency class (R48). -/
def emitFixed (e : Env) (s : State) (ws : List (CtxId × Loc × Word)) : Res :=
  emitWith s ws (fun s x v => x.delay (s.cycle + fixedLatency e.x) v)

/-- Cells written at once; an older fixed result on its way to one of them falls away. -/
def Ctx.setNow (x : Ctx) (ws : List (Loc × Word)) : Ctx :=
  { x with fixed := x.fixed.filter (fun p => !ws.any (fun w => w.1 = p.loc)) }.setCells ws

/-- Results readable by the next instruction (R48). -/
def emitNow (s : State) (ws : List (CtxId × Loc × Word)) : Res := emitWith s ws (fun _ x v => x.setNow v)

/-- A variable result: it arrives when it arrives, within the window of LA (R50). -/
def emitVar (e : Env) (s : State) (acq : Bool) (ws : List (CtxId × Loc × Word)) : Res :=
  let (id, s) := s.fresh
  match emitWith s ws (fun _ x v => { x with vars := x.vars ++ [⟨id, v, e.h.hints.la.toNat, false, acq⟩] }) with
  | .next t => if s.xm.isSome || ws.isEmpty then .next t else .next (t.later (.resultArrival e.c id))
  | r => r

end Sys2Proof.Machine
end

