-- ==== Sys2Proof/Machine/Operands.lean ====
section
/-! DEFINITION. Operand forms: registers, pairs, immediates, handles and queue registers as sources and destinations (R12,
R14, R18, R21, R124 to R126, R191 to R194), and the shape that register instructions share. -/

namespace Sys2Proof.Machine

/-- A source: n words from a register, or an immediate value. -/
inductive Operand
  | reg (r : Reg) (n : Nat)
  | imm (v : Nat)
  deriving DecidableEq, Repr

/-- Operand B of 32 bits: a register, or IMM32 (R124). -/
def Operand.src : Src → Operand
  | .reg r => .reg r 1
  | .imm x => .imm x.toNat
/-- Operand B of a type: IMM32 extended as R124 says. -/
def Operand.typed (ty : IntTy) : Src → Operand
  | .reg r => .reg r ty.words
  | .imm x => .imm (lowBits (32 * ty.words) (if ty.signed then x.toInt else x.toNat))

/-- The register of a source. -/
def Operand.reg? : Operand → Option Reg
  | .reg r _ => some r
  | .imm _ => none

def Reg.isQueue : Reg → Bool
  | .q _ => true
  | _ => false

/-! Role queues (R191 to R194) -/

/-- An access to a queue that cannot be served as it stands. -/
inductive QBar
  | stall (w : Wait)
  | trap (f : FaultInfo)

/-- A configured queue of a team. -/
def queueOf (s : State) (t : TeamId) (q : Nat) : Option QueueSt := ((s.team? t).bind (fun x => x.queues[q]?)).join
def setQueue (s : State) (t : TeamId) (q : Nat) (x : QueueSt) : State :=
  s.modTeam t (fun y => { y with queues := y.queues.set q (some x) })

/-- BOUNDS of a queue access (R21, R193). -/
def queueBounds (q : Nat) : FaultInfo := { cause := .bounds, aux := BitVec.ofNat 32 q }

/-- What a queue holds at most, with its ring (R193). -/
def QueueSt.limit (x : QueueSt) : Nat := x.cap + (if x.spill then x.quota else 0)
/-- Elements that a role has pushed and nobody has popped (R193). -/
def QueueSt.outOf (x : QueueSt) (r : Nat) : Nat := (x.elems.filter (fun e => e.1 == r)).length

/-- The bytes of element number m, i-th from the front: in the `sh` storage or in the ring; `none` where the ring is not
mapped. DEDUCED, log 36, unsafe. DESIGN CHOICE, log 37, unsafe. -/
def elemPlace (s : State) (t : TeamId) (x : QueueSt) (i m : Nat) : Option Nat :=
  if i < x.cap then resolve s t .sh (x.base + 4 * (m % x.cap)) 4
  else match s.team? t with
    | some y => match walk s y.ctx (x.ring + 4 * (m % x.quota)) with
      | .ok l => if l.serves (x.ring + 4 * (m % x.quota)) .write then some (l.place (x.ring + 4 * (m % x.quota))) else none
      | .error _ => none
    | none => none

/-- The cause that a ring access meets at an address (R194, R266). -/
def ringFault (s : State) (t : TeamId) (va : Nat) : FaultInfo :=
  let c := match (s.team? t).map (fun y => walk s y.ctx va) with
    | some (.error c) => c
    | _ => .prot
  { cause := c, addr := BitVec.ofNat 32 va, aux := BitVec.ofNat 32 (va / 2 ^ 32) }

/-- An element written where it lies, with its record in the signature (R295). -/
def placeElem (s : State) (t : TeamId) (x : QueueSt) (i m : Nat) (v : Word) : State :=
  match elemPlace s t x i m with
  | some a => sign (holdWrite s t (placed a (leBytes 4 v.toNat)) none) t
      (if i < x.cap then sigWrite 0 (x.base + 4 * (m % x.cap)) (leBytes 4 v.toNat)
       else sigWrite 3 (x.ring + 4 * (m % x.quota)) (leBytes 4 v.toNat))
  | none => s

/-- What stands in the way of elements at some positions: a ring page (R194), writes that are still held (R243), a full galley (R281). -/
def elemsBar (s : State) (t : TeamId) (q : Nat) (x : QueueSt) (writes : Bool) (at_ : List (Nat × Nat)) : Option QBar :=
  match at_.find? (fun e => (elemPlace s t x e.1 e.2).isNone) with
  | some e => some (.trap (if e.1 < x.cap then queueBounds q else ringFault s t (x.ring + 4 * (e.2 % x.quota))))
  | none =>
    let ps := at_.filterMap (fun e => elemPlace s t x e.1 e.2)
    if ps.any (fun a => mustWait s (unitTeams s t) a 4) then some (.stall .held)
    else if !writes || galleyFits s t (ps.map (fun a => (a, 0))) then none
    else if holdsToSeal s t then some (.trap { cause := .galley })
    else some (.stall .galley)

/-- A queue after k elements are popped. -/
def QueueSt.popped (x : QueueSt) (k : Nat) : QueueSt := { x with elems := x.elems.drop k, head := x.head + k }
/-- The elements that come from the ring into the storage as k are popped: the place from the front afterwards, the element. -/
def QueueSt.refills (x : QueueSt) (k : Nat) : List (Nat × Nat × Word) :=
  ((List.range (x.popped k).elems.length).zip (x.popped k).elems).filter (fun e => e.1 < x.cap && x.cap ≤ e.1 + k)
/-- What stands in the way of a pop of k elements that are there: the ring that they or those that refill the storage lie in, the storage
that is written (R194). -/
def popBar (s : State) (t : TeamId) (q k : Nat) (x : QueueSt) : Option QBar :=
  match elemsBar s t q (x.popped k) true ((x.refills k).map (fun e => (e.1, x.head + k + e.1))) with
  | some b => some b
  | none => elemsBar s t q x false (((List.range (min k x.elems.length)).filter (fun i => x.cap ≤ i)).map (fun i => (i, x.head + i))
      ++ (x.refills k).map (fun e => (e.1 + k, x.head + k + e.1)))
/-- k elements popped from the front; the ring refills the storage (R193, R194). They are the values pushed, whatever a store has since
written over the queue's own storage (R246). DEDUCED, log 35, unsafe. DEDUCED, log 157, unsafe. -/
def popElems (s : State) (t : TeamId) (q k : Nat) : Except QBar (List Word × State) :=
  match queueOf s t q with
  | none => .error (.trap (queueBounds q))
  | some x =>
    if x.limit < k then .error (.trap (queueBounds q))
    else if x.elems.length < k then .error (.stall (.queuePop q k))
    else match popBar s t q k x with
      | some b => .error b
      | none =>
        let s := (x.refills k).foldl (fun s e => placeElem s t (x.popped k) e.1 (x.head + k + e.1) e.2.2) s
        .ok ((x.elems.take k).map (fun e => e.2), setQueue s t q (x.popped k))

/-- Whether k elements of a role may be pushed now (R193, R194). -/
def pushBar (s : State) (t : TeamId) (r q k : Nat) (x : QueueSt) : Option QBar :=
  if !x.prod.getLsbD r || x.allow < k || x.limit < k then some (.trap (queueBounds q))
  else if x.allow < x.outOf r + k then some (.stall (.queuePush q k))
  else if x.limit < x.elems.length + k then
    some (if x.spill then .trap { cause := .quota, aux := BitVec.ofNat 32 q } else .stall (.queuePush q k))
  else elemsBar s t q x true ((List.range k).map (fun i => (x.elems.length + i, x.head + x.elems.length + i)))

/-- Elements added at the back. -/
def addElems (s : State) (t : TeamId) (r q : Nat) (x : QueueSt) (vs : List Word) : State :=
  let n := x.elems.length
  let s := ((List.range vs.length).zip vs).foldl (fun s e => placeElem s t x (n + e.1) (x.head + n + e.1) e.2) s
  rouseTeam (setQueue s t q { x with elems := x.elems ++ vs.map (fun v => (r, v)) }) t

/-- A push of a role: all its elements, contiguous (R193). -/
def pushElems (s : State) (t : TeamId) (r q : Nat) (vs : List Word) : Except QBar State :=
  match queueOf s t q with
  | none => .error (.trap (queueBounds q))
  | some x => match pushBar s t r q vs.length x with
    | some b => .error b
    | none => .ok (addElems s t r q x vs)

def QBar.res (s : State) : QBar → Res
  | .stall w => .stall s w
  | .trap f => .trap s f

/-! Reading sources -/

/-- The handles that a source names must be complete (R18). -/
def handleBar (e : Env) (s : State) (n : BitVec 4) : Option QBar :=
  let hs := e.parts.map (fun p => (s.ctx p.1).h.getD n.toNat .empty)
  if hs.any (fun h => h == .empty) then
    some (.trap { cause := .handle, addr := BitVec.ofNat 32 (0x1F0 + n.toNat) })
  else hs.findSome? (fun h => match h with
    | .pending o => some (.stall (.handle (0x1F0 + n.toNat) o))
    | _ => none)

/-- The values of one source for every participant, lowest lane first (R126). -/
def column (e : Env) (s : State) : Operand → Except QBar (List Nat × State)
  | .imm v => .ok (e.parts.map (fun _ => v), s)
  | .reg (.q n) _ => match popElems s e.team n.toNat e.parts.length with
    | .ok (ws, t) => .ok (ws.map BitVec.toNat, t)
    | .error b => .error b
  | .reg (.h n) _ => match handleBar e s n with
    | some b => .error b
    | none => .ok (e.parts.map (fun p => readNat s e.x p.1 p.2 1 (.h n)), s)
  | .reg r n =>
    if e.parts.any (fun p => readsPending s e.x p.1 p.2 n r) then .error (.stall .result)
    else .ok (e.parts.map (fun p => readNat s e.x p.1 p.2 n r), s)

/-- The values of all sources, one list for each participant. Queues are popped for A, then B, then C (R126). -/
def columns (e : Env) : State → List Operand → Except QBar (List (List Nat) × State)
  | s, [] => .ok (e.parts.map (fun _ => []), s)
  | s, o :: os => match column e s o with
    | .error b => .error b
    | .ok (c, s) => match columns e s os with
      | .error b => .error b
      | .ok (cs, s) => .ok (c.zipWith (fun x xs => x :: xs) cs, s)

/-! Destinations -/

/-- A result for a destination: register, number of words, value. -/
abbrev Out := Reg × Nat × Nat

/-- When results become readable (R48); `acquired` is the variable result of an acquire (R171). -/
inductive Ready | fixed | varies | acquired | now
  deriving DecidableEq, Repr

/-- The cells that some results name, with their values (R13, R14). -/
def outCells (e : Env) (s : State) (outs : List ((CtxId × Nat) × List Out)) : List (CtxId × Loc × Word) :=
  outs.flatMap (fun (p, os) => os.flatMap (fun (r, n, v) => cellsOf s e.x p.1 p.2 n r v))
/-- The elements that some results push, with the queue's number. -/
def outElems (outs : List ((CtxId × Nat) × List Out)) : List (Nat × Word) :=
  outs.flatMap (fun (_, os) => os.filterMap (fun (r, _, v) => match r with
    | .q n => some (n.toNat, BitVec.ofNat 32 v)
    | _ => none))
/-- The results for a queue register pushed (R126). -/
def pushOuts (e : Env) (s : State) (outs : List ((CtxId × Nat) × List Out)) : Except QBar State :=
  match outElems outs with
  | [] => .ok s
  | (q, w) :: r => pushElems s e.team (roleOf s e.c) q (((q, w) :: r).map (fun x => x.2))

/-- Results of an instruction: pushes to queue registers first checked and made (R126), then the cells. -/
def store (e : Env) (s : State) (rd : Ready) (outs : List ((CtxId × Nat) × List Out)) : Res :=
  match pushOuts e s outs with
  | .error b => b.res s
  | .ok t => match rd with
    | .fixed => emitFixed e t (outCells e s outs)
    | .varies => emitVar e t false (outCells e s outs)
    | .acquired => emitVar e t true (outCells e s outs)
    | .now => emitNow t (outCells e s outs)

/-- The body of a register instruction: read every source, then compute and write (R125). -/
def pureBody (rd : Ready) (srcs : List Operand) (f : List Nat → List Out) (e : Env) (s : State) : Res :=
  match columns e s srcs with
  | .error b => b.res s
  | .ok (vals, t) => store e t rd ((e.parts.zip vals).map (fun (p, v) => (p, f v)))

/-- The contexts whose results a vote or upper cross-lane read must wait for. -/
def below (s : State) (c : CtxId) : List CtxId :=
  match c with
  | .group t g => slicesOf s t g
  | .team t r => (groupsOf s t r).flatMap (fun g => .group t g :: slicesOf s t g)
  | .grid n r => (gridTeams s n).flatMap (fun t => roleCtxs s t r)
  | c => [c]
/-- Whether every result of the lower units is written (R93, R153). -/
def settledBelow (s : State) (c : CtxId) : Bool :=
  (below s c).all (fun u => (s.ctx u).fixed.all (fun e => e.due ≤ s.cycle) && (s.ctx u).vars.all (fun r => r.arrived))
/-- The state as the lower units' arrived results leave it. -/
def viewBelow (s : State) (c : CtxId) : State := s.modCtxs (below s c) Ctx.flush

/-- Whether an instruction names a queue register: it is then anchored (R107). -/
def namesQueue (ds : List Reg) (srcs : List Operand) : Bool :=
  ds.any Reg.isQueue || srcs.any (fun o => (o.reg?.map Reg.isQueue).getD false)

/-- A register instruction of fixed latency. -/
def alu (h : Head) (d : Reg) (n : Nat) (srcs : List Operand) (f : List Nat → Nat) (s : State) : Host.Outcome State Fault Refusal :=
  issue h { anchored := namesQueue [d] srcs } (pureBody .fixed srcs (fun v => [(d, n, f v)])) s

/-- A register instruction of fixed latency with two results; of two to one predicate the second one stays (R131). DESIGN CHOICE, log 153, unsafe. -/
def alu2 (h : Head) (d : Reg) (n : Nat) (d2 : Reg) (srcs : List Operand) (f : List Nat → Nat × Nat) (s : State) :
    Host.Outcome State Fault Refusal :=
  issue h { anchored := namesQueue [d] srcs } (pureBody .fixed srcs (fun v => [(d, n, (f v).1), (d2, 1, (f v).2)])) s

/-- A register instruction of variable latency (special functions): results d, d+1, … of one word each. -/
def special (h : Head) (d : Reg) (n : Nat) (a : Reg) (f : Nat → Nat) (s : State) : Host.Outcome State Fault Refusal :=
  issue h { varying := true } (pureBody .varies [.reg a 1] (fun v => [(d, n, f (v.headD 0))])) s

end Sys2Proof.Machine
end

