-- ==== Sys2Proof/Machine/Local.lean ====
section
/-! DEFINITION. Local memory: loads, stores, atomics, fences (R164 to R174), and the effect log they share with the engines
(R288 to R290, R395). -/

namespace Sys2Proof.Machine

/-! Addresses -/

/-- The bytes of an access width. -/
def accessBytes (w : Width) : Nat := w.bytes

/-- One lane's or context's access: who, its address, and the place in memory of each byte once checked. -/
structure Access where
  who : CtxId × Nat
  addr : Nat
  cells : List Nat
  deriving DecidableEq, Repr
/-- The place of an access's first byte. -/
def Access.place (x : Access) : Nat := x.cells.headD 0

/-- A check answers: every place, or what the instruction does instead. -/
inductive Checked
  | ok (l : List Access)
  | no (r : Res)

/-- The lane of a participant in a fault's mask; a scope context has none. -/
def maskLane (e : Env) (p : CtxId × Nat) : Nat := if e.x = .L then 2 ^ laneNum p.1 p.2 else 0

/-- A fault of some participants (R166): their mask and the address of the lowest. -/
def laneFault (e : Env) (c : Cause) (bad : List ((CtxId × Nat) × Nat)) : FaultInfo :=
  { cause := c
    mask := bad.foldl (fun m b => m ||| maskLane e b.1) 0
    addr := BitVec.ofNat 32 ((bad.head?.map (fun b => b.2)).getD 0) }

/-- The virtual address of a `pv` offset of a lane (R234). -/
def pvAddr (s : State) (t : TeamId) (p : CtxId × Nat) (a : Nat) : Nat :=
  match s.launch? t.launch with
  | some l => l.pvBase + (1024 * (t.num % shadowBase) + teamLane p.1 p.2) * l.pvStride + a
  | none => a
def pvStrideOf (s : State) (t : TeamId) : Nat := ((s.launch? t.launch).map (fun l => l.pvStride)).getD 0
/-- The high-water mark of a team's context. -/
def pvMarkOf (s : State) (t : TeamId) : Nat := (((s.team? t).bind (fun x => s.context? x.ctx)).map (fun c => c.pvmark)).getD 0

/-- What a lane's `pv` access meets at one address: a place, a cause, or a walk to wait for (R166, R234). -/
def pvTrans (e : Env) (s : State) (p : CtxId × Nat) (a : Nat) (w : Want) : Trans :=
  if pvMarkOf s e.team ≤ a then .fault .stackgrow
  else match s.team? e.team with
    | some x => translate s x.core x.ctx (pvAddr s e.team p a) w (walksOf s e.c)
    | none => .fault .page
/-- The elements of an access of n bytes, each al-aligned in its address (R169, R170). -/
def elements (al n a : Nat) : List Nat := (List.range (n / al)).map (fun i => a + al * i)

def isFault (c : Cause) : Trans → Bool
  | .fault d => c == d
  | _ => false
/-- The places of the bytes of an element. -/
def transCells (al : Nat) : Trans → List Nat
  | .ok pa => (List.range al).map (fun i => pa + i)
  | _ => []

/-- The `pv` half of the checks, element by element: walks for every page that misses, then PAGE, PROT, STACKGROW. -/
def checkPv (e : Env) (s : State) (al n : Nat) (w : Want) (l : List ((CtxId × Nat) × Nat)) : Checked :=
  let ts := l.flatMap (fun b => (elements al n b.2).map (fun a => ((b.1, a), pvTrans e s b.1 a w)))
  let missing := ts.filter (fun b => b.2 == .miss)
  match missing with
  | b :: _ => match s.team? e.team with
    | some x => .no (.stall (missing.foldl (fun s m => startWalk s x.core x.ctx (pvAddr s e.team m.1.1 m.1.2)) s)
        (.walk (pvAddr s e.team b.1.1 b.1.2) (walksOf s e.c)))
    | none => .no (.stall s .access)
  | [] =>
    match [Cause.page, Cause.prot, Cause.stackgrow].find? (fun c => ts.any (fun b => isFault c b.2)) with
    | some c =>
      let bad := (ts.filter (fun b => isFault c b.2)).map (fun b => b.1)
      let f := laneFault e c bad
      .no (.trap s (match c, bad.head? with
        | .stackgrow, some b => { f with aux := BitVec.ofNat 32 (teamLane b.1.1 b.1.2) }
        | _, some b =>
          let va := pvAddr s e.team b.1 b.2
          { f with addr := BitVec.ofNat 32 va, aux := BitVec.ofNat 32 (va / 2 ^ 32) }
        | _, none => f))
    | none =>
      let l := l.map (fun b => Access.mk b.1 b.2 ((elements al n b.2).flatMap (fun a => transCells al (pvTrans e s b.1 a w))))
      if l.all (fun x => x.cells.all (fun a => exists_ a 1)) then .ok l else .no (.gone s)

/-- The checks of R166 for n bytes of alignment al at each participant's address, before any access. -/
def checkAccess (e : Env) (s : State) (sp : Space) (al n : Nat) (w : Want) (l : List ((CtxId × Nat) × Nat)) : Checked :=
  let skew := l.filter (fun b => b.2 % al ≠ 0)
  if !skew.isEmpty then .no (.trap s (laneFault e .align skew))
  else match sp with
    | .pv =>
      let out := l.filter (fun b => pvStrideOf s e.team < b.2 + n)
      if !out.isEmpty then .no (.trap s (laneFault e .bounds out)) else checkPv e s al n w l
    | sp =>
      let out := l.filter (fun b => (resolve s e.team sp.eng b.2 n).isNone)
      if !out.isEmpty then .no (.trap s (laneFault e .bounds out))
      else .ok (l.filterMap (fun b => (resolve s e.team sp.eng b.2 n).map (fun pa => ⟨b.1, b.2, cellsFrom pa n⟩)))

/-- The address of a participant: base + offset, modulo 2^32 (R164). -/
def addrOf (v : List Nat) : Nat := (v.getD 0 0 + v.getD 1 0) % 2 ^ 32

/-! Values in memory -/

/-- A byte of a lane's private stack: from the core's private-stack cache, or memory behind it (R234). -/
def readPv (s : State) (t : TeamId) (a : Nat) : Byte :=
  match s.pvCache.reverse.findSome? (fun h => if h.team = t then get? a h.bytes else none) with
  | some b => b
  | none => readByte s (unitTeams s t) a
/-- Bytes written by some contexts to the private-stack cache. A strike discards what has been written less than W ago, a seal of proof or
audit mode what it does not accept, as in the galley (R280, R293, R296). -/
def writePv (s : State) (t : TeamId) (who : List CtxId) (bs : List (Nat × Byte)) : State :=
  { s with pvCache := s.pvCache ++ [⟨((s.team? t).map (fun x => x.core)).getD 0, t, bs, s.tick, none, 0, holdsToSeal s t, who, false⟩] }
/-- A byte that an access of a team reads in a space (R234, R243). -/
def readIn (s : State) (t : TeamId) (sp : Space) (a : Nat) : Byte :=
  match sp with
  | .pv => readPv s t a
  | _ => readByte s (unitTeams s t) a

/-- The bytes of an access as a number. -/
def loadNat (s : State) (t : TeamId) (sp : Space) (a : Access) : Nat := leNat (a.cells.map (readIn s t sp))

/-- Whether some access must wait at its ordering point (R243). -/
def anyHeld (s : State) (t : TeamId) (l : List Access) : Bool := l.any (fun a => a.cells.any (fun c => mustWait s (unitTeams s t) c 1))

/-- Whether the private-stack cache holds a byte of a team. -/
def inPv (s : State) (t : TeamId) (a : Nat) : Bool := s.pvCache.any (fun h => h.team == t && (get? a h.bytes).isSome)
/-- The first byte of some accesses whose data is uncorrectable (R298). -/
def badRead (s : State) (t : TeamId) (sp : Space) (l : List Access) : Option Nat :=
  badAt s (unitTeams s t) ((l.flatMap (fun a => a.cells)).filter (fun a => !(sp == .pv && inPv s t a)))

/-- Whether an acquire of the unit has not returned its value yet: later accesses are held back (R171). -/
def acquiring (s : State) (e : Env) : Bool := e.unit.any (fun u => (s.ctx u).vars.any (fun r => r.acq && !r.arrived))

/-- A list in the free order of the lanes of one store or atomic (R173, R238). -/
def insertRank (k : Nat) (x : Access) : List Access → List Access
  | [] => [x]
  | y :: r => if Config.laneRank k (laneNum x.who.1 x.who.2) ≤ Config.laneRank k (laneNum y.who.1 y.who.2) then x :: y :: r
      else y :: insertRank k x r
def laneOrder (k : Nat) (l : List Access) : List Access := l.foldl (fun r x => insertRank k x r) []

/-! Loads and stores (R168 to R171) -/

/-- A loaded value of a width as it enters its registers (R169). -/
def extend (w : Width) (sx : Bool) (v : Nat) : Nat :=
  match w with
  | .w8 => if sx then lowBits 32 (intVal .i8 v) else v
  | .w16 => if sx then lowBits 32 (intVal .i16 v) else v
  | _ => v

/-- A load of n bytes, al-aligned, into k registers. -/
def loadBody (o : MemOrd) (sp : Space) (al n k : Nat) (f : Nat → Nat) (d a : Reg) (off : Src) (e : Env) (s : State) : Res :=
  if acquiring s e then .stall s .access
  else match columns e s [.reg a 1, .src off] with
    | .error b => b.res s
    | .ok (vals, t) =>
      match checkAccess e t sp al n (if sp = .pv then .pvRead else .read) (e.parts.zip (vals.map addrOf)) with
      | .no r => r
      | .ok l =>
        if anyHeld t e.team l then .stall s .held
        else match badRead t e.team sp l with
        | some a => .stall (abortSoon s e.team a) .access
        | none => store e t (if o.acquires then .acquired else .varies)
          (l.map (fun x => (x.who, [(d, k, f (loadNat t e.team sp x))])))

/-- A store of n bytes, al-aligned, from k registers. -/
def storeBody (o : MemOrd) (sp : Space) (al n k : Nat) (d a : Reg) (off : Src) (e : Env) (s : State) : Res :=
  if acquiring s e then .stall s .access
  else match columns e s [.reg a 1, .src off, .reg d k] with
    | .error b => b.res s
    | .ok (vals, t) =>
      match checkAccess e t sp al n (if sp = .pv then .pvWrite else .write) (e.parts.zip (vals.map addrOf)) with
      | .no r => r
      | .ok l =>
        if anyHeld t e.team l then .stall s .held
        else
          let data (x : Access) : List Byte := leBytes n (((get? x.who (e.parts.zip vals)).getD []).getD 2 0)
          let (rank, t) := t.fresh
          let order := laneOrder rank l
          match sp with
          | .pv => .next (order.foldl (fun t x =>
              sign (writePv t e.team e.unit (x.cells.zip (data x))) e.team (sigWrite 3 (pvAddr t e.team x.who x.addr) (data x))) t)
          | sp =>
            let p := performAt t (unitTeams t e.team) o
            galleyBar t e.team (l.flatMap (fun x => x.cells.zip (data x)))
              (.next (order.foldl (fun t x =>
                sign (holdBy t e.team e.unit 0 p (x.cells.zip (data x)) none) e.team (sigWrite sp.eng.num x.addr (data x))) t))

def memHow : How := { anchored := true }
def loadHow : How := { anchored := true, varying := true }
def redHow : How := { anchored := true, effect := true }
def atomHow : How := { anchored := true, varying := true, effect := true }

def execLd (h : Head) (o : MemOrd) (w : Width) (sp : Space) (sx : Bool) (d a : Reg) (off : Src) (s : State) :
    Host.Outcome State Fault Refusal :=
  issue h loadHow (loadBody o sp w.bytes w.bytes w.words (extend w sx) d a off) s
def execSt (h : Head) (o : MemOrd) (w : Width) (sp : Space) (d a : Reg) (off : Src) (s : State) :
    Host.Outcome State Fault Refusal :=
  issue h memHow (storeBody o sp w.bytes w.bytes w.words d a off) s
/-- n = OPX + 1 registers from consecutive addresses, each element aligned to its own width (R170). -/
def execLdx (h : Head) (o : MemOrd) (w : Width) (sp : Space) (n : BitVec 4) (d a : Reg) (off : Src) (s : State) :
    Host.Outcome State Fault Refusal :=
  issue h loadHow (loadBody o sp w.bytes (4 * (n.toNat + 1)) (n.toNat + 1) id d a off) s
def execStx (h : Head) (o : MemOrd) (w : Width) (sp : Space) (n : BitVec 4) (d a : Reg) (off : Src) (s : State) :
    Host.Outcome State Fault Refusal :=
  issue h memHow (storeBody o sp w.bytes (4 * (n.toNat + 1)) (n.toNat + 1) d a off) s

/-! Effects (R288 to R290) -/

/-- `Apply` on values of w bits (R173). -/
def apply (op : AtomOp) (w old b : Nat) : Nat :=
  let sg (x : Nat) : Int := if x < 2 ^ (w - 1) then x else (x : Int) - 2 ^ w
  match op with
  | .add => (old + b) % 2 ^ w
  | .smin => if sg b < sg old then b else old
  | .smax => if sg old < sg b then b else old
  | .umin => min old b
  | .umax => max old b
  | .and => old &&& b
  | .or => old ||| b
  | .xor => old ^^^ b
  | .exch => b
  | .fadd => addCode .f32 .rne (value .f32 old) (value .f32 b)
  | .fmin => minCode .f32 old b
  | .fmax => maxCode .f32 old b
  | .hadd2 =>
    let half (i : Nat) : Nat := addCode .bf16 .rne (value .bf16 (old / 65536 ^ i % 65536)) (value .bf16 (b / 65536 ^ i % 65536))
    half 0 + 65536 * half 1
  | .incw => if b ≤ old then 0 else old + 1
  | .decw => if old = 0 ∨ b < old then b else old - 1
  | .cas => b

/-- The ordering point of a place: each core's `sh` port, each scratchpad slice port, the add unit of each DRAM channel, one for host
memory (R173, R233, R395). DESIGN CHOICE, log 39, unsafe. -/
def pointOf (a : Nat) : Nat :=
  if 2 ^ 61 ≤ a then 100000 + coreOfSh a
  else if 2 ^ 60 ≤ a then 10000 + 32 * ((a - 2 ^ 60) / Config.dzBytes) + a / 4096 % 32
  else if hostBase ≤ a then 0
  else 20000 + 64 * (Config.dramDie a % Config.dies) + Config.dramChannel (a / 256) % 64
def spoolPoint (die : Nat) : Nat := 1 + die
def collPoint : Nat := 5
/-- The entries that an ordering point holds (R395). -/
def pointLimit (p : Nat) : Nat := if 100000 ≤ p then 16384 else if p = 5 then 65536 else if 1 ≤ p ∧ p ≤ 4 then 16384 else 32768

/-- The key of an effect of a participant: its unit's counter is the sequence (R288). A shadow names its primary (R294). -/
def effKey (s : State) (p : CtxId × Nat) : EffKey :=
  let t := p.1.team?.getD ⟨0, 0⟩
  let x := s.team? t
  { ctx := (x.map (fun y => y.ctx)).getD 0
    launch := t.launch % 2 ^ 40
    team := t.num % shadowBase
    epoch := (x.map (fun y => y.epoch)).getD 0
    role := roleOf s p.1
    group := groupNo p.1
    up := 2 ≤ p.1.level
    slice := if 2 ≤ p.1.level then p.1.level else sliceNo p.1
    lane := if 2 ≤ p.1.level then 0 else laneNum p.1 p.2
    seq := (s.ctx p.1).eff }

/-- An entry as a snapshot shows it (R288). -/
def Effect.bits (e : Effect) : BitVec 256 :=
  BitVec.ofNat 6 e.key.ctx ++ BitVec.ofNat 10 e.key.team ++ BitVec.ofNat 32 e.key.epoch ++ BitVec.ofNat 2 e.key.role
    ++ BitVec.ofNat 5 e.key.group ++ BitVec.ofBool e.key.up ++ BitVec.ofNat 3 e.key.slice ++ BitVec.ofNat 5 e.key.lane
    ++ BitVec.ofNat 13 e.key.seq ++ BitVec.ofNat 3 e.inc ++ BitVec.ofNat 4 e.op ++ BitVec.ofNat 4 e.kind ++ BitVec.ofNat 57 e.addr
    ++ 0#7 ++ BitVec.ofNat 40 e.key.launch ++ e.result

/-- The logged entry of a key at an ordering point. -/
def loggedEffect (s : State) (k : EffKey) (point : Nat) : Option Effect := s.effects.find? (fun e => e.key == k && e.point == point)
/-- Whether a team is a shadow in proof mode (R294). DESIGN CHOICE, log 41, safe. -/
def isShadow (t : TeamId) : Bool := shadowBase ≤ t.num

/-- An entry that an effect of a team matches: nothing is applied again (R289). A shadow takes its primary's entry of the same key,
which may stand at another die's ordering point (R294). -/
def replayed (s : State) (t : TeamId) (k : EffKey) (point op kind addr : Nat) : Option Effect :=
  s.effects.find? (fun e => e.key == k && (isShadow t || (e.point == point && e.op == op && e.kind == kind && e.addr == addr)))

/-- A lifetime counter counted up; it saturates (R393). -/
def countUp (s : State) (n : Nat) : State :=
  { s with counters := put n (min (2 ^ 64 - 1) (((get? n s.counters).getD 0) + 1)) s.counters }
/-- The die of an ordering point; for host memory, that of the team whose effect it is. -/
def pointDie (s : State) (k : EffKey) (p : Nat) : Nat :=
  if 100000 ≤ p then dieOf (p - 100000)
  else if 20000 ≤ p then (p - 20000) / 64
  else if 10000 ≤ p then (p - 10000) / 32
  else if p = 0 then ((s.teams.find? (fun t => t.1.launch % 2 ^ 40 == k.launch && t.1.num == k.team)).map (fun t => t.2.die)).getD 0
  else if p < 5 then p - 1 else 0

/-- An effect entered in the log; one of the same key and another operation is replaced, and counted as a replay mismatch
(R289, R393). -/
def logEffect (s : State) (e : Effect) : State :=
  let s := if (loggedEffect s e.key e.point).isSome then countUp s (0x104 + pointDie s e.key e.point) else s
  { s with effects := s.effects.filter (fun x => !(x.key == e.key && x.point == e.point)) ++ [e] }

/-- Whether a key is one of the current epoch of a team's containment unit. -/
def EffKey.current (s : State) (t : TeamId) (k : EffKey) : Bool := (unitTeams s t).any (fun u =>
  k.launch == u.launch % 2 ^ 40 && k.team == u.num % shadowBase && ((s.team? u).map (fun x => x.epoch == k.epoch && x.ctx == k.ctx)).getD false)
/-- The effects that the containment unit of a team has performed in its epoch, and those that it has issued to an engine, which will
perform them (R290). DEDUCED, log 128, safe. -/
def epochEffects (s : State) (t : TeamId) : Nat :=
  (distinct ((s.effects.map (fun e => e.key) ++ s.ops.filterMap (fun o => o.key)).filter (EffKey.current s t))).length
/-- The effects that an epoch may perform, with the reserve of TRET (R290). -/
def effectLimit (s : State) (t : TeamId) : Nat :=
  Config.effectQuota + (if ((s.team? t).map (fun x => x.effReserve)).getD false then Config.effectReserve else 0)

/-- What stands in the way of n new effects: the quota, or a full log (R289, R290); `points` has the ordering point of each one that is
performed at once, aux names theirs. -/
def effectBar (s : State) (t : TeamId) (n : Nat) (points : List Nat) (aux : Nat) : Option QBar :=
  if n = 0 then none
  else if effectLimit s t < epochEffects s t + n then some (.trap { cause := .effect, aux := BitVec.ofNat 32 aux })
  else if points.any (fun p => pointLimit p < (s.effects.filter (fun e => e.point == p)).length + points.count p) then some (.stall .effects)
  else none

/-- The new value of an atomic: `cmp` is the compare value of a compare-and-swap, which changes nothing when it differs. -/
def atomNew (op : AtomOp) (w old b : Nat) (cmp : Option Nat) : Option Nat :=
  match cmp with
  | some c => if old = c then some b else none
  | none => some (apply op w old b)

/-- One atomic of a participant at its ordering point (R173, R289): the old value and the state. DEDUCED, log 40, unsafe. -/
def atomOne (s : State) (t : TeamId) (who : List CtxId) (sp : EngSpace) (op : AtomOp) (w p : Nat) (x : Access) (b : Nat)
    (cmp : Option Nat) : Nat × State :=
  let k := effKey s x.who
  let point := pointOf x.place
  let operand : DWord := match cmp with
    | some c => mix64 (BitVec.ofNat 64 c) ^^^ BitVec.ofNat 64 b
    | none => BitVec.ofNat 64 b
  let s := sign s t (sigEffect operand op.code 0 sp.num x.addr)
  match replayed s t k point op.code 0 x.addr with
  | some e => (e.result.toNat, s)
  | none =>
    let old := leNat (x.cells.map (readByte s (unitTeams s t)))
    let s := logEffect s ⟨k, point, ((s.team? t).map (fun y => y.inc.toNat % 8)).getD 0, op.code, 0, x.addr, BitVec.ofNat 64 old, []⟩
    (old, holdBy s t who 0 p (match atomNew op w old b cmp with
      | some v => x.cells.zip (leBytes (w / 8) v)
      | none => []) (some k))

/-- The atomics of the participating lanes, one at a time in the free order (R173). -/
def atomAll (s : State) (t : TeamId) (who : List CtxId) (sp : EngSpace) (op : AtomOp) (w p : Nat) (arg : Access → Nat × Option Nat) :
    List Access → List ((CtxId × Nat) × Nat) × State
  | [] => ([], s)
  | x :: r =>
    let (old, s) := atomOne s t who sp op w p x (arg x).1 (arg x).2
    let (olds, s) := atomAll s t who sp op w p arg r
    ((x.who, old) :: olds, s)

/-- `ATOM`, `RED` and `CAS` (R173): sources are base, offset, operand and, for `CAS`, the new value. -/
def atomBody (o : MemOrd) (w : Width) (sp : Space) (op : AtomOp) (cas result : Bool) (d : Reg) (srcs : List Operand)
    (e : Env) (s : State) : Res :=
  let n := w.bytes
  let t0 := e.team
  if acquiring s e then .stall s .access
  else match columns e s srcs with
    | .error b => b.res s
    | .ok (vals, t) =>
      match checkAccess e t sp n n .write (e.parts.zip (vals.map addrOf)) with
      | .no r => r
      | .ok l =>
        let point (x : Access) : Nat := pointOf x.place
        let new := l.filter (fun x => (replayed t t0 (effKey t x.who) (point x) op.code 0 x.addr).isNone)
        if isShadow t0 && !new.isEmpty then .stall s .effects
        else if anyHeld t t0 new then .stall s .held
        else match effectBar t t0 new.length (new.map point) sp.eng.num, badRead t t0 sp new with
          | some b, _ => b.res s
          | none, some a => .stall (abortSoon s t0 a) .access
          | none, none =>
            let (rank, t) := t.fresh
            let arg (x : Access) : Nat × Option Nat :=
              let v := (get? x.who (e.parts.zip vals)).getD []
              if cas then (v.getD 3 0, some (v.getD 2 0)) else (v.getD 2 0, none)
            galleyBar t t0 (new.flatMap (fun x => x.cells.zip (leBytes n 0))) (
              let (olds, t) := atomAll t t0 e.unit sp.eng op (8 * n) (performAt t (unitTeams t t0) o) arg (laneOrder rank l)
              let t := countEffect t e.unit
              if result then
                store e t (if o.acquires then .acquired else .varies)
                  (l.map (fun x => (x.who, [(d, w.words, (get? x.who olds).getD 0)])))
              else .next t)

def execAtom (h : Head) (o : MemOrd) (w : Width) (sp : Space) (op : AtomOp) (d a : Reg) (off : Src) (s : State) :
    Host.Outcome State Fault Refusal :=
  issue h atomHow (atomBody o w sp op false true d [.reg a 1, .src off, .reg d w.words]) s
def execRed (h : Head) (o : MemOrd) (w : Width) (sp : Space) (op : AtomOp) (d a : Reg) (off : Src) (s : State) :
    Host.Outcome State Fault Refusal :=
  issue h redHow (atomBody o w sp op false false d [.reg a 1, .src off, .reg d w.words]) s
def execCas (h : Head) (o : MemOrd) (w : Width) (sp : Space) (d a b c : Reg) (s : State) : Host.Outcome State Fault Refusal :=
  issue h atomHow (atomBody o w sp .cas true true d [.reg a 1, .reg b 1, .reg d w.words, .reg c w.words]) s

/-! Fences (R172) -/

/-- The contexts below a context, whose accesses in segments handed down a release orders before itself (R239). -/
def contextsBelow (s : State) : CtxId → List CtxId
  | .group t g => slicesOf s t g
  | .team t r => (groupsOf s t r).flatMap (fun g => .group t g :: slicesOf s t g)
  | .grid n r => (gridTeams s n).flatMap (fun t => roleCtxs s t r)
  | _ => []
/-- When the earlier writes of some contexts are performed, or visible outside at die scope and wider (R172). -/
def fenceUntil (s : State) (cs : List CtxId) (sc : MemScope) : Nat :=
  let outside := sc = .die ∨ sc = .package ∨ sc = .system
  ((s.galley ++ s.pvCache).filter (fun h => h.who.any (fun c => cs.contains c))).foldl (fun n h => max n (h.p + if outside then Config.galleyWindow else 0)) 0

/-- `FENCE`: the release half waits for the earlier writes, the acquire half for the earlier reads. -/
def fenceBody (o : MemOrd) (e : Env) (s : State) : Res :=
  let rel := o.order = .rel ∨ o.order = .ar
  let until_ := match (s.ctx e.c).wait with
    | some (.fence u) => u
    | _ => if rel then fenceUntil s (e.unit ++ contextsBelow s e.c) o.scope else 0
  if (o.acquires && outstanding s e.unit) || s.tick < until_ then .stall s (.fence until_) else .next s
def execFence (h : Head) (o : MemOrd) (s : State) : Host.Outcome State Fault Refusal := issue h memHow (fenceBody o) s

end Sys2Proof.Machine
end

