-- ==== Sys2Proof/Machine/Engine.lean ====
section
/-! DEFINITION. Engine operations: how one is checked, counted and queued (R165, R175 to R177), how it moves its bytes
(R178 to R183), and how it completes; the steps that befall copy channels and the gather unit. -/

namespace Sys2Proof.Machine

/-! Outstanding counters (R20, R177) -/

def Counts.get (k : Counts) : OpClass → Nat
  | .copy => k.copy
  | .gather => k.gather
  | .matrix => k.matrix
  | .coll => k.coll
/-- A counter changed by f. -/
def Counts.upd (k : Counts) (c : OpClass) (f : Nat → Nat) : Counts :=
  match c with
  | .copy => { k with copy := f k.copy }
  | .gather => { k with gather := f k.gather }
  | .matrix => { k with matrix := f k.matrix }
  | .coll => { k with coll := f k.coll }

/-- The contexts that count an operation of an issuing context: the slices of a gang or group, or the team context. -/
def counters (s : State) : CtxId → List CtxId
  | .slice t g i => unitOf s (.slice t g i)
  | .group t g => liveSlices s t g
  | c => [c]
/-- The count of a class that a context reads. -/
def countOf (s : State) (c : CtxId) (k : OpClass) : Nat :=
  ((counters s c).map (fun u => (s.ctx u).counts.get k)).foldl max 0

/-- Whether the counter of a class stands at its end (R20). -/
def countFull (s : State) (c : CtxId) (k : OpClass) : Bool := 63 ≤ countOf s c k

/-! Issue (R175 to R177) -/

/-- An engine operation begun by an instruction of e: it counts, and its handle becomes pending. -/
def newOp (s : State) (e : Env) (kind : OpKind) (cls : Option OpClass) : Op :=
  let x := s.team? e.team
  { id := s.opNum, kind := kind, cls := cls, team := e.team, core := (x.map (fun y => y.core)).getD 0, issuer := e.c,
    units := counters s e.c, epoch := (x.map (fun y => y.epoch)).getD 0 }
def setHandle (s : State) (c : CtxId) (n : Nat) (h : HandleSt) : State := s.modCtx c (fun x =>
  { x with h := x.h.set n h, hmoves := x.hmoves.filter (fun m => m.1 ≠ n) })
def beginOp (s : State) (o : Op) (h : Option (BitVec 4)) : State :=
  let s := { s with ops := s.ops ++ [{ o with handle := h.map (fun n => n.toNat) }], opNum := s.opNum + 1 }
  let s := match o.cls with
    | some k => s.modCtxs o.units (fun x => { x with counts := x.counts.upd k (fun n => n + 1) })
    | none => s
  match h with
  | some n => setHandle s o.issuer n.toNat (.pending o.id)
  | none => s

/-- The completion target (R175): the operand that holds a barrier address, and the handle. -/
def doneSrc : Done → List Operand
  | .barrier .zero => []
  | .barrier r => [.reg r 1]
  | .handle _ => []
def doneHandle : Done → Option (BitVec 4)
  | .handle n => some n
  | .barrier _ => none

/-- Words of an address operand (R165). -/
def spaceWords : EngSpace → Nat
  | .mem => 2
  | _ => 1

/-- The first misaligned address of a list of addresses and units (R176). -/
def skewed (l : List (Nat × Nat)) : Option Nat := (l.find? (fun x => x.1 % x.2 ≠ 0)).map (fun x => x.1)

/-- Whether a range fits its space; one without bytes may stand just past the end (R176). -/
def inSpace (s : State) (t : TeamId) (p : EP) (n : Nat) : Bool :=
  match p.sp with
  | .mem => p.addr < 2 ^ 57
  | sp => (resolve s t sp p.addr n).isSome

def alignFault (a : Nat) : FaultInfo := { cause := .align, addr := BitVec.ofNat 32 a }
/-- DEDUCED, log 51, unsafe. -/
def boundsFault (a : Nat) : FaultInfo := { cause := .bounds, addr := BitVec.ofNat 32 a }
def boundsAux (n : Nat) : FaultInfo := { cause := .bounds, aux := BitVec.ofNat 32 n }

/-- Steps 1 and 2 of R176: alignments, then ranges. DEDUCED, log 50, unsafe. -/
def checkRanges (s : State) (t : TeamId) (al : List (Nat × Nat)) (rs : List (EP × Nat)) (bar : Option Nat) : Option FaultInfo :=
  match skewed (al ++ (bar.map (fun b => (b, 16))).toList) with
  | some a => some (alignFault a)
  | none =>
    let all : List (EP × Nat) := rs ++ (bar.map (fun b => (EP.mk .sh b, 16))).toList
    (all.find? (fun r => !inSpace s t r.1 r.2)).map (fun r => boundsFault r.1.addr)

/-- The channel of a team's core. -/
def chanOf (s : State) (core k : Nat) : Option Chan := (s.core? core).bind (fun c => c.chans[k]?)
def modChan (s : State) (core k : Nat) (f : Chan → Chan) : State :=
  s.modCore core (fun c => { c with chans := c.chans.modify k f })
/-- Whether a channel is assigned to a team (R22). -/
def ownsChan (s : State) (t : TeamId) (k : Nat) : Bool := ((s.team? t).map (fun x => x.chans.getLsbD k)).getD false

/-- The die and the number in its die of a core. -/
def coreDie (core : Nat) : Nat × Nat := (core / Config.coresPerDie, core % Config.coresPerDie)

/-- An operation put on its channel; the channel begins it when it comes to it (R179). -/
def queueChan (s : State) (o : Op) (k : Nat) : State :=
  let idle := ((chanOf s o.core k).map (fun c => c.ops.isEmpty)).getD false
  let s := modChan s o.core k (fun c => { c with ops := c.ops ++ [o.id] })
  if idle then s.later (.channelOperationBegin (coreDie o.core).1 (coreDie o.core).2 k) else s
/-- An operation put on the gather unit. DESIGN CHOICE, log 48, unsafe. -/
def queueGather (s : State) (o : Op) : State :=
  let idle := ((s.core? o.core).map (fun c => c.gather.isEmpty)).getD false
  let s := s.modCore o.core (fun c => { c with gather := c.gather ++ [o.id] })
  if idle then s.later (.delivery o.id) else s

/-- The effect key of an engine effect, and the quota it meets (R288, R290). -/
def engineKey (s : State) (e : Env) : EffKey := effKey s (e.c, 0)
def engineQuota (s : State) (e : Env) (op kind : Nat) (dst : EP) : Option QBar :=
  let known := s.effects.any (fun x => x.key == engineKey s e && x.op == op && x.kind == kind && x.addr == dst.addr)
  effectBar s e.team (if known then 0 else 1) [] dst.sp.num

/-- `BCOPY`, `BFILL` and `BRED`: checks, then the operation on its channel. `red` is the effect of a `BRED`. -/
def chanIssue (s : State) (e : Env) (ch : BitVec 4) (kind : OpKind) (al : List (Nat × Nat)) (rs : List (EP × Nat))
    (bar : Option Nat) (h : Option (BitVec 4)) (red : Option (Nat × EP × Nat)) : Res :=
  match checkRanges s e.team al rs bar with
  | some f => .trap s f
  | none =>
    if !ownsChan s e.team ch.toNat then .trap s (boundsAux ch.toNat)
    else match red.bind (fun r => engineQuota s e r.1 1 r.2.1) with
      | some b => b.res s
      | none =>
        let o := newOp s e kind (some .copy)
        if countFull s e.c .copy || 8 ≤ ((chanOf s o.core ch.toNat).map (fun c => c.ops.length)).getD 0 then .stall s .engine
        else
          let o := { o with chan := some ch.toNat, barrier := bar, key := red.map (fun _ => engineKey s e) }
          let s := queueChan (beginOp s o h) o ch.toNat
          .next (match red with
            | some r => sign (countEffect s [e.c]) e.team (sigEffect (BitVec.ofNat 64 r.2.2) r.1 1 r.2.1.sp.num r.2.1.addr)
            | none => s)

/-- The alignment of a channel address: local ones, and every one of `BRED` (R176). -/
def localAlign (red : Bool) (p : EP) : List (Nat × Nat) := if red || p.sp ≠ .mem then [(p.addr, 4)] else []

/-- The sources of an engine instruction as its one participant reads them. -/
def engineSrcs (e : Env) (s : State) (srcs : List Operand) (k : List Nat → State → Res) : Res :=
  match columns e s srcs with
  | .error b => b.res s
  | .ok (vals, t) => k (vals.headD []) t

/-- DEDUCED, log 49, unsafe. -/
def engineHow : How := { anchored := true }
/-- An engine instruction that is an effect (R288). -/
def effectHow : How := { engineHow with effect := true }

def execBcopy (h : Head) (ch : BitVec 4) (dsp ssp : EngSpace) (d a b : Reg) (done : Done) (s : State) :
    Host.Outcome State Fault Refusal :=
  issue h engineHow (fun e s => engineSrcs e s ([.reg d (spaceWords dsp), .reg a (spaceWords ssp), .reg b 1] ++ doneSrc done)
    (fun v s =>
      let dst := EP.mk dsp (v.getD 0 0)
      let src := EP.mk ssp (v.getD 1 0)
      let len := v.getD 2 0
      chanIssue s e ch (.copy dst src len) (localAlign false dst ++ localAlign false src ++ [(len, 4)]) [(dst, len), (src, len)]
        v[3]? (doneHandle done) none)) s
def execBfill (h : Head) (ch : BitVec 4) (dsp : EngSpace) (d a b : Reg) (done : Done) (s : State) :
    Host.Outcome State Fault Refusal :=
  issue h engineHow (fun e s => engineSrcs e s ([.reg d (spaceWords dsp), .reg a 1, .reg b 1] ++ doneSrc done) (fun v s =>
      let dst := EP.mk dsp (v.getD 0 0)
      let len := v.getD 2 0
      chanIssue s e ch (.fill dst (BitVec.ofNat 32 (v.getD 1 0)) len) (localAlign false dst ++ [(len, 4)]) [(dst, len)]
        v[3]? (doneHandle done) none)) s
def execBred (h : Head) (op : AtomOp) (ch : BitVec 4) (dsp ssp : EngSpace) (d a b : Reg) (done : Done) (s : State) :
    Host.Outcome State Fault Refusal :=
  issue h effectHow (fun e s => engineSrcs e s ([.reg d (spaceWords dsp), .reg a (spaceWords ssp), .reg b 1] ++ doneSrc done)
    (fun v s =>
      let dst := EP.mk dsp (v.getD 0 0)
      let src := EP.mk ssp (v.getD 1 0)
      let len := v.getD 2 0
      chanIssue s e ch (.red op dst src len) (localAlign true dst ++ localAlign true src ++ [(len, 4)]) [(dst, len), (src, len)]
        v[3]? (doneHandle done) (some (op.code, dst, len)))) s

/-- `BGATH` and `BSCAT` (R180): the side that index i does not move lies whole in its space. DEDUCED, log 137, unsafe. -/
def gatherIssue (gath : Bool) (k : BitVec 3) (dsp ssp : EngSpace) (d a b : Reg) (done : Done) (e : Env) (s : State) : Res :=
  engineSrcs e s ([.reg d (spaceWords dsp), .reg a (spaceWords ssp), .reg b 2] ++ doneSrc done) (fun v s =>
    let size := 4 * 2 ^ k.toNat
    let dst := EP.mk dsp (v.getD 0 0)
    let src := EP.mk ssp (v.getD 1 0)
    let idx := v.getD 2 0 % 2 ^ 32
    let count := v.getD 2 0 / 2 ^ 32
    let n := if count ≤ 65536 then count else 0
    match checkRanges s e.team [(dst.addr, size), (src.addr, size), (idx, 4)]
        [(dst, if gath then n * size else 0), (src, if gath then 0 else n * size), (⟨.sh, idx⟩, 4 * n)] v[3]? with
    | some f => .trap s f
    | none =>
      if 65536 < count then .trap s (boundsFault 0)
      else if countFull s e.c .gather then .stall s .engine
      else
        let o := { newOp s e (if gath then .gath size dst src idx count else .scat size dst src idx count) (some .gather) with
          barrier := v[3]? }
        .next (queueGather (beginOp s o (doneHandle done)) o))
def execBgath (h : Head) (k : BitVec 3) (dsp ssp : EngSpace) (d a b : Reg) (done : Done) (s : State) :
    Host.Outcome State Fault Refusal := issue h engineHow (gatherIssue true k dsp ssp d a b done) s
def execBscat (h : Head) (k : BitVec 3) (dsp ssp : EngSpace) (d a b : Reg) (done : Done) (s : State) :
    Host.Outcome State Fault Refusal := issue h engineHow (gatherIssue false k dsp ssp d a b done) s

/-- `BATOM` (R182): for `.CAS` the slot holds the compare value at issue. -/
def batomIssue (op : AtomOp) (w64 : Bool) (dsp : EngSpace) (d a b : Reg) (done : Done) (e : Env) (s : State) : Res :=
  let w := if w64 then 8 else 4
  engineSrcs e s ([.reg d 1, .reg a (spaceWords dsp), .reg b (w / 4)] ++ doneSrc done) (fun v s =>
    let slot := v.getD 0 0
    let dst := EP.mk dsp (v.getD 1 0)
    match checkRanges s e.team [(slot, w), (dst.addr, w)] [(⟨.sh, slot⟩, w), (dst, w)] v[3]? with
    | some f => .trap s f
    | none =>
      if dsp = .mem ∧ dst.addr.testBit 56 ∧ !(w64 && (op == .add || op == .exch || op == .cas)) then
        .trap s (boundsFault dst.addr)
      else match engineQuota s e op.code 2 dst with
        | some b => b.res s
        | none =>
          if countFull s e.c .copy then .stall s .engine
          else
            let cmp := match resolve s e.team .sh slot w with
              | some p => leNat (readBytes s (unitTeams s e.team) p w)
              | none => 0
            let val := v.getD 2 0
            let o := { newOp s e (.atom op w64 slot dst val cmp) (some .copy) with barrier := v[3]?, key := some (engineKey s e) }
            let s := queueGather (beginOp s o (doneHandle done)) o
            let operand : DWord := if op = .cas then mix64 (BitVec.ofNat 64 cmp) ^^^ BitVec.ofNat 64 val else BitVec.ofNat 64 val
            .next (sign (countEffect s [e.c]) e.team (sigEffect operand op.code 2 dsp.num dst.addr)))
def execBatom (h : Head) (op : AtomOp) (w64 : Bool) (dsp : EngSpace) (d a b : Reg) (done : Done) (s : State) :
    Host.Outcome State Fault Refusal := issue h effectHow (batomIssue op w64 dsp d a b done) s

/-! Places (R176, R267) -/

/-- Why an operation cannot reach its bytes now. -/
inductive Reach
  | miss (va : Nat)
  | fault (c : Cause) (va : Nat)
  | out
  | absent
  deriving DecidableEq, Repr

/-- One page's part of a range of `mem`. -/
def memPart (s : State) (o : Op) (va n : Nat) (w : Want) : Except Reach (List Nat) :=
  match s.team? o.team with
  | none => .error .out
  | some x => match translate s o.core x.ctx va w o.walks with
    | .ok p => if exists_ p n then .ok ((List.range n).map (fun i => p + i)) else .error .absent
    | .fault c => .error (.fault c va)
    | .miss => .error (.miss va)
/-- Where each byte of n bytes at an offset of an endpoint lies. At most two pages of `mem` are touched. -/
def places (s : State) (o : Op) (p : EP) (off n : Nat) (w : Want) : Except Reach (List Nat) :=
  match p.sp with
  | .mem =>
    let va := p.addr + off
    if va / 2 ^ 56 ≠ p.addr / 2 ^ 56 then .error (.fault .page va)
    else
      let first := min n (65536 - va % 65536)
      match memPart s o va first w with
      | .error r => .error r
      | .ok l => if first = n then .ok l else match memPart s o (va + first) (n - first) w with
        | .error r => .error r
        | .ok m => .ok (l ++ m)
  | sp => match resolve s o.team sp (p.addr + off) n with
    | some a => .ok (cellsFrom a n)
    | none => .error .out

/-- The bytes of some places, as the operation's unit sees them. -/
def gatherBytes (s : State) (o : Op) (l : List Nat) : List Byte := l.map (readByte s (unitTeams s o.team))
/-- Whether an access to some places has to wait (R243). -/
def placesWait (s : State) (o : Op) (l : List Nat) : Bool := l.any (fun a => mustWait s (unitTeams s o.team) a 1)

/-- The bytes of the barrier object that a delivery of an operation writes. -/
def Op.barBytes (s : State) (o : Op) : List (Nat × Byte) :=
  match o.barrier.bind (fun a => resolve s o.team .sh a 16) with
  | some p => placed p (List.replicate 16 0)
  | none => []
/-- Whether the galley of the operation's core takes some bytes and what the delivery does to its barrier object: an engine write waits
while it is full (R281). DEDUCED, log 52, unsafe. -/
def engineFits (s : State) (o : Op) (bs : List (Nat × Byte)) : Bool :=
  let old := galleyBlocks s o.core
  let new := (distinct ((bs ++ o.barBytes s).map (fun e => e.1 / 64))).filter (fun b => !old.contains b)
  new.isEmpty || old.length + new.length ≤ Config.galleyEntries

/-- The operation tries again in the next cycle. -/
def tryAgain (s : State) (id : Nat) : State := s.at_ (s.cycle + 1) (.delivery id)
/-- Whether an operation cannot read and write some bytes now: held writes, uncorrectable data, a full galley. -/
def engineBar (s : State) (o : Op) (reads : List Nat) (writes : List (Nat × Byte)) : Bool :=
  placesWait s o (reads ++ writes.map (fun e => e.1)) || (badAt s (unitTeams s o.team) reads).isSome || !engineFits s o writes
/-- It tries again; uncorrectable data that it reads sends an abort completion (R298). -/
def engineWait (s : State) (o : Op) (reads : List Nat) : State :=
  tryAgain (match badAt s (unitTeams s o.team) reads with
    | some a => abortSoon s o.team a
    | none => s) o.id

/-- A fault-ring entry for an operation that no instruction stands for (R267). -/
def engineFrame (cause addr aux : Nat) : List Byte := le4 cause ++ le4 0 ++ le4 0 ++ le4 addr ++ le4 aux
/-- An operation that a pre-emption may stop with a restart record (R259). -/
def Op.restartable (o : Op) : Bool :=
  match o.kind with
  | .copy .. | .fill .. => true
  | _ => false
/-- A translation fault suspends the operation; the host receives it, with the channel in AUX (R267). Of a team that is being taken off its
core it is kept undelivered: the operation meets it again when the team is back (R258). -/
def suspendOp (s : State) (o : Op) (c : Cause) (va : Nat) : State :=
  let aux := match o.chan with
    | some k => k
    | none => va / 2 ^ 32
  match s.team? o.team with
  | some x =>
    let s := s.modOp o.id (fun o => { o with
      suspended := true, asked := if x.leaving then none else some (va / 65536), walk := none, walks := [] })
    if x.leaving then s else writeRing s x.ctx (ringEntry s x.ctx (some o.team) c.code (engineFrame c.code (va % 2 ^ 32) aux) [])
  | none => s
/-- An operation whose page is not cached waits for the walk (R264). -/
def awaitWalk (s : State) (o : Op) (va : Nat) : State :=
  match s.team? o.team with
  | some x => tryAgain ((startWalk s o.core x.ctx va).modOp o.id (fun o => { o with walk := some va })) o.id
  | none => s

/-! Ends (R177, R179) -/

/-- The channel goes on to its next operation. -/
def freeChan (s : State) (core k id : Nat) : State :=
  let head := ((chanOf s core k).bind (fun c => c.ops.head?)) == some id
  let s := modChan s core k (fun c => { c with ops := c.ops.filter (fun i => i ≠ id), running := c.running && !head })
  if head && !(((chanOf s core k).map (fun c => c.ops.isEmpty)).getD true) then
    s.later (.channelOperationBegin (coreDie core).1 (coreDie core).2 k) else s
/-- The gather unit goes on to its next operation. -/
def freeGather (s : State) (core id : Nat) : State :=
  let head := ((s.core? core).bind (fun c => c.gather.head?)) == some id
  let s := s.modCore core (fun c => { c with gather := c.gather.filter (fun i => i ≠ id) })
  match if head then (s.core? core).bind (fun c => c.gather.head?) else none with
  | some n => s.later (.delivery n)
  | none => s

/-- The tick at which the writes of an operation to host memory have been flushed: they have left the galley (R245). DEDUCED, log 132, safe. -/
def Op.flushedAt (s : State) (o : Op) : Nat :=
  match o.kind with
  | .copy d .. | .fill d .. | .red _ d .. | .scat _ d .. | .gath _ d .. | .atom _ _ _ d .. | .store _ _ _ _ _ _ d _ =>
    if d.sp = .mem && d.addr.testBit 56 then s.tick + Config.galleyWindow else 0
  | _ => 0
/-- An operation has finished: its last write is performed (R177). -/
def finishOp (s : State) (o : Op) (code : Nat) : State :=
  let s := s.modOp o.id (fun x => { x with finished := true, code := code, flush := o.flushedAt s })
  let s := match o.chan with
    | some k => freeChan s o.core k o.id
    | none => freeGather s o.core o.id
  s.later (.operationCompletion o.id)

/-- What an operation counts as delivered in DETAIL (R177). -/
def Op.detail (o : Op) : Nat :=
  if o.code = 0 then 0
  else min 0xFFFFFF (match o.kind with
    | .copy .. | .fill .. | .red .. => o.blocks
    | .gath .. | .scat .. => o.done
    | .coll .. => o.done
    | _ => 0)
/-- The status word (R19). -/
def Op.status (o : Op) : Word := BitVec.ofNat 32 (o.code + 256 * o.detail)

/-- Bytes that a completion still subtracts from a barrier object (R177, R189). -/
def Op.owed (o : Op) : Nat :=
  match o.kind with
  | .gath n .. | .scat n .. => n * o.done
  | .atom _ w64 .. => if o.done = 0 then 0 else if w64 then 8 else 4
  | _ => 0

/-- Handles that refer to an operation become complete (R18). -/
def completeHandles (id : Nat) (w : Word) (hs : List HandleSt) : List HandleSt :=
  hs.map (fun h => if h = .pending id then .complete id w else h)

/-- The operations before one of the same class and issuing unit. -/
def olderOps (s : State) (o : Op) : List Op :=
  s.ops.filter (fun p => p.id < o.id && p.cls == o.cls && p.issuer == o.issuer && p.cls.isSome)

/-! The save area's scope registers (R260) -/

/-- A handle with its status word. -/
def handleBytes : HandleSt → List Byte
  | .empty => le4 0 ++ le4 0
  | .pending _ => le4 1 ++ le4 0
  | .complete _ w => le4 2 ++ le4 w.toNat
/-- The contexts of a team, and the grid contexts of its launch. -/
def savedCtxs (s : State) (t : TeamId) : List CtxId := (s.ctxs.map (fun e => e.1)).filter (fun c => c.team? = some t || (match c with
  | .grid n _ => n == t.launch
  | _ => false))
/-- Scope registers, predicates, handles and outstanding counters of the contexts. -/
def saveScope (s : State) (t : TeamId) : List Byte :=
  (savedCtxs s t).flatMap (fun c =>
    let x := s.ctx c
    words4 x.sc.length x.sc ++ le4 x.p.toNat ++ x.h.flatMap handleBytes
      ++ le4 (x.counts.copy + 2 ^ 8 * x.counts.gather + 2 ^ 16 * x.counts.matrix + 2 ^ 24 * x.counts.coll))
/-- What completes while its team is off its core is written into the save area (R259). -/
def intoSaveArea (s : State) (t : TeamId) : State :=
  match s.saved.find? (fun v => v.id == t) with
  | some v => putBytes s (placed v.scopeAt (saveScope s t))
  | none => s

/-- A completion (R177): counters, barrier object, handles, naps; then the next one of the class that has finished. A
checkpoint's copy of a `COLL` handle and counter follows, since a rollback leaves the collective running (R285). -/
def completeOp (s : State) (o : Op) : State :=
  let s := match o.cls with
    | some k => s.modCtxs o.units (fun x => { x with counts := x.counts.upd k (fun n => n - 1) })
    | none => s
  let s := match o.barrier with
    | some a => if o.owed = 0 then s else deliverBar s o.team a o.owed
    | none => s
  let s := s.modCtxs ((s.ctxs.map (fun e => e.1)).filter (fun c => c.team? = some o.team)) (fun x =>
    { x with
      h := completeHandles o.id o.status x.h
      hmoves := x.hmoves.map (fun m => (m.1, (completeHandles o.id o.status [m.2.1]).headD m.2.1, m.2.2)) })
  let s := s.modCtxs (o.issuer :: o.units) Ctx.rouse
  let s := s.modTeam o.team (fun t => { t with ckpts := t.ckpts.map (fun k => { k with ctxs := k.ctxs.map (fun x =>
    { x with
      h := completeHandles o.id o.status x.h
      coll := if o.cls == some .coll && o.units.contains x.id && k.epoch ≥ o.epoch + 1 then x.coll - 1 else x.coll }) }) })
  let s := intoSaveArea { s with ops := s.ops.filter (fun p => p.id ≠ o.id) } o.team
  match (s.ops.filter (fun p => p.cls == o.cls && p.issuer == o.issuer && p.cls.isSome)).head? with
  | some p => if p.finished then s.later (.operationCompletion p.id) else s
  | none => s

/-! Delivery (R178 to R183, R189) -/

/-- Whether an operation stands at the front of its engine. -/
def atFront (s : State) (o : Op) : Bool :=
  match o.chan with
  | some k => ((chanOf s o.core k).map (fun c => c.running && c.ops.head? == some o.id)).getD false
  | none => ((s.core? o.core).bind (fun c => c.gather.head?)) == some o.id

/-- A place that cannot be reached: wait for the walk, suspend, or end with CODE 0x03 (R180, R267); a page that still faults as the
operation goes on is one that the driver has refused. -/
def unreachedBy (finish : State → Op → Nat → State) (s : State) (o : Op) : Reach → Host.Outcome State Fault Refusal
  | .miss va => .next (awaitWalk s o va)
  | .fault c va => .next (if o.asked = some (va / 65536) then finish s o 3 else suspendOp s o c va)
  | .out => .next (finish s o 3)
  | .absent => .fault .noSuchAddress
/-- An operation of a copy channel or the gather unit that cannot reach its bytes. DEDUCED, log 53, unsafe. -/
def unreached (s : State) (o : Op) : Reach → Host.Outcome State Fault Refusal := unreachedBy finishOp s o

/-- A write of an engine, with its record in the signature. -/
def engineWrite (s : State) (o : Op) (p : EP) (off : Nat) (l : List Nat) (bs : List Byte) : State :=
  sign (holdWrite s o.team (l.zip bs) none) o.team (sigWrite p.sp.num (p.addr + off) bs)

/-- A block of a channel operation delivered: the pointer, the barrier object, the end or the next block. -/
def blockDone (s : State) (o : Op) (n len : Nat) : State :=
  let o' := { o with done := o.done + n, blocks := o.blocks + 1, walk := none, walks := [] }
  let s := s.modOp o.id (fun x => { x with done := o'.done, blocks := o'.blocks, walk := none, walks := [], asked := none })
  let s := match o.chan with
    | some k => modChan s o.core k (fun c => { c with cwp := BitVec.ofNat 32 o'.done })
    | none => s
  let s := match o.barrier with
    | some a => deliverBar s o.team a n
    | none => s
  if len ≤ o'.done then finishOp s o' 0 else s.later (.delivery o.id)

/-- The length of the next block: it ends at an aligned 256-byte address of the destination (R178). -/
def blockLen (o : Op) (dst : EP) (len : Nat) : Nat := min (len - o.done) (256 - (dst.addr + o.done) % 256)

/-- The next block of a copy or fill; `src` gives the block's source places. -/
def copyBlock (s : State) (o : Op) (dst : EP) (len : Nat) (src : Nat → Except Reach (List Nat))
    (data : List Nat → Nat → List Byte) : Host.Outcome State Fault Refusal :=
  if o.cancel then .next (finishOp s o 1)
  else if len ≤ o.done then .next (finishOp s o 0)
  else
    let n := blockLen o dst len
    match src n with
    | .error r => unreached s o r
    | .ok from_ => match places s o dst o.done n .write with
      | .error r => unreached s o r
      | .ok to_ =>
        let bs := data from_ n
        if engineBar s o from_ (to_.zip bs) then .next (engineWait s o from_)
        else .next (blockDone (engineWrite s o dst o.done to_ bs) o n len)

/-- The words of a block reduced into the destination (R181). -/
def redWords (op : AtomOp) : List Byte → List Byte → List Byte
  | a0 :: a1 :: a2 :: a3 :: a, b0 :: b1 :: b2 :: b3 :: b =>
    leBytes 4 (apply op 32 (leNat [a0, a1, a2, a3]) (leNat [b0, b1, b2, b3])) ++ redWords op a b
  | _, _ => []

/-- An effect of an engine at an ordering point: whether it is refused as performed already; `none` while it waits (the log
is full, or a shadow waits for its primary). A `BRED` is performed block by block, each of them once (R181). -/
def enginePoint (s : State) (o : Op) (point op kind addr inc : Nat) (part : Nat) (result : DWord) : Option (Bool × State) :=
  match o.key with
  | none => some (false, s)
  | some k =>
    match replayed s o.team k point op kind addr with
    | some e =>
      if kind ≠ 1 || isShadow o.team || e.parts.contains part then some (true, s)
      else some (false, { s with effects := s.effects.map (fun x =>
        if x.key == k && x.point == point then { x with parts := x.parts ++ [part] } else x) })
    | none =>
      if isShadow o.team || pointLimit point ≤ (s.effects.filter (fun e => e.point == point)).length then none
      else some (false, logEffect s ⟨k, point, inc, op, kind, addr, result, if kind = 1 then [part] else []⟩)

/-- The low bits of `%tileinc` of a team (R288). -/
def incOf (s : State) (t : TeamId) : Nat := ((s.team? t).map (fun x => x.inc.toNat % 8)).getD 0

/-- The next block of a `BRED` (R181): one effect at each ordering point it meets, logged there with its blocks. -/
def redBlock (s : State) (o : Op) (op : AtomOp) (dst src : EP) (len : Nat) : Host.Outcome State Fault Refusal :=
  if len ≤ o.done then .next (finishOp s o 0)
  else
    let n := blockLen o dst len
    match places s o src o.done n .read, places s o dst o.done n .write with
    | .error r, _ | _, .error r => unreached s o r
    | .ok from_, .ok to_ =>
      let bs := gatherBytes s o from_
      let point := pointOf (to_.headD 0)
      if engineBar s o (from_ ++ to_) (to_.zip bs) then .next (engineWait s o (from_ ++ to_))
      else match enginePoint s o point op.code 1 dst.addr (incOf s o.team) o.blocks 0 with
        | none => .next (tryAgain s o.id)
        | some (refused, s) =>
          let new := redWords op (gatherBytes s o to_) bs
          let s := if refused then s else holdBy s o.team [] o.blocks s.tick (to_.zip new) o.key
          let s := sign s o.team (sigWrite dst.sp.num (dst.addr + o.done) bs)
          .next (blockDone s o n len)

/-- The i-th index of a gather or scatter, read now (R180). -/
def indexAt (s : State) (o : Op) (idx : Nat) : Nat :=
  match resolve s o.team .sh (idx + 4 * o.done) 4 with
  | some p => leNat (readBytes s (unitTeams s o.team) p 4)
  | none => 0
/-- The places of the element that an index moves. -/
def indexed (s : State) (o : Op) (p : EP) (off n : Nat) (w : Want) : Except Reach (List Nat) :=
  if p.sp = .mem ∧ 2 ^ 56 ≤ p.addr % 2 ^ 56 + off then .error .out
  else if p.sp ≠ .mem ∧ 2 ^ 32 < p.addr + off + n then .error .out
  else places s o p off n w

/-- The next element of a gather or scatter. -/
def moveElement (s : State) (o : Op) (count : Nat) (from_ to_ : Except Reach (List Nat)) (dst : EP) (off : Nat) :
    Host.Outcome State Fault Refusal :=
  if count ≤ o.done then .next (finishOp s o 0)
  else match from_, to_ with
    | .error r, _ | _, .error r => unreached s o r
    | .ok from_, .ok to_ =>
      let bs := gatherBytes s o from_
      if engineBar s o from_ (to_.zip bs) then .next (engineWait s o from_)
      else
        let s := engineWrite s o dst off to_ bs
        let s := s.modOp o.id (fun x => { x with done := o.done + 1, begun := true, walk := none, walks := [], asked := none })
        .next (if count ≤ o.done + 1 then finishOp s { o with done := o.done + 1 } 0 else s.later (.delivery o.id))

/-- The one update of a `BATOM` (R182): the target, then the slot. -/
def atomStep (s : State) (o : Op) (op : AtomOp) (w64 : Bool) (slot : Nat) (dst : EP) (val cmp : Nat) :
    Host.Outcome State Fault Refusal :=
  let w := if w64 then 8 else 4
  match places s o dst 0 w .write, places s o ⟨.sh, slot⟩ 0 w .write with
  | .error r, _ | _, .error r => unreached s o r
  | .ok to_, .ok at_ =>
    let point := pointOf (to_.headD 0)
    let old := leNat (gatherBytes s o to_)
    if engineBar s o to_ ((to_ ++ at_).map (fun a => (a, 0))) then .next (engineWait s o to_)
    else match enginePoint s o point op.code 2 dst.addr (incOf s o.team) 0 (BitVec.ofNat 64 old) with
      | none => .next (tryAgain s o.id)
      | some (refused, s) =>
        let old := if refused then
            ((o.key.bind (fun k => replayed s o.team k point op.code 2 dst.addr)).map (fun e => e.result.toNat)).getD 0 else old
        let new := if refused then none else atomNew op (8 * w) old val (if op = .cas then some cmp else none)
        let s := match new with
          | some v => holdAt s o.team s.tick (to_.zip (leBytes w v)) o.key
          | none => if refused then s else holdAt s o.team s.tick [] o.key
        let s := engineWrite s o ⟨.sh, slot⟩ 0 at_ (leBytes w old)
        .next (finishOp (s.modOp o.id (fun x => { x with done := 1, begun := true })) o 0)

/-- `RESULT_ARRIVAL` (R50): a variable result is there. -/
def execResultArrival (_c : CtxId) (id : Nat) (s : State) : Host.Outcome State Fault Refusal :=
  .next { s with ctxs := s.ctxs.map (fun e =>
    (e.1, { e.2 with vars := e.2.vars.map (fun r => if r.id = id then { r with arrived := true } else r) })) }

/-- `CHANNEL_OPERATION_BEGIN` (R179): the pointer returns to 0 and the channel runs. -/
def execChannelOperationBegin (die core ch : Nat) (s : State) : Host.Outcome State Fault Refusal :=
  let n := Config.coresPerDie * die + core
  match (chanOf s n ch).bind (fun c => if c.running then none else c.ops.head?) with
  | some id =>
    let s := modChan s n ch (fun c => { c with running := true, cwp := 0 })
    .next ((s.modOp id (fun o => { o with begun := true })).later (.delivery id))
  | none => .next s

/-- `OPERATION_COMPLETION` (R177): in issue order within a class and unit; the barrier object's write waits for room in the galley. -/
def execOperationCompletion (id : Nat) (s : State) : Host.Outcome State Fault Refusal :=
  match s.op? id with
  | some o =>
    if !(o.finished && (olderOps s o).isEmpty) then .next s
    else if s.tick < o.flush || (o.owed ≠ 0 && !engineFits s o []) then .next (s.at_ (s.cycle + 1) (.operationCompletion id))
    else .next (completeOp s o)
  | none => .next s

/-! Waiting for engines (R184 to R187) -/

/-- `CWAIT` (R184). -/
def cwaitBody (cls : OpClass) (n : BitVec 6) (e : Env) (s : State) : Res :=
  if e.parts.any (fun p => n.toNat < countOf s p.1 cls) then .stall s (.cls cls n.toNat) else .next s
def execCwait (h : Head) (cls : OpClass) (n : BitVec 6) (s : State) : Host.Outcome State Fault Refusal :=
  issue h engineHow (cwaitBody cls n) s

/-- `CHWAIT` (R185). -/
def chwaitBody (ch : BitVec 4) (a : Src) (e : Env) (s : State) : Res :=
  match columns e s [.src a] with
  | .error b => b.res s
  | .ok (vals, t) =>
    if !ownsChan s e.team ch.toNat then .trap s (boundsAux ch.toNat)
    else
      let cwp := (((s.team? e.team).bind (fun x => chanOf s x.core ch.toNat)).map (fun c => c.cwp.toNat)).getD 0
      match vals.find? (fun v => cwp < v.headD 0) with
      | some v => .stall s (.channel ch.toNat (BitVec.ofNat 32 (v.headD 0)))
      | none => .next t
def execChwait (h : Head) (ch : BitVec 4) (a : Src) (s : State) : Host.Outcome State Fault Refusal :=
  issue h engineHow (chwaitBody ch a) s

/-- The handles of the participants; HANDLE on an empty one (R186). -/
def handlesOf (e : Env) (s : State) (a : BitVec 4) : List HandleSt := e.parts.map (fun p => (s.ctx p.1).h.getD a.toNat .empty)
def emptyHandle (e : Env) (s : State) (a : BitVec 4) : Option FaultInfo :=
  if (handlesOf e s a).contains .empty then some { cause := .handle, addr := BitVec.ofNat 32 (0x1F0 + a.toNat) } else none
def HandleSt.done : HandleSt → Bool
  | .complete .. => true
  | _ => false

def hwaitBody (a : BitVec 4) (e : Env) (s : State) : Res :=
  match handleBar e s a with
  | some b => b.res s
  | none => .next s
def execHwait (h : Head) (a : BitVec 4) (s : State) : Host.Outcome State Fault Refusal := issue h engineHow (hwaitBody a) s

def htestBody (d : BitVec 3) (a : BitVec 4) (e : Env) (s : State) : Res :=
  match emptyHandle e s a with
  | some f => .trap s f
  | none => store e s .fixed (e.parts.map (fun p => (p, [(.p d, 1, ((s.ctx p.1).h.getD a.toNat .empty).done.toNat)])))
def execHtest (h : Head) (d : BitVec 3) (a : BitVec 4) (s : State) : Host.Outcome State Fault Refusal :=
  issue h engineHow (htestBody d a) s

/-- `HCANCEL` (R186): what has not begun ends at once; a begun copy or fill ends at its next block. -/
def cancelOp (s : State) (id : Nat) : State :=
  match s.op? id with
  | none => s
  | some o =>
    if o.finished then s
    else match o.kind with
      | .copy .. | .fill .. => if o.begun then s.modOp id (fun x => { x with cancel := true }) else finishOp s o 1
      | .red .. | .atom .. | .gath .. | .scat .. => if o.begun then s else finishOp s o 1
      | _ => s
def hcancelBody (a : BitVec 4) (e : Env) (s : State) : Res :=
  match emptyHandle e s a with
  | some f => .trap s f
  | none => .next ((handlesOf e s a).foldl (fun s h => match h with
    | .pending id => cancelOp s id
    | _ => s) s)
def execHcancel (h : Head) (a : BitVec 4) (s : State) : Host.Outcome State Fault Refusal := issue h engineHow (hcancelBody a) s

end Sys2Proof.Machine
end

