-- ==== Sys2Proof/Machine/Barrier.lean ====
section
/-! DEFINITION. The barrier instructions (R188 to R190). -/

namespace Sys2Proof.Machine

/-- The checks of R189 on an object address. -/
def objectFault (s : State) (t : TeamId) (a : Nat) : Option FaultInfo :=
  if a % 16 ≠ 0 then some (alignFault a)
  else if (resolve s t .sh a 16).isNone then some (boundsFault a)
  else none

/-- The bytes of an object, for the galley. -/
def objectBytes (s : State) (t : TeamId) (a : Nat) : List (Nat × Byte) :=
  match resolve s t .sh a 16 with
  | some p => placed p (List.replicate 16 0)
  | none => []
/-- Whether the object is still held by a release (R171). -/
def objectHeld (s : State) (t : TeamId) (a : Nat) : Bool :=
  match resolve s t .sh a 16 with
  | some p => mustWait s (unitTeams s t) p 16
  | none => false

/-- A barrier instruction of one context on one object: its operands, the address checks, then f. -/
def onObject (srcs : List Operand) (writes : Bool) (f : State → Nat → Nat → Bar → Res) (e : Env) (s : State) : Res :=
  if acquiring s e then .stall s .access
  else match columns e s srcs with
    | .error b => b.res s
    | .ok (vals, t) =>
      let v := vals.headD []
      let a := v.getD 0 0
      match objectFault t e.team a with
      | some x => .trap s x
      | none =>
        if objectHeld t e.team a then .stall s .held
        else if writes then galleyBar t e.team (objectBytes t e.team a) (f t a (v.getD 1 0) (getBar t e.team a))
        else f t a (v.getD 1 0) (getBar t e.team a)

/-- `BARI` (R189): waiters are not woken. -/
def execBari (h : Head) (a : Reg) (b : Src) (s : State) : Host.Outcome State Fault Refusal :=
  issue h engineHow (fun e s => onObject [.reg a 1, .src b] true (fun s o n _ =>
    if n = 0 ∨ 65535 < n then .trap s (boundsFault o) else .next (setBar s e.team o ⟨0, false, n, 0, 0⟩)) e s) s
/-- `BARX` (R189): n bytes booked. -/
def execBarx (h : Head) (a : Reg) (b : Src) (s : State) : Host.Outcome State Fault Refusal :=
  issue h engineHow (fun e s => onObject [.reg a 1, .src b] true (fun s o n k =>
    if 2 ^ 55 - 1 < k.signedPend + n then .trap s (boundsFault o)
    else .next (advanceBar (setBar s e.team o { k with pend := (k.pend + n) % 2 ^ 56 }) e.team o)) e s) s
/-- `BARA` (R189): one arrival. -/
def execBara (h : Head) (a : Reg) (s : State) : Host.Outcome State Fault Refusal :=
  issue h engineHow (fun e s => onObject [.reg a 1] true (fun s o _ k =>
    if 65535 ≤ k.arrived then .trap s (boundsFault o)
    else .next (advanceBar (setBar s e.team o { k with arrived := k.arrived + 1 }) e.team o)) e s) s

/-- `BARW` (R189): the condition is tested when the wait begins and at each end of a phase. -/
def barwBody (a : Reg) (b : Src) (e : Env) (s : State) : Res :=
  match (s.ctx e.c).wait with
  | some (.barrier [] false) => .next s
  | some (.barrier objs false) => .stall s (.barrier objs false)
  | _ => onObject [.reg a 1, .src b] false (fun s o g k =>
      if k.gen ≠ g % 2 ^ 16 then .next s else holdWith s e (.barrier [(BitVec.ofNat 32 o, BitVec.ofNat 16 g)] false)) e s
def execBarw (h : Head) (a : Reg) (b : Src) (s : State) : Host.Outcome State Fault Refusal :=
  issue h engineHow (barwBody a b) s

/-! BAR (R190) -/

/-- One arrival: the context whose wait records it, the object, n. -/
structure Arrival where
  who : CtxId
  obj : Nat
  n : Nat
  deriving DecidableEq, Repr

/-- The arrivals of a `BAR`: one for each participating lane, or each active lane of the group or role. -/
def arrivals (e : Env) (s : State) (vals : List (List Nat)) : List Arrival :=
  let of (c : CtxId) (v : List Nat) : Arrival := ⟨c, v.getD 0 0, v.getD 1 0⟩
  match e.x with
  | .L => (e.parts.zip vals).map (fun (p, v) => of p.1 v)
  | .G => match e.c with
    | .group t g => (groupLanes s t g).map (fun _ => of e.c (vals.headD []))
    | _ => []
  | _ => (roleLanes s e.team (roleOf s e.c)).map (fun _ => of e.c (vals.headD []))

/-- The arrivals at one object. -/
def arrivalsAt (l : List Arrival) (o : Nat) : List Arrival := l.filter (fun a => a.obj == o)

/-- What bars the arrivals at one object: two values of n, an n that is not EXPECT, a full count (R189, R190). DEDUCED, log 14, unsafe. -/
def arrivalFault (s : State) (t : TeamId) (l : List Arrival) (o : Nat) : Option FaultInfo :=
  let b := getBar s t o
  let here := arrivalsAt l o
  let n := (here.head?.map (fun a => a.n)).getD 0
  if here.any (fun a => a.n ≠ n) || 65535 < n || (b.arrived ≠ 0 && n ≠ b.expect) || 65535 < b.arrived + here.length then
    some (boundsFault o)
  else none

/-- The arrivals made: waits first, so that a phase that ends releases them at once. -/
def arrive (s : State) (t : TeamId) (l : List Arrival) : State :=
  let wait (c : CtxId) : Wait := .barrier ((l.filter (fun a => a.who = c)).map (fun a =>
    (BitVec.ofNat 32 a.obj, BitVec.ofNat 16 (getBar s t a.obj).gen))) true
  let waits := (distinct (l.map (fun a => a.who))).map (fun c => (c, wait c))
  let s := waits.foldl (fun s w => s.modCtx w.1 (fun x => { x with wait := some w.2 })) s
  (distinct (l.map (fun a => a.obj))).foldl (fun s o =>
    let b := getBar s t o
    let here := arrivalsAt l o
    advanceBar (setBar s t o { b with
      lane := true
      expect := if b.arrived = 0 then (here.head?.map (fun a => a.n)).getD 0 else b.expect
      arrived := b.arrived + here.length }) t o) s

/-- Whether every context of a unit has seen the phases end that it arrived for. -/
def released (s : State) (unit : List CtxId) : Bool := unit.all (fun u => match (s.ctx u).wait with
  | some (.barrier objs true) => objs.isEmpty
  | _ => false)

/-- `BAR`: every check before any arrival, then the wait. -/
def barBody (a : Reg) (b : Src) (e : Env) (s : State) : Res :=
  let waiting := e.unit.any (fun u => match (s.ctx u).wait with
    | some (.barrier _ true) => true
    | _ => false)
  if waiting then (if released s e.unit then .next s else .hold s)
  else if acquiring s e then .stall s .access
  else match columns e s [.reg a 1, .src b] with
    | .error q => q.res s
    | .ok (vals, t) =>
      let named := (e.parts.zip vals).map (fun (p, v) => (p, v.getD 0 0))
      let skew := named.filter (fun x => x.2 % 16 ≠ 0)
      let out := named.filter (fun x => (resolve t e.team .sh x.2 16).isNone)
      if !skew.isEmpty then .trap s (laneFault e .align skew)
      else if !out.isEmpty then .trap s (laneFault e .bounds out)
      else
        let l := arrivals e t vals
        let objs := distinct (l.map (fun x => x.obj))
        match objs.findSome? (arrivalFault t e.team l) with
        | some f => .trap s f
        | none =>
          if objs.any (objectHeld t e.team) then .stall s .held
          else galleyBar t e.team (objs.flatMap (objectBytes t e.team)) (
            let t := t.modCtxs e.unit (fun x => { x with wait := some (.barrier [] true) })
            let t := arrive t e.team l
            if released t e.unit then .next t else .hold t)
def execBar (h : Head) (a : Reg) (b : Src) (s : State) : Host.Outcome State Fault Refusal := issue h engineHow (barBody a b) s

end Sys2Proof.Machine
end

