-- ==== Sys2Proof/Machine/Crypto.lean ====
section
/-! DEFINITION. The two functions that R366 names by their standards: SHAKE256 (FIPS 202) and the verification of a pure Ed448
signature with an empty context string (RFC 8032). PRESUMED, log 104, unsafe: the spec names the standards and does not restate them. -/

namespace Sys2Proof.Machine

/-! SHAKE256 -/

/-- Keccak's state: 25 lanes, lane (x, y) at 5y + x. -/
abbrev Lanes := List DWord
def laneXY (a : Lanes) (x y : Nat) : DWord := a.getD (5 * (y % 5) + x % 5) 0
/-- Each lane from its coordinates. -/
def lanesBy (f : Nat → Nat → DWord) : Lanes := (List.range 25).map (fun i => f (i % 5) (i / 5))

/-- The rotation of each lane in ρ. -/
def rhoOffsets : List Nat :=
  [0, 1, 62, 28, 27, 36, 44, 6, 55, 20, 3, 10, 43, 25, 39, 41, 45, 15, 21, 8, 18, 2, 61, 56, 14]
/-- The word of each round in ι. -/
def iotaWords : List DWord :=
  [0x0000000000000001, 0x0000000000008082, 0x800000000000808A, 0x8000000080008000, 0x000000000000808B, 0x0000000080000001,
   0x8000000080008081, 0x8000000000008009, 0x000000000000008A, 0x0000000000000088, 0x0000000080008009, 0x000000008000000A,
   0x000000008000808B, 0x800000000000008B, 0x8000000000008089, 0x8000000000008003, 0x8000000000008002, 0x8000000000000080,
   0x000000000000800A, 0x800000008000000A, 0x8000000080008081, 0x8000000000008080, 0x0000000080000001, 0x8000000080008008]

/-- θ: each lane with the parities of two columns. -/
def keccakTheta (a : Lanes) : Lanes :=
  let c := (List.range 5).map (fun x => (List.range 5).foldl (fun w y => w ^^^ laneXY a x y) 0)
  lanesBy (fun x y => laneXY a x y ^^^ c.getD ((x + 4) % 5) 0 ^^^ (c.getD ((x + 1) % 5) 0).rotateLeft 1)
/-- ρ and π: the lanes rotated, and moved. -/
def keccakRhoPi (a : Lanes) : Lanes :=
  lanesBy (fun x y => (laneXY a (x + 3 * y) x).rotateLeft (rhoOffsets.getD (5 * x + (x + 3 * y) % 5) 0))
/-- χ: each lane with the two after it in its row. -/
def keccakChi (a : Lanes) : Lanes := lanesBy (fun x y => laneXY a x y ^^^ (~~~(laneXY a (x + 1) y) &&& laneXY a (x + 2) y))
/-- Keccak-f[1600]. -/
def keccakF (a : Lanes) : Lanes :=
  iotaWords.foldl (fun a rc => let b := keccakChi (keccakRhoPi (keccakTheta a)); b.set 0 (b.getD 0 0 ^^^ rc)) a

/-- The bytes that one permutation takes or gives. -/
def shakeRate : Nat := 136
/-- The message padded: the suffix of SHAKE, then 10*1. -/
def shakePad (m : List Byte) : List Byte :=
  let z := shakeRate - 1 - m.length % shakeRate
  if z = 0 then m ++ [0x9F] else m ++ [0x1F] ++ List.replicate (z - 1) 0 ++ [0x80]
def shakeAbsorb : Nat → List Byte → Lanes → Lanes
  | 0, _, a => a
  | n + 1, m, a =>
    let block := m.take shakeRate
    shakeAbsorb n (m.drop shakeRate)
      (keccakF (lanesBy (fun x y => laneXY a x y ^^^ BitVec.ofNat 64 (leNat ((block.drop (8 * (5 * y + x))).take 8)))))
def shakeSqueeze : Nat → Lanes → List Byte
  | 0, _ => []
  | n + 1, a => (a.flatMap (fun w => leBytes 8 w.toNat)).take shakeRate ++ shakeSqueeze n (keccakF a)
/-- SHAKE256 of a message, n bytes of output. PRESUMED, log 104, unsafe. -/
def shake256 (m : List Byte) (n : Nat) : List Byte :=
  let p := shakePad m
  (shakeSqueeze (n / shakeRate + 1) (shakeAbsorb (p.length / shakeRate) p (List.replicate 25 0))).take n

/-! Ed448 -/

/-- The prime of the field, the constant of the curve, the order of the base point. -/
def edP : Nat := 2 ^ 448 - 2 ^ 224 - 1
def edD : Nat := edP - 39081
def edL : Nat := 2 ^ 446 - 13818066809895115352007386748515426880336692474882178609894547503885
/-- A power modulo the prime, by the low bits of its exponent. -/
def edPow : Nat → Nat → Nat → Nat
  | 0, _, _ => 1
  | k + 1, a, e => (if e % 2 = 1 then a else 1) * edPow k (a * a % edP) (e / 2) % edP
/-- A point: X, Y and Z of its projective coordinates, each below the prime. -/
structure EdPoint where
  x : Nat
  y : Nat
  z : Nat
  deriving DecidableEq, Repr
def edBase : EdPoint where
  x := 224580040295924300187604334099896036246789641632564134246125461686950415467406032909029192869357953282578032075146446173674602635247710
  y := 298819210078481492676017930443930673437544040154080242095928241372331506189835876003536878655418784733982303233503462500531545062832660
  z := 1
def EdPoint.zero : EdPoint := ⟨0, 1, 1⟩
/-- A difference in the field. -/
def edSub (a b : Nat) : Nat := (a + (edP - b % edP)) % edP
/-- The sum of two points (RFC 8032, 5.2.4). -/
def edAdd (p q : EdPoint) : EdPoint :=
  let a := p.z * q.z % edP
  let b := a * a % edP
  let c := p.x * q.x % edP
  let d := p.y * q.y % edP
  let e := edD * c * d % edP
  let f := edSub b e
  let g := (b + e) % edP
  let h := (p.x + p.y) * (q.x + q.y) % edP
  ⟨a * f * edSub h (c + d) % edP, a * g * edSub d c % edP, f * g % edP⟩
/-- n times a point, by the low k bits of n. -/
def edMul : Nat → Nat → EdPoint → EdPoint
  | 0, _, _ => .zero
  | k + 1, n, p =>
    let r := edMul k (n / 2) (edAdd p p)
    if n % 2 = 1 then edAdd p r else r
/-- Equal as points of the curve. -/
def edSame (p q : EdPoint) : Bool := p.x * q.z % edP == q.x * p.z % edP && p.y * q.z % edP == q.y * p.z % edP
/-- The point that 57 bytes encode (RFC 8032, 5.2.3). -/
def edDecode (b : List Byte) : Option EdPoint :=
  let n := leNat b
  let sign := n / 2 ^ 455 % 2
  let y := n % 2 ^ 455
  let u := edSub (y * y) 1
  let v := edSub (edD * (y * y % edP)) 1
  let x := edPow 3 u 3 * v * edPow 448 (edPow 3 u 5 * edPow 3 v 3 % edP) ((edP - 3) / 4) % edP
  if b.length ≠ 57 ∨ edP ≤ y ∨ v * (x * x % edP) % edP ≠ u ∨ (x = 0 ∧ sign = 1) then none
  else some ⟨if x % 2 = sign then x else edP - x, y, 1⟩
/-- dom4 with no flag and an empty context: the name of the scheme and two zero bytes. -/
def edDom : List Byte := [0x53, 0x69, 0x67, 0x45, 0x64, 0x34, 0x34, 0x38, 0, 0]
/-- Whether a signature verifies: key, message, signature (RFC 8032, 5.2.7, the equation with its cofactor). -/
def ed448Verify (key msg sig : List Byte) : Bool :=
  match edDecode key, edDecode (sig.take 57) with
  | some a, some r =>
    let n := leNat (sig.drop 57)
    let k := leNat (shake256 (edDom ++ sig.take 57 ++ key ++ msg) 114) % edL
    sig.length == 114 && n < edL && edSame (edMul 448 (4 * n) edBase) (edAdd (edMul 3 4 r) (edMul 448 (4 * k) a))
  | _, _ => false

end Sys2Proof.Machine
end

