-- ==== Sys2Proof/Machine/Flags.lean ====
section
/-! DEFINITION. Conditions, carries and truth tables (R56, R131, R139, R150). -/

namespace Sys2Proof.Machine

/-- A condition on integers (R56, R128). -/
def intCond (c : Cond) (a b : Int) : Bool :=
  match c with
  | .eq => a = b
  | .ne => a ≠ b
  | .lt => a < b
  | .le => a ≤ b
  | .gt => b < a
  | .ge => b ≤ a
  | _ => false

/-- A condition on floating-point values (R56, R139). -/
def floatCond (c : Cond) (a b : Val) : Bool :=
  let un := a.isNan || b.isNan
  let eq := !un && !a.lt b && !b.lt a
  match c with
  | .eq => eq
  | .ne => !un && !eq
  | .lt => a.lt b
  | .le => a.lt b || eq
  | .gt => b.lt a
  | .ge => b.lt a || eq
  | .num => !un
  | .nan => un
  | .equ => un || eq
  | .neu => un || !eq
  | .ltu => un || a.lt b
  | .leu => un || a.lt b || eq
  | .gtu => un || b.lt a
  | .geu => un || b.lt a || eq

/-- The carry out of a + b + c on 32 bits (R131). -/
def carryOut (a b c : Nat) : Nat := (a + b + c) / 2 ^ 32 % 2
/-- The borrow out of a − b − c (R131). -/
def borrowOut (a b c : Nat) : Nat := if a < b + c then 1 else 0

/-- A bit of a truth table (R150). -/
def tableBit (table : BitVec 8) (a b c : Nat) : Nat := (table.getLsbD (4 * a + 2 * b + c)).toNat

/-- The predicates of a context as a number (R151). -/
def predNum (p : BitVec 8) : Nat := (p ||| 0x80#8).toNat

end Sys2Proof.Machine
end

