-- ==== Sys2Proof/Machine/Integer.lean ====
section
/-! DEFINITION. The integer instructions (R128 to R135). -/

namespace Sys2Proof.Machine

/-- An exact result written under a type: wrapped, or clamped under SAT (R129). -/
def intResult (ty : IntTy) (sat : Bool) (x : Int) : Nat := lowBits (32 * ty.words) (if sat then clampInt ty x else x)

/-- The n-th of some values, as the type reads it. -/
def ival (ty : IntTy) (v : List Nat) (n : Nat) : Int := intVal ty (v.getD n 0)

/-- An instruction of a typed result from two typed sources. -/
def intBin (h : Head) (ty : IntTy) (sat : Bool) (d a : Reg) (b : Src) (f : Int → Int → Int) (s : State) :
    Host.Outcome State Fault Refusal :=
  alu h d ty.words [.reg a ty.words, .typed ty b] (fun v => intResult ty sat (f (ival ty v 0) (ival ty v 1))) s

/-- An instruction on bit patterns of the type's width. -/
def bitBin (h : Head) (ty : IntTy) (d a : Reg) (b : Src) (f : Nat → Nat → Nat) (s : State) :
    Host.Outcome State Fault Refusal :=
  alu h d ty.words [.reg a ty.words, .typed ty b] (fun v => f (v.getD 0 0) (v.getD 1 0)) s

/-- A shift by the 32-bit operand b (R132). -/
def shift (h : Head) (ty : IntTy) (d a : Reg) (b : Src) (f : Nat → Nat → Nat) (s : State) : Host.Outcome State Fault Refusal :=
  alu h d ty.words [.reg a ty.words, .src b] (fun v => f (v.getD 0 0) (v.getD 1 0)) s

/-- An instruction of three 32-bit sources. -/
def tern (h : Head) (d a b c : Reg) (f : Nat → Nat → Nat → Nat) (s : State) : Host.Outcome State Fault Refusal :=
  alu h d 1 [.reg a 1, .reg b 1, .reg c 1] (fun v => f (v.getD 0 0) (v.getD 1 0) (v.getD 2 0)) s

/-- An instruction of one 32-bit source. -/
def unary (h : Head) (d a : Reg) (f : Nat → Nat) (s : State) : Host.Outcome State Fault Refusal :=
  alu h d 1 [.reg a 1] (fun v => f (v.getD 0 0)) s

/-- Complement in w bits. -/
def notBits (w a : Nat) : Nat := 2 ^ w - 1 - a % 2 ^ w

/-- The shifts of R132 on w bits. -/
def shlVal (w a s : Nat) : Nat := if w ≤ s then 0 else a * 2 ^ s % 2 ^ w
def shrVal (w a s : Nat) : Nat := if w ≤ s then 0 else a / 2 ^ s
def sarVal (w a s : Nat) : Nat :=
  let k := min s w
  let top := a / 2 ^ (w - 1) % 2
  a / 2 ^ k + top * (2 ^ w - 2 ^ (w - k))
def rotVal (w a s : Nat) : Nat := a * 2 ^ (s % w) % 2 ^ w + a / 2 ^ (w - s % w)
def shfVal (right : Bool) (a b c : Nat) : Nat :=
  let x := a * 2 ^ 32 + b
  let k := min c 32
  if right then x / 2 ^ k % 2 ^ 32 else x * 2 ^ k / 2 ^ 32 % 2 ^ 32

/-- `BFE` (R133). -/
def bfeVal (ty : IntTy) (a b c : Nat) : Nat :=
  let pos := b % 256
  let len := min (c % 256) 32
  let top := ty.signed && a.testBit 31
  let at_ (i : Nat) : Bool := if i < 32 then a.testBit i else top
  if len = 0 then 0
  else (List.range 32).foldl (fun n i =>
    n + (if i < len then (at_ (pos + i)).toNat else (ty.signed && at_ (pos + len - 1)).toNat) * 2 ^ i) 0

/-- `BFI` (R133). -/
def bfiVal (a b c : Nat) : Nat :=
  let pos := c % 256
  let len := min (c / 256 % 256) 32
  (List.range 32).foldl (fun n i =>
    n + (if pos ≤ i ∧ i < pos + len then a.testBit (i - pos) else b.testBit i).toNat * 2 ^ i) 0

def popc (a : Nat) : Nat := (List.range 32).foldl (fun n i => n + (a.testBit i).toNat) 0
def clz (a : Nat) : Nat := if a = 0 then 32 else 31 - Nat.log2 a
def brev (a : Nat) : Nat := (List.range 32).foldl (fun n i => n + (a.testBit (31 - i)).toNat * 2 ^ i) 0

/-- Byte i of a word. -/
def byteOf (a i : Nat) : Nat := a / 256 ^ i % 256
/-- One byte of `PRMT` (R134), from the byte formed below it. -/
def prmtByte (a b c i below : Nat) : Nat :=
  match c / 8 ^ i % 8 with
  | 4 => byteOf b i
  | 5 => 0x00
  | 6 => 0xFF
  | 7 => if i = 0 then 0 else if 128 ≤ below then 0xFF else 0
  | v => byteOf a v
/-- `PRMT` (R134). -/
def prmtVal (a b c : Nat) : Nat :=
  let r0 := prmtByte a b c 0 0
  let r1 := prmtByte a b c 1 r0
  let r2 := prmtByte a b c 2 r1
  let r3 := prmtByte a b c 3 r2
  r0 + 256 * r1 + 65536 * r2 + 16777216 * r3

/-- The result type of `DP4`, `DP2` and `SAD`: i32 or n32 after the signedness of the type (R130). -/
def accTy (ty : IntTy) : IntTy := if ty.signed then .i32 else .n32

/-- Element i of w bits of a word under a type. -/
def element (ty : IntTy) (a i : Nat) : Int := intVal ty (a / 2 ^ (ty.width * i))

/-- c plus the sum of f over the n elements of a and b (R128, R130). -/
def sumElements (ty : IntTy) (sat : Bool) (n : Nat) (f : Int → Int → Int) (a b c : Nat) : Nat :=
  intResult (accTy ty) sat ((List.range n).foldl (fun x i => x + f (element ty a i) (element ty b i)) (intVal (accTy ty) c))

def execAdd (h : Head) (ty : IntTy) (sat : Bool) (d a : Reg) (b : Src) (s : State) : Host.Outcome State Fault Refusal :=
  intBin h ty sat d a b (fun x y => x + y) s
def execSub (h : Head) (ty : IntTy) (sat : Bool) (d a : Reg) (b : Src) (s : State) : Host.Outcome State Fault Refusal :=
  intBin h ty sat d a b (fun x y => x - y) s
/-- The sum with carry in, and the carry out of the unsigned sum (R131). -/
def execAddc (h : Head) (_ty : IntTy) (d a b : Reg) (pc : BitVec 3) (s : State) : Host.Outcome State Fault Refusal :=
  alu2 h d 1 (.p pc) [.reg a 1, .reg b 1, .reg (.p pc) 1] (fun v =>
    ((v.getD 0 0 + v.getD 1 0 + v.getD 2 0) % 2 ^ 32, carryOut (v.getD 0 0) (v.getD 1 0) (v.getD 2 0))) s
/-- The difference with borrow in, and the borrow out (R131). -/
def execSubb (h : Head) (_ty : IntTy) (d a b : Reg) (pc : BitVec 3) (s : State) : Host.Outcome State Fault Refusal :=
  alu2 h d 1 (.p pc) [.reg a 1, .reg b 1, .reg (.p pc) 1] (fun v =>
    (lowBits 32 ((v.getD 0 0 : Int) - v.getD 1 0 - v.getD 2 0), borrowOut (v.getD 0 0) (v.getD 1 0) (v.getD 2 0))) s
def execMul (h : Head) (ty : IntTy) (sat : Bool) (d a : Reg) (b : Src) (s : State) : Host.Outcome State Fault Refusal :=
  intBin h ty sat d a b (fun x y => x * y) s
/-- Bits [63:32] of the exact product (R128). -/
def execMulh (h : Head) (ty : IntTy) (d a : Reg) (b : Src) (s : State) : Host.Outcome State Fault Refusal :=
  alu h d 1 [.reg a 1, .typed ty b] (fun v => lowBits 64 (ival ty v 0 * ival ty v 1) / 2 ^ 32) s
def execMad (h : Head) (ty : IntTy) (sat : Bool) (d a b c : Reg) (s : State) : Host.Outcome State Fault Refusal :=
  alu h d 1 [.reg a 1, .reg b 1, .reg c 1] (fun v => intResult ty sat (ival ty v 0 * ival ty v 1 + ival ty v 2)) s
/-- a × b + c in 64 bits (R128). -/
def execMadw (h : Head) (ty : IntTy) (d a b c : Reg) (s : State) : Host.Outcome State Fault Refusal :=
  alu h d 2 [.reg a 1, .reg b 1, .reg c 2] (fun v => lowBits 64 (ival ty v 0 * ival ty v 1 + v.getD 2 0)) s
def execMin (h : Head) (ty : IntTy) (d a : Reg) (b : Src) (s : State) : Host.Outcome State Fault Refusal :=
  intBin h ty false d a b (fun x y => min x y) s
def execMax (h : Head) (ty : IntTy) (d a : Reg) (b : Src) (s : State) : Host.Outcome State Fault Refusal :=
  intBin h ty false d a b (fun x y => max x y) s
def execAbs (h : Head) (ty : IntTy) (sat : Bool) (d a : Reg) (s : State) : Host.Outcome State Fault Refusal :=
  alu h d ty.words [.reg a ty.words] (fun v => intResult ty sat (ival ty v 0).natAbs) s
def execNeg (h : Head) (ty : IntTy) (sat : Bool) (d a : Reg) (s : State) : Host.Outcome State Fault Refusal :=
  alu h d ty.words [.reg a ty.words] (fun v => intResult ty sat (-(ival ty v 0))) s
def execAnd (h : Head) (ty : IntTy) (d a : Reg) (b : Src) (s : State) : Host.Outcome State Fault Refusal :=
  bitBin h ty d a b (fun x y => x &&& y) s
def execOr (h : Head) (ty : IntTy) (d a : Reg) (b : Src) (s : State) : Host.Outcome State Fault Refusal :=
  bitBin h ty d a b (fun x y => x ||| y) s
def execXor (h : Head) (ty : IntTy) (d a : Reg) (b : Src) (s : State) : Host.Outcome State Fault Refusal :=
  bitBin h ty d a b (fun x y => x ^^^ y) s
def execNot (h : Head) (ty : IntTy) (d a : Reg) (s : State) : Host.Outcome State Fault Refusal :=
  alu h d ty.words [.reg a ty.words] (fun v => notBits ty.width (v.getD 0 0)) s
def execAndn (h : Head) (ty : IntTy) (d a : Reg) (b : Src) (s : State) : Host.Outcome State Fault Refusal :=
  bitBin h ty d a b (fun x y => x &&& notBits ty.width y) s
def execShl (h : Head) (ty : IntTy) (d a : Reg) (b : Src) (s : State) : Host.Outcome State Fault Refusal :=
  shift h ty d a b (shlVal ty.width) s
def execShr (h : Head) (ty : IntTy) (d a : Reg) (b : Src) (s : State) : Host.Outcome State Fault Refusal :=
  shift h ty d a b (shrVal ty.width) s
def execSar (h : Head) (ty : IntTy) (d a : Reg) (b : Src) (s : State) : Host.Outcome State Fault Refusal :=
  shift h ty d a b (sarVal ty.width) s
def execShf (h : Head) (right : Bool) (d a b c : Reg) (s : State) : Host.Outcome State Fault Refusal :=
  tern h d a b c (shfVal right) s
def execRot (h : Head) (ty : IntTy) (d a : Reg) (b : Src) (s : State) : Host.Outcome State Fault Refusal :=
  shift h ty d a b (rotVal ty.width) s
def execBfe (h : Head) (ty : IntTy) (d a b c : Reg) (s : State) : Host.Outcome State Fault Refusal :=
  tern h d a b c (bfeVal ty) s
def execBfi (h : Head) (d a b c : Reg) (s : State) : Host.Outcome State Fault Refusal := tern h d a b c bfiVal s
def execPopc (h : Head) (d a : Reg) (s : State) : Host.Outcome State Fault Refusal := unary h d a popc s
def execClz (h : Head) (d a : Reg) (s : State) : Host.Outcome State Fault Refusal := unary h d a clz s
def execBrev (h : Head) (d a : Reg) (s : State) : Host.Outcome State Fault Refusal := unary h d a brev s
def execPrmt (h : Head) (d a b c : Reg) (s : State) : Host.Outcome State Fault Refusal := tern h d a b c prmtVal s
def execSel (h : Head) (ty : IntTy) (d a b : Reg) (pc : BitVec 3) (s : State) : Host.Outcome State Fault Refusal :=
  alu h d ty.words [.reg a ty.words, .reg b ty.words, .reg (.p pc) 1]
    (fun v => if v.getD 2 0 ≠ 0 then v.getD 0 0 else v.getD 1 0) s
def execIcmp (h : Head) (ty : IntTy) (cond : Cond) (d : BitVec 3) (a : Reg) (b : Src) (s : State) :
    Host.Outcome State Fault Refusal :=
  alu h (.p d) 1 [.reg a ty.words, .typed ty b] (fun v => (intCond cond (ival ty v 0) (ival ty v 1)).toNat) s
/-- a + (b << SHIFT), modulo 2^w (R128, R135). -/
def execLea (h : Head) (ty : IntTy) (shift : BitVec 3) (d a : Reg) (b : Src) (s : State) : Host.Outcome State Fault Refusal :=
  alu h d ty.words [.reg a ty.words, .src b] (fun v => (v.getD 0 0 + v.getD 1 0 * 2 ^ shift.toNat) % 2 ^ ty.width) s
def execDp4 (h : Head) (ty : IntTy) (sat : Bool) (d a b c : Reg) (s : State) : Host.Outcome State Fault Refusal :=
  tern h d a b c (sumElements ty sat 4 (fun x y => x * y)) s
def execDp2 (h : Head) (ty : IntTy) (sat : Bool) (d a b c : Reg) (s : State) : Host.Outcome State Fault Refusal :=
  tern h d a b c (sumElements ty sat 2 (fun x y => x * y)) s
/-- c plus the sum of absolute differences: of four bytes, or of the words (R128). -/
def execSad (h : Head) (ty : IntTy) (sat : Bool) (d a b c : Reg) (s : State) : Host.Outcome State Fault Refusal :=
  tern h d a b c (sumElements ty sat (32 / ty.width) (fun x y => ((x - y).natAbs : Int))) s
def execClamp (h : Head) (ty : IntTy) (d a b c : Reg) (s : State) : Host.Outcome State Fault Refusal :=
  alu h d ty.words [.reg a ty.words, .reg b ty.words, .reg c ty.words]
    (fun v => intResult ty false (min (max (ival ty v 0) (ival ty v 1)) (ival ty v 2))) s

end Sys2Proof.Machine
end

