-- ==== Sys2Proof/Machine/Cross.lean ====
section
/-! DEFINITION. The cross-lane instructions (R153 to R161, R87 to R89). -/

namespace Sys2Proof.Machine

/-! Trees (R87, R88) -/

/-- One combination of two lane values. -/
def combine (ty : NumTy) (op : RedOp) (a b : Nat) : Nat :=
  match ty with
  | .flt f => match op with
    | .min => minCode f a b
    | .max => maxCode f a b
    | _ => addCode f .rne (value f a) (value f b)
  | .int t => match op with
    | .add => (a + b) % 2 ^ 32
    | .min => intResult t false (min (intVal t a) (intVal t b))
    | .max => intResult t false (max (intVal t a) (intVal t b))
    | .and => a &&& b
    | .or => a ||| b
    | .xor => a ^^^ b

/-- The identity of an operation (R89). -/
def identity (ty : NumTy) (op : RedOp) : Nat :=
  match ty with
  | .flt f => match op with
    | .min => infCode f false
    | .max => infCode f true
    | _ => 0
  | .int t => match op with
    | .min => lowBits 32 (intMax t)
    | .max => lowBits 32 (intMin t)
    | .and => 2 ^ 32 - 1
    | _ => 0

/-- Two nodes combined; an absent one gives way (R87). -/
def joinNodes (f : Nat → Nat → Nat) : Option Nat → Option Nat → Option Nat
  | some a, some b => some (f a b)
  | some a, none => some a
  | none, b => b

/-- Node i of level j over leaves (R87). -/
def treeNode (f : Nat → Nat → Nat) (leaf : Nat → Option Nat) : Nat → Nat → Option Nat
  | 0, i => leaf i
  | j + 1, i => joinNodes f (treeNode f leaf j (2 * i)) (treeNode f leaf j (2 * i + 1))

/-- The leaves of some lanes with their values. -/
def leaves (l : List (Nat × Nat)) (i : Nat) : Option Nat := get? i l

/-- The prefix of n leaves: aligned nodes, largest first, from left to right (R88). -/
def prefixNode (f : Nat → Nat → Nat) (leaf : Nat → Option Nat) (n : Nat) : Option Nat :=
  ((List.range 6).reverse.foldl (fun (acc : Option Nat × Nat) j =>
    if n.testBit j then (joinNodes f acc.1 (treeNode f leaf j (acc.2 / 2 ^ j)), acc.2 + 2 ^ j) else acc) (none, 0)).1

/-! Lane sets (R153) -/

/-- The lanes below a group or team context. -/
def lanesUnder (s : State) (c : CtxId) : List (CtxId × Nat) :=
  match c with
  | .group t g => groupLanes s t g
  | .team t r => roleLanes s t r
  | _ => []
/-- The slices below an upper context. -/
def slicesUnder (s : State) (c : CtxId) : List CtxId :=
  match c with
  | .group t g => slicesOf s t g
  | .team t r => (groupsOf s t r).flatMap (slicesOf s t)
  | .grid n r => (gridTeams s n).flatMap (fun t => (groupsOf s t r).flatMap (slicesOf s t))
  | _ => []
/-- A lane's number as an upper context counts it: group-relative at G, team-wide at T (R153). -/
def numberAt (x : Scope) (p : CtxId × Nat) : Nat := if x = .T then teamLane p.1 p.2 else laneNum p.1 p.2

/-- A mask of lane numbers. -/
def maskOf (l : List Nat) : Nat := l.foldl (fun n i => n ||| 2 ^ i) 0

/-- The lanes that break a member mask (R154): the mask as read and the lanes, or none. Only the bits of lanes that have exited require
nothing; a bit that names no lane of the group is broken. DEDUCED, log 30, unsafe. -/
def memberFault (e : Env) (s : State) (c : Reg) : Option FaultInfo :=
  if c = .zero then none
  else
    let m := readReg s e.x e.c 0 c
    let nums := e.parts.map (fun p => laneNum p.1 p.2)
    let exited : List Nat := match e.c with
      | .slice t g _ => (slicesOf s t g).flatMap (fun (u : CtxId) => ((List.range 4).filter (fun k =>
          (((s.ctx u).lanes[k]?).map (fun (l : Lane) => !l.live)).getD false)).map (laneNum u))
      | _ => []
    let bad := (List.range 32).filter (fun i =>
      (nums.contains i && !m.getLsbD i) || (m.getLsbD i && !exited.contains i && !nums.contains i))
    if bad.isEmpty then none else some { cause := .member, mask := maskOf bad, addr := m }

/-- The body of a lane-scope cross-lane instruction: sources of every lane, the member mask, then one result for each. -/
def crossBody (srcs : List Operand) (c : Reg) (f : List (Nat × List Nat) → Nat × List Nat → List Out) (e : Env) (s : State) : Res :=
  if readsPending s e.x e.c 0 1 c then .stall s .result
  else match memberFault e s c with
  | some q => .trap s q
  | none => match columns e s srcs with
    | .error b => b.res s
    | .ok (vals, t) =>
      let all := (e.parts.zip vals).map (fun (p, v) => (laneNum p.1 p.2, v))
      store e t .varies ((e.parts.zip all).map (fun (p, x) => (p, f all x)))

/-- The body of an upper cross-lane instruction: it waits for the lower units' results, reads its sources (R18, R126), then the lanes
(R153). -/
def upperBody (srcs : List Operand) (f : Env → State → List Nat → List (CtxId × Nat) → Except FaultInfo (List Out)) (e : Env) (s : State) :
    Res :=
  if !settledBelow s e.c then .stall s .result
  else match columns e s srcs with
    | .error b => b.res s
    | .ok (vals, t) => match f e (viewBelow t e.c) (vals.headD []) (lanesUnder t e.c) with
      | .error q => .trap t q
      | .ok outs => store e t .varies [((e.c, 0), outs)]

/-- How an upper cross-lane instruction issues: anchored (R153). -/
def upperHow : How := { anchored := true, varying := true }

/-- The source lane of `SHFL` (R155). -/
def shflSource (mode : ShflMode) (w l b : Nat) : Nat :=
  let base := l / w * w
  let r := l % w
  match mode with
  | .get => base + b % w
  | .rot => base + (r + w - b % w) % w
  | .rev => base + w - 1 - r
  | .spr => if b < 6 then base + r / 2 ^ b else base

/-- A participating lane's source in some column. -/
def laneVal (all : List (Nat × List Nat)) (i n : Nat) : Option Nat := (get? i all).map (fun v => v.getD n 0)

def execShfl (h : Head) (mode : ShflMode) (seg : BitVec 3) (d a : Reg) (b : Src) (c : Reg) (s : State) :
    Host.Outcome State Fault Refusal :=
  issue h { varying := true } (crossBody [.reg a 1, .src b] c (fun all x =>
    [(d, 1, (laneVal all (shflSource mode (32 / 2 ^ seg.toNat) x.1 (x.2.getD 1 0)) 0).getD (x.2.getD 0 0))])) s

/-- The negation of `PSWAP` (R156). -/
def pswapNeg (v : Nat) : Nat := if (value .f32 v).isNan then nanCode .f32 else v ^^^ 2 ^ 31

def execPswap (h : Head) (d a c : Reg) (s : State) : Host.Outcome State Fault Refusal :=
  issue h { varying := true } (crossBody [.reg a 1] c (fun all x =>
    [(d, 1, match laneVal all (x.1 ^^^ 1) 0 with
      | none => 0
      | some v => if x.1 % 2 = 1 then v else pswapNeg v)])) s

/-- The predicate result of `REDUCE` and `SCAN` under PO (R157, R158); it stays where D names the same predicate. DESIGN CHOICE, log 154, unsafe. -/
def poOut (pc : Option (BitVec 3)) (b : Bool) : List Out :=
  match pc with
  | some p => [(.p p, 1, b.toNat)]
  | none => []

def reduceVal (ty : NumTy) (op : RedOp) (l : List (Nat × Nat)) (levels : Nat) : Nat :=
  (treeNode (combine ty op) (leaves l) levels 0).getD (identity ty op)

/-- `REDUCE` (R157): over the issuing unit at L, over the group or role above. -/
def execReduce (h : Head) (ty : NumTy) (op : RedOp) (d a : Reg) (pc : Option (BitVec 3)) (s : State) :
    Host.Outcome State Fault Refusal :=
  if h.scope = .L then
    issue h { varying := true } (crossBody [.reg a 1] .zero (fun all _ =>
      (d, 1, reduceVal ty op (all.map (fun x => (x.1, x.2.getD 0 0))) 5) :: poOut pc true)) s
  else issue h upperHow (upperBody [] (fun e s _ ls => .ok (
    (d, 1, reduceVal ty op (ls.map (fun p => (numberAt e.x p, (readReg s .L p.1 p.2 a).toNat))) 10)
      :: poOut pc (!ls.isEmpty)))) s

def execScan (h : Head) (ty : NumTy) (op : RedOp) (excl : Bool) (d a : Reg) (pc : Option (BitVec 3)) (s : State) :
    Host.Outcome State Fault Refusal :=
  issue h { varying := true } (crossBody [.reg a 1] .zero (fun all x =>
    let node := prefixNode (combine ty op) (leaves (all.map (fun y => (y.1, y.2.getD 0 0)))) (x.1 + if excl then 0 else 1)
    (d, 1, node.getD (identity ty op)) :: poOut pc node.isSome)) s

/-- Whether two keys of `MATCH` match (R159). -/
def keysMatch (float : Bool) (x y : Nat) : Bool :=
  if float then floatCond .eq (value .f32 x) (value .f32 y) else x == y

def execMatchLanes (h : Head) (float : Bool) (d a c : Reg) (s : State) : Host.Outcome State Fault Refusal :=
  issue h { varying := true } (crossBody [.reg a 1] c (fun all x =>
    [(d, 1, maskOf ((all.filter (fun y => y.1 = x.1 ∨ keysMatch float (x.2.getD 0 0) (y.2.getD 0 0))).map (fun y => y.1)))])) s

/-- The lanes where a lane predicate is true, by number (R160, R161). -/
def trueLanes (s : State) (x : Scope) (ls : List (CtxId × Nat)) (a : BitVec 3) : List Nat :=
  (ls.filter (fun p => readPred s .L p.1 p.2 a)).map (numberAt x)

def execBallot (h : Head) (d : Reg) (a : BitVec 3) (c : Option Reg) (s : State) : Host.Outcome State Fault Refusal :=
  if h.scope = .L then
    issue h { varying := true } (crossBody [.reg (.p a) 1] (c.getD .zero) (fun all _ =>
      [(d, 1, maskOf ((all.filter (fun y => y.2.getD 0 0 ≠ 0)).map (fun y => y.1)))])) s
  else issue h upperHow (upperBody [] (fun e s _ ls => .ok [(d, 1, maskOf (trueLanes s e.x ls a))])) s

def execElect (h : Head) (d : Reg) (a : BitVec 3) (s : State) : Host.Outcome State Fault Refusal :=
  issue h upperHow (upperBody [] (fun e s _ ls => .ok [(d, 1, ((trueLanes s e.x ls a).min?).getD 0xFFFFFFFF)])) s

/-- The lane that a number names below a context, active or not (R161). -/
def namedLane (s : State) (x : Scope) (c : CtxId) (b : Nat) : Option (CtxId × Nat) :=
  ((slicesUnder s c).flatMap (fun u => (List.range 4).map (fun k => (u, k)))).find? (fun p => numberAt x p == b)

def execBcast (h : Head) (d a : Reg) (b : Src) (s : State) : Host.Outcome State Fault Refusal :=
  issue h upperHow (upperBody [.src b] (fun e s v _ =>
    match namedLane s e.x e.c (v.headD 0) with
    | some p => .ok [(d, 1, (readReg s .L p.1 p.2 a).toNat)]
    | none => .error { cause := .bounds })) s

def execFirstl (h : Head) (d : Reg) (a : BitVec 3) (c : Reg) (s : State) : Host.Outcome State Fault Refusal :=
  issue h { varying := true } (crossBody [.reg (.p a) 1] c (fun all _ =>
    [(d, 1, (((all.filter (fun y => y.2.getD 0 0 ≠ 0)).map (fun y => y.1)).min?).getD 32)])) s

end Sys2Proof.Machine
end

