-- ==== Sys2Proof/Machine/Control.lean ====
section
/-! DEFINITION. The control instructions (R91 to R109, R115 to R118, R123), but for `XISSUE`. -/

namespace Sys2Proof.Machine

/-- A branch target: PC + 1 + offset, modulo 2^32 (R37). -/
def target (pc off : Word) : Word := pc + 1 + off

/-! Votes (R92 to R94) -/

/-- The cell of a voted predicate in a unit of scope y. -/
def isVoted (y : Scope) (a : BitVec 3) (l : Loc) : Bool :=
  match y, l with
  | .L, .lp _ n => n == a.toNat
  | .L, _ => false
  | _, .p n => n == a.toNat
  | _, _ => false

/-- The contexts that hold the predicates of scope y below a context. -/
def holders (s : State) (c : CtxId) (y : Scope) : List CtxId :=
  match y with
  | .L | .S => match c with
    | .slice .. => [c]
    | _ => slicesUnder s c
  | .G => (below s c).filter (fun u => u.level = 2)
  | _ => (below s c).filter (fun u => u.level = 3)

/-- Whether the voted predicates are written (R93). Members of a fused group read them fresh (R163). DEDUCED, log 27, safe. -/
def voteReady (s : State) (c : CtxId) (y : Scope) (a : BitVec 3) : Bool :=
  (s.ctx c).fresh.contains (.p a) || (holders s c y).all (fun u =>
    (s.ctx u).fixed.all (fun e => e.due ≤ s.cycle || !isVoted y a e.loc)
      && (s.ctx u).vars.all (fun r => r.arrived || !r.writes.any (fun w => isVoted y a w.1)))

/-- A unit of a vote: its bit in the mask of R92 (by the executing scope x), and its predicate. DEDUCED, log 28, unsafe. -/
def unitBit (x : Scope) (u : CtxId) (k : Option Nat) : Nat :=
  match x, u with
  | .W, u => (u.team?.map (fun t => t.num)).getD 0
  | .T, .slice _ g i => match k with
    | some k => 32 * g + 4 * i + k
    | none => 8 * g + i
  | _, .slice _ _ i => match k with
    | some k => 4 * i + k
    | none => i
  | _, .group _ g => g
  | _, _ => 0

/-- The units of scope y within the context c of scope x, with their predicates (R92). -/
def voteUnits (s : State) (x : Scope) (c : CtxId) (y : Scope) (a : BitVec 3) : List (Nat × Bool) :=
  let slices := (match c with
    | .slice .. => [c]
    | _ => slicesUnder s c).filter (fun u => (s.ctx u).active)
  let view (u : CtxId) : Ctx := ((s.ctx u).settle s.cycle).flush
  match y with
  | .L => (activeLanes s slices).map (fun p => (unitBit x p.1 (some p.2), (view p.1).cell (.lp p.2 a.toNat) ≠ 0))
  | .S => slices.map (fun u => (unitBit x u none, (view u).cell (.p a.toNat) ≠ 0))
  | .G => (distinct (slices.map groupCtx)).map (fun u => (unitBit x u none, (view u).cell (.p a.toNat) ≠ 0))
  | _ => (distinct (slices.map (teamCtx s))).map (fun u => (unitBit x u none, (view u).cell (.p a.toNat) ≠ 0))

/-- `Vote` (R92): the agreed value, or NONUNIFORM with the mask of the units where p is true. -/
def vote (s : State) (x : Scope) (c : CtxId) (y : Scope) (a : BitVec 3) : Except FaultInfo Bool :=
  let us := voteUnits s x c y a
  if us.all (fun u => !u.2) then .ok false
  else if us.all (fun u => u.2) then .ok true
  else .error { cause := .nonuniform, mask := maskOf ((us.filter (fun u => u.2)).map (fun u => u.1)),
                wide := x = .T || x = .W }

/-- The verdict of `VOTE` (R94). -/
def verdict (k : VoteKind) (us : List Bool) : Bool :=
  let u := us.length
  let t := (us.filter (fun b => b)).length
  match k with
  | .every => t == u
  | .none => t == 0
  | .split => 0 < t && t < u
  | .maj => u < 2 * t

/-- The condition of a branch at a context (R95). -/
def condition (s : State) (x : Scope) (c : CtxId) (y : Scope) (neg : Bool) : Option (BitVec 3) → Except FaultInfo Bool
  | none => .ok true
  | some a =>
    if x = y then .ok (readPred s x c 0 a ^^ neg)
    else match vote s x c y a with
      | .ok b => .ok (b ^^ neg)
      | .error f => .error f

/-- Whether a branch votes a lower predicate: it is then anchored (R107). -/
def votes (x y : Scope) (a : Option (BitVec 3)) : Bool := a.isSome && x ≠ y

/-- Whether the predicates that a branch votes are written. -/
def branchReady (s : State) (e : Env) (y : Scope) : Option (BitVec 3) → Bool
  | none => true
  | some a => e.x = y || (match e.x with
    | .S => e.unit.all (fun u => voteReady s u y a)
    | _ => voteReady s e.c y a)

/-! Slice by slice (R97) -/

/-- The lowest-numbered slice of a unit that has an active lane. DEDUCED, log 29, unsafe. -/
def leadSlice (s : State) (unit : List CtxId) : Option CtxId := unit.find? (fun u => (s.ctx u).active)
/-- The slice whose decision a slice takes: its own, or the lead's where it has no active lane. -/
def decider (s : State) (unit : List CtxId) (u : CtxId) : CtxId :=
  if (s.ctx u).active then u else (leadSlice s unit).getD u
/-- Whether a slice takes part: the guard of its decider (R97). -/
def takesPart (s : State) (e : Env) (u : CtxId) : Bool := guardOn s .S (decider s e.unit u) 0 e.h.guard

/-- The slices moved to their next PCs; the group parts when they differ (R97). -/
def spread (s : State) (c : CtxId) (next : List (CtxId × Word)) : State :=
  let s := next.foldl (fun s n => s.modCtx n.1 (fun x => { x with pc := n.2 })) s
  match c with
  | .slice t g _ =>
    if (distinct (next.map (fun n => n.2))).length ≤ 1 then s
    else s.modCtx (.group t g) (fun x => { x with parted := true })
  | _ => s

/-- A branch at S scope: each slice's decision, all decided before any moves. Of several votes that are not uniform the first slice's is
reported (R97). DESIGN CHOICE, log 150, unsafe. -/
def branchSlices (e : Env) (s : State) (dest : CtxId → Word) (cond : CtxId → Except FaultInfo Bool) : Res :=
  let pc := (s.ctx e.c).pc
  let own := e.unit.map (fun u =>
    let v := decider s e.unit u
    (u, if guardOn s .S v 0 e.h.guard then (cond v).map (fun b => if b then dest v else pc + 1) else .ok (pc + 1)))
  match own.findSome? (fun n => match n.2 with
    | .error f => some f
    | .ok _ => none) with
  | some f => .trap s f
  | none => .jump (spread s e.c (own.map (fun n => (n.1, match n.2 with
      | .ok p => p
      | .error _ => pc))))

/-- A branch at G, T or W scope (R95). -/
def branchUpper (e : Env) (s : State) (dest : Word) (c : Except FaultInfo Bool) : Res :=
  match c with
  | .error f => .trap s f
  | .ok b => .jump (s.modCtx e.c (fun x => { x with pc := if b then dest else x.pc + 1 }))

/-- The lanes of a list that belong to a slice, as a mask of four. -/
def lanesOf (u : CtxId) (ls : List (CtxId × Nat)) : BitVec 4 :=
  BitVec.ofNat 4 (maskOf ((ls.filter (fun p => p.1 = u)).map (fun p => p.2)))

/-- A divergence in one slice (R98): the taken lanes wait at the target. -/
def Ctx.diverge (x : Ctx) (dest : Word) (taken : BitVec 4) : Ctx :=
  match x.rstk with
  | [] => x
  | e :: r => { x with
      rstk := { e with pend := taken, pc := dest } :: r
      lanes := ((List.range 4).zip x.lanes).map (fun (k, l) => { l with path := l.path && !taken.getLsbD k }) }

/-- What bars a divergence in a slice (R98): an empty stack, or an entry in use. -/
def entryFault (x : Ctx) : Option FaultInfo :=
  match x.rstk with
  | [] => some { cause := .rcvovf, sub := 1 }
  | e :: _ => if e.pend ≠ 0 ∨ e.phase = true then some { cause := .rcvovf, sub := 2 } else none
/-- `BranchL` (R98): the lanes in t branch, the others fall through. -/
def branchLanes (e : Env) (s : State) (dest : Word) (t : List (CtxId × Nat)) : Res :=
  if t.isEmpty then .next s
  else if t.length = e.parts.length then .jump (s.modCtxs e.unit (fun x => { x with pc := dest }))
  else match e.unit.findSome? (fun u => entryFault (s.ctx u)) with
  | some f => .trap s f
  | none => .next (e.unit.foldl (fun s u => s.modCtx u (fun x => x.diverge dest (lanesOf u t))) s)

/-- The branches of R95, R97 and R98 with a target that may be a register's value. -/
def branchBody (y : Scope) (neg : Bool) (a : Option (BitVec 3)) (dest : State → CtxId → Word) (e : Env) (s : State) : Res :=
  match e.x with
  | .L => branchLanes e s (dest s e.c) (e.parts.filter (fun p => match a with
      | none => true
      | some a => readPred s .L p.1 p.2 a ^^ neg))
  | .S =>
    if !branchReady s e y a then .stall s .result
    else branchSlices e s (dest s) (fun u => condition s .S u y neg a)
  | x =>
    if !branchReady s e y a then .stall s .result
    else branchUpper e s (dest s e.c) (condition s x e.c y neg a)

/-- `b` is the register of a target: a queue register anchors the branch (R107). -/
def branchHow (x y : Scope) (a : Option (BitVec 3)) (b : Reg) : How :=
  { anchored := 2 ≤ x.level && (votes x y a || Reg.isQueue b), raw := x = .S }

/-- The slices or the context that read the target register of a branch or call: at S scope those that decide for one whose guard holds
(R97), elsewhere the participants. -/
def targetEnv (e : Env) (s : State) : Env :=
  if e.x = .S then { e with parts := (distinct ((e.unit.filter (takesPart s e)).map (decider s e.unit))).map (fun u => (u, 0)) } else e
/-- The target that a unit has read. -/
def targetOf (parts : List (CtxId × Nat)) (vals : List (List Nat)) (c : CtxId) : Word :=
  BitVec.ofNat 32 ((((parts.zip vals).find? (fun p => p.1.1 = c)).map (fun p => p.2.headD 0)).getD 0)
/-- A target in a register, read as any source is (R18, R21, R95, R97): the body goes on with the target of each unit. -/
def withTarget (b : Reg) (body : (State → CtxId → Word) → Env → State → Res) (e : Env) (s : State) : Res :=
  let r := targetEnv e s
  match columns r s [.reg b 1] with
  | .error q => q.res s
  | .ok (vals, t) => body (fun _ => targetOf r.parts vals) e t
def relTarget (off : Word) (s : State) (c : CtxId) : Word := target (s.ctx c).pc off

def execNop (h : Head) (s : State) : Host.Outcome State Fault Refusal := issue h {
  } (fun _ s => .next s) s
def execBra (h : Head) (off : Word) (s : State) : Host.Outcome State Fault Refusal :=
  issue h (branchHow h.scope h.scope none .zero) (branchBody h.scope false none (relTarget off)) s
def execBr (h : Head) (cs : Scope) (neg : Bool) (a : Option (BitVec 3)) (off : Word) (s : State) :
    Host.Outcome State Fault Refusal :=
  issue h (branchHow h.scope cs a .zero) (branchBody cs neg a (relTarget off)) s
def execBrx (h : Head) (cs : Scope) (neg : Bool) (a : Option (BitVec 3)) (b : Reg) (s : State) :
    Host.Outcome State Fault Refusal :=
  issue h (branchHow h.scope cs a b) (withTarget b (branchBody cs neg a)) s

/-! Calls, returns and loops (R103, R104) -/

/-- The depth of a call stack (R16). -/
def callDepth : CtxId → Nat
  | .slice .. => 8
  | .group .. => 16
  | .team .. => 32
  | .grid .. | .firmware _ => 8

def callOverflow : FaultInfo := { cause := .calldepth }
def callUnderflow : FaultInfo := { cause := .calldepth, sub := 1 }

/-- `CALL` and `CALLX` (R104): PC + 1 pushed, PC to the target; slice by slice at S (R97). -/
def callBody (dest : State → CtxId → Word) (e : Env) (s : State) : Res :=
  let pc := (s.ctx e.c).pc
  let push (x : Ctx) : Ctx := { x with calls := (pc + 1) :: x.calls }
  let full (u : CtxId) : Bool := callDepth u ≤ (s.ctx u).calls.length
  if e.x = .S then
    let on := e.unit.filter (takesPart s e)
    if on.any full then .trap s callOverflow
    else .jump (spread (s.modCtxs on push) e.c (e.unit.map (fun u =>
      (u, if takesPart s e u then dest s (decider s e.unit u) else pc + 1))))
  else if full e.c then .trap s callOverflow
  else .jump (s.modCtx e.c (fun x => { push x with pc := dest s e.c }))

/-- `RET` (R104): the top entry popped into PC; a slice without an active lane goes where its lead goes (R97). -/
def retBody (e : Env) (s : State) : Res :=
  let pc := (s.ctx e.c).pc
  let pop (x : Ctx) : Ctx := { x with calls := x.calls.tail }
  let top (u : CtxId) : Word := (s.ctx u).calls.headD (pc + 1)
  if e.x = .S then
    let on := e.unit.filter (takesPart s e)
    if on.any (fun u => (s.ctx u).calls.isEmpty) then .trap s callUnderflow
    else .jump (spread (s.modCtxs on pop) e.c (e.unit.map (fun u =>
      (u, if takesPart s e u then top (decider s e.unit u) else pc + 1))))
  else if (s.ctx e.c).calls.isEmpty then .trap s callUnderflow
  else .jump (s.modCtx e.c (fun x => { pop x with pc := top e.c }))

def execCall (h : Head) (off : Word) (s : State) : Host.Outcome State Fault Refusal :=
  issue h { raw := h.scope = .S } (callBody (relTarget off)) s
def execCallx (h : Head) (b : Reg) (s : State) : Host.Outcome State Fault Refusal :=
  issue h { raw := h.scope = .S, anchored := 2 ≤ h.scope.level && Reg.isQueue b } (withTarget b callBody) s
def execRet (h : Head) (s : State) : Host.Outcome State Fault Refusal := issue h { raw := h.scope = .S } retBody s
def execLcnt (h : Head) (d : BitVec 2) (src : Src) (s : State) : Host.Outcome State Fault Refusal :=
  issue h { anchored := namesQueue [] [.src src] } (pureBody .now [.src src] (fun v => [(.lc d, 1, v.headD 0)])) s

/-- Where a loop counter sends its unit (R103). -/
def loopNext (pc dest lc : Word) : Word := if lc.toNat ≤ 1 then pc + 1 else dest

/-- `LOOP` (R103): a counter that is not zero is decremented; the loop goes on unless it reaches or was zero. -/
def loopBody (d : BitVec 2) (off : Word) (e : Env) (s : State) : Res :=
  let pc := (s.ctx e.c).pc
  let count (u : CtxId) : Word := readReg s e.x u 0 (.lc d)
  let on := if e.x = .S then e.unit.filter (takesPart s e) else [e.c]
  let ws := (on.filter (fun u => count u ≠ 0)).map (fun u => (u, Loc.lc d.toNat, count u - 1))
  match emitNow s ws with
  | .next t =>
    if e.x = .S then .jump (spread t e.c (e.unit.map (fun u =>
      (u, if takesPart s e u then loopNext pc (target pc off) (count (decider s e.unit u)) else pc + 1))))
    else .jump (t.modCtx e.c (fun x => { x with pc := loopNext pc (target pc off) (count e.c) }))
  | r => r

def execLoop (h : Head) (d : BitVec 2) (off : Word) (s : State) : Host.Outcome State Fault Refusal :=
  issue h { raw := h.scope = .S } (loopBody d off) s

/-! Divergence and parting (R98, R101) -/

/-- `RCV` (R98): an entry on the stack of every live slice of the unit. -/
def rcvBody (off : Word) (e : Env) (s : State) : Res :=
  if e.unit.any (fun u => 16 ≤ (s.ctx u).rstk.length) then .trap s { cause := .rcvovf }
  else .next (s.modCtxs e.unit (fun x => { x with rstk := ⟨target x.pc off, 0, false⟩ :: x.rstk }))
def execRcv (h : Head) (off : Word) (s : State) : Host.Outcome State Fault Refusal := issue h {
  } (rcvBody off) s

/-- `REGANG` (R101): in a parted group the slice waits; the last one to come closes the wait of all, and it has issued in each of them,
with its windows, GAP and YLD (R50, R52, R91). -/
def regangBody (e : Env) (s : State) : Res :=
  match e.c with
  | .slice t g _ =>
    if !isParted s t g then .next s
    else
      let live := liveSlices s t g
      let waits (u : CtxId) : Bool := u = e.c || (s.ctx u).wait = some .regang
      if !live.all waits then .stall s .regang
      else
        let pcs := live.map (fun u => (s.ctx u).pc)
        let depths := live.map (fun u => (s.ctx u).rstk.length)
        if (distinct pcs).length ≤ 1 ∧ (distinct depths).length ≤ 1 then
          let s := s.modCtx (.group t g) (fun x => { x with parted := false })
          .done (retire s { e with unit := live } (varIds s live) true)
        else
          let low := (pcs.map BitVec.toNat).min?.getD 0
          let at_ := live.filter (fun u => (s.ctx u).pc.toNat = low)
          if at_.contains e.c then
            .trap s { cause := .nonuniform, mask := maskOf (at_.map sliceNo) }
          else .stall s .regang
  | _ => .next s
def execRegang (h : Head) (s : State) : Host.Outcome State Fault Refusal := issue h {
  } regangBody s

/-! EXIT (R100, R105) -/

/-- A running path whose last active lane has exited ends: the waiting lanes of the top entry run, from the entry's PC
(R100). The fuel is the depth of the stacks. The PC field of an entry that holds no join reads 0. DESIGN CHOICE, log 121, unsafe. -/
def endPath (unit : List CtxId) : Nat → State → State
  | 0, s => s
  | n + 1, s =>
    if unit.any (fun u => (s.ctx u).active) || unit.all (fun u => (s.ctx u).rstk.isEmpty) then s
    else
      let waiting := unit.any (fun u => ((s.ctx u).rstk.head?.map (fun e => e.pend != 0)).getD false)
      let phase1 := unit.any (fun u => ((s.ctx u).rstk.head?.map (fun e => e.phase)).getD false)
      if waiting && !phase1 then
        s.modCtxs unit (fun x => x.switch 0)
      else
        endPath unit n (s.modCtxs unit (fun x => match x.rstk with
          | [] => x
          | e :: _ => { x.merge with pc := if waiting then e.pc else x.pc, joined := waiting }))

/-- Lanes that wait at `BAR`, one entry of the wait for each, are taken out of ARRIVED when `EXIT.G` or `EXIT.T` removes
them (R190). -/
def unarrive (s : State) (t : TeamId) (u : CtxId) : State :=
  match (s.ctx u).wait with
  | some (.barrier objs true) => objs.foldl (fun s o =>
      let b := getBar s t o.1.toNat
      if b.gen = o.2.toNat then setBar s t o.1.toNat { b with arrived := b.arrived - 1 } else s) s
  | _ => s

/-- The objects on which the lanes of a team wait. -/
def waitedObjects (s : State) (t : TeamId) : List Nat :=
  distinct ((s.ctxs.filter (fun e => e.1.team? = some t)).flatMap (fun e => match e.2.wait with
    | some (.barrier objs _) => objs.map (fun o => o.1.toNat)
    | _ => []))
/-- Every object on which a lane of the team waits advances again (R190). -/
def advanceAll (s : State) (t : TeamId) : State := (waitedObjects s t).foldl (fun s a => advanceBar s t a) s

/-- Whether the open phase of a package barrier has its arrivals: contexts that ended without arriving are deducted (R201). -/
def PBar.full (b : PBar) : Bool :=
  !b.releasing && !b.arrived.isEmpty && b.expect ≤ b.arrived.length + (b.ended.filter (fun e => !b.arrived.contains e)).length
def modPbar (s : State) (id : Nat) (f : PBar → PBar) : State :=
  { s with pbars := s.pbars.map (fun e => if e.1 = id then (e.1, f e.2) else e) }
/-- A phase that has its arrivals closes: its release falls due 120 cycles later (R319). -/
def closePbar (s : State) (id : Nat) : State :=
  match get? id s.pbars with
  | some b => if PBar.full b then modPbar s id (fun b => { b with releasing := true, due := s.treeCycle + Config.barrierRelease }) else s
  | none => s
/-- A team context whose role has ended is deducted from every barrier of its launch (R201). -/
def pbarEnd (s : State) (t : TeamId) (r : Nat) : State :=
  (s.pbars.filter (fun e => e.2.launch == t.launch)).foldl (fun s e =>
    closePbar (modPbar s e.1 (fun b => { b with ended := b.ended ++ [(t, r)] })) e.1) s

/-- A role whose last lane has exited has ended; its sequencer contexts hold no tickets (R105). DEDUCED, log 68, unsafe. -/
def endRole (s : State) (t : TeamId) (r : Nat) : State :=
  if (groupsOf s t r).any (fun g => !(liveSlices s t g).isEmpty) then s
  else
    let s := s.modTeam t (fun x => { x with roles := x.roles.modify r (fun q => { q with ended := true }) })
    pbarEnd (s.modCtxs (.team t r :: (groupsOf s t r).map (fun g => CtxId.group t g))
      (fun x => { x with tickets := [], segs := [], busy := false, wait := none })) t r

/-- Lanes of a team exit (R7, R105): the live bits, the count of exited lanes, the paths that end, the role. -/
def exitLanes (s : State) (t : TeamId) (r : Nat) (ls : List (CtxId × Nat)) : State :=
  let live := ls.filter (fun p => (((s.ctx p.1).lanes[p.2]?).map (fun (l : Lane) => l.live)).getD false)
  let us := distinct (live.map (fun p => p.1))
  let s := live.foldl (fun s p => s.modCtx p.1 (fun x => x.modLane p.2 (fun l => { l with live := false }))) s
  let s := s.modTeam t (fun x => { x with exited := x.exited + live.length })
  let s := s.modCtxs us Ctx.bury
  let s := endRole s t r
  advanceAll s t

/-- The lanes of some slices. -/
def allLanes (us : List CtxId) : List (CtxId × Nat) := us.flatMap (fun u => (List.range 4).map (fun k => (u, k)))

/-- `EXIT` (R105). -/
def exitBody (e : Env) (s : State) : Res :=
  let t := e.team
  let r := roleOf s e.c
  galleyBar s t ((waitedObjects s t).flatMap (objectBytes s t)) (match e.x with
  | .L =>
    .done (endPath e.unit 17 (retire (exitLanes s t r e.parts) e (varIds s e.unit) true))
  | .S =>
    .done (endPath e.unit 17 (retire (exitLanes s t r (allLanes (e.parts.map (fun p => p.1)))) e (varIds s e.unit) true))
  | _ =>
    let us := slicesUnder s e.c
    let s := (below s e.c).foldl (fun s u => unarrive s t u) s
    .next (exitLanes s t r (allLanes us)))

def execExit (h : Head) (s : State) : Host.Outcome State Fault Refusal := issue h { anchored := true } exitBody s

/-! VOTE (R94) -/

/-- `VOTE`: the verdict of the units, readable by the next instruction. -/
def voteBody (y : Scope) (neg : Bool) (k : VoteKind) (d a : BitVec 3) (e : Env) (s : State) : Res :=
  if !branchReady s e y (some a) then .stall s .result
  else
    let result (u : CtxId) : Bool :=
      if e.x = y then verdict k [readPred s e.x u 0 a ^^ neg]
      else verdict k ((voteUnits s e.x u y a).map (fun b => b.2 ^^ neg))
    store e s .now (e.parts.map (fun p => (p, [(.p d, 1, (result p.1).toNat)])))
def execVote (h : Head) (cs : Scope) (neg : Bool) (kind : VoteKind) (d a : BitVec 3) (s : State) :
    Host.Outcome State Fault Refusal :=
  issue h { anchored := 2 ≤ h.scope.level && h.scope ≠ cs } (voteBody cs neg kind d a) s

/-! Traps and waiting (R115 to R118) -/

/-- `TRAP` (R115). -/
def execTrap (h : Head) (code : Word) (s : State) : Host.Outcome State Fault Refusal :=
  issue h { anchored := true } (fun e s => .trap s {
    cause := .trap
    addr := code
    mask := if e.x = .L then maskOf (e.parts.map (fun p => laneNum p.1 p.2)) else 0 }) s

/-- Whether a debug agent is attached to the context of a unit (R116). -/
def debugged (s : State) (c : CtxId) : Bool :=
  let n : Option Nat := match c with
    | .grid n _ => (s.launch? n).map (fun (l : Launch) => l.ctx)
    | c => (c.team?.bind s.team?).map (fun (t : Team) => t.ctx)
  ((n.bind s.context?).map (fun (x : Context) => x.debug)).getD false

/-- `BKPT` (R116): a stop for the debug agent, or no effect without one. -/
def execBkpt (h : Head) (s : State) : Host.Outcome State Fault Refusal :=
  issue h { anchored := true } (fun e s => if debugged s e.c then .trap s { cause := .bkpt } else .next s) s

/-- The paths of a role that its lanes have left in the handler end (R7, R100). -/
def endPaths (s : State) (t : TeamId) (r : Nat) : State :=
  (groupsOf s t r).foldl (fun s g =>
    if isParted s t g then (liveSlices s t g).foldl (fun s u => endPath [u] 17 s) s else endPath (liveSlices s t g) 17 s) s
/-- `TRET` (R117, R256): outside the handler it raises ILLOP. -/
def tretBody (e : Env) (s : State) : Res :=
  let r := roleOf s e.c
  if inHandler s e.c then .done (endPaths (returnFrom s e.team r) e.team r) else .trap s { cause := .illop }
def execTret (h : Head) (s : State) : Host.Outcome State Fault Refusal := issue h { anchored := true } tretBody s

/-- `NAP` (R118): the unit waits until the tick n from now, or until something ends the nap; with n = 0 it acts as a yield (R52). -/
def napBody (n : Src) (e : Env) (s : State) : Res :=
  match (s.ctx e.c).wait with
  | some (.nap u) => if u = 0 then .next s else .stall s (.nap u)
  | _ => match columns e s [.src n] with
    | .error b => b.res s
    | .ok (vals, t) =>
      let k := (vals.headD []).headD 0
      if k = 0 then .done ((retire t e (varIds t e.unit) true).modCtxs e.unit (fun x => { x with yld := e.x.level = 1 }))
      else holdWith t e (.nap (t.tick + k))
def execNap (h : Head) (n : Src) (s : State) : Host.Outcome State Fault Refusal := issue h { anchored := true } (napBody n) s

end Sys2Proof.Machine
end

