-- ==== Sys2Proof/Machine/Matrix.lean ====
section
/-! DEFINITION. Matrix instructions: the forme and its records (R202 to R210), the matrix queue (R211), products (R212 to R217,
R228 to R230, over R74 to R76, R79, R84 to R86), accumulator tiles (R218 to R224), and the steps that befall the matrix
engine of a core. -/

namespace Sys2Proof.Machine

/-! Stores with unspecified cells -/

/-- A cell of a store whose blocks hold g cells. -/
def Blob.read (b : Blob) (g a : Nat) : Word :=
  match get? a b.cells with
  | some w => w
  | none => match get? (a / g) b.fills with
    | some n => Config.freeCell n a
    | none => 0
/-- Cells written. -/
def Blob.writes (b : Blob) (l : List (Nat × Word)) : Blob := { b with cells := l.foldl (fun c e => put e.1 e.2 c) b.cells }
/-- Blocks whose contents become unspecified. -/
def Blob.spoil (b : Blob) (g n : Nat) (blocks : List Nat) : Blob where
  cells := b.cells.filter (fun e => !blocks.contains (e.1 / g))
  fills := blocks.foldl (fun f k => put k n f) b.fills

/-- The elements of a tile. -/
def tileSize : Nat := 4096
def Tile.at_ (t : Tile) (i j : Nat) : Nat := (t.elems.read tileSize (64 * i + j)).toNat
/-- A tile that holds some elements, +0 elsewhere. -/
def Tile.hold (t : Tile) (l : List (Nat × Word)) (vm vn : Nat) : Tile :=
  { t with elems := ⟨l.filter (fun e => e.2 ≠ 0), []⟩, vm := vm, vn := vn }

def modTile (s : State) (core k : Nat) (f : Tile → Tile) : State :=
  s.modCore core (fun c => { c with tiles := c.tiles.modify k f })
def tileOf (s : State) (core k : Nat) : Option Tile := (s.core? core).bind (fun c => c.tiles[k]?)
def modRec (s : State) (core k : Nat) (f : Rec → Rec) : State :=
  s.modCore core (fun c => { c with recs := c.recs.modify k f })

/-- The core of a team. -/
def coreOf (s : State) (t : TeamId) : Nat := ((s.team? t).map (fun x => x.core)).getD 0
def epochOf (s : State) (t : TeamId) : Nat := ((s.team? t).map (fun x => x.epoch)).getD 0

/-- Whether a tile is owned by a team (R218). -/
def Tile.ownedBy (k : Tile) (t : TeamId) : Bool := k.owner == some t && k.freed.isNone
/-- Whether a tile is free to a team: the team's own freed ones are (R227). -/
def Tile.freeTo (k : Tile) (t : TeamId) : Bool := k.owner.isNone || (k.owner == some t && k.freed.isSome)
/-- A record that describes a range of a team (R204). -/
def Rec.ownedBy (r : Rec) (t : TeamId) : Bool := r.valid && r.owner == some t
def Rec.freeTo (r : Rec) (t : TeamId) : Bool := !r.valid && (r.freed.isNone || r.owner == some t)

/-! Records (R204 to R208) -/

/-- Bits of an element. -/
def Rec.bits (r : Rec) : Nat := (layout r.fmt).width
/-- K of a dense product of a width class (R84). -/
def denseK (bits : Nat) : Nat := if bits = 16 then 64 else if bits = 8 then 128 else 256
def blockLen' : BlkLen → Nat
  | .none => 0
  | .k16 => 16
  | .k32 => 32
  | .k64 => 64
/-- Of how many logical positions one is stored. -/
def Sparsity.step : Sparsity → Nat
  | .dense => 1
  | .sp4 => 2
  | .sp2 => 4
/-- Bytes of one row: elements, masks, scales (R208). A row of scales of half a byte takes a whole one. -/
def Rec.rowBytes (r : Rec) (k : Nat) : Nat := k / Sparsity.step r.spars * r.bits / 8
def Rec.metaBytes (_ : Rec) (k : Nat) : Nat := k / 8
/-- DEDUCED, log 131, unsafe. -/
def Rec.scaleBytes (r : Rec) (k : Nat) : Nat :=
  let n := if r.blk = .none then 0 else k / blockLen' r.blk
  match r.scl with
  | .none => 0
  | .e8m0 => n
  | .ds4 => (n + 1) / 2
/-- The logical K of a range's own rows: a sparse one's is twice the dense one (R84, R208). -/
def Rec.logicalK (r : Rec) : Nat := if r.spars = .dense then denseK r.bits else 2 * denseK r.bits
/-- Whether a range holds an operand of some rows (R208). -/
def Rec.fits (r : Rec) (rows k : Nat) : Bool :=
  let size := 1024 * r.size
  let el := rows * r.rowBytes k
  el ≤ size
    && (r.spars = .dense || (el ≤ r.moff && r.moff + rows * r.metaBytes k ≤ size))
    && (r.scl = .none || (el ≤ r.soff && r.soff + rows * r.scaleBytes k ≤ size))
/-- The granules of a range. -/
def Rec.granules (r : Rec) : List Nat := (List.range r.size).map (fun i => r.start + i)

/-- A byte of the forme. -/
def formeByte (s : State) (core a : Nat) : Nat := ((s.core? core).map (fun c => (c.forme.read 1024 a).toNat % 256)).getD 0

/-- `OBRES` (R207). -/
def obresBody (f : Fmt) (sp : Sparsity) (blk : BlkLen) (scl : ScaleKind) (d a b : Reg) (base : Option Reg) (e : Env) (s : State) :
    Res :=
  engineSrcs e s [.reg a 1, .reg b 1] (fun v s =>
    let size := v.getD 0 0
    let lay := v.getD 1 0
    let so := lay % 2 ^ 15 * 16
    let mo := lay / 2 ^ 16 % 2 ^ 15 * 16
    if size % 1024 ≠ 0 || size = 0 || 262144 < size || bit lay 31 || bit lay 15
        || (scl = .none && so ≠ 0) || (scl ≠ .none && (so = 0 || size ≤ so))
        || (sp = .dense && mo ≠ 0) || (sp ≠ .dense && (mo = 0 || size ≤ mo))
        || (scl ≠ .none && sp ≠ .dense && so ≤ mo) then .trap s (boundsFault 0)
    else
      let n := size / 1024
      let core := coreOf s e.team
      match s.core? core with
      | none => .next s
      | some c =>
        let used := c.recs.flatMap (fun r => if r.valid then r.granules else [])
          ++ (c.granHold.filter (fun g => g.2.1 ≠ e.team)).map (fun g => g.1)
        let run := (List.range (257 - n)).find? (fun st => (List.range n).all (fun i => !used.contains (st + i)))
        match c.recs.findIdx? (fun r => r.freeTo e.team), run with
        | some k, some st =>
          let (fill, s) := s.fresh
          let r : Rec := ⟨true, mo, so, (base.map Reg.spec).getD 0, scl, blk, sp, f, n, st, some e.team, none⟩
          let s := s.modCore core (fun c => { c with
            recs := c.recs.set k r
            forme := c.forme.spoil 1024 fill r.granules })
          store e s .fixed [((e.c, 0), [(d, 1, k)])]
        | _, _ => store e s .fixed [((e.c, 0), [(d, 1, 0xFFFFFFFF)])])

def execObres (h : Head) (f : Fmt) (sp : Sparsity) (blk : BlkLen) (scl : ScaleKind) (d a b : Reg) (base : Option Reg) (s : State) :
    Host.Outcome State Fault Refusal := issue h engineHow (obresBody f sp blk scl d a b base) s

/-- The record that a range id names (R204). -/
def rangeOf (s : State) (t : TeamId) (v : Nat) : Option Rec :=
  if 64 ≤ v then none
  else match (s.core? (coreOf s t)).bind (fun c => c.recs[v]?) with
    | some r => if r.ownedBy t then some r else none
    | none => none
/-- The tile that a register names, if the team owns it (R218). -/
def ownedTile (s : State) (t : TeamId) (v : Nat) : Option Tile :=
  if 32 ≤ v then none
  else match tileOf s (coreOf s t) v with
    | some k => if k.ownedBy t then some k else none
    | none => none

/-- The operations in the matrix queue of a core. -/
def queued (s : State) (core : Nat) : List Op := ((s.core? core).map (fun c => c.mq.filterMap s.op?)).getD []

/-- The tiles that an operation reads or writes: core and number. -/
def opTiles (s : State) (o : Op) : List (Nat × Nat) :=
  match o.kind with
  | .product t _ _ _ _ _ pair .. => (o.core, t) :: (if pair then [(followerOf s o.core, t)] else [])
  | .zero t | .load t .. | .store t .. | .put t _ => [(o.core, t)]
  | _ => []
where
  /-- The follower core of a leader (R31). -/
  followerOf (_ : State) (core : Nat) : Nat := (pairCores (pairOf core)).2
/-- The ranges that an operation reads, and the one it fills. -/
def opReads (o : Op) : List Nat :=
  match o.kind with
  | .product _ a b _ _ _ _ _ _ _ rows => if rows.isSome then [b] else [a, b]
  | _ => []
def opFills (o : Op) : List Nat :=
  match o.kind with
  | .formeLoad r _ _ => [r]
  | _ => []

/-- The accepted operations that may touch the tiles of a core: its own, and those of its pair. -/
def queuedPair (s : State) (core : Nat) : List Op :=
  let p := pairCores (pairOf core)
  queued s p.1 ++ queued s p.2

/-- Whether some operation on a tile has not retired (R211, R220). -/
def tileBusy (s : State) (core k : Nat) : Bool := (queuedPair s core).any (fun o => (opTiles s o).contains (core, k))
/-- Whether an operation waits for earlier ones: on its tiles, of its ranges, products of its unit (R211, R229). -/
def blocked (s : State) (o : Op) : Bool :=
  (queuedPair s o.core).any (fun p => p.id < o.id &&
    ((opTiles s p).any (fun t => (opTiles s o).contains t)
      || (p.core == o.core && (opFills p).any (fun r => (opReads o).contains r || (opFills o).contains r))
      || (p.issuer == o.issuer && isProduct p && isProduct o && !p.begun)))
where
  isProduct (o : Op) : Bool := match o.kind with
    | .product .. => true
    | _ => false

/-! The arithmetic of a product -/

/-- The codes of one row of an operand, in the order they are stored: byte reader, first byte, count. -/
def rowCodes (f : Fmt) (rd : Nat → Nat) (start n : Nat) : List Nat :=
  let w := (layout f).width
  (List.range n).map (fun x =>
    if w = 16 then rd (start + 2 * x) + 256 * rd (start + 2 * x + 1)
    else if w = 8 then rd (start + x)
    else rd (start + x / 2) / 16 ^ (x % 2) % 16)

/-- The scale of a block of a row (R74, R75). -/
def scaleAt (p : PArea) (rd : Nat → Nat) (start blk : Nat) : Val :=
  match p.scl with
  | .none => .fin false 1 0
  | .e8m0 => e8m0 (rd (start + blk))
  | .ds4 => ds4 p.base (rd (start + blk / 2) / 16 ^ (blk % 2) % 16)

/-- The logical positions of the stored values of a row: all, or those of the masks (R79). -/
def positions (k : Nat) (masks : Option (List Nat)) : List Nat :=
  match masks with
  | none => List.range k
  | some ms => ((List.range ms.length).zip ms).flatMap (fun (g, m) => ((List.range 8).filter (fun i => bit m i)).map (fun i => 8 * g + i))

/-- The values of a row at their positions, scaled (R75). -/
def rowValues (p : PArea) (codes : List Nat) (pos : List Nat) (rd : Nat → Nat) (scales : Nat) : List (Nat × Val) :=
  (pos.zip codes).map (fun (q, c) =>
    (q, (value p.fmt c).mul (if p.scl = .none then .fin false 1 0 else scaleAt p rd scales (q / p.block))))

/-- One chunk: the products at positions of A within it, summed exactly (R84 to R86). B is dense. -/
def chunk (a : List (Nat × Val)) (b : List Val) (lo len : Nat) : Val :=
  chunkSum ((a.filter (fun x => lo ≤ x.1 && x.1 < lo + len)).map (fun x => x.2.mul (b.getD x.1 .nan)))
/-- One accumulator element (R85): four chunks, one rounding each. -/
def element4 (acc : Nat) (a : List (Nat × Val)) (b : List Val) (k : Nat) : Nat :=
  (List.range 4).foldl (fun acc c => accumulate acc (chunk a b (c * (k / 4)) (k / 4))) acc

/-- The bits that change from each stored element of a row to the next (R228). -/
def toggles : List Nat → Nat
  | a :: b :: r => ((List.range 16).filter (fun i => bit (a ^^^ b) i)).length + toggles (b :: r)
  | _ => 0

/-- Row i of A: its codes, and the bytes and place of its scales. -/
def rowA (s : State) (o : Op) (p : PArea) (k : Nat) (masks : Option (List (List Nat))) (rows : Option (List (List Byte))) (i : Nat) :
    List Nat × List (Nat × Val) :=
  let pos := positions k (masks.map (fun m => m.getD i []))
  match rows with
  | some rs =>
    let bs := rs.getD i []
    let rd (a : Nat) : Nat := ((bs.getD a 0).toNat)
    let codes := rowCodes p.fmt rd 0 pos.length
    (codes, rowValues p codes pos rd p.rowBytes)
  | none =>
    let rd := formeByte s o.core
    let codes := rowCodes p.fmt rd (p.start + i * p.rowBytes) pos.length
    (codes, rowValues p codes pos rd (p.soff + i * p.scaleBytes))
/-- Column j of B. -/
def colB (s : State) (o : Op) (p : PArea) (k j : Nat) : List Nat × List Val :=
  let rd := formeByte s o.core
  let codes := rowCodes p.fmt rd (p.start + j * p.rowBytes) k
  (codes, (rowValues p codes (List.range k) rd (p.soff + j * p.scaleBytes)).map (fun x => x.2))

/-- The elements that a product leaves in one core's tile: rows lo to hi − 1 of A. -/
def productTile (old : Tile) (as : List (List (Nat × Val))) (bs : List (List Val)) (k : Nat) : List (Nat × Word) :=
  ((List.range as.length).zip as).flatMap (fun (i, a) => ((List.range bs.length).zip bs).map (fun (j, b) =>
    (64 * i + j, BitVec.ofNat 32 (element4 (old.at_ i j) a b k))))

/-- The charges of a product: for its own core, and for the follower's (R228). -/
def charges (s : State) (o : Op) : Nat × Nat :=
  match o.kind with
  | .product _ _ _ m n k _ pa pb masks rows =>
    let a := (List.range m).map (fun i => toggles (rowA s o pa k masks rows i).1)
    let b := ((List.range n).map (fun j => toggles (colB s o pb k j).1)).sum
    (64 + ((a.take 64).sum + b) / 32, 64 + ((a.drop 64).sum + b) / 32)
  | _ => (0, 0)

/-! The queue at work (R211, R214, R217, R229) -/

/-- A matrix operation has retired: it leaves the queue, and completes under R177 if it counts. -/
def leaveQueue (s : State) (o : Op) (code : Nat) : State :=
  let s := s.modCore o.core (fun c => { c with mq := c.mq.filter (fun i => i ≠ o.id) })
  if o.cls.isSome then (s.modOp o.id (fun x => { x with finished := true, code := code, flush := o.flushedAt s })).later (.operationCompletion o.id)
  else { s with ops := s.ops.filter (fun p => p.id ≠ o.id) }

/-- Whether a product's start is already due. -/
def startDue (s : State) (id : Nat) : Bool := s.timers.any (fun t => t.2 == .productStart id)

/-- The earliest cycle in which the arrays of a product are free. -/
def arraysFree (s : State) (o : Op) : Nat :=
  let own := ((s.core? o.core).map (fun c => c.arrayFree)).getD 0
  match o.kind with
  | .product _ _ _ _ _ _ true .. => max own (((s.core? (pairCores (pairOf o.core)).2).map (fun c => c.arrayFree)).getD 0)
  | _ => own

/-- One operation of the queue looked at: what needs no engine is applied, what is ready is set going. -/
def pumpOne (s : State) (id : Nat) : State :=
  match s.op? id with
  | none => s
  | some o =>
    if o.begun || o.finished || blocked s o then s
    else match o.kind with
      | .zero t => leaveQueue (modTile s o.core t (fun k => k.hold [] 64 64)) o 0
      | .put t l => leaveQueue (modTile s o.core t (fun k => { k with elems := k.elems.writes l })) o 0
      | .load .. | .store .. => (s.modOp id (fun x => { x with begun := true })).later (.delivery id)
      | .formeLoad _ _ d =>
        let s := s.modOp id (fun x => { x with begun := true })
        { s.at_ (s.cycle + max 1 ((d.length + 511) / 512) + Config.latency s.nonce) (.formeLoadFinish id) with nonce := s.nonce + 1 }
      | .product .. =>
        if startDue s id then s else s.at_ (max (s.cycle + 1) (max (arraysFree s o) o.started)) (.productStart id)
      | _ => s
/-- The queues of a core's pair, in acceptance order. -/
def pump (s : State) (core : Nat) : State :=
  let p := pairCores (pairOf core)
  let ids := [p.1, p.2].flatMap (fun c => ((s.core? c).map (fun x => x.mq)).getD [])
  (ids ++ ids).foldl pumpOne s

/-- A matrix operation accepted (R211). -/
def accept (s : State) (o : Op) (h : Option (BitVec 4)) : State :=
  let s := beginOp s o h
  pump (s.modCore o.core (fun c => { c with mq := c.mq ++ [o.id] })) o.core
/-- Whether the queue holds its 32 operations. -/
def queueFull (s : State) (core : Nat) : Bool := 32 ≤ ((s.core? core).map (fun c => c.mq.length)).getD 0

/-- The products of a core that may start now but for the power budget. -/
def startable (s : State) (core : Nat) : List Op :=
  (queued s core).filter (fun o => (match o.kind with
    | .product .. => true
    | _ => false) && !o.begun && !blocked s o && o.started ≤ s.cycle && arraysFree s o ≤ s.cycle)

/-- The one that starts first: passed over 8 times, then the lowest charge, then the oldest (R229). -/
def firstOf (s : State) : List Op → Option Op
  | [] => none
  | o :: r => match firstOf s r with
    | none => some o
    | some p =>
      let rank (x : Op) : Nat × Nat := (if 8 ≤ x.passed then 0 else 1, (charges s x).1)
      if (rank p).1 < (rank o).1 || ((rank p).1 == (rank o).1 && (rank p).2 < (rank o).2) then some p else some o

/-- Whether the buckets hold the charges of a product. -/
def affordable (s : State) (o : Op) : Bool :=
  let bucket (c : Nat) : Nat := ((s.core? c).map (fun x => x.bucket)).getD 0
  let e := charges s o
  e.1 ≤ bucket o.core && (match o.kind with
    | .product _ _ _ _ _ _ true .. => e.2 ≤ bucket (pairCores (pairOf o.core)).2
    | _ => true)

/-- A product starts (R214, R216, R217): charged, its array taken for 64 cycles, or 32 for e2m1; it retires 82 cycles later,
or up to 30 cycles after that on a seam pair. -/
def startProduct (s : State) (o : Op) : State :=
  let e := charges s o
  match o.kind with
  | .product _ _ _ _ _ _ pair pa .. =>
    let seam := pair && 72 ≤ pairOf o.core % 80
    let retire := s.cycle + 82 + (if seam then Config.latency s.nonce % 31 else 0)
    let s := { s with nonce := s.nonce + 1 }
    let s := s.modCore o.core (fun c => { c with
      bucket := c.bucket - e.1
      arrayFree := s.cycle + (if pa.fmt = .e2m1 then 32 else 64) })
    let s := if pair then s.modCore (pairCores (pairOf o.core)).2 (fun c => { c with bucket := c.bucket - e.2, arrayFree := retire })
      else s
    (s.modOp o.id (fun x => { x with begun := true, started := s.cycle })).at_ retire (.productRetire o.id)
  | _ => s

/-- `PRODUCT_START` (R214, R229): the arbitration of the product's core. -/
def execProductStart (id : Nat) (s : State) : Host.Outcome State Fault Refusal :=
  match s.op? id with
  | none => .next s
  | some o =>
    let cands := startable s o.core
    match firstOf s cands with
    | none => .next (pump s o.core)
    | some p =>
      if affordable s p then
        let s := startProduct s p
        .next (pump (cands.foldl (fun s q => if q.id = p.id then s else s.modOp q.id (fun x => { x with passed := x.passed + 1 })) s)
          o.core)
      else .next s

/-- `PRODUCT_RETIRE` (R214, R216): the tiles take the sums, VM and VN. -/
def execProductRetire (id : Nat) (s : State) : Host.Outcome State Fault Refusal :=
  match s.op? id with
  | none => .next s
  | some o =>
    match o.kind with
    | .product t _ _ m n k pair pa pb masks rows =>
      if !o.begun || o.finished then .next s
      else
        let as := (List.range m).map (fun i => (rowA s o pa k masks rows i).2)
        let bs := (List.range n).map (fun j => (colB s o pb k j).2)
        let take (s : State) (core : Nat) (as : List (List (Nat × Val))) : State :=
          modTile s core t (fun old => old.hold (productTile old as bs k) as.length n)
        let s := take s o.core (as.take 64)
        let s := if pair then take s (pairCores (pairOf o.core)).2 (as.drop 64) else s
        .next (pump (leaveQueue s o 0) o.core)
    | _ => .next s

/-- `FORME_LOAD_FINISH` (R209, R211): the bytes are in the range. -/
def execFormeLoadFinish (id : Nat) (s : State) : Host.Outcome State Fault Refusal :=
  match s.op? id with
  | none => .next s
  | some o => match o.kind with
    | .formeLoad r lo d =>
      let start := (((s.core? o.core).bind (fun c => c.recs[r]?)).map (fun x => 1024 * x.start)).getD 0
      let s := s.modCore o.core (fun c => { c with
        forme := c.forme.writes ((placed (start + lo) d).map (fun b => (b.1, b.2.setWidth 32))) })
      .next (pump (leaveQueue s o 0) o.core)
    | _ => .next s

/-! OBREL, OBLD, OBSC (R209, R210) -/

/-- `OBREL`: the range waits for its loads and products, and is then freed (R210, R227). -/
def obrelBody (a : Reg) (e : Env) (s : State) : Res :=
  engineSrcs e s [.reg a 1] (fun v s =>
    let id := v.getD 0 0
    let core := coreOf s e.team
    match rangeOf s e.team id with
    | none => .trap s (boundsAux id)
    | some r =>
      if (queued s core).any (fun o => (opReads o).contains id || (opFills o).contains id) then .stall s .matrix
      else
        let ep := epochOf s e.team
        .next (s.modCore core (fun c => { c with
          recs := c.recs.set id { r with valid := false, freed := some ep }
          granHold := c.granHold ++ r.granules.map (fun g => (g, e.team, ep)) })))
def execObrel (h : Head) (a : Reg) (s : State) : Host.Outcome State Fault Refusal := issue h engineHow (obrelBody a) s

/-- `OBLD` and `OBSC` (R209): checks, then the bytes of `sh` on their way into the range. DEDUCED, log 56, unsafe. -/
def formeLoadBody (scales : Bool) (d a : Reg) (off : Src) (e : Env) (s : State) : Res :=
  engineSrcs e s [.reg d 1, .reg a 1, .src off] (fun v s =>
    let id := v.getD 0 0
    let core := coreOf s e.team
    let addr := (v.getD 1 0 + v.getD 2 0) % 2 ^ 32
    match rangeOf s e.team id with
    | none => .trap s (boundsAux id)
    | some r =>
      if scales && r.scl = .none then .trap s { cause := .format, addr := BitVec.ofNat 32 id }
      else
        let lo := if scales then r.soff else 0
        let hi := if scales || r.scl = .none then 1024 * r.size else r.soff
        if addr % 16 ≠ 0 then .trap s (alignFault addr)
        else match resolve s e.team .sh addr (hi - lo) with
          | none => .trap s (boundsFault addr)
          | some p =>
            let cells := cellsFrom p (hi - lo)
            if queueFull s core then .stall s .matrix
            else if cells.any (fun a => mustWait s (unitTeams s e.team) a 1) then .stall s .held
            else match badAt s (unitTeams s e.team) cells with
              | some a => .stall (abortSoon s e.team a) .access
              | none => .next (accept s (newOp s e (.formeLoad id lo (cells.map (readByte s (unitTeams s e.team)))) none) none))
def execObld (h : Head) (d a : Reg) (off : Src) (s : State) : Host.Outcome State Fault Refusal :=
  issue h engineHow (formeLoadBody false d a off) s
def execObsc (h : Head) (d a : Reg) (off : Src) (s : State) : Host.Outcome State Fault Refusal :=
  issue h engineHow (formeLoadBody true d a off) s

/-! Products at issue (R212, R213, R215) -/

/-- The kinds of product. -/
inductive Prod | mma | mmag | mmas
  deriving DecidableEq, Repr

def formatFault (n : Nat) : FaultInfo := { cause := .format, addr := BitVec.ofNat 32 n }

/-- Whether a record's format matches a type field (R213). -/
def matchesType (f ty : Fmt) : Bool := f = ty || (isB8 f && (ty = .e4m3 || ty = .e5m2))

/-- The base exponent that a ds4 record's register holds, read in the issuing context; `none` raises FORMAT (R74). DEDUCED, log 57, unsafe. -/
def baseOf (s : State) (e : Env) (r : Rec) : Option Int :=
  if r.scl ≠ .ds4 then some 0
  else match regOf r.base with
    | none => none
    | some g =>
      if !readable e.x g then none
      else
        let v := (readReg s e.x e.c 0 g).toInt
        if -127 ≤ v ∧ v ≤ 113 then some v else none

/-- Whether the base register of a ds4 record is on its way from an upper context: the instruction waits (R51). -/
def basePending (s : State) (e : Env) (r : Option Rec) : Bool := r.any (fun r =>
  r.scl = .ds4 && (regOf r.base).any (fun g => readsPending s e.x e.c 0 1 g))
/-- The area of an operand in the forme. -/
def areaOf (r : Rec) (k : Nat) (base : Int) : PArea :=
  ⟨r.fmt, r.scl, blockLen' r.blk, base, 1024 * r.start, 1024 * r.start + r.soff, r.rowBytes k, r.scaleBytes k⟩

/-- The masks of the valid rows of an `MMAS`. -/
def masksOf (s : State) (core : Nat) (r : Rec) (m k : Nat) : List (List Nat) :=
  (List.range m).map (fun i => (List.range (k / 8)).map (fun g => formeByte s core (1024 * r.start + r.moff + i * r.metaBytes k + g)))
def maskOk (r : Rec) (m : Nat) : Bool := ((List.range 8).filter (fun i => bit m i)).length = 8 / Sparsity.step r.spars

/-- The source rows of an `MMAG`: their places, or the first row that has a byte outside `sh` (R215). -/
def gatherRows (s : State) (t : TeamId) (m idx base pitch n : Nat) : Except (Nat × Nat) (List (List Nat)) :=
  (List.range m).foldl (fun acc i => match acc with
    | .error x => .error x
    | .ok l => match resolve s t .sh (idx + 4 * i) 4 with
      | none => .error (i, idx + 4 * i)
      | some p =>
        let a := base + leNat (readBytes s (unitTeams s t) p 4) * pitch
        match resolve s t .sh a n with
        | none => .error (i, a)
        | some q => .ok (l ++ [cellsFrom q n])) (.ok [])

/-- The partner that a `.PAIR` product may use: pair mode, issued on the leader core, the follower's tile owned (R213). -/
def pairOk (s : State) (t : TeamId) (tile : Nat) : Bool :=
  match s.team? t, s.launch? t.launch with
  | some x, some l => l.pairMode && x.core == (pairCores (pairOf x.core)).1 && (match x.pair with
    | some q => (ownedTile s q tile).isSome
    | none => false)
  | _, _ => false

/-- Steps 2 and 3 of R213 for the operands: BOUNDS, then FORMAT. -/
def productFault (s : State) (e : Env) (kind : Prod) (at_ bt : Fmt) (pair : Bool) (tile aId bId sw pitch k : Nat) : Option FaultInfo :=
  match ownedTile s e.team tile, rangeOf s e.team aId, rangeOf s e.team bId with
  | none, _, _ => some (boundsAux tile)
  | _, none, _ => some (boundsAux aId)
  | _, _, none => some (boundsAux bId)
  | some _, some ra, some rb =>
    let m := sw % 256
    let n := sw / 2 ^ 16 % 256
    if sw / 2 ^ 8 % 256 ≠ 0 || sw / 2 ^ 24 ≠ 0 || m = 0 || (if pair then 128 else 64) < m || n = 0 || 64 < n then some (boundsFault 0)
    else if pair && !pairOk s e.team tile then some (boundsAux tile)
    else if kind = .mmag && pitch < ra.rowBytes ra.logicalK + ra.scaleBytes ra.logicalK then some (boundsFault 0)
    else if !matchesType ra.fmt at_ then some (formatFault aId)
    else if !matchesType rb.fmt bt then some (formatFault bId)
    else if (kind = .mmas) == (ra.spars == .dense) then some (formatFault aId)
    else if rb.spars ≠ .dense then some (formatFault bId)
    else if kind ≠ .mmag && !ra.fits (if pair then 128 else 64) k then some (formatFault aId)
    else if !rb.fits 64 k then some (formatFault bId)
    else if (baseOf s e ra).isNone then some (formatFault aId)
    else if (baseOf s e rb).isNone then some (formatFault bId)
    else none

/-- The product put into the queue once its checks are made. -/
def productAccept (s : State) (e : Env) (pair : Bool) (tile aId bId sw k : Nat) (ra rb : Rec) (masks : Option (List (List Nat)))
    (rows : Option (List (List Byte))) (ready : Nat) : Res :=
  if queueFull s (coreOf s e.team) || countFull s e.c .matrix then .stall s .matrix
  else
    let pa := areaOf ra k ((baseOf s e ra).getD 0)
    let pb := areaOf rb k ((baseOf s e rb).getD 0)
    .next (accept s { newOp s e (.product tile aId bId (sw % 256) (sw / 2 ^ 16 % 256) k pair pa pb masks rows) (some .matrix) with
      started := ready } none)

/-- `MMA`, `MMAG` and `MMAS` (R213). `v` holds tile, A, B and the size word, and for `MMAG` index vector, row base, pitch. -/
def productBody (kind : Prod) (at_ bt : Fmt) (pair : Bool) (d a b c : Reg) (e : Env) (s : State) : Res :=
  let quad : List Operand := if kind = .mmag then [.reg (c.up 1) 1, .reg (c.up 2) 1, .reg (c.up 3) 1] else []
  engineSrcs e s ([.reg d 1, .reg a 1, .reg b 1, .reg c 1] ++ quad) (fun v s =>
    let tile := v.getD 0 0
    let aId := v.getD 1 0
    let bId := v.getD 2 0
    let sw := v.getD 3 0
    let idx := v.getD 4 0
    let base := v.getD 5 0
    let pitch := v.getD 6 0
    let core := coreOf s e.team
    let k := (if kind = .mmas then 2 else 1) * denseK (layout at_).width
    match skewed [(idx, 4), (base, 16), (pitch, 16)] with
    | some x => .trap s (alignFault x)
    | none =>
      if basePending s e (rangeOf s e.team aId) || basePending s e (rangeOf s e.team bId) then .stall s .result
      else match productFault s e kind at_ bt pair tile aId bId sw pitch k, rangeOf s e.team aId, rangeOf s e.team bId with
      | some f, _, _ => .trap s f
      | none, some ra, some rb =>
        match kind with
        | .mma => productAccept s e pair tile aId bId sw k ra rb none none s.cycle
        | .mmas =>
          if (queued s core).any (fun o => (opFills o).contains aId) then .stall s .matrix
          else
            let masks := masksOf s core ra (sw % 256) k
            match masks.findIdx? (fun r => !r.all (maskOk ra)) with
            | some i => .trap s (formatFault i)
            | none => productAccept s e pair tile aId bId sw k ra rb (some masks) none s.cycle
        | .mmag =>
          let n := ra.rowBytes k + ra.scaleBytes k
          match gatherRows s e.team (sw % 256) idx base pitch n with
          | .error (i, x) => .trap s { boundsAux i with addr := BitVec.ofNat 32 x }
          | .ok rows =>
            if rows.any (fun l => l.any (fun a => mustWait s (unitTeams s e.team) a 1)) then .stall s .held
            else match badAt s (unitTeams s e.team) rows.flatten with
              | some a => .stall (abortSoon s e.team a) .access
              | none => productAccept s e pair tile aId bId sw k ra rb none (some (rows.map (fun l => l.map (readByte s (unitTeams s e.team)))))
                  (s.cycle + (sw % 256 * pitch + 511) / 512)
      | _, _, _ => .next s)
def execMma (h : Head) (at_ bt : Fmt) (pair : Bool) (d a b c : Reg) (s : State) : Host.Outcome State Fault Refusal :=
  issue h engineHow (productBody .mma at_ bt pair d a b c) s
def execMmag (h : Head) (at_ bt : Fmt) (pair : Bool) (d a b c : Reg) (s : State) : Host.Outcome State Fault Refusal :=
  issue h engineHow (productBody .mmag at_ bt pair d a b c) s
def execMmas (h : Head) (at_ bt : Fmt) (pair : Bool) (d a b c : Reg) (s : State) : Host.Outcome State Fault Refusal :=
  issue h engineHow (productBody .mmas at_ bt pair d a b c) s

/-! Tiles (R218 to R224) -/

/-- The tiles that a team holds on its core. -/
def holding (s : State) (t : TeamId) : Nat :=
  ((s.core? (coreOf s t)).map (fun c => (c.tiles.filter (fun k => k.ownedBy t)).length)).getD 0

/-- The allocator of a core looks at its queue in the next cycle. DESIGN CHOICE, log 60, unsafe. -/
def allocSoon (s : State) (core : Nat) : State := s.at_ (s.cycle + 1) (.accaGrant (coreDie core).1 (coreDie core).2)

/-- The mask of some tiles. -/
def tileMask (l : List Nat) : Nat := l.foldl (fun n k => n + 2 ^ k) 0

/-- `ACCA` (R219): the request joins the queue once; when its tiles are granted, the registers take them. -/
def accaBody (d a : Reg) (e : Env) (s : State) : Res :=
  let core := coreOf s e.team
  match (s.core? core).bind (fun c => c.alloc.find? (fun r => r.1 = e.c)) with
  | some (_, _, some ks) =>
    match store e s .now [((e.c, 0), [(d, 2, ks.headD 0 + 2 ^ 32 * tileMask ks)])] with
    | .next s => .next (s.modCore core (fun c => { c with alloc := c.alloc.filter (fun r => r.1 ≠ e.c) }))
    | r => r
  | some (_, n, none) => .stall s (.acca n)
  | none => engineSrcs e s [.reg a 1] (fun v s =>
    let n := v.getD 0 0
    if n = 0 || 32 < n || 32 < holding s e.team + n then .trap s (boundsAux 0)
    else holdWith (allocSoon (s.modCore core (fun c => { c with alloc := c.alloc ++ [(e.c, n, none)] })) core) e (.acca n))
def execAcca (h : Head) (d a : Reg) (s : State) : Host.Outcome State Fault Refusal := issue h engineHow (accaBody d a) s

/-- `ACCF` (R220, R227). -/
def accfBody (a : Reg) (e : Env) (s : State) : Res :=
  engineSrcs e s [.reg a 1] (fun v s =>
    let k := v.getD 0 0
    let core := coreOf s e.team
    match ownedTile s e.team k with
    | none => .trap s (boundsAux k)
    | some _ =>
      if tileBusy s core k then .stall s .matrix
      else .next (allocSoon (modTile s core k (fun x => { x with freed := some (epochOf s e.team) })) core))
def execAccf (h : Head) (a : Reg) (s : State) : Host.Outcome State Fault Refusal := issue h engineHow (accfBody a) s

/-- `ACCZ` (R220). -/
def acczBody (a : Reg) (e : Env) (s : State) : Res :=
  engineSrcs e s [.reg a 1] (fun v s =>
    let k := v.getD 0 0
    match ownedTile s e.team k with
    | none => .trap s (boundsAux k)
    | some _ => if queueFull s (coreOf s e.team) then .stall s .matrix else .next (accept s (newOp s e (.zero k) none) none))
def execAccz (h : Head) (a : Reg) (s : State) : Host.Outcome State Fault Refusal := issue h engineHow (acczBody a) s

/-- Bits of an element of a tile's memory image. -/
def tileBits (f : Fmt) : Nat := (layout f).width
/-- The bytes of the 64-row footprint. -/
def footprint (f : Fmt) (pitch : Nat) : Nat := 63 * pitch + 8 * tileBits f

/-- The checks of `ACCLD` and `ACCST` (R221, R222). DEDUCED, log 55, unsafe. -/
def drainFault (s : State) (t : TeamId) (f : Fmt) (add : Bool) (p : EP) (pitch : Nat) : Option FaultInfo :=
  match skewed [(p.addr, 16), (pitch, 16)] with
  | some _ => some (alignFault p.addr)
  | none =>
    if pitch < 8 * tileBits f || !inSpace s t p (footprint f pitch) then some (boundsFault p.addr)
    else if add && p.sp = .mem && p.addr.testBit 56 then some (boundsFault p.addr)
    else none

/-- `ACCLD` (R221). -/
def accldBody (f : Fmt) (sp : EngSpace) (d a b : Reg) (done : Option (BitVec 4)) (e : Env) (s : State) : Res :=
  engineSrcs e s [.reg d 1, .reg a (spaceWords sp), .reg b 1] (fun v s =>
    let k := v.getD 0 0
    let p := EP.mk sp (v.getD 1 0)
    let pitch := v.getD 2 0
    match drainFault s e.team f false p pitch, ownedTile s e.team k with
    | some x, _ => .trap s x
    | none, none => .trap s (boundsAux k)
    | none, some _ =>
      if queueFull s (coreOf s e.team) || countFull s e.c .matrix then .stall s .matrix
      else .next (accept s (newOp s e (.load k f p pitch) (some .matrix)) done))
def execAccld (h : Head) (f : Fmt) (sp : EngSpace) (d a b : Reg) (done : Option (BitVec 4)) (s : State) :
    Host.Outcome State Fault Refusal := issue h engineHow (accldBody f sp d a b done) s

/-- The lane whose generator a stochastic drain uses: the lowest live lane of the issuing group, or of the role's lowest group
(R83). DEDUCED, log 58, unsafe. -/
def drainLane (s : State) (e : Env) : CtxId × Nat :=
  let g := match e.c with
    | .group _ g => g
    | c => ((groupsOf s e.team (roleOf s c)).head?).getD 0
  let lanes := (slicesOf s e.team g).flatMap (fun u => ((List.range 4).filter (fun k =>
    (((s.ctx u).lanes[k]?).map (fun (l : Lane) => l.live)).getD false)).map (fun k => (u, k)))
  lanes.headD (.slice e.team g 0, 0)

/-- The OP of an add-on-store (R301). -/
def addCodeOf (f : Fmt) : Nat := if f = .f32 then AtomOp.code .fadd else AtomOp.code .hadd2

/-- `ACCST` (R222, R223). A stochastic one takes its lane at issue, and steps its generator as the rows are delivered (R83).
DESIGN CHOICE, log 149, unsafe. -/
def accstBody (add : Bool) (f : Fmt) (rnd : Rnd) (sat sr : Bool) (sp : EngSpace) (d a b : Reg) (done : Option (BitVec 4)) (e : Env)
    (s : State) : Res :=
  engineSrcs e s [.reg d (spaceWords sp), .reg a 1, .reg b 1] (fun v s =>
    let p := EP.mk sp (v.getD 0 0)
    let k := v.getD 1 0
    let pitch := v.getD 2 0
    match drainFault s e.team f add p pitch, ownedTile s e.team k with
    | some x, _ => .trap s x
    | none, none => .trap s (boundsAux k)
    | none, some t =>
      match if add then engineQuota s e (addCodeOf f) 3 p else none with
      | some q => q.res s
      | none =>
        if queueFull s (coreOf s e.team) || countFull s e.c .matrix then .stall s .matrix
        else
          let o := { newOp s e (.store k f add rnd sat (if sr then some (drainLane s e) else none) p pitch) (some .matrix) with
            key := if add then some (engineKey s e) else none }
          let s := accept s o done
          .next (if add then
            sign (countEffect s [e.c]) e.team
              (sigEffect (BitVec.ofNat 64 ((t.vn * 256 + t.vm) * 2 ^ 32 + pitch)) (addCodeOf f) 3 sp.num p.addr)
            else s))
def execAccst (h : Head) (add : Bool) (f : Fmt) (rnd : Rnd) (sat sr : Bool) (sp : EngSpace) (d a b : Reg)
    (done : Option (BitVec 4)) (s : State) : Host.Outcome State Fault Refusal :=
  issue h (if add then effectHow else engineHow) (accstBody add f rnd sat sr sp d a b done) s

/-! Fragments (R224) -/

/-- The rows that a fragment instruction touches: each group with its row. -/
def fragRows (s : State) (e : Env) (r : Nat) : List (Nat × Nat) :=
  match e.c with
  | .group _ g => [(g, r)]
  | c => let gs := groupsOf s e.team (roleOf s c)
    (gs.zip ((List.range gs.length).map (fun i => r + i)))
/-- The active lanes of some rows: the lane, and the element of its even column. -/
def fragLanes (s : State) (e : Env) (rows : List (Nat × Nat)) : List ((CtxId × Nat) × Nat) :=
  rows.flatMap (fun (g, r) => (groupLanes s e.team g).map (fun p => (p, 64 * r + 2 * laneNum p.1 p.2)))

/-- The checks that `ACCRD` and `ACCWR` share: tile and row; then the lanes' results on their way, and the queue. -/
def fragment (tile row : Reg) (wait : Bool) (f : State → Nat → List ((CtxId × Nat) × Nat) → Res) (e : Env) (s : State) : Res :=
  engineSrcs e s [.reg tile 1, .reg row 1] (fun v s =>
    let k := v.getD 0 0
    let rows := fragRows s e (v.getD 1 0)
    match ownedTile s e.team k with
    | none => .trap s (boundsAux k)
    | some _ =>
      match rows.find? (fun r => 63 < r.2) with
      | some r => .trap s (boundsAux r.2)
      | none =>
        if !settledBelow s e.c then .stall s .result
        else if wait && tileBusy s (coreOf s e.team) k then .stall s .matrix
        else f s k (fragLanes s e rows))

/-- `ACCRD`: the registers are written before the unit goes on. DEDUCED, log 62, unsafe. -/
def accrdBody (f : Fmt) (d : BitVec 8) (a b : Reg) (e : Env) (s : State) : Res :=
  fragment a b true (fun s k lanes =>
    let el (n : Nat) : Nat := convert f .rne false (value .f32
      (((tileOf s (coreOf s e.team) k).map (fun t => t.at_ (n / 64) (n % 64))).getD 0))
    emitNow s (lanes.flatMap (fun (p, n) =>
      if f = .f32 then [(p.1, Loc.v p.2 d.toNat, BitVec.ofNat 32 (el n)), (p.1, Loc.v p.2 (d.toNat + 1), BitVec.ofNat 32 (el (n + 1)))]
      else [(p.1, Loc.v p.2 d.toNat, BitVec.ofNat 32 (el n + 65536 * el (n + 1)))]))) e s
def execAccrd (h : Head) (f : Fmt) (d : BitVec 8) (a b : Reg) (s : State) : Host.Outcome State Fault Refusal :=
  issue h engineHow (accrdBody f d a b) s

/-- `ACCWR`: the lanes' values, applied to the tile in acceptance order. -/
def accwrBody (f : Fmt) (d : Reg) (a : BitVec 8) (b : Reg) (e : Env) (s : State) : Res :=
  fragment d b false (fun s k lanes =>
    if queueFull s (coreOf s e.team) then .stall s .matrix
    else
      let lane (p : CtxId × Nat) (n : Nat) : Nat := (((s.ctx p.1).flush).cell (.v p.2 n)).toNat
      let f32 (c : Nat) : Word := BitVec.ofNat 32 (convert .f32 .rne false (value f c))
      let two (p : CtxId × Nat) : Nat × Nat :=
        if f = .f32 then (lane p a.toNat, lane p (a.toNat + 1)) else (lane p a.toNat % 65536, lane p a.toNat / 65536)
      .next (accept s (newOp s e (.put k (lanes.flatMap (fun (p, n) => [(n, f32 (two p).1), (n + 1, f32 (two p).2)]))) none) none)) e s
def execAccwr (h : Head) (f : Fmt) (d : Reg) (a : BitVec 8) (b : Reg) (s : State) : Host.Outcome State Fault Refusal :=
  issue h engineHow (accwrBody f d a b) s

/-! Delivery of loads and drains -/

/-- A load or drain that cannot reach its bytes; one that the driver refuses leaves the matrix queue (R211, R267). -/
def unreachedTile (s : State) (o : Op) : Reach → Host.Outcome State Fault Refusal :=
  unreachedBy (fun s o code => pump (leaveQueue s o code) o.core) s o

/-- The elements of a row of n bits each, as bytes. Two e2m1 elements share a byte; `old` gives the bits left alone. -/
def rowBytesOf (bits : Nat) (codes : List Nat) (old : List Byte) : List Byte :=
  let n := (codes.length * bits + 7) / 8
  let v := ((List.range codes.length).zip codes).foldl (fun v e => v + e.2 * 2 ^ (bits * e.1)) 0
  leBytes n (v + leNat old / 2 ^ (bits * codes.length) * 2 ^ (bits * codes.length))

/-- One row of an `ACCLD` (R221). -/
def loadRow (s : State) (o : Op) (tile : Nat) (f : Fmt) (src : EP) (pitch : Nat) : Host.Outcome State Fault Refusal :=
  let n := 8 * tileBits f
  match places s o src (o.done * pitch) n .read with
  | .error r => unreachedTile s o r
  | .ok l =>
    if engineBar s o l [] then .next (engineWait s o l)
    else
      let v := leNat (gatherBytes s o l)
      let row := (List.range 64).map (fun j =>
        (64 * o.done + j, BitVec.ofNat 32 (convert .f32 .rne false (value f (v / 2 ^ (tileBits f * j) % 2 ^ tileBits f)))))
      let s := modTile s o.core tile (fun t => { t with elems := t.elems.writes row, vm := 64, vn := 64 })
      let s := s.modOp o.id (fun x => { x with done := o.done + 1, walk := none, walks := [], asked := none })
      .next (if 63 ≤ o.done then pump (leaveQueue s o 0) o.core else s.later (.delivery o.id))

/-- The codes of row i of a drain, and the generator after them (R83, R222, R223). -/
def drainRow (t : Tile) (f : Fmt) (add : Bool) (rnd : Rnd) (sat : Bool) (i : Nat) (old : List Byte) (g : Option Word) :
    List Nat × Option Word :=
  (List.range t.vn).foldl (fun acc j =>
    let x := value .f32 (t.at_ i j)
    match acc.2 with
    | some g =>
      let g := xorShift32 g
      (acc.1 ++ [convertSr f sat (g.toNat % 65536) x], some g)
    | none =>
      let y := if add then (value f (leNat old / 2 ^ (tileBits f * j) % 2 ^ tileBits f)).add rnd x else x
      (acc.1 ++ [convert f rnd sat y], none)) ([], g)

/-- The generator of a drain, read and put back. -/
def drainGen (s : State) (l : Option (CtxId × Nat)) : Option Word :=
  l.map (fun p => (((s.ctx p.1).lanes[p.2]?).map (fun (x : Lane) => x.gen)).getD 0)
def putGen (s : State) (l : Option (CtxId × Nat)) (g : Option Word) : State :=
  match l, g with
  | some p, some w => s.modCtx p.1 (fun x => x.modLane p.2 (fun y => { y with gen := w }))
  | _, _ => s

/-- One row of a drain that is no add-on-store (R222). -/
def drainOne (s : State) (o : Op) (t : Tile) (f : Fmt) (rnd : Rnd) (sat : Bool) (sr : Option (CtxId × Nat)) (dst : EP) (pitch : Nat) :
    Host.Outcome State Fault Refusal :=
  if t.vm ≤ o.done || t.vn = 0 then .next (pump (leaveQueue s o 0) o.core)
  else match places s o dst (o.done * pitch) ((t.vn * tileBits f + 7) / 8) .write with
    | .error r => unreachedTile s o r
    | .ok l =>
      if engineBar s o [] (l.map (fun a => (a, 0))) then .next (engineWait s o [])
      else
        let old := gatherBytes s o l
        let (codes, g) := drainRow t f false rnd sat o.done old (drainGen s sr)
        let s := engineWrite (putGen s sr g) o dst (o.done * pitch) l (rowBytesOf (tileBits f) codes old)
        let s := s.modOp o.id (fun x => { x with done := o.done + 1, walk := none, walks := [], asked := none })
        .next (if t.vm ≤ o.done + 1 then pump (leaveQueue s o 0) o.core else s.later (.delivery o.id))

/-- The places of every row of an add-on-store. DEDUCED, log 59, unsafe. -/
def drainPlaces (s : State) (o : Op) (dst : EP) (pitch n : Nat) : Nat → Except Reach (List (List Nat))
  | 0 => .ok []
  | k + 1 => match drainPlaces s o dst pitch n k with
    | .error r => .error r
    | .ok l => match places s o dst (k * pitch) n .write with
      | .error r => .error r
      | .ok x => .ok (l ++ [x])

/-- The signature records of a drained row: each element at the doubleword it updates (R295). DEDUCED, log 54, unsafe. -/
def drainSign (s : State) (o : Op) (t : Tile) (f : Fmt) (rnd : Rnd) (sat : Bool) (dst : EP) (pitch i : Nat) : State :=
  (List.range t.vn).foldl (fun s j =>
    sign s o.team (sigWrite dst.sp.num (dst.addr + i * pitch + j * tileBits f / 8)
      (leBytes (tileBits f / 8) (convert f rnd sat (value .f32 (t.at_ i j)))))) s

/-- An add-on-store (R223, R301): the whole region in one update, one effect at each ordering point. -/
def drainAdd (s : State) (o : Op) (t : Tile) (f : Fmt) (rnd : Rnd) (sat : Bool) (dst : EP) (pitch : Nat) :
    Host.Outcome State Fault Refusal :=
  let n := t.vn * tileBits f / 8
  match drainPlaces s o dst pitch n (if t.vn = 0 then 0 else t.vm) with
  | .error r => unreachedTile s o r
  | .ok rows =>
    let all := rows.flatten
    if engineBar s o all (all.map (fun a => (a, 0))) then .next (engineWait s o all)
    else
      let points := distinct (all.map pointOf)
      let known := o.key.any (fun k => points.any (fun p => (replayed s o.team k p (addCodeOf f) 3 dst.addr).isSome))
      let full := points.any (fun p => isShadow o.team || pointLimit p ≤ (s.effects.filter (fun e => e.point == p)).length)
      if !known && full then .next (tryAgain s o.id)
      else
        let s := (List.range rows.length).foldl (fun s i => drainSign s o t f rnd sat dst pitch i) s
        if known then .next (pump (leaveQueue s o 0) o.core)
        else
          let s := points.foldl (fun s p => match enginePoint s o p (addCodeOf f) 3 dst.addr (incOf s o.team) 0 0 with
            | some x => x.2
            | none => s) s
          let new := ((List.range rows.length).zip rows).flatMap (fun (i, l) =>
            l.zip (rowBytesOf (tileBits f) (drainRow t f true rnd sat i (gatherBytes s o l) none).1 []))
          .next (pump (leaveQueue (holdAt s o.team s.tick new o.key) o 0) o.core)

/-- The teams with a product that waits for nothing but budget: MATSTALL counts these cycles (R230). -/
def budgetWaiters (s : State) : List TeamId :=
  distinct (s.cores.flatMap (fun c => match firstOf s (startable s c.num) with
    | some p => if affordable s p then [] else (startable s c.num).map (fun o => o.team)
    | none => []))

end Sys2Proof.Machine
end

