-- ==== Sys2Proof/Machine/Seal.lean ====
section
/-! DEFINITION. Seals, checkpoints and rollback (R198, R199, R282 to R287, R291 to R297, R299), and the steps that befall
checkpoints and galleys. -/

namespace Sys2Proof.Machine

/-! The teams of a seal -/

/-- The other unit of a proof-mode tile (R294). -/
def twinsOf (s : State) (t : TeamId) : List TeamId := (unitTeams s t).filterMap (fun u => (s.team? u).bind (fun x => x.shadow))
/-- Whether a team still runs on a core. -/
def onCore (s : State) (t : TeamId) : Bool :=
  ((s.team? t).map Team.present).getD false
/-- The teams of a containment unit that have not ended (R285). -/
def aliveUnit (s : State) (t : TeamId) : List TeamId := (unitTeams s t).filter (onCore s)
/-- The teams that seal together: those of the unit, and in proof mode those of its twin (R198, R296). -/
def sealTeams (s : State) (t : TeamId) : List TeamId := 
  distinct ((unitTeams s t ++ twinsOf s t).filter (fun u => ((s.team? u).map (fun (x : Team) => decide (x.state ≠ .ended))).getD false))

/-- The team contexts of some teams with live lanes. -/
def liveRoles (s : State) (ts : List TeamId) : List (TeamId × Nat) :=
  ts.flatMap (fun t => match s.team? t with
    | some x => ((List.range x.roles.length).filter (fun r => ((x.roles[r]?).map (fun (q : RoleSt) => !q.ended)).getD false)).map
        (fun r => (t, r))
    | none => [])
/-- The arrivals at a seal point. -/
def sealersOf (s : State) (ts : List TeamId) : List (TeamId × Sealer) :=
  ts.flatMap (fun t => (((s.team? t).map (fun x => x.sealers)).getD []).map (fun a => (t, a)))
/-- Whether every role with live lanes stands at a seal point. -/
def allStand (s : State) (ts : List TeamId) : Bool :=
  (liveRoles s ts).all (fun r => (sealersOf s ts).any (fun a => a.1 = r.1 && a.2.role == r.2))

/-- The contexts of a team. -/
def teamCtxs (s : State) (t : TeamId) : List CtxId := (s.ctxs.map (fun e => e.1)).filter (fun c => c.team? = some t)

/-! Checkpoints (R282, R283) -/

/-- The carried registers of a context, with every result on its way. -/
def carryOf (l : Launch) (c : CtxId) (x : Ctx) : List (Nat × Word) :=
  l.carry.filterMap (fun r => match regOf r, c with
    | some (.t n), .team .. => some (n.toNat, x.through (.sc n.toNat))
    | some (.g n), .group .. => some (n.toNat, x.through (.sc n.toNat))
    | _, _ => none)
/-- What a checkpoint saves of a context; a team context resumes n words past its PC. -/
def checkCtx (l : Launch) (n : Word) (c : CtxId) (x : Ctx) : CkCtx where
  id := c
  pc := match c with
    | .team .. => x.pc + n
    | _ => x.pc
  lc := x.flush.lc
  calls := x.calls
  rstk := x.rstk
  parted := x.parted
  lanes := x.lanes.map (fun y => (y.live, y.path, y.gen))
  h := x.flush.h
  coll := x.counts.coll
  carry := carryOf l c x
  seen := x.seen
  segs := x.segs
  busy := x.busy
  tickets := x.tickets
  nextTid := x.nextTid

/-- The tiles and records that a team holds on its core (R227). -/
def tilesHeld (s : State) (t : TeamId) : List (Nat × Nat × Nat) :=
  match s.core? (coreOf s t) with
  | some c => (((List.range c.tiles.length).zip c.tiles).filter (fun e => e.2.ownedBy t)).map (fun e => (e.1, e.2.vm, e.2.vn))
  | none => []
def recsHeld (s : State) (t : TeamId) : List (Nat × Rec) :=
  match s.core? (coreOf s t) with
  | some c => ((List.range c.recs.length).zip c.recs).filter (fun e => e.2.ownedBy t)
  | none => []

/-- The checkpoint of a team as it stands now. -/
def checkpointOf (s : State) (l : Launch) (t : TeamId) (x : Team) (start : Bool) (n : Word) : Ckpt where
  c := s.tick
  epoch := x.epoch
  valid := start
  start := start
  ctxs := (teamCtxs s t).map (fun c => checkCtx l n c (s.ctx c))
  queues := x.queues
  coord := x.coord
  tileinc := x.inc
  tile := x.tile
  tiles := tilesHeld s t
  recs := recsHeld s t
  nr := x.nr

/-- The checkpoint of a team's start, valid at once (R282). -/
def startCheckpoint (s : State) (t : TeamId) : State :=
  match s.launch? t.launch with
  | some l => s.modTeam t (fun x => { x with ckpt0 := some (checkpointOf s l t x true 0) })
  | none => s

/-- A new epoch begins with a checkpoint, pending until W later (R282, R284). -/
def sealTeam (s : State) (t : TeamId) : State :=
  match s.launch? t.launch with
  | none => s
  | some l =>
    let s := s.modTeam t (fun x => { x with
      epoch := x.epoch + 1
      effReserve := false
      galReserve := false
      sig := 0
      sigPrev := none
      mismatches := 0 })
    let s := s.modCtxs (teamCtxs s t) (fun x => { x with eff := 0 })
    s.modTeam t (fun x => { x with
      ckpts := checkpointOf s l t x false 0 :: (x.ckpts.filter (fun k => k.valid)).take 1 })

/-! Held writes discarded (R280, R289) -/

/-- Whether a held write carries an effect's entry. -/
def Held.carries (h : Held) (e : Effect) : Bool :=
  h.key == some e.key && (h.bytes.isEmpty || h.bytes.any (fun b => pointOf b.1 == e.point))
/-- What an effect's entry keeps as some held writes are discarded: nothing of an effect that they carry, and of a `BRED` the blocks that
they do not carry (R181, R289). -/
def Effect.without (gone : List Held) (e : Effect) : Option Effect :=
  let hs := gone.filter (fun h => Held.carries h e)
  let left := e.parts.filter (fun k => !hs.any (fun h => h.part == k))
  if hs.isEmpty then some e else if left.isEmpty then none else some { e with parts := left }
/-- Whether a strike discards a held write: not one of a collective, which runs on (R285), nor a private stack's write-back, whose stores
were performed before W. -/
def Held.struck (ts : List TeamId) (h : Held) : Bool := ts.contains h.team && h.core ≠ collCore && !h.back
/-- Whether W has passed since a write, so that no strike discards it (R280). -/
def Held.settled (tick : Nat) (h : Held) : Bool := h.due tick
/-- The held writes of some teams discarded, with the log entries of the effects they carry, and what their lanes stored to their private
stacks within W, or since the tile began where it is held to the seal. DEDUCED, log 42, unsafe. -/
def discardHeld (s : State) (ts : List TeamId) : State :=
  { s with
    galley := s.galley.filter (fun h => !Held.struck ts h)
    pvCache := s.pvCache.filter (fun h => !(ts.contains h.team && !h.settled s.tick))
    effects := s.effects.filterMap (Effect.without (s.galley.filter (Held.struck ts))) }

/-! The spool (R309 to R311) -/

/-- The draws that wait at the spools of a launch. -/
def drawsOf (s : State) (n : Nat) : List Spooler := ((s.launch? n).map (fun l => l.draws)).getD []
/-- Draws come to a die's spool. -/
def queueDraw (s : State) (n : Nat) (q : Spooler) : State := s.modLaunch n (fun l => { l with draws := l.draws ++ [q] })
/-- The draws of a unit leave the spool. -/
def leaveSpool (s : State) (n : Nat) (c : CtxId) : State := s.modLaunch n (fun l => { l with draws := l.draws.filter (fun q => q.unit ≠ c) })
/-- The draws of a team that have not been served are withdrawn, and those of the seals it takes part in. -/
def leaveSpools (s : State) (t : TeamId) : State :=
  s.modLaunch t.launch (fun l => { l with draws := l.draws.filter (fun q => q.unit.team? ≠ some t && !q.teams.contains t) })

/-- The draw that the next seal of some teams keeps already: a rollback never draws again (R311). -/
def keptDraw (s : State) (ts : List TeamId) : Option (Option Nat) :=
  (ts.head?).bind (fun t => (s.team? t).bind (fun x => get? (x.epoch + 1) x.drawn))
/-- The lanes of a draw that have no index yet. -/
def Spooler.left (s : State) (q : Spooler) : List ((CtxId × Nat) × EffKey) :=
  q.lanes.filter (fun k => (replayed s (q.unit.team?.getD ⟨0, 0⟩) k.2 (spoolPoint q.die) 0 4 0).isNone)
/-- Whether a draw still has to be served. -/
def Spooler.open_ (s : State) (q : Spooler) : Bool := (!q.teams.isEmpty && (keptDraw s q.teams).isNone) || !(q.left s).isEmpty
/-- An index, or none, given to a draw: kept with the seal's checkpoint, or logged as an effect (R311). -/
def Spooler.give (s : State) (q : Spooler) (i : Option Nat) : State :=
  if !q.teams.isEmpty then q.teams.foldl (fun s t => s.modTeam t (fun x => { x with drawn := x.drawn ++ [(x.epoch + 1, i)] })) s
  else match q.left s with
    | k :: _ => logEffect s ⟨k.2, spoolPoint q.die, incOf s (q.unit.team?.getD ⟨0, 0⟩), 0, 4, 0, BitVec.ofNat 64 ((i.map (fun n => n + 1)).getD 0), []⟩
    | [] => s

/-- The die from which a thief takes: the one with the most indices left, the lowest of several (R310). -/
def victimOf (l : Launch) : Option Nat :=
  let len (d : Nat) : Nat := (l.spool.getD d (0, 0)).2 - (l.spool.getD d (0, 0)).1
  (List.range Config.dies).find? (fun d => len d ≠ 0 && (List.range Config.dies).all (fun e => len e ≤ len d))
/-- The ranges after a steal for a die: it takes the upper half of the victim's. -/
def stolen (l : Launch) (die : Nat) : List (Nat × Nat) :=
  match victimOf l with
  | none => l.spool
  | some v =>
    let (lo, hi) := l.spool.getD v (0, 0)
    let k := (hi - lo + 1) / 2
    (l.spool.set v (lo, hi - k)).set die (hi - k, hi)
/-- One move of a die's spool: the oldest draw that is not served takes the lowest index; where none is left here, a steal is begun, and
the draw waits for it; where none is left anywhere, the draw returns false (R309, R310). -/
def spoolMove (s : State) (n die : Nat) : Option State :=
  match s.launch? n with
  | none => none
  | some l => match l.draws.find? (fun q => q.die = die && q.open_ s) with
    | none => none
    | some q =>
      let (lo, hi) := l.spool.getD die (0, 0)
      if lo < hi then some (q.give (s.modLaunch n (fun l => { l with spool := l.spool.set die (lo + 1, hi) })) (some lo))
      else match l.steals.find? (fun e => e.1 = die) with
        | some e =>
          if s.cycle < e.2 then none
          else
            let s := s.modLaunch n (fun l => { l with spool := stolen l die, steals := l.steals.filter (fun e => e.1 ≠ die) })
            some (if (victimOf l).isNone then q.give s none else s)
        | none =>
          if (victimOf l).isNone then some (q.give s none)
          else some { s.modLaunch n (fun l => { l with steals := l.steals ++ [(die, s.cycle + 1 + Config.latency s.nonce)] }) with nonce := s.nonce + 1 }
/-- A die's spool serves its draws in order of arrival, as far as it can (R309); the fuel bounds their number. -/
def serveAll : Nat → State → Nat → Nat → State
  | 0, s, _, _ => s
  | fuel + 1, s, n, die => match spoolMove s n die with
    | some t => serveAll fuel t n die
    | none => s
def serveSpool (s : State) (n die : Nat) : State :=
  serveAll (2 * ((drawsOf s n).map (fun q => q.lanes.length + 1)).sum + 2) s n die

/-! Rollback (R285, R286) -/

/-- The checkpoint to which a report at d returns a team. -/
def target? (x : Team) (d : Nat) : Option Ckpt :=
  match x.ckpts.find? (fun k => k.valid && k.c + Config.galleyWindow < d) with
  | some k => some k
  | none => x.ckpt0

/-- Words with unspecified values: free value n, from place k on. -/
def scatter (n k : Nat) (l : List Word) : List Word := (List.range l.length).map (fun i => Config.freeCell n (k + i))
/-- Predicates with unspecified values. -/
def scatterP (n k : Nat) : BitVec 8 := (Config.freeCell n k).setWidth 8 ||| 0x80

/-- The registers of a context that a checkpoint does not hold become unspecified. -/
def Ctx.forget (n : Nat) (x : Ctx) : Ctx :=
  { x with
    sc := scatter n 0 x.sc
    p := scatterP n 200
    lanes := ((List.range x.lanes.length).zip x.lanes).map (fun (j, l) =>
      { l with v := scatter n (1024 * (j + 1)) l.v, p := scatterP n (1024 * (j + 1) + 512) }) }

/-- A context as a checkpoint gives it back; the coordinate is the role's part of it (R283). -/
def Ctx.restore (n : Nat) (k : CkCtx) (coord : List (Nat × Word)) (x : Ctx) : Ctx :=
  let y := Ctx.forget n x
  let y := (k.carry.map (fun e => (Loc.sc e.1, e.2)) ++ coord.map (fun e =>
    (if e.1 < 128 then Loc.sc e.1 else Loc.p (e.1 - 128), e.2))).foldl (fun y e => y.setCell e.1 e.2) y
  { y with
    pc := k.pc
    lc := k.lc
    h := k.h
    hmoves := []
    calls := k.calls
    rstk := k.rstk
    lanes := (y.lanes.zip k.lanes).map (fun (l, a, b, g) => { l with live := a, path := b, gen := g })
    counts := ⟨0, 0, 0, k.coll⟩
    eff := 0
    fixed := []
    vars := []
    segs := k.segs
    busy := k.busy
    seen := k.seen
    tickets := k.tickets
    nextTid := k.nextTid
    log := []
    logBase := 0
    parted := k.parted
    wait := none
    past := []
    fresh := []
    xk := 0
    joined := false
    stop := none
    saved := none }

/-- An engine or matrix operation cancelled without a restart record. -/
def dropOp (s : State) (o : Op) : State :=
  let s := match o.chan with
    | some k => freeChan s o.core k o.id
    | none => freeGather s o.core o.id
  let s := s.modCore o.core (fun c => { c with mq := c.mq.filter (fun i => i ≠ o.id) })
  { s with ops := s.ops.filter (fun p => p.id ≠ o.id) }
/-- The operations of a team cancelled; its `COLL` operations run on, counted by nobody until a re-run attaches to them. -/
def cancelOps (s : State) (t : TeamId) (epoch : Nat) : State :=
  let s := (s.ops.filter (fun o => o.team = t && o.cls ≠ some .coll)).foldl dropOp s
  let s := { s with ops := s.ops.map (fun o => if o.team = t ∧ epoch ≤ o.epoch then { o with units := [] } else o) }
  pump s (coreOf s t)

/-- The holdings of a team as they were at a checkpoint, with unspecified contents (R227). -/
def restoreHoldings (s : State) (t : TeamId) (k : Ckpt) : State :=
  let (n, s) := s.fresh
  allocSoon (s.modCore (coreOf s t) (fun c => { c with
    tiles := ((List.range c.tiles.length).zip c.tiles).map (fun (i, y) =>
      match k.tiles.find? (fun e => e.1 == i) with
      | some (_, vm, vn) => { y with elems := ⟨[], [(0, n + i)]⟩, vm := vm, vn := vn, owner := some t, freed := none }
      | none => if y.owner = some t then { y with owner := none, freed := none } else y)
    recs := ((List.range c.recs.length).zip c.recs).map (fun (i, y) =>
      match k.recs.find? (fun e => e.1 == i) with
      | some (_, r) => { r with freed := none }
      | none => if y.owner = some t then {
        } else y)
    forme := c.forme.spoil 1024 (n + 32) (k.recs.flatMap (fun e => e.2.granules))
    granHold := c.granHold.filter (fun g => g.2.1 ≠ t)
    alloc := c.alloc.filter (fun a => a.1.team? ≠ some t) })) (coreOf s t)

/-- The number of lanes of a checkpoint's context that live again. -/
def relived (x : Ctx) (k : CkCtx) : Nat := ((x.lanes.zip k.lanes).filter (fun e => e.2.1 && !e.1.live)).length

/-- One team restored from a checkpoint. One that is stopped for the host or the debug agent stays so (R285). DEDUCED, log 64, unsafe. -/
def restoreTeam (s : State) (t : TeamId) (k : Ckpt) : State :=
  let again := (k.ctxs.map (fun c => relived (s.ctx c.id) c)).sum
  let s : State := k.ctxs.foldl (fun s c =>
    let (n, s) := s.fresh
    let own := match c.id with
      | .team _ r => (k.coord.filter (fun e => e.1 == r)).map (fun e => e.2)
      | _ => []
    s.modCtx c.id (Ctx.restore n c own)) s
  let lives (r : Nat) : Bool := (groupsOf s t r).any (fun g => !(liveSlices s t g).isEmpty)
  let s := s.modTeam t (fun x => { x with
    roles := ((List.range x.roles.length).zip x.roles).map (fun (i, q) => { q with
      ended := !lives i
      handler := none
      viewchg := match q.handler with
        | some p => if p.info.cause = .viewchg then
            put p.info.aux.toNat (max p.info.addr.toNat ((get? p.info.aux.toNat q.viewchg).getD 0)) q.viewchg else q.viewchg
        | none => q.viewchg })
    queues := k.queues
    epoch := k.epoch
    inc := if k.tileinc = 0xFFFFFFFF then k.tileinc else k.tileinc + 1
    nr := k.nr
    coord := k.coord
    tile := k.tile
    effReserve := false
    galReserve := false
    exited := x.exited - again
    ckpts := x.ckpts.filter (fun q => q.valid && q.epoch ≤ k.epoch)
    sealers := []
    faults := []
    sig := 0 })
  let s := leaveSpools s t
  { s with pbars := s.pbars.map (fun (e : Nat × PBar) => (e.1, { e.2 with ended := e.2.ended.filter (fun q => q.1 ≠ t || !lives q.2) })) }

/-- ROLLBACK of a containment unit for a report at d (R285). DEDUCED, log 66, unsafe. -/
def rollbackUnit (s : State) (t : TeamId) (d : Nat) : State :=
  let us := aliveUnit s t
  let s := discardHeld s us
  let s := us.foldl (fun s u => match (s.team? u).bind (fun x => target? x d) with
    | some k => restoreHoldings (restoreTeam (cancelOps s u k.epoch) u k) u k
    | none => s) s
  countUp s (0x100 + ((us.head?.map (fun u => dieOf (coreOf s u))).getD 0))

/-! Seal points (R198, R199) -/

/-- The coordinate of a linear index (R197). -/
def coordOf (s : State) (n i : Nat) : List Nat :=
  match s.launch? n with
  | some l => [i % l.extent.1, i / l.extent.1 % l.extent.2.1, i / l.extent.1 / l.extent.2.1]
  | none => [0, 0, 0]

/-- The die of the leader core of a team's unit. -/
def leaderDie (s : State) (t : TeamId) : Nat :=
  match s.team? t with
  | some x => dieOf (if x.pair.isSome then (pairCores (pairOf x.core)).1 else x.core)
  | none => 0

/-- Whether the arrivals of a seam pair have been joined through the barrier tree (R319). -/
def seamJoined (s : State) (ts : List TeamId) : Bool :=
  (sealersOf s ts).all (fun a => match s.team? a.1 with
    | some x => x.pair.isNone || pairOf x.core % 80 < 72 || a.2.at_ + Config.barrierRelease ≤ s.treeCycle
    | none => true)

/-- Steps 1 and 2 of a seal (R282), and the tree of a seam pair. -/
def mayClose (s : State) (ts : List TeamId) : Bool :=
  !s.ops.any (fun o => ts.contains o.team && o.cls ≠ some .coll)
    && ts.all (fun t => ((s.team? t).map (fun x => x.ckpts.all (fun k => k.valid))).getD true)
    && seamJoined s ts

/-- The signature of a unit: the sum of its teams'. -/
def unitSig (s : State) (us : List TeamId) : DWord :=
  us.foldl (fun n u => n + (((s.team? u).map (fun x => x.sig)).getD 0)) 0

/-- The primary and the shadow unit of a proof-mode tile. -/
def primaryOf (ts : List TeamId) : List TeamId := ts.filter (fun t => !isShadow t)
def shadowOf (ts : List TeamId) : List TeamId := ts.filter isShadow

/-- The arrivals of some teams undone. -/
def clearSealers (s : State) (ts : List TeamId) : State := ts.foldl (fun s t => s.modTeam t (fun x => { x with sealers := [] })) s

/-- The context under which the draw of a seal stands at the spool. -/
def sealUnit (t : TeamId) : CtxId := .team t 0
/-- The draw of `TILE.T` at the spool of the primary unit's leader die (R197, R294, R309): it comes there once. -/
def sealDraw (s : State) (ts : List TeamId) : State :=
  let first := (primaryOf ts).headD ⟨0, 0⟩
  if (keptDraw s (primaryOf ts)).isSome then s
  else
    let die := leaderDie s first
    let here := (drawsOf s first.launch).any (fun q => q.unit = sealUnit first && !q.teams.isEmpty)
    serveSpool (if here then s else queueDraw s first.launch ⟨die, sealUnit first, primaryOf ts ++ shadowOf ts, []⟩) first.launch die

/-- Every role goes on past its seal point, with the draw of `TILE.T` (R198). DEDUCED, log 67, unsafe. -/
def passSeal (s : State) (ts : List TeamId) (tile : Bool) : State :=
  let arrived := sealersOf s ts
  let nr := arrived.any (fun a => a.2.nr)
  let first := ts.headD ⟨0, 0⟩
  let i := if tile then (keptDraw s (primaryOf ts)).join else none
  let s := if tile then leaveSpool s first.launch (sealUnit ((primaryOf ts).headD ⟨0, 0⟩)) else s
  let xyz := (i.map (coordOf s first.launch)).getD []
  let s := if tile then ts.foldl (fun s t => s.modTeam t (fun x => { x with inc := 0, nr := nr, tile := i, coord := [] })) s else s
  let s := arrived.foldl (fun s (t, a) =>
    let c := CtxId.team t a.role
    let regs : List (Loc × Word) := ((List.range 3).zip xyz).flatMap (fun (k, v) => match a.d.up k with
      | .t n => [(Loc.sc n.toNat, BitVec.ofNat 32 v)]
      | _ => [])
    let ws := if tile then regs ++ (if a.pd = 7 then [] else [(Loc.p a.pd.toNat, ofBool i.isSome)]) else []
    let (id, s) := s.fresh
    let s := s.modCtx c (fun x => let x := x.yieldTo ws; { x with
      pc := x.pc + 1
      wait := none
      joined := false
      next := s.cycle + 1
      last := s.cycle + 1
      vars := (x.vars.map (fun r => { r with left := r.left - 1 })) ++ (if tile then [⟨id, ws, a.la, false, false⟩] else []) })
    if tile then
      let kept := ws.map (fun w => match w.1 with
        | .sc n => (a.role, n, w.2)
        | .p n => (a.role, 128 + n, w.2)
        | _ => (a.role, 0, w.2))
      (s.modTeam t (fun x => { x with coord := x.coord ++ kept })).later (.resultArrival c id)
    else s) s
  clearSealers (ts.foldl sealTeam s) ts

/-- Writes of some teams leave their hold to the seal. -/
def letGo (ts : List TeamId) (l : List Held) : List Held := l.map (fun h => if ts.contains h.team then { h with sealed := false } else h)
/-- The held writes of a primary unit leave their hold to the seal; those of its shadow are discarded, but for what its lanes stored to
their private stacks, which only they read (R296). -/
def releaseProof (s : State) (ts : List TeamId) : State :=
  let sh := shadowOf ts
  { s with
    galley := letGo ts (s.galley.filter (fun h => !sh.contains h.team))
    pvCache := letGo ts s.pvCache }

/-- A frame for a fault of a team that no one instruction raises. -/
def teamFault (s : State) (t : TeamId) (f : FaultInfo) : State :=
  let r := ((liveRoles s [t]).head?.map (fun e => e.2)).getD 0
  let c := CtxId.team t r
  toHost s t r ⟨c, f, (s.ctx c).pc, peekWord s c (s.ctx c).pc, 3⟩

/-- The closing seal of a proof-mode tile (R296). -/
def proofSeal (s : State) (ts : List TeamId) (tile : Bool) : State :=
  let ps := primaryOf ts
  let sh := shadowOf ts
  let s0 := unitSig s ps
  if s0 = unitSig s sh then passSeal (releaseProof s ts) ts tile
  else
    let before := ts.any (fun t => ((s.team? t).map (fun (x : Team) => decide (0 < x.mismatches))).getD false)
    let p := ps.headD ⟨0, 0⟩
    let q := sh.headD ⟨0, 0⟩
    if before then
      let s := teamFault s p { cause := .sigmismatch, addr := s0.setWidth 32, aux := (s0 >>> 32).setWidth 32 }
      (unitTeams s q).foldl (fun s u => stopTeam s u .host) s
    else
      let s := rollbackUnit (rollbackUnit s p (s.tick + 10 ^ 9)) q (s.tick + 10 ^ 9)
      ts.foldl (fun s t => s.modTeam t (fun x => { x with mismatches := x.mismatches + 1 })) s

/-- The closing seal in restart-audit mode (R293): incarnation 0 is rolled back, incarnation 1 compared. DEDUCED, log 65, unsafe. -/
def auditSeal (s : State) (ts : List TeamId) (tile : Bool) : State :=
  let t := ts.headD ⟨0, 0⟩
  match (s.team? t).bind (fun x => x.sigPrev) with
  | none =>
    let s1 := unitSig s ts
    let s := rollbackUnit s t (s.tick + 10 ^ 9)
    ts.foldl (fun s u => s.modTeam u (fun x => { x with sigPrev := some s1, inc := 1 })) s
  | some s0 =>
    let s1 := unitSig s ts
    let s := if s0 = s1 then s else match s.team? t with
      | some x => s.say (.auditRecord t (x.tile.getD 0) x.epoch s0 s1)
      | none => s
    passSeal s ts tile

/-- A seal point whose conditions are met. -/
def closeSeal (s : State) (ts : List TeamId) (tile : Bool) : State :=
  match (ts.head?).bind (fun t => (s.launch? t.launch).bind (fun l => (s.team? t).map (fun x => (l, x)))) with
  | none => s
  | some (l, x) =>
    if l.proof && !(shadowOf ts).isEmpty then proofSeal s ts tile
    else if l.audit && !x.nr && x.tile.isSome then auditSeal s ts tile
    else passSeal s ts tile

/-- Whether a seal that closes is passed: the first incarnation of an audited tile is rolled back there, and a tile in proof mode whose
two units differ (R293, R296). -/
def sealPasses (s : State) (ts : List TeamId) : Bool :=
  match (ts.head?).bind (fun t => (s.launch? t.launch).bind (fun l => (s.team? t).map (fun x => (l, x)))) with
  | none => true
  | some (l, x) =>
    if l.proof && !(shadowOf ts).isEmpty then decide (unitSig s (primaryOf ts) = unitSig s (shadowOf ts))
    else if l.audit && !x.nr && x.tile.isSome then x.sigPrev.isSome
    else true

/-- A role at a seal point: it arrives once; the last one closes it for all (R198, R199). DEDUCED, log 63, unsafe. -/
def sealPoint (tile nr : Bool) (d : Reg) (pd : BitVec 3) (e : Env) (s : State) : Res :=
  let t := e.team
  let r := roleOf s e.c
  let ws := if tile then cellsOf s .T e.c 0 3 d 0 ++ cellsOf s .T e.c 0 1 (.p pd) 0 else []
  if meetsPending s ws then .stall s .result
  else
    let here := ((s.team? t).map (fun x => x.sealers.any (fun a => a.role == r))).getD false
    let s := if here then s else s.modTeam t (fun x => { x with
      sealers := x.sealers ++ [⟨r, tile, nr, d, pd, e.h.hints.la.toNat, s.treeCycle⟩] })
    let ts := sealTeams s t
    if !allStand s ts then holdWith s e .seal
    else
      let other := (sealersOf s ts).filter (fun a => a.2.tile != tile)
      if !other.isEmpty then .trap s { cause := .nonuniform, mask := maskOf (distinct (other.map (fun a => a.2.role))) }
      else match ts.findSome? (fun u => (s.team? u).bind (fun x =>
          x.queues.findIdx? (fun q => (q.map (fun y => !y.elems.isEmpty)).getD false))) with
        | some q => .trap s (queueBounds q)
        | none =>
          if !mayClose s ts then holdWith s e .seal
          else
            let draws := tile && sealPasses s ts
            let s := if draws then sealDraw s ts else s
            if draws && (keptDraw s (primaryOf ts)).isNone then holdWith s e .seal else .done (closeSeal s ts tile)

def sealHow (tile : Bool) : How := { anchored := true, varying := tile, noHandler := true }

/-- `SEAL.T` (R199). -/
def execSeal (h : Head) (s : State) : Host.Outcome State Fault Refusal :=
  issue h (sealHow false) (sealPoint false false .zero 7) s

/-! Steps that befall checkpoints and galleys -/

/-- Whether storage that a team freed has become free to others at a checkpoint of an epoch (R227). -/
def freedBefore (freed : Option Nat) (epoch : Nat) : Bool := (freed.map (fun e => decide (e < epoch))).getD false
/-- Storage that a team freed before a checkpoint becomes free to the other team of its core, or is no longer what it takes back to one
(R227). -/
def releaseHoldings (s : State) (t : TeamId) (epoch : Nat) : State :=
  let hold (l : List (Nat × TeamId × Nat)) : List (Nat × TeamId × Nat) := l.filter (fun g => g.2.1 ≠ t || epoch ≤ g.2.2)
  let s := allocSoon (s.modCore (coreOf s t) (fun c => { c with
    tiles := c.tiles.map (fun y => if y.owner = some t ∧ freedBefore y.freed epoch = true then
      { y with owner := none, freed := none } else y)
    recs := c.recs.map (fun r => if r.owner = some t ∧ freedBefore r.freed epoch = true then {
      } else r)
    granHold := hold c.granHold })) (coreOf s t)
  { s with saved := s.saved.map (fun v => if v.id = t then { v with
      tiles := v.tiles.filter (fun y => !freedBefore y.2.freed epoch)
      recs := v.recs.filter (fun r => !freedBefore r.2.1.freed epoch)
      granHold := hold v.granHold } else v) }

/-- `CHECKPOINT_VALID` (R284): W has passed since the checkpoint without a strike on the unit; a strike may still be reported in the tick
in which W ends. DEDUCED, log 126, safe. -/
def execCheckpointValid (t : TeamId) (s : State) : Host.Outcome State Fault Refusal :=
  match s.team? t with
  | none => .next s
  | some x => match x.ckpts with
    | k :: _ =>
      if k.valid || s.tick ≤ k.c + Config.galleyWindow then .next s
      else
        let s := s.modTeam t (fun x => { x with ckpts := [{ k with valid := true }], drawn := x.drawn.filter (fun d => k.epoch < d.1)
                                                aborts := x.aborts.filter (fun a => k.epoch ≤ a.1) })
        let s := { s with effects := s.effects.filter (fun e => !(e.key.launch == t.launch % 2 ^ 40 && e.key.team == t.num % shadowBase
          && e.key.ctx == x.ctx && e.key.epoch < k.epoch)) }
        .next (releaseHoldings s t k.epoch)
    | [] => .next s

/-- Whether a write may leave the galley: its W has passed, and the link to host memory that it writes does not train (R387, R394). -/
def outflows (s : State) (h : Held) : Bool := h.due s.tick && !(s.pages.train && h.bytes.any (fun b => isHost b.1))
/-- `GALLEY_RELEASE` (R281): the entries of a core's galley whose W has passed reach memory, and
repair the check words that they cover (R298). -/
def execGalleyRelease (die core : Nat) (s : State) : Host.Outcome State Fault Refusal :=
  let n := Config.coresPerDie * die + core
  let (gone, kept) := releasable (fun h => h.core == n && outflows s h) [] s.galley
  .next { gone.foldl (fun s h => putBytes s h.bytes) s with galley := kept }

end Sys2Proof.Machine
end

