-- ==== Sys2Proof/Machine/Coll.lean ====
section
/-! DEFINITION. Collectives (R322 to R329, R333, R334): the domain as the collective engine keeps it, `COLL`, `VIEW`, the tree,
and the steps that befall collective flits; with them `DELIVERY`, which serves every kind of engine operation. -/

namespace Sys2Proof.Machine

/-! Domains (R320) -/

/-- The view position of a rank. -/
def Domain.pos (d : Domain) (rank : Nat) : Option Nat := d.members.findIdx? (fun r => r == rank)
/-- The rank at a position. -/
def Domain.at_ (d : Domain) (p : Nat) : Nat := d.members.getD p 0
def Domain.others (d : Domain) : List Nat := d.members.filter (fun r => r ≠ d.own)

/-- Whether a die is halted for debug: a team on it stands stopped for its debug agent (R271, R338). -/
def haltedDie (s : State) (die : Nat) : Bool :=
  s.teams.any (fun (t : TeamId × Team) => t.2.die == die && (match t.2.state with
    | .stopped .debug => true
    | _ => false))

/-- Whether the collective engine stands: die 0 is halted for debug, or in reset (R338, R384). -/
def collStopped (s : State) : Bool := haltedDie s 0 || s.pages.dierst.getLsbD 0

/-- What a collective operation asks. -/
structure CollJob where
  op : CollOp
  red : CollRed
  ty : CollTy
  pol : CollPolicy
  dom : Nat
  root : Nat
  n : Nat
  src : EP
  dst : EP
  deriving DecidableEq, Repr
def Op.job (o : Op) : Option CollJob :=
  match o.kind with
  | .coll op red ty pol dom root n src dst => some ⟨op, red, ty, pol, dom, root, n, src, dst⟩
  | _ => none

/-- Whether the package's heartbeats on a domain carry HOLD (R338). -/
def ownHold (s : State) (d : Domain) : Bool :=
  s.ops.any (fun o => ((Op.job o).map (fun j => j.dom == d.num)).getD false
    && haltedDie s (((s.team? o.team).map (fun x => x.die)).getD 0))
/-- Whether a member of a domain holds. -/
def holds (s : State) (d : Domain) : Bool := ownHold s d || d.heard.any (fun h => h.2.2 && d.members.contains h.1)
/-- Whether the domain's collectives stall: without a quorum (R332), while a member holds or the engine stands (R338). -/
def collStalled (s : State) (d : Domain) : Bool := d.noQuorum || holds s d || collStopped s
/-- Whether the domain's collectives may go on (R332, R338, R341). -/
def mayRun (s : State) (d : Domain) : Bool := d.state == .normal && !d.frozen && d.members.contains d.own && !collStalled s d

/-- MOD[8:0] of a `COLL` (R62), and the number that describes a collective (R326). -/
def CollJob.mod (j : CollJob) : Nat := j.op.code + 8 * j.red.code + 32 * j.ty.code + 128 * j.pol.code
def CollJob.desc (j : CollJob) : Nat := j.mod + 2 ^ 16 * j.root + 2 ^ 32 * j.n

def CollJob.bytes (j : CollJob) : Nat := if j.ty = .bf16 then 2 else 4
/-- Whether an operation reduces. -/
def CollJob.reduces (j : CollJob) : Bool := j.op = .allred || j.op = .redscat
/-- Blocks of source and destination for R ranks (R324). -/
def CollJob.srcBlocks (j : CollJob) (r : Nat) : Nat := if j.op = .redscat ∨ j.op = .alltoall then r else 1
def CollJob.dstBlocks (j : CollJob) (r : Nat) : Nat := if j.op = .allgath ∨ j.op = .alltoall then r else 1
def CollJob.blockBytes (j : CollJob) : Nat := j.n * j.bytes

/-- The collective of an operation. -/
def collOf (d : Domain) (op : Nat) : Option Collective := d.colls.find? (fun c => c.op == op)
def modColl (s : State) (dom seq : Nat) (f : Collective → Collective) : State :=
  s.modDomain dom (fun d => { d with colls := d.colls.map (fun c => if c.seq = seq then f c else c) })

/-- The oldest collective of a domain goes on. -/
def kick (s : State) (dom : Nat) : State :=
  match (s.domain? dom).bind (fun d => d.colls.head?) with
  | some c => s.later (.delivery c.op)
  | none => s

/-- A collective ends at this member (R327): its operation completes under R177, and the logged contribution gets its
status. -/
def collDone (s : State) (dom : Nat) (c : Collective) (code detail : Nat) : State :=
  let s := s.modDomain dom (fun d => { d with colls := d.colls.filter (fun x => x.seq ≠ c.seq) })
  let s := s.modOp c.op (fun o => { o with finished := true, code := code, done := detail })
  let s := match s.op? c.op with
    | some o => { s with effects := s.effects.map (fun (e : Effect) =>
        if o.key = some e.key ∧ e.kind = 5 then { e with result := o.status.setWidth 64 } else e) }
    | none => s
  kick (s.later (.operationCompletion c.op)) dom

/-- Every collective of a domain ended with a code. -/
def endAll (s : State) (dom code detail : Nat) : State :=
  match s.domain? dom with
  | some d => d.colls.foldl (fun s c => collDone s dom c code detail) s
  | none => s

/-- The timeout of a fabric request of a collective (R337). -/
def fabricTimeout (s : State) (op : Nat) : Nat :=
  1000 * ((((s.op? op).bind (fun o => s.team? o.team)).bind (fun x => s.context? x.ctx)).map (fun c => c.timeout)).getD 2000
/-- Ticks between two sendings of a flit (R343). -/
def flitEvery : Nat := 10000
/-- A flit sent, and kept until it is acknowledged (R343). -/
def sendFlit (s : State) (d : Domain) (c : Collective) (dest : Nat) (f : Flit) : State :=
  let s := s.modDomain d.num (fun x => { x with
    unacked := x.unacked ++ [⟨dest, c.seq, s.tick, s.tick + flitEvery, fabricTimeout s c.op, f⟩] })
  s.say (.flit d.num dest (BitVec.ofNat 16 d.view) c.seq f)
def sendAll (s : State) (d : Domain) (c : Collective) (dest : List Nat) (f : Flit) : State :=
  dest.foldl (fun s k => sendFlit s d c k f) s

/-! The tree over view positions (R325) -/

/-- The positions that send to one on the way up, and the one it sends to. -/
def treeChildren (p n : Nat) : List Nat :=
  (List.range 10).filterMap (fun k => if p % 2 ^ (k + 1) = 0 ∧ p + 2 ^ k < n then some (p + 2 ^ k) else none)
def treeParent (p : Nat) : Nat :=
  match (List.range 10).find? (fun k => p / 2 ^ k % 2 = 1) with
  | some k => p - 2 ^ k
  | none => 0

/-- One combination of two elements. -/
def CollJob.combine (j : CollJob) (a b : Word) : Word :=
  BitVec.ofNat 32 (match j.ty, j.red with
    | .i32, .min => apply .smin 32 a.toNat b.toNat
    | .i32, .max => apply .smax 32 a.toNat b.toNat
    | .i32, _ => apply .add 32 a.toNat b.toNat
    | _, .min => minCode .f32 a.toNat b.toNat
    | _, .max => maxCode .f32 a.toNat b.toNat
    | _, _ => addCode .f32 .rne (value .f32 a.toNat) (value .f32 b.toNat))

/-- The value that position p forms from its own and the received ones: the level at which it sends it up, or holds the root;
`none` while one is missing. -/
def climb (f : Word → Word → Word) (nodes : List (Nat × Nat × List Word)) (p n : Nat) :
    Nat → Nat → List Word → Option (Nat × List Word)
  | 0, l, v => some (l, v)
  | fuel + 1, l, v =>
    if p % 2 ^ (l + 1) ≠ 0 || (p = 0 && n ≤ 2 ^ l) then some (l, v)
    else if n ≤ p + 2 ^ l then climb f nodes p n fuel (l + 1) v
    else match nodes.find? (fun x => x.1 == l && x.2.1 == p + 2 ^ l) with
      | none => none
      | some x => climb f nodes p n fuel (l + 1) (v.zipWith f x.2.2)

/-- A value divided by a number, exact but for a last bit that stands for everything below: enough for one rounding to f32. -/
def Val.over : Val → Nat → Val
  | .fin neg m e, n => .fin neg (2 * (m * 2 ^ 64 / n) + (if m * 2 ^ 64 % n = 0 then 0 else 1)) (e - 65)
  | v, _ => v

/-- What the root becomes before it goes down: the average, or the factor of REWEIGHT (R325, R334). -/
def CollJob.finish (j : CollJob) (oldSize newSize : Nat) (changed : Bool) (w : Word) : Word :=
  if j.ty = .i32 then w
  else if j.red = .avg then BitVec.ofNat 32 (convert .f32 .rne false (Val.over (value .f32 w.toNat) newSize))
  else if j.pol = .reweight ∧ j.red = .add ∧ changed then
    let f := convert .f32 .rne false (Val.over (.fin false oldSize 0) newSize)
    BitVec.ofNat 32 (mulCode .f32 .rne (value .f32 w.toNat) (value .f32 f))
  else w

/-! Sources and destinations (R324) -/

/-- The next piece of some blocks of n bytes after q bytes: its offset in the buffer and its length, at most a page (R323). -/
def nextPiece (ks : List Nat) (n q : Nat) : Option (Nat × Nat) :=
  (ks[q / n]?).map (fun k => (k * n + q % n, min 65536 (n - q % n)))

/-- The elements that some bytes hold; f32 codes where they are to be reduced. -/
def CollJob.elements (j : CollJob) (bs : List Byte) : List Word :=
  (List.range (bs.length / j.bytes)).map (fun i =>
    let v := leNat ((bs.drop (j.bytes * i)).take j.bytes)
    BitVec.ofNat 32 (if j.ty = .bf16 ∧ j.reduces then v * 65536 else v))
/-- The bytes of some elements. -/
def CollJob.encode (j : CollJob) (ws : List Word) : List Byte :=
  ws.flatMap (fun w => leBytes j.bytes (if j.ty = .bf16 ∧ j.reduces then convert .bf16 .rne false (value .f32 w.toNat) else w.toNat))

/-- The blocks of its source that a member reads. -/
def CollJob.reads (j : CollJob) (d : Domain) : List Nat :=
  match j.op with
  | .allred | .allgath => [0]
  | .redscat | .alltoall => d.members
  | .bcast => if d.own = j.root then [0] else []

/-- The blocks that a member writes, once it has them. -/
def CollJob.result (j : CollJob) (d : Domain) (c : Collective) : Option (List (Nat × List Word)) :=
  match j.op with
  | .allred => c.root.map (fun r => [(0, r)])
  | .redscat => c.root.map (fun r => [(0, (r.drop (((d.pos d.own).getD 0) * j.n)).take j.n)])
  | .allgath | .alltoall =>
    if d.members.all (fun k => (get? k c.blocks).isSome) then some (d.members.map (fun k => (k, (get? k c.blocks).getD []))) else none
  | .bcast => (get? j.root c.blocks).map (fun r => [(0, r)])

/-! The steps of a collective at this member -/

/-- The block of the own source that the own destination reads. -/
def CollJob.ownBlock (j : CollJob) (d : Domain) : Option Nat :=
  match j.op with
  | .allred | .allgath => some 0
  | .redscat | .alltoall => some d.own
  | .bcast => if d.own = j.root then some 0 else none
/-- The place of a byte of a buffer by the tables as they stand; `none` where there is none. -/
def peek (s : State) (o : Op) (p : EP) (off : Nat) : Option Nat :=
  match p.sp with
  | .mem => (s.team? o.team).bind (fun x => match walk s x.ctx (p.addr + off) with
    | .ok l => some (l.place (p.addr + off))
    | .error _ => none)
  | sp => resolve s o.team sp (p.addr + off) 1
/-- The bytes of the own source that the own destination reads, as they stand: offset, place and value. -/
def ownSource (s : State) (o : Op) (j : CollJob) (d : Domain) : List (Nat × Nat × Byte) :=
  match j.ownBlock d with
  | none => []
  | some k => (List.range j.blockBytes).filterMap (fun i =>
    (peek s o j.src (k * j.blockBytes + i)).map (fun a => (i, a, readByte s (unitTeams s o.team) a)))

/-- A collective that cannot go on ends here with CODE 0x03 (R267). -/
def collStuck (s : State) (o : Op) (d : Domain) (c : Collective) : Reach → Host.Outcome State Fault Refusal
  | .fault e va => if o.asked = some (va / 65536) then .next (collDone s d.num c 3 0) else unreached s o (.fault e va)
  | .out => .next (collDone s d.num c 3 0)
  | r => unreached s o r

/-- The next piece of the own source read. -/
def collRead (s : State) (o : Op) (j : CollJob) (d : Domain) (c : Collective) (piece : Nat × Nat) : Host.Outcome State Fault Refusal :=
  match places s o j.src piece.1 piece.2 .read with
  | .error r => collStuck s o d c r
  | .ok l =>
    if engineBar s o l [] then .next (engineWait s o l)
    else
      let s := s.modOp o.id (fun x => { x with begun := true, walk := none, walks := [], asked := none })
      .next (kick (modColl s d.num c.seq (fun c => { c with read := c.read ++ gatherBytes s o l })) d.num)

/-- The own source is in: its values take their place in the tree, its description and what does not go up the tree are sent out. -/
def collBegin (s : State) (o : Op) (j : CollJob) (d : Domain) (c : Collective) : State :=
  let es := j.elements c.read
  let p := (d.pos d.own).getD 0
  let block (i : Nat) : List Word := (es.drop (i * j.n)).take j.n
  let seen := c.source.map (fun x => x.1)
  let s := modColl (s.modOp o.id (fun x => { x with begun := true })) d.num c.seq (fun c => { c with
    started := true
    startSize := if c.startView = 0 then d.members.length else c.startSize
    startView := if c.startView = 0 then d.view else c.startView
    source := c.source ++ (ownSource s o j d).filter (fun x => !seen.contains x.1)
    nodes := if j.reduces then (0, p, es) :: c.nodes else c.nodes
    blocks := match j.op with
      | .allgath => put d.own es c.blocks
      | .alltoall => put d.own (block p) c.blocks
      | .bcast => if d.own = j.root then put d.own es c.blocks else c.blocks
      | _ => c.blocks })
  let s := sendAll s d c d.others (.describe c.desc)
  match j.op with
  | .allgath => sendAll s d c d.others (.block c.desc d.own es)
  | .alltoall => d.others.foldl (fun s k => sendFlit s d c k (.block c.desc d.own (block ((d.pos k).getD 0)))) s
  | .bcast => if d.own = j.root then sendAll s d c d.others (.block c.desc d.own es) else s
  | _ => s

/-- The tree steps that can be taken: the value goes up, or the root is formed. -/
def collClimb (s : State) (j : CollJob) (d : Domain) (c : Collective) : State :=
  if !j.reduces || c.sent || c.root.isSome then s
  else
    let p := (d.pos d.own).getD 0
    let n := d.members.length
    match c.nodes.find? (fun x => x.1 == 0 && x.2.1 == p) with
    | none => s
    | some own => match climb (j.combine) c.nodes p n 11 0 own.2.2 with
      | none => s
      | some (l, v) =>
        if p = 0 then modColl s d.num c.seq (fun c => { c with
          root := some (v.map (j.finish c.startSize n (c.startView ≠ d.view))) })
        else sendFlit (modColl s d.num c.seq (fun c => { c with sent := true })) d c (d.at_ (treeParent p)) (.up c.desc l p v)

/-- Bytes written for a collective, held as every agent's writes are (R243); none once its team is gone. -/
def holdColl (s : State) (o : Op) (bs : List (Nat × Byte)) : State :=
  if o.cancel then s else { s with galley := s.galley ++ [⟨collCore, o.team, bs, s.tick, none, 0, false, [], false⟩] }

/-- The next piece of the destination written: its bytes are undefined until the collective completes (R242). DESIGN CHOICE, log 73, safe. -/
def collPut (s : State) (o : Op) (j : CollJob) (d : Domain) (c : Collective) (bs : List (Nat × List Word)) (piece : Nat × Nat) :
    Host.Outcome State Fault Refusal :=
  match places s o j.dst piece.1 piece.2 .write with
  | .error r => collStuck s o d c r
  | .ok l =>
    if placesWait s o l then .next (tryAgain s o.id)
    else
      let data := ((j.encode (bs.flatMap (fun b => b.2))).drop c.dest.length).take piece.2
      let (n, s) := s.fresh
      let open_ := (List.range l.length).map (fun i => (Config.freeCell n i).setWidth 8)
      let s := (holdColl s o (l.zip open_)).modOp o.id (fun x => { x with walk := none, walks := [], asked := none })
      .next (kick (modColl s d.num c.seq (fun c => { c with dest := c.dest ++ l, data := c.data ++ data })) d.num)

/-- All of the destination is written: the root goes on down (R328). -/
def collWrote (s : State) (d : Domain) (c : Collective) : State :=
  let s := modColl s d.num c.seq (fun c => { c with written := true })
  match c.root with
  | some r => sendAll s d c ((treeChildren ((d.pos d.own).getD 0) d.members.length).map d.at_) (.down c.desc r)
  | none => s

/-- The offsets of a collective's own source bytes that are not as they were at issue: for its team, or by a write still held. -/
def changedNow (s : State) (c : Collective) : List Nat :=
  match s.op? c.op with
  | none => []
  | some o => (c.source.filter (fun x => readByte s (unitTeams s o.team) x.2.1 ≠ x.2.2
      || s.galley.any (fun h => ((get? x.2.1 h.bytes).map (fun b => decide (b ≠ x.2.2))).getD false))).map (fun x => x.1)
/-- The source bytes that have changed before the completion of each collective, noted at every step (R242). -/
def noteSources (s : State) : State :=
  { s with domains := s.domains.map (fun d => { d with colls := d.colls.map (fun c =>
      { c with tainted := distinct (c.tainted ++ changedNow s c) }) }) }
/-- The destination of a collective as it completes: its bytes, but for the elements that read a source byte which has changed, which stay
undefined (R242). DEDUCED, log 135, unsafe. -/
def collSettle (s : State) (d : Domain) (c : Collective) : State :=
  match (s.op? c.op).bind (fun o => (Op.job o).map (fun j => (o, j))) with
  | none => s
  | some (o, j) =>
    let off := match j.op with
      | .allgath | .alltoall => (d.pos d.own).getD 0 * j.blockBytes
      | _ => 0
    let bad := (c.tainted ++ changedNow s c).map (fun x => (off + x) / j.bytes)
    let (n, s) := s.fresh
    holdColl s o (((List.range c.dest.length).zip (c.dest.zip c.data)).map (fun (i, a, b) =>
      (a, if bad.contains (i / j.bytes) then (Config.freeCell n i).setWidth 8 else b)))

/-- A confirmed collective completes here and sends CONFIRM on (R328). -/
def collConfirm (s : State) (d : Domain) (c : Collective) : State :=
  let s := s.modDomain d.num (fun x => { x with confirmed := some (max c.seq (x.confirmed.getD 0)) })
  let s := collSettle s d c
  let s := if c.startView = d.view then collDone s d.num c 0 0 else collDone s d.num c 2 (d.view % 2 ^ 24)
  sendAll s d c ((treeChildren ((d.pos d.own).getD 0) d.members.length).map d.at_) .confirm

/-- FIN goes up once the destination is written and every FIN from below is in (R328). -/
def collFin (s : State) (d : Domain) (c : Collective) : State :=
  let p := (d.pos d.own).getD 0
  if !c.written || c.finSent || !(treeChildren p d.members.length).all (fun k => c.fins.contains k) then s
  else
    let s := modColl s d.num c.seq (fun c => { c with finSent := true })
    if p = 0 then collConfirm s d c else sendFlit s d c (d.at_ (treeParent p)) (.fin p)

/-- The domain and collective of an operation as they stand. -/
def collNow (s : State) (dom op : Nat) : Option (Domain × Collective) :=
  (s.domain? dom).bind (fun d => (collOf d op).map (fun c => (d, c)))

/-- The steps of a collective whose source is in: up the tree, into the destination piece by piece, and FIN. -/
def collRun (s : State) (o : Op) (j : CollJob) (d : Domain) (c : Collective) : Host.Outcome State Fault Refusal :=
  let s := collClimb s j d c
  match collNow s j.dom o.id with
  | none => .next s
  | some (d, c) =>
    if c.written then .next (collFin s d c)
    else match j.result d c with
      | none => .next s
      | some bs => match nextPiece (bs.map (fun b => b.1)) j.blockBytes c.dest.length with
        | some piece => collPut s o j d c bs piece
        | none => .next (kick (collWrote s d c) j.dom)

/-- The end of a collective that does not run under the view: a broadcast whose root is not in it, and after a view change one of the
policy ABORT (R334); it comes when every older one of the domain has been finished (R333). -/
def policy (d : Domain) (j : CollJob) (c : Collective) : Option Nat :=
  if j.op = .bcast ∧ !d.members.contains j.root then some 3
  else if j.pol = .abort ∧ c.startView ≠ 0 ∧ c.startView ≠ d.view then some 4
  else none

/-- The next step that a collective can take. -/
def collGo (s : State) (o : Op) (j : CollJob) : Host.Outcome State Fault Refusal :=
  match collNow s j.dom o.id with
  | none => .next s
  | some (d, c) =>
    if (d.colls.head?.map (fun x => x.op)) ≠ some o.id || !mayRun s d || (c.startView = 0 && d.offer.isSome) then .next s
    else match policy d j c with
    | some detail => .next (collDone s d.num c 3 detail)
    | none =>
    if c.started then collRun s o j d c
    else match nextPiece (j.reads d) j.blockBytes c.read.length with
      | some piece => collRead s o j d c piece
      | none => .next (kick (collBegin s o j d c) j.dom)

/-! Collective flits taken (R321, R326, R328, R343) -/

/-- Whether the engine takes flits of a tag in a domain (R321, R341). -/
def takesFlits (d : Domain) (tag : BitVec 16) : Bool := BitVec.ofNat 16 d.view = tag && d.state ≠ .acked && !d.frozen && d.state ≠ .excluded

def Flit.desc? : Flit → Option Nat
  | .up n .. | .down n _ | .block n .. | .describe n => some n
  | _ => none
/-- The number of a flit's kind, which its acknowledgement names. -/
def Flit.kind : Flit → Nat
  | .up .. => 0
  | .down .. => 1
  | .block .. => 2
  | .describe _ => 3
  | .clash => 4
  | .fin _ => 5
  | .confirm => 6
  | .ack _ => 7

/-- A collective whose members differ ends here (R326). -/
def collDiffer (s : State) (d : Domain) (c : Collective) : State :=
  (collDone s d.num c 3 1).modDomain d.num (fun d => { d with clashed := d.clashed ++ [c.seq] })
/-- It ends at every other member. DEDUCED, log 162, safe. -/
def collClash (s : State) (d : Domain) (c : Collective) : State := sendAll (collDiffer s d c) d c d.others .clash
/-- The others are told again of the collectives that ended so, under a new view: the flits of the old one are dropped. -/
def clashAgain (s : State) (dom : Nat) : State :=
  match s.domain? dom with
  | some d => d.clashed.foldl (fun s k => sendAll s d { (default : Collective) with seq := k } d.others .clash) s
  | none => s

/-- What a flit does to the collective it belongs to. -/
def collTake (s : State) (d : Domain) (c : Collective) (f : Flit) : State :=
  if f = .clash then collDiffer s d c
  else if f = .confirm then (if c.written then collConfirm s d c else s)
  else if ((Flit.desc? f).map (fun n => decide (n ≠ c.desc))).getD false then collClash s d c
  else kick (modColl s d.num c.seq (fun c => match f with
    | .up _ l p v => { c with nodes := c.nodes.filter (fun x => x.1 ≠ l || x.2.1 ≠ p) ++ [(l, p, v)] }
    | .down _ v => { c with root := some v }
    | .block _ r v => { c with blocks := put r v c.blocks }
    | .fin p => { c with fins := distinct (c.fins ++ [p]) }
    | _ => c)) d.num
/-- The flits of a collective that came before this member accepted it, or while the domain's collectives stalled. -/
def takeEarly (s : State) (dom seq : Nat) : State :=
  match s.domain? dom with
  | none => s
  | some d =>
    let s := s.modDomain dom (fun d => { d with early := d.early.filter (fun e => e.1 ≠ seq) })
    (d.early.filter (fun e => e.1 = seq)).foldl (fun s e =>
      match (s.domain? dom).bind (fun d => (d.colls.find? (fun c => c.seq == seq)).map (fun c => (d, c))) with
      | some (d, c) => collTake s d c e.2.2
      | none => s) s

/-- The flits that wait for a stall to end, taken once it has. -/
def drainEarly (s : State) (d : Domain) : State :=
  if collStalled s d || !takesFlits d (BitVec.ofNat 16 d.view) then s
  else (distinct ((d.early.map (fun e => e.1)).filter (fun k => d.colls.any (fun c => c.seq == k)))).foldl (fun s k => takeEarly s d.num k) s

/-- A collective flit that arrives: taken and acknowledged, or discarded. One of a collective not yet accepted
here is kept for it, and while the domain's collectives stall, every one (R332, R338). DEDUCED, log 143, safe. -/
def flitIn (dom : Nat) (tag : BitVec 16) (seq : Nat) (from_ : Domain → Nat) (f : Flit) (s : State) : Host.Outcome State Fault Refusal :=
  match s.domain? dom with
  | none => .next s
  | some d =>
    if !takesFlits d tag || collStopped s then .next s
    else match f with
      | .ack k => .next (s.modDomain dom (fun x => { x with
          unacked := x.unacked.filter (fun u => u.rank ≠ from_ d || u.seq ≠ seq || Flit.kind u.flit ≠ k) }))
      | f =>
        let s := s.say (.flit dom (from_ d) (BitVec.ofNat 16 d.view) seq (.ack (Flit.kind f)))
        let keep : State :=
          if d.early.contains (seq, from_ d, f) then s else s.modDomain dom (fun x => { x with early := x.early ++ [(seq, from_ d, f)] })
        match d.colls.find? (fun c => c.seq == seq) with
        | some c => .next (if collStalled s d then keep else collTake s d c f)
        | none => .next (if seq < d.nextSeq then s else keep)

/-! COLL and VIEW (R322, R323, R326, R329) -/

/-- An address word of `COLL` as an endpoint; `none` where a field is invalid (R322). -/
def collEP (w : Nat) : Option EP :=
  let a := w % 2 ^ 57
  if w / 2 ^ 57 % 32 ≠ 0 then none
  else if w / 2 ^ 62 = 0 then (if a < 2 ^ 56 then some ⟨.mem, a⟩ else none)
  else if w / 2 ^ 62 = 1 then (if a < 2 ^ 28 then some ⟨.dz, a⟩ else none)
  else none
/-- Whether a buffer lies inside its space. -/
def EP.holds (p : EP) (n : Nat) : Bool := p.addr + n ≤ (if p.sp = .mem then 2 ^ 56 else Config.dzBytes)

/-- The member that the package is in a domain; one that stands EXCLUDED or JOINING is none. DEDUCED, log 75, unsafe. -/
def memberOf (s : State) (dom : Nat) : Option Domain :=
  match s.domain? dom with
  | some d => if d.state = .excluded ∨ d.state = .joining then none else some d
  | none => none

/-- The checks of R323 that give BOUNDS, on the values read. -/
def collJob (s : State) (op : CollOp) (red : CollRed) (ty : CollTy) (pol : CollPolicy) (src dst n ctl : Nat) : Option CollJob :=
  match collEP src, collEP dst, memberOf s (ctl % 16) with
  | some p, some q, some d =>
    let j : CollJob := ⟨op, red, ty, pol, ctl % 16, ctl / 2 ^ 16 % 1024, n, p, q⟩
    let a := j.srcBlocks d.ranks * j.blockBytes
    let b := j.dstBlocks d.ranks * j.blockBytes
    if ctl / 2 ^ 26 ≠ 0 || ctl / 16 % 4096 ≠ 0 || (j.root ≠ 0 && op ≠ .bcast) || n = 0 || 2 ^ 24 < n || !p.holds a || !q.holds b
        || (p.sp = q.sp && p.addr < q.addr + b && q.addr < p.addr + a) || d.ranks ≤ j.root then none
    else some j
  | _, _, _ => none

/-- A collective accepted by the engine: it takes the next sequence of its domain (R326). -/
def acceptColl (s : State) (o : Op) (j : CollJob) : State :=
  match s.domain? j.dom with
  | none => s
  | some d =>
    let c : Collective := { (default : Collective) with
      seq := d.nextSeq
      op := o.id
      desc := j.desc
      source := ownSource s o j d
      startSize := if d.offer.isSome then 0 else d.members.length
      startView := if d.offer.isSome then 0 else d.view }
    let s := s.modDomain j.dom (fun d => { d with nextSeq := d.nextSeq + 1, colls := d.colls ++ [c] })
    if j.op = .bcast ∧ !d.members.contains j.root then collDone (sendAll s d c d.others (.describe c.desc)) j.dom c 3 3
    else if collStalled s d then s
    else takeEarly (if d.colls.isEmpty then kick s j.dom else s) j.dom c.seq

/-- The operation of a contribution that is still running. DEDUCED, log 70, safe. -/
def runningColl (s : State) (k : EffKey) : Option Op := s.ops.find? (fun o => o.cls == some .coll && o.key == some k && !o.finished)

/-- `COLL` (R322, R323): checks, then the operation; a re-run attaches to what its key names (R285, R289). -/
def collBody (op : CollOp) (red : CollRed) (ty : CollTy) (pol : CollPolicy) (h : BitVec 4) (a b c : Reg) (e : Env) (s : State) : Res :=
  engineSrcs e s [.reg a 2, .reg (a.up 2) 2, .reg b 1, .reg c 1] (fun v s =>
    let src := v.getD 0 0
    let dst := v.getD 1 0
    let n := v.getD 2 0
    let ctl := v.getD 3 0
    match skewed [(src, 16), (dst, 16)] with
    | some x => .trap s (alignFault x)
    | none => match collJob s op red ty pol src dst n ctl with
      | none => .trap s (boundsAux (ctl % 16))
      | some j =>
        if countFull s e.c .coll then .stall s .engine
        else
          let k := engineKey s e
          let signed (s : State) : State :=
            sign (countEffect s [e.c]) e.team (sigEffect (BitVec.ofNat 64 (n + 2 ^ 32 * j.mod)) 0 5 j.src.sp.num j.src.addr)
          match replayed s e.team k collPoint 0 5 j.src.addr with
          | some x => match runningColl s k with
            | some o =>
              if isShadow e.team then .stall s .effects
              else
                let us := counters s e.c
                let s := s.modOp o.id (fun x => { x with units := us, epoch := epochOf s e.team })
                let s := s.modCtxs us (fun x => { x with counts := x.counts.upd .coll (fun n => n + 1) })
                .next (signed (setHandle s e.c h.toNat (.pending o.id)))
            | none => .next (signed (setHandle s e.c h.toNat (.complete s.opNum (x.result.setWidth 32))))
          | none =>
            if isShadow e.team then .stall s .effects
            else match effectBar s e.team 1 [collPoint] 5 with
              | some q => q.res s
              | none =>
                let o := { newOp s e (.coll op red ty pol j.dom j.root n j.src j.dst) (some .coll) with key := some k }
                let s := logEffect s ⟨k, collPoint, incOf s e.team, 0, 5, j.src.addr, 0, []⟩
                .next (acceptColl (signed (beginOp s o (some h))) o j))
def execColl (h : Head) (op : CollOp) (red : CollRed) (ty : CollTy) (policy : CollPolicy) (d : BitVec 4) (a b c : Reg) (s : State) :
    Host.Outcome State Fault Refusal :=
  issue h { effectHow with noHandler := true } (collBody op red ty policy d a b c) s

/-- `VIEW` (R329): number, size and own rank of one sample. -/
def viewBody (d a : Reg) (e : Env) (s : State) : Res :=
  engineSrcs e s [.reg a 1] (fun v s =>
    let n := v.getD 0 0
    if n / 16 ≠ 0 then .trap s (boundsAux (n % 16))
    else match s.domain? n with
      | none => .trap s (boundsAux n)
      | some x =>
        let size := if x.state = .excluded then 0 else x.members.length
        store e s .varies (e.parts.map (fun p => (p, [(d, 1, x.view), (d.up 1, 1, size), (d.up 2, 1, x.own)]))))
def execView (h : Head) (d a : Reg) (s : State) : Host.Outcome State Fault Refusal :=
  issue h { anchored := namesQueue [d] [.reg a 1], varying := true, noHandler := true } (viewBody d a) s

/-! Steps that befall collective flits (R321, R326, R328, R343) -/

/-- `COLLECTIVE_FLIT`. -/
def execCollectiveFlit (dom : Nat) (tag : BitVec 16) (seq sender : Nat) (f : Flit) (s : State) : Host.Outcome State Fault Refusal :=
  flitIn dom tag seq (fun _ => sender) f s

/-- `FLIT_RESEND` (R343): every flit whose 10 µs have passed. -/
def execFlitResend (dom : Nat) (s : State) : Host.Outcome State Fault Refusal :=
  match s.domain? dom with
  | none => .next s
  | some d =>
    let due (u : Unacked) : Bool := u.again ≤ s.tick
    let s := s.modDomain dom (fun d => { d with unacked := d.unacked.map (fun u => if due u then { u with again := s.tick + flitEvery } else u) })
    .next ((d.unacked.filter due).foldl (fun s u => s.say (.flit dom u.rank (BitVec.ofNat 16 d.view) u.seq u.flit)) s)

/-- `FIN` (R328). -/
def execFin (dom : Nat) (tag : BitVec 16) (seq pos : Nat) (s : State) : Host.Outcome State Fault Refusal :=
  flitIn dom tag seq (fun d => d.at_ pos) (.fin pos) s

/-- `CONFIRM` (R328), from the position above. -/
def execConfirm (dom : Nat) (tag : BitVec 16) (seq : Nat) (s : State) : Host.Outcome State Fault Refusal :=
  flitIn dom tag seq (fun d => d.at_ (treeParent ((d.pos d.own).getD 0))) .confirm s

/-- `DELIVERY` (R189): the next block, element or row of an operation. -/
def execDelivery (id : Nat) (s : State) : Host.Outcome State Fault Refusal :=
  match s.op? id with
  | none => .next s
  | some o =>
    if o.finished || o.suspended then .next s
    else match o.kind with
      | .copy dst src len => if !atFront s o then .next s else
          copyBlock s o dst len (fun n => places s o src o.done n .read) (fun l _ => gatherBytes s o l)
      | .fill dst pat len => if !atFront s o then .next s else
          copyBlock s o dst len (fun _ => .ok []) (fun _ n => (List.range n).map (fun j =>
            BitVec.ofNat 8 (pat.toNat / 256 ^ ((o.done + j) % 4))))
      | .red op dst src len => if !atFront s o then .next s else redBlock s o op dst src len
      | .gath n dst src idx count => if !atFront s o then .next s else
          moveElement s o count (indexed s o src (indexAt s o idx * n) n .read) (places s o dst (o.done * n) n .write) dst (o.done * n)
      | .scat n dst src idx count => if !atFront s o then .next s else
          let off := indexAt s o idx * n
          moveElement s o count (places s o src (o.done * n) n .read) (indexed s o dst off n .write) dst off
      | .atom op w slot dst val cmp => if !atFront s o then .next s else atomStep s o op w slot dst val cmp
      | .load t f src pitch => if !o.begun then .next s else loadRow s o t f src pitch
      | .store t f add rnd sat sr dst pitch =>
        if !o.begun then .next s
        else match tileOf s o.core t with
          | none => .next s
          | some k => if add then drainAdd s o k f rnd sat dst pitch else drainOne s o k f rnd sat sr dst pitch
      | .coll .. => match Op.job o with
        | some j => collGo s o j
        | none => .next s
      | _ => .next s

end Sys2Proof.Machine
end

