-- ==== Sys2Proof/Machine/Member.lean ====
section
/-! DEFINITION. Membership of a collective domain (R330 to R339, R341): the steps that befall heartbeats, proposals, commits and
joins. -/

namespace Sys2Proof.Machine

/-! What the protocol counts with -/

/-- Ticks in ns: between heartbeats, to suspicion, to the timeout of a proposal, between resendings (R330, R331). -/
def beatEvery : Nat := 10000
def suspectAfter : Nat := 80000
def answerWithin : Nat := 2000000
def resendEvery : Nat := 100000
/-- The sequence field of a member that holds no confirmed collective (R341). -/
def noSeq : Word := 0xFFFFFFFF

def Domain.seqField (d : Domain) : Word := (d.confirmed.map (BitVec.ofNat 32)).getD noSeq
/-- The higher of two sequence fields; `noSeq` lies below 0. -/
def maxSeq (a b : Word) : Word := if a = noSeq then b else if b = noSeq then a else if a.toNat < b.toNat then b else a

/-- The members not suspected, and the coordinator as this member sees it (R330). -/
def Domain.trusted (d : Domain) : List Nat := d.members.filter (fun r => !d.suspected.contains r)
def Domain.coordinator (d : Domain) : Option Nat := d.trusted.head?
/-- Whether a set holds more than half of the current members (R332). -/
def Domain.quorum (d : Domain) (m : List Nat) : Bool := d.members.length < 2 * m.length

def tell (s : State) (d : Domain) (dest : Nat) (m : Instr) : State := s.say (.membership d.num dest m)
def tellAll (s : State) (d : Domain) (dest : List Nat) (m : Instr) : State := dest.foldl (fun s r => tell s d r m) s

/-- The team contexts whose collectives of a domain are pending. -/
def pendingRoles (s : State) (d : Domain) : List (TeamId × Nat) :=
  distinct (d.colls.filterMap (fun c => (s.op? c.op).bind (fun o => match o.issuer with
    | .team t r => some (t, r)
    | _ => none)))
/-- VIEWCHG due at some roles (R335): a newer number replaces an older one. -/
def markViewchg (s : State) (rs : List (TeamId × Nat)) (dom v : Nat) : State :=
  rs.foldl (fun s r => s.modTeam r.1 (fun x => { x with
    roles := x.roles.modify r.2 (fun q => if q.ended then q else { q with viewchg := put dom v q.viewchg }) })) s

/-! Installing a view (R333, R334) -/

/-- A collective without its partial values (R333). -/
def Collective.fresh (c : Collective) : Collective :=
  { c with
    started := false, read := [], nodes := [], blocks := [], sent := false, root := none, dest := [], written := false, data := [], fins := []
    finSent := false }

/-- Whether a set of members takes in one that is not in the view: it comes of a join, whose commit carries the sequence to start from
(R336). -/
def Domain.joins (d : Domain) (m : List Nat) : Bool := d.state == .joining || m.any (fun r => !d.members.contains r)

/-- View v installed, with the committed sequence: the collectives up to it are complete, the others are finished as `policy` says, one
after the other (R333). A joiner takes the sequence as its count, and what a join kept from starting starts
under its view (R336). DEDUCED, log 72, unsafe. -/
def installView (s : State) (dom v : Nat) (m : List Nat) (seq : Word) : State :=
  match s.domain? dom with
  | none => s
  | some d =>
    let roles := pendingRoles s d
    let join := d.joins m
    let s := s.modDomain dom (fun d => { d with
      view := v
      members := m
      nextSeq := if d.state = .joining then seq.toNat else d.nextSeq
      state := .normal
      noQuorum := false
      ackedNum := max d.ackedNum v
      proposal := none
      acks := []
      suspected := d.suspected.filter (fun r => m.contains r)
      dropped := []
      heard := (m.filter (fun r => r ≠ d.own)).map (fun r => (r, (get? r d.heard).getD (s.tick, false)))
      deadline := none
      colls := d.colls.map (fun c => if c.startView = 0 ∧ !join then
        { c.fresh with startView := d.view, startSize := d.members.length } else c.fresh)
      early := []
      unacked := []
      offer := none
      joinAcks := []
      frozen := false
      commit := seq
      commitTo := d.commitTo.filter (fun r => !m.contains r) })
    let s := countUp s (0x400 + dom)
    let sure (c : Collective) : Bool := if join then decide (c.seq < seq.toNat) else decide (seq ≠ noSeq ∧ c.seq ≤ seq.toNat)
    let s := (d.colls.filter sure).foldl (fun s c => collDone (collSettle s d c) dom c 0 0) s
    let s := if join || seq = noSeq then s else s.modDomain dom (fun d => { d with confirmed := some (max seq.toNat (d.confirmed.getD 0)) })
    kick (markViewchg (clashAgain s dom) roles dom v) dom

/-- The package is excluded (R331, R332). -/
def exclude (s : State) (dom v : Nat) : State :=
  match s.domain? dom with
  | none => s
  | some d =>
    let roles := pendingRoles s d
    let s := endAll s dom 3 2
    let s := s.modDomain dom (fun d => { d with
      state := .excluded
      noQuorum := false
      ackedNum := max d.ackedNum v
      proposal := none
      acks := []
      deadline := none
      early := []
      dropped := []
      unacked := []
      offer := none
      joinAcks := []
      frozen := false
      commitTo := [] })
    markViewchg s roles dom v

/-! Proposing (R331, R332) -/

/-- The proposer commits: VIEW_COMMIT to every member, and to the excluded ones. DEDUCED, log 74, unsafe. -/
def commitView (s : State) (dom : Nat) : State :=
  match s.domain? dom with
  | none => s
  | some d => match d.proposal with
    | none => s
    | some (v, m) =>
      let seq := d.acks.foldl (fun n a => maxSeq n a.2) d.seqField
      let dest := (m ++ d.members.filter (fun r => !m.contains r)).filter (fun r => r ≠ d.own)
      (installView (tellAll s d dest (.viewCommit dom v m seq)) dom v m seq).modDomain dom (fun d => { d with commitTo := distinct (d.commitTo ++ dest) })

/-- The coordinator proposes the view less the suspected; without a quorum it proposes nothing and keeps its state (R332). -/
def propose (s : State) (dom : Nat) : State :=
  match s.domain? dom with
  | none => s
  | some d =>
    let m := d.trusted
    if !d.quorum m then s.modDomain dom (fun d => { d with noQuorum := true })
    else if m.head? ≠ some d.own then s
    else
      let v := max d.view d.ackedNum + 1
      let s := s.modDomain dom (fun d => { d with
        state := .leading
        noQuorum := false
        ackedNum := v
        ackedFrom := d.own
        proposal := some (v, m)
        dropped := distinct (d.dropped ++ d.members.filter (fun r => !m.contains r))
        acks := []
        deadline := some (s.tick + answerWithin)
        offer := none
        joinAcks := []
        frozen := true
        again := s.tick + resendEvery })
      let s := tellAll s d (m.filter (fun r => r ≠ d.own)) (.propose dom v m d.own)
      if m = [d.own] then commitView s dom else s

/-- Members newly suspected: without a quorum among the others the domain is marked (R332), an offer under way is abandoned, and the coordinator
proposes (R331, R336). -/
def suspect (s : State) (dom : Nat) (rs : List Nat) : State :=
  let s := s.modDomain dom (fun d =>
    let sus := distinct (d.suspected ++ rs)
    { d with suspected := sus, offer := none, joinAcks := []
             noQuorum := d.noQuorum || !d.quorum (d.members.filter (fun r => !sus.contains r)) })
  match s.domain? dom with
  | some d => if d.state = .normal then propose s dom else s
  | none => s
/-- Whether a member has to propose now: it suspects members of its view, is the coordinator, and has a quorum (R331, R332). -/
def mustPropose (d : Domain) : Bool :=
  d.state == .normal && d.members.any (fun r => d.suspected.contains r) && d.coordinator == some d.own && d.quorum d.trusted

/-! Heartbeats (R330, R332, R338) -/

/-- Whether a member holds and its domain's hold limit has not passed (R338). -/
def stillHolds (s : State) (d : Domain) (r : Nat) : Bool :=
  match get? r d.heard with
  | some (t, h) => h && decide (s.tick < t + d.hold)
  | none => false
/-- Whether a flit to a member has gone unanswered for too long. -/
def fabricLate (s : State) (d : Domain) (r : Nat) : Bool :=
  !stillHolds s d r && d.unacked.any (fun u => u.rank == r && u.first + u.limit ≤ s.tick)
/-- Whether a member is to be suspected now (R330, R337, R338). -/
def overdue (s : State) (d : Domain) (r : Nat) : Bool :=
  !d.suspected.contains r && (match get? r d.heard with
    | some (t, h) => decide (t + (if h then d.hold else suspectAfter) ≤ s.tick) || fabricLate s d r
    | none => false)

/-- `HEARTBEAT_SEND` (R330). -/
def execHeartbeatSend (dom : Nat) (s : State) : Host.Outcome State Fault Refusal :=
  match s.domain? dom with
  | none => .next s
  | some d =>
    let s := s.modDomain dom (fun d => { d with beat := s.tick + beatEvery })
    if d.state = .excluded ∨ d.state = .joining then .next s
    else .next (tellAll s d d.others (.heartbeat dom d.own d.view (ownHold s d)))

/-- The answer to a package outside the view, at most once per 100 µs (R332). -/
def answerOutside (s : State) (d : Domain) (r : Nat) : State :=
  let due := match get? r d.answered with
    | some t => decide (t + resendEvery ≤ s.tick)
    | none => true
  if due && (d.state = .normal || d.state = .leading || d.state = .acked) then
    (tell s d r (.viewCommit d.num d.view d.members d.commit)).modDomain d.num (fun d => { d with answered := put r s.tick d.answered })
  else s

/-- A message of the protocol arrives; an engine that stands does not take it (R338). DEDUCED, log 76, safe. -/
def received (dom : Nat) (s : State) (f : Domain → State) : Host.Outcome State Fault Refusal :=
  match s.domain? dom with
  | none => .next s
  | some d => .next (if collStopped s then s else f d)

/-- `HEARTBEAT` (R330): a suspected member is trusted again unless a view without it has been proposed. -/
def execHeartbeat (dom rank view : Nat) (hold : Bool) (s : State) : Host.Outcome State Fault Refusal :=
  received dom s (fun d =>
    if !d.members.contains rank then answerOutside s d rank
    else if d.dropped.contains rank then s
    else
      let s := s.modDomain dom (fun d =>
        let sus := d.suspected.filter (fun r => r ≠ rank)
        { d with
          heard := put rank (s.tick, hold) d.heard
          suspected := sus
          noQuorum := d.noQuorum && !d.quorum (d.members.filter (fun r => !sus.contains r))
          commitTo := if view = d.view then d.commitTo.filter (fun r => r ≠ rank) else d.commitTo })
      kick s dom)

/-- `SUSPICION` (R330): with every other member that is overdue; a coordinator proposes for those it suspects already. -/
def execSuspicion (dom rank : Nat) (s : State) : Host.Outcome State Fault Refusal :=
  match s.domain? dom with
  | none => .next s
  | some d =>
    if overdue s d rank then .next (suspect s dom (d.others.filter (overdue s d)))
    else .next (if mustPropose d then propose s dom else s)

/-! Proposals and commits (R331) -/

/-- `PROPOSE`. -/
def execPropose (dom v : Nat) (members : List Nat) (proposer : Nat) (s : State) : Host.Outcome State Fault Refusal :=
  received dom s (fun d =>
    let ack (s : State) : State := tell s d proposer (.ack dom v d.own d.seqField)
    if !d.members.contains proposer then answerOutside s d proposer
    else if d.state = .acked ∧ d.ackedNum = v ∧ d.ackedFrom = proposer then ack s
    else if (d.state = .normal ∨ d.state = .leading) ∧ members.contains d.own
        ∧ (d.ackedNum < v ∨ (v = d.ackedNum ∧ proposer < d.ackedFrom)) ∧ d.view < v then
      ack (s.modDomain dom (fun d => { d with
        state := .acked
        ackedNum := v
        ackedFrom := proposer
        proposal := some (v, members)
        dropped := distinct (d.dropped ++ d.members.filter (fun r => !members.contains r))
        acks := []
        deadline := some (s.tick + answerWithin)
        offer := none
        joinAcks := []
        frozen := true
        again := s.tick + resendEvery }))
    else s)

/-- `ACK`. -/
def execAck (dom v rank : Nat) (seq : Word) (s : State) : Host.Outcome State Fault Refusal :=
  received dom s (fun d => match d.proposal with
    | none => s
    | some (n, m) =>
      if d.state ≠ .leading ∨ n ≠ v ∨ !m.contains rank then s
      else
        let acks := put rank seq d.acks
        let s := s.modDomain dom (fun d => { d with acks := acks })
        if m.all (fun r => r = d.own || (get? r acks).isSome) then commitView s dom else s)

/-- `VIEW_COMMIT`: installs the view, or excludes the package, whatever its state. -/
def execViewCommit (dom v : Nat) (members : List Nat) (seq : Word) (s : State) : Host.Outcome State Fault Refusal :=
  received dom s (fun d =>
    if v ≤ d.view ∨ d.state = .excluded then s
    else if members.contains d.own then installView s dom v members seq
    else exclude s dom v)

/-- `PROPOSE_TIMEOUT`: the silent members are suspected, but those that hold (R338), and the next number is proposed. -/
def execProposeTimeout (dom : Nat) (s : State) : Host.Outcome State Fault Refusal :=
  match s.domain? dom with
  | none => .next s
  | some d => match d.proposal, d.deadline with
    | some (_, m), some t =>
      if d.state ≠ .leading ∨ s.tick < t then .next s
      else
        let silent := m.filter (fun r => r ≠ d.own && (get? r d.acks).isNone && !stillHolds s d r)
        let s := s.modDomain dom (fun d => { d with
          suspected := distinct (d.suspected ++ silent), deadline := some (s.tick + answerWithin) })
        .next (if silent.isEmpty then s else propose s dom)
    | _, _ => .next s

/-- `COMMIT_TIMEOUT`: an acked member suspects the proposer, unless it holds; a joiner asks again (R336). -/
def execCommitTimeout (dom : Nat) (s : State) : Host.Outcome State Fault Refusal :=
  match s.domain? dom with
  | none => .next s
  | some d => match d.deadline with
    | none => .next s
    | some t =>
      let later := s.modDomain dom (fun d => { d with deadline := some (s.tick + answerWithin) })
      if s.tick < t then .next s
      else match d.state with
        | .acked =>
          if stillHolds s d d.ackedFrom then .next later
          else
            let s := s.modDomain dom (fun d => { d with state := .normal, proposal := none, deadline := none, frozen := false })
            .next (kick (suspect s dom [d.ackedFrom]) dom)
        | .joining => .next (tellAll later d d.others (.joinReq dom d.own))
        | _ => .next s

/-- The messages of a domain that wait for an answer (R331). -/
def unanswered (d : Domain) : List (Nat × Instr) :=
  let commits := d.commitTo.map (fun r => (r, Instr.viewCommit d.num d.view d.members d.commit))
  match d.state with
  | .leading => commits ++ match d.proposal with
    | some (v, m) => (m.filter (fun r => r ≠ d.own && (get? r d.acks).isNone)).map (fun r => (r, Instr.propose d.num v m d.own))
    | none => []
  | .acked => commits ++ [(d.ackedFrom, Instr.ack d.num d.ackedNum d.own d.seqField)]
  | .joining => match d.offer with
    | some (v, c, _) => [(c, Instr.joinAck d.num v d.own)]
    | none => d.others.map (fun r => (r, Instr.joinReq d.num d.own))
  | .normal => commits ++ (match d.offer with
    | some (v, c, m) =>
      if c = d.own then (m.filter (fun r => r ≠ d.own && !d.joinAcks.contains r)).map (fun r => (r, Instr.joinOffer d.num v m d.own))
      else if d.joinAcks.contains d.own then [(c, Instr.joinAck d.num v d.own)] else []
    | none => [])
  | .excluded => []

/-- `MESSAGE_RESEND` (R331): every 100 µs. -/
def execMessageResend (dom : Nat) (s : State) : Host.Outcome State Fault Refusal :=
  match s.domain? dom with
  | none => .next s
  | some d =>
    let s := s.modDomain dom (fun d => { d with again := s.tick + resendEvery })
    .next ((unanswered d).foldl (fun s m => tell s d m.1 m.2) s)

/-! Joining (R336) -/

/-- Whether no collective of the domain has started and not completed. -/
def Domain.quiet (d : Domain) : Bool := d.colls.all (fun c => !c.started)

/-- The coordinator commits the joined view, with the sequence that the joiner takes. -/
def commitJoin (s : State) (d : Domain) (v : Nat) (m : List Nat) : State :=
  let seq := BitVec.ofNat 32 ((d.colls.head?.map (fun c => c.seq)).getD d.nextSeq)
  let dest := m.filter (fun r => r ≠ d.own)
  (installView (tellAll s d dest (.viewCommit d.num v m seq)) d.num v m seq).modDomain d.num (fun d => { d with commitTo := distinct (d.commitTo ++ dest) })

/-- JOIN_ACK noted at the coordinator; with every one in hand it commits. -/
def noteJoinAck (s : State) (dom rank : Nat) : State :=
  let s := s.modDomain dom (fun d => { d with joinAcks := distinct (d.joinAcks ++ [rank]) })
  match s.domain? dom with
  | some d => match d.offer with
    | some (v, c, m) => if c = d.own ∧ m.all (fun r => d.joinAcks.contains r) then commitJoin s d v m else s
    | none => s
  | none => s

/-- A member whose collectives are quiet answers the offer. -/
def answerOffer (s : State) (dom : Nat) : State :=
  match s.domain? dom with
  | some d => match d.offer with
    | some (v, c, _) =>
      if d.state ≠ .normal ∨ d.joinAcks.contains d.own ∨ !d.quiet then s
      else if c = d.own then noteJoinAck s dom d.own
      else tell (s.modDomain dom (fun d => { d with joinAcks := d.joinAcks ++ [d.own] })) d c (.joinAck dom v d.own)
    | none => s
  | none => s

/-- `JOIN_REQ`; its sender knows that it is excluded. -/
def execJoinReq (dom rank : Nat) (s : State) : Host.Outcome State Fault Refusal :=
  received dom s (fun d =>
    if d.members.contains rank ∨ d.state = .excluded ∨ d.state = .joining ∨ d.ranks ≤ rank then s
    else
      let s := s.modDomain dom (fun d => { d with commitTo := d.commitTo.filter (fun r => r ≠ rank) })
      if d.coordinator ≠ some d.own then (match d.coordinator with
        | some c => tell s d c (.joinReq dom rank)
        | none => s)
      else if d.state ≠ .normal ∨ d.offer.isSome ∨ !d.suspected.isEmpty then s
      else
        let v := max d.view d.ackedNum + 1
        let m := d.members.filter (fun r => r < rank) ++ [rank] ++ d.members.filter (fun r => rank < r)
        let s := s.modDomain dom (fun d => { d with offer := some (v, d.own, m), joinAcks := [], again := s.tick + resendEvery })
        answerOffer (tellAll s d (m.filter (fun r => r ≠ d.own)) (.joinOffer dom v m d.own)) dom)

/-- `JOIN_OFFER`; a joiner asks again when 2 ms have passed without the view, and keeps the offer. -/
def execJoinOffer (dom v : Nat) (members : List Nat) (coordinator : Nat) (s : State) : Host.Outcome State Fault Refusal :=
  received dom s (fun d =>
    if v ≤ d.view ∨ !members.contains d.own then s
    else match d.state with
      | .joining =>
        let s := s.modDomain dom (fun d => { d with offer := some (v, coordinator, members), deadline := some (s.tick + answerWithin) })
        tell s d coordinator (.joinAck dom v d.own)
      | .normal =>
        if !d.members.contains coordinator then s
        else if d.offer = some (v, coordinator, members) then
          (if d.joinAcks.contains d.own then tell s d coordinator (.joinAck dom v d.own) else s)
        else answerOffer (s.modDomain dom (fun d => { d with offer := some (v, coordinator, members), joinAcks := [] })) dom
      | _ => s)

/-- `JOIN_ACK`. -/
def execJoinAck (dom v rank : Nat) (s : State) : Host.Outcome State Fault Refusal :=
  received dom s (fun d => match d.offer with
    | some (n, c, m) => if c = d.own ∧ n = v ∧ m.contains rank then noteJoinAck s dom rank else s
    | none => s)

/-! Halted dies (R338) -/

/-- The clocks of a domain that stood for some ticks: its members' heartbeats, its requests and deadlines. -/
def Domain.stood (d : Domain) (n : Nat) : Domain :=
  { d with
    heard := d.heard.map (fun h => (h.1, h.2.1 + n, h.2.2))
    deadline := d.deadline.map (fun t => t + n)
    unacked := d.unacked.map (fun u => { u with first := u.first + n }) }
/-- The hold state of each die noted; before a halt of die 0 stops the engine, it sends every member one heartbeat with HOLD, and
afterwards its clocks go on from where they stood. -/
def noteHalts (s : State) : State :=
  s.dies.foldl (fun s x =>
    let h := haltedDie s x.num
    if h = x.halted then s
    else
      let s := s.modDie x.num (fun x => { x with halted := h, haltedAt := s.tick })
      if x.num ≠ 0 then s
      else if h then s.domains.foldl (fun s d =>
        if d.state = .excluded ∨ d.state = .joining then s else tellAll s d d.others (.heartbeat d.num d.own d.view true)) s
      else
        let s : State := { s with domains := s.domains.map (fun (d : Domain) => d.stood (s.tick - x.haltedAt)) }
        s.domains.foldl (fun s d => kick s d.num) s) s

end Sys2Proof.Machine
end

