-- ==== Sys2Proof/Machine/Teams.lean ====
section
/-! DEFINITION. Teams on their cores: the start of a team (R24, R25, R308), its end (R105, R231, R289), its killing (R360, R396),
pre-emption and restore (R258 to R261), time slices and the waiting budget (R262, R263, R305), strikes and aborts (R277, R287, R298), the
accumulator allocator (R219, R225), and the steps of translation, naps, the power budget and the snapshot. -/

namespace Sys2Proof.Machine

/-! The start of a team (R24) -/

/-- A lane at team start (R24, R82). -/
def newLane (budget lane : Nat) : Lane :=
  ⟨true, true, List.replicate budget 0, 0x80, BitVec.ofNat 32 (0x2545F491 + 0x10000 * lane)⟩
/-- A slice at its role's entry. -/
def newSlice (r : RoleSt) (g i : Nat) : Ctx :=
  { pc := r.entry, lanes := (List.range 4).map (fun k => newLane r.budget (32 * g + 4 * i + k)) }
/-- A sequencer context with n scalars. -/
def newUpper (entry : Word) (n : Nat) : Ctx := { pc := entry, sc := List.replicate n 0 }

/-- The contexts of a team. -/
def newCtxs (t : TeamId) (roles : List RoleSt) : List (CtxId × Ctx) :=
  ((List.range roles.length).zip roles).flatMap (fun (r, x) =>
    (CtxId.team t r, newUpper x.entry 128) :: (List.range x.groups).flatMap (fun j =>
      let g := x.first + j
      (CtxId.group t g, newUpper x.entry 64) :: (List.range x.slices).map (fun i => (CtxId.slice t g i, newSlice x g i))))

/-- What a team asks of a core (R308). -/
structure Need where
  regs : Nat
  slices : Nat
  groups : Nat
  roles : Nat
  sh : Nat
  chans : Nat
  deriving DecidableEq, Repr
def Need.of (roles : List RoleSt) (sh : Nat) (chans : BitVec 16) : Need where
  regs := (roles.map (fun r => r.groups * r.slices * 4 * r.budget)).sum
  slices := (roles.map (fun r => r.groups * r.slices)).sum
  groups := (roles.map (fun r => r.groups)).sum
  roles := roles.length
  sh := sh
  chans := ((List.range 16).filter (fun k => chans.getLsbD k)).length
def Need.plus (a b : Need) : Need :=
  ⟨a.regs + b.regs, a.slices + b.slices, a.groups + b.groups, a.roles + b.roles, a.sh + b.sh, a.chans + b.chans⟩
def Need.fits (n : Need) : Bool :=
  n.regs ≤ 262144 && n.slices ≤ 256 && n.groups ≤ 32 && n.roles ≤ 8 && n.sh ≤ Config.shBytes && n.chans ≤ 16
def Team.need (x : Team) : Need := Need.of x.roles x.shSize x.chans

/-- The teams on a core. -/
def residents (s : State) (core : Nat) : List (TeamId × Team) := s.teams.filter (fun e => e.2.core == core && e.2.present)
/-- A core accepts a team of a launch (R308): at most two, of different launches, within every limit, channels disjoint. -/
def coreAccepts (s : State) (launch core : Nat) (n : Need) (chans : BitVec 16) : Bool :=
  let rs := residents s core
  rs.length < 2 && rs.all (fun e => e.1.launch ≠ launch && e.2.chans &&& chans == 0)
    && Need.fits (rs.foldl (fun m e => Need.plus m e.2.need) n)
/-- Where the window of a team that joins a core starts: past the other one's, round past the end of `sh`. -/
def windowBase (s : State) (core : Nat) : Nat :=
  match residents s core with
  | [] => 0
  | e :: _ => (e.2.shBase + e.2.shSize) % Config.shBytes

/-- A core after the scrub of R383: nothing valid, nothing owned, its forme and tiles zero. DESIGN CHOICE, log 61, unsafe. -/
def newCore (n bucket : Nat) : Core where
  num := n
  recs := List.replicate 64 {
  }
  granHold := []
  forme := ⟨[], []⟩
  tiles := List.replicate 32 ⟨⟨[], []⟩, 64, 64, none, none⟩
  chans := List.replicate 16 ⟨0, [], false⟩
  gather := []
  mq := []
  alloc := []
  bucket := bucket
  arrayFree := 0
  ports := []
  tlb := []
/-- The core's record, made if it has none yet; a bucket is full at reset. -/
def haveCore (s : State) (n : Nat) : State :=
  if (s.core? n).isSome then s
  else { s with cores := s.cores ++ [newCore n 65535] }

/-- A team at its start on a core (R24). -/
def newTeam (ctx core shBase shSize : Nat) (pair : Option TeamId) (roles : List RoleSt) (chans : BitVec 16) (shadow : Option TeamId) : Team where
  ctx := ctx
  die := dieOf core
  core := core
  pair := pair
  roles := roles
  shBase := shBase
  shSize := shSize
  chans := chans
  queues := List.replicate 32 none
  state := .running
  epoch := 0
  inc := 0
  nr := false
  coord := []
  tile := none
  effReserve := false
  galReserve := false
  exited := 0
  matstall := 0
  ckpts := []
  ckpt0 := none
  sealers := []
  faults := []
  sig := 0
  sigPrev := none
  mismatches := 0
  shadow := shadow
  aborts := []
  drawn := []
  stepping := none
  leaving := false
  toHold := false
  late := []
  requeue := 0
  struck := false

/-- A team put on its core: contexts, channel pointers, and the checkpoint of its start (R282). -/
def putTeam (s : State) (t : TeamId) (x : Team) : State :=
  let s := haveCore s x.core
  let s := s.modCore x.core (fun c => { c with
    chans := ((List.range 16).zip c.chans).map (fun (k, h) => if x.chans.getLsbD k then { h with cwp := 0 } else h) })
  startCheckpoint { s with teams := put t x s.teams, ctxs := s.ctxs ++ newCtxs t x.roles } t

/-! The end of a team -/

/-- Whether the private-stack cache holds written bytes of a team. -/
def pvDirty (s : State) (t : TeamId) : Bool := s.pvCache.any (fun h => h.team == t)
/-- Whether some of them can go back now: W has passed since they were stored, so that no strike discards them. DEDUCED, log 141, safe. -/
def pvSettled (s : State) (t : TeamId) : Bool := s.pvCache.any (fun h => h.team == t && h.settled s.tick)
/-- A write cut to some blocks of 64 bytes. -/
def Held.only (go : Nat → Bool) (h : Held) : Held := { h with bytes := h.bytes.filter (fun b => go (b.1 / 64)) }
/-- Written bytes of a team's private stacks written back through the galley, as many as it takes (R234); none of a shadow's leaves it
(R296). -/
def writeBackPv (s : State) (t : TeamId) (core : Nat) : State :=
  if isShadow t then { s with pvCache := s.pvCache.filter (fun h => h.team ≠ t) }
  else
    let mine (h : Held) : Bool := h.team == t && h.settled s.tick
    let blocks := (distinct ((s.pvCache.filter mine).flatMap (fun h => h.bytes.map (fun b => b.1 / 64)))).take
      (Config.galleyEntries - (galleyBlocks s core).length)
    { s with
      galley := s.galley ++ ((s.pvCache.filter mine).map (fun h =>
        { h.only blocks.contains with core := core, p := s.tick, who := [], back := true })).filter (fun h => !h.bytes.isEmpty)
      pvCache := (s.pvCache.map (fun h => if mine h then h.only (fun b => !blocks.contains b) else h)).filter (fun h => !h.bytes.isEmpty) }
/-- The writes of a team that no seal will close any more: a shadow's are discarded, every other one's leave their hold.
DESIGN CHOICE, log 130, unsafe. -/
def endHold (s : State) (t : TeamId) : State :=
  { s with
    galley := letGo [t] (s.galley.filter (fun h => !(h.team = t && h.sealed && isShadow t)))
    pvCache := letGo [t] s.pvCache }

/-- The effect-log entries of a team released (R289); a shadow's are its primary's, and go with the last of the two. -/
def releaseEffects (s : State) (t : TeamId) (ctx : Nat) : State :=
  if s.teams.any (fun e => e.1.launch == t.launch && e.1.num % shadowBase == t.num % shadowBase && e.2.state ≠ .ended) then s
  else { s with effects := s.effects.filter (fun e => !(e.key.ctx == ctx && e.key.launch == t.launch % 2 ^ 40
    && e.key.team == t.num % shadowBase)) }

/-- What a team holds on its core given up: tiles, records, granules, requests. -/
def giveUp (s : State) (t : TeamId) (core : Nat) : State :=
  allocSoon (s.modCore core (fun c => { c with
    tiles := c.tiles.map (fun k => if k.owner = some t then { k with owner := none, freed := none } else k)
    recs := c.recs.map (fun r => if r.owner = some t then {
      } else r)
    granHold := c.granHold.filter (fun g => g.2.1 ≠ t)
    alloc := c.alloc.filter (fun a => a.1.team? ≠ some t) })) core

/-- A team has ended: its core's resources are free (R307). -/
def freeTeam (s : State) (t : TeamId) : State :=
  match s.team? t with
  | none => s
  | some x =>
    let s := giveUp (leaveSpools { s with pvCache := s.pvCache.filter (fun h => h.team ≠ t) } t) t x.core
    let s := s.modTeam t (fun y => { y with state := .ended, sealers := [], faults := [], leaving := false, stepping := none })
    releaseEffects { s with
      ctxs := s.ctxs.filter (fun e => e.1.team? ≠ some t)
      saved := s.saved.filter (fun v => v.id ≠ t) } t x.ctx

/-- Whether every role of a team and every engine operation has ended (R105). -/
def teamOver (s : State) (t : TeamId) (x : Team) : Bool :=
  x.present && x.roles.all (fun r => r.ended) && !s.ops.any (fun o => o.team = t)
/-- Whether such a team has writes to send on their way: private stacks that the galley takes, or writes held for a seal. -/
def teamFlushes (s : State) (t : TeamId) (x : Team) : Bool :=
  (pvDirty s t && (isShadow t || (pvSettled s t && decide ((galleyBlocks s x.core).length < Config.galleyEntries))))
    || (s.galley ++ s.pvCache).any (fun h => h.team = t && h.sealed)
/-- Whether a team has ended: every role, every engine operation, its galley (R105), which is one for the containment unit (R302).
DEDUCED, log 142, unsafe. -/
def teamDone (s : State) (t : TeamId) (x : Team) : Bool :=
  teamOver s t x && !pvDirty s t && !s.galley.any (fun h => (unitTeams s t).contains h.team)

/-- `TEAM_END` (R105, R307): first its private stacks go back through the galley. -/
def execTeamEnd (t : TeamId) (s : State) : Host.Outcome State Fault Refusal :=
  match s.team? t with
  | some x => .next (if teamDone s t x then freeTeam s t
      else if teamOver s t x && teamFlushes s t x then endHold (writeBackPv s t x.core) t
      else s)
  | none => .next s

/-! Killing a team (R360, R396) -/

/-- The coordinate that a team holds, as a record lists it: team, whether it holds one, x, y, z. -/
def coordBytes (s : State) (t : TeamId) : List Byte :=
  let xyz := (((s.team? t).bind (fun x => x.tile)).map (coordOf s t.launch)).getD []
  le4 t.num ++ le4 (if xyz.isEmpty then 0 else 1) ++ le4 (xyz.getD 0 0) ++ le4 (xyz.getD 1 0) ++ le4 (xyz.getD 2 0)

/-- The KILL record of some teams (R364): the launch and the coordinates that they held; its cause and frame are unspecified.
DESIGN CHOICE, log 79, safe. -/
def killRecord (s : State) (ts : List TeamId) : State :=
  match ts.head?.bind (fun t => (s.team? t).map (fun x => (t, x))) with
  | none => s
  | some (t, x) =>
    let (n, s) := s.fresh
    let frame := (List.range 2048).map (fun i => (Config.freeCell n i).setWidth 8)
    writeRing s x.ctx (ringEntry s x.ctx (some t) (Config.freeWord n).toNat frame (leBytes 8 t.launch ++ ts.flatMap (coordBytes s)))

/-- One team killed at the boundary it stands at: held stores and effects discarded, operations cancelled; a `COLL` runs on and
its result is dropped. DEDUCED, log 78, unsafe. -/
def killTeam (s : State) (t : TeamId) (code : Nat) : State :=
  match s.team? t with
  | none => s
  | some x =>
    if x.state = .ended then s
    else
      let s := discardHeld s [t]
      let s := { s with ops := s.ops.map (fun o => if o.team = t ∧ o.cls = some .coll then { o with cancel := true } else o) }
      let s := cancelOps s t 0
      let s := s.modCtxs (teamCtxs s t) (fun y => { y with lanes := y.lanes.map (fun l => { l with live := false }) })
      let s := ((List.range x.roles.length).filter (fun r => !(x.roles.getD r default).ended)).foldl (fun s r => endRole s t r) s
      let s := s.modLaunch t.launch (fun l => { l with
        status := if x.struck then 5 else if l.status = 0 then code else l.status
        killed := l.killed ++ [(t, (x.tile.map (fun i => i + 1)).getD 0)] })
      freeTeam s t
/-- Some teams killed together, with a record for each launch among them. -/
def killTeams (s : State) (ts : List TeamId) (code : Nat) : State :=
  let ts := ts.filter (fun t => ((s.team? t).map (fun (x : Team) => decide (x.state ≠ .ended))).getD false)
  ts.foldl (fun s t => killTeam s t code)
    ((distinct (ts.map (fun t => t.launch))).foldl (fun s n => killRecord s (ts.filter (fun t => t.launch = n))) s)

/-! Pre-emption (R258 to R260) -/

/-- A copy or fill with more than 64 KiB to write, or suspended, stops with a restart record (R259). -/
def Op.restarts (o : Op) : Bool :=
  match o.kind with
  | .copy _ _ n | .fill _ _ n => !o.finished && (o.suspended || 65536 < n - o.done)
  | _ => false
/-- An operation taken off its engine, to go on at the restore. DEDUCED, log 161, safe. -/
def parkOp (s : State) (o : Op) : State :=
  let s := match o.chan with
    | some k => freeChan s o.core k o.id
    | none => freeGather s o.core o.id
  let s := s.modCore o.core (fun c => { c with mq := c.mq.filter (fun i => i ≠ o.id) })
  s.modOp o.id (fun o => { o with parked := true, suspended := false, asked := none, walk := none, walks := [] })
/-- The operations of a team that cannot be drained, as their page faults while it is taken off its core and the fault is kept (R258): they
go on at its return, and with one of the matrix queue those that were accepted after it. -/
def stuckOps (s : State) (t : TeamId) : List Op :=
  let mine : List Op := s.ops.filter (fun o => o.team = t && !o.parked && o.cls ≠ some .coll)
  let stuck := mine.filter (fun o => o.suspended && (o.restartable || o.asked.isNone))
  let mq := ((s.core? (coreOf s t)).map (fun c => c.mq)).getD []
  let after := match stuck.find? (fun o => mq.contains o.id) with
    | some o => mine.filter (fun (p : Op) => o.id < p.id && !p.begun && mq.contains p.id)
    | none => []
  mine.filter (fun o => stuck.contains o || after.contains o)

/-- A team begins to leave its core: its units stop at their boundaries, requests for tiles and draws are withdrawn, long copies stop, the
galley drains. -/
def preemptTeam (s : State) (t : TeamId) (hold : Bool) : State :=
  let core := coreOf s t
  let n := (((s.core? core).map (fun c => c.alloc)).getD []).foldl (fun n a =>
    if a.1.team? = some t && a.2.2.isNone then n + a.2.1 else n) 0
  let s := s.modCtxs (teamCtxs s t) (fun x => { x.halt with wait := keptWait x.halt.wait })
  let s := allocSoon (s.modCore core (fun c => { c with alloc := c.alloc.filter (fun a => a.1.team? ≠ some t || a.2.2.isSome) })) core
  let s := (s.ops.filter (fun o => o.team = t && Op.restarts o && !o.parked)).foldl parkOp (leaveSpools s t)
  let s := { s with galley := letGo [t] s.galley, pvCache := letGo [t] s.pvCache }
  s.modTeam t (fun x => { x with leaving := true, toHold := x.toHold || hold, requeue := n })
/-- A containment unit pre-empted. -/
def preempt (s : State) (t : TeamId) (hold : Bool) : State :=
  ((aliveUnit s t).filter (fun u => ((s.team? u).map (fun (x : Team) => !x.leaving)).getD false)).foldl (fun s u => preemptTeam s u hold) s

/-- Whether the engines have nothing left to do for a team that leaves. -/
def opsDrained (s : State) (t : TeamId) : Bool := !s.ops.any (fun o => o.team = t && !o.parked && o.cls ≠ some .coll)
/-- Whether a team that leaves has nothing left to drain. -/
def drained (s : State) (t : TeamId) : Bool := opsDrained s t && !pvDirty s t && !s.galley.any (fun h => h.team = t)
/-- Whether a unit that leaves can be saved. -/
def saveReady (s : State) (t : TeamId) : Bool :=
  ((s.team? t).map (fun x => x.leaving)).getD false && (aliveUnit s t).all (drained s)

/-- The cells of a range of forme granules. -/
def rangeCells (c : Core) (r : Rec) : List (Nat × Word) :=
  c.forme.cells.filter (fun e => r.granules.contains (e.1 / 1024))
/-- The offset of a place in a team's window of `sh`, from its start on. -/
def windowOffset (x : Team) (a : Nat) : Option Nat :=
  if 2 ^ 61 ≤ a ∧ a < 2 ^ 62 ∧ coreOfSh a = x.core then
    some (((a - 2 ^ 61) % Config.shBytes + Config.shBytes - x.shBase % Config.shBytes) % Config.shBytes)
  else none
/-- The bytes of a team's window that are listed, of a number of them. -/
def windowCells (s : State) (x : Team) (reach : Nat) : List (Nat × Byte) :=
  s.mem.cells.filterMap (fun e => (windowOffset x e.1).bind (fun o => if o < reach then some (o, e.2) else none))
/-- The record of a team taken off its core (R260). -/
def savedOf (s : State) (t : TeamId) (x : Team) (c : Core) : SavedTeam where
  id := t
  state := x.state
  sh := windowCells s x (shLimit s t x)
  tiles := ((List.range c.tiles.length).zip c.tiles).filter (fun e => e.2.owner == some t)
  recs := (((List.range c.recs.length).zip c.recs).filter (fun e => e.2.owner == some t)).map (fun e => (e.1, e.2, rangeCells c e.2))
  ops := s.ops.filter (fun o => o.team = t && o.parked)
  chans := ((List.range c.chans.length).zip c.chans).map (fun e => (e.1, e.2.cwp))
  requeue := x.requeue
  grants := c.alloc.filter (fun a => a.1.team? = some t && a.2.2.isSome)
  granHold := c.granHold.filter (fun g => g.2.1 = t)
  held := x.toHold
  reach := shLimit s t x
  scopeAt := 0
/-! The save area (R260): its regions in order, each from a 4 KiB boundary on. The fields within a region are the model's. -/

/-- The header: context, launch, team, pair, flags (in handler by role, stopped, parted by group) and the causes of undelivered faults.
DESIGN CHOICE, log 133, unsafe. -/
def saveHeader (s : State) (t : TeamId) (x : Team) : List Byte :=
  let flags (l : List Bool) : Nat := ((List.range l.length).zip l).foldl (fun n e => n + e.2.toNat * 2 ^ e.1) 0
  le4 x.ctx ++ leBytes 8 t.launch ++ le4 (t.num % shadowBase) ++ le4 (pairOf x.core)
    ++ le4 (flags (x.roles.map (fun r => r.handler.isSome))) ++ le4 (match x.state with
      | .stopped .host => 1
      | .stopped .debug => 2
      | .stopped _ => 3
      | _ => 0)
    ++ le4 (flags ((List.range 32).map (isParted s t)))
    ++ le4 (x.late.length + x.faults.length) ++ (x.late.map (fun e => e.2) ++ x.faults).flatMap (fun p => le4 p.info.cause.code)
/-- The sequencer state in the blocks of the trap frame. -/
def saveSequencers (s : State) (t : TeamId) : List Byte :=
  (teamCtxs s t).flatMap (fun c =>
    let k := shownCtl s c
    match c with
    | .team .. => teamBlock k
    | .group .. => groupBlock k.pc k
    | .slice .. => sliceBlock k
    | _ => []) ++ (s.ctxs.filter (fun e => match e.1 with
      | .grid n _ => n == t.launch
      | _ => false)).flatMap (fun e => gridBlock (shownCtl s e.1))
/-- The lane registers within the budget, and the state of the lanes, slice by slice. -/
def saveLanes (s : State) (t : TeamId) : List Byte := (teamCtxs s t).flatMap (fun c => (s.ctx c).lanes.flatMap (fun l => words4 l.v.length l.v))
def saveLaneState (s : State) (t : TeamId) : List Byte :=
  (teamCtxs s t).flatMap (fun c => (s.ctx c).lanes.flatMap (fun l => le4 (l.live.toNat + 2 * l.path.toNat + 256 * l.p.toNat) ++ le4 l.gen.toNat))
/-- A tile with its number, VM and VN. -/
def saveTile (e : Nat × Tile) : List Byte :=
  le4 e.1 ++ le4 e.2.vm ++ le4 e.2.vn ++ le4 0 ++ (List.range 4096).flatMap (fun i => le4 (e.2.elems.read tileSize i).toNat)
/-- A record with its number, and the granules of its range. -/
def saveRange (s : State) (c : Core) (e : Nat × Rec) : List Byte :=
  le4 e.1 ++ leBytes 16 (e.2.word s c.num).toNat ++ (List.range (1024 * e.2.size)).map (fun i =>
    (c.forme.read 1024 (1024 * e.2.start + i)).setWidth 8)
/-- The code of a space in MOD (R60). -/
def EngSpace.modCode : EngSpace → Nat
  | .sh => 0
  | .pp => 1
  | .dz => 2
  | .mem => 4
/-- A restart record (R259): channel, opcode, MOD, destination and source, completion target, full length, bytes delivered. -/
def saveRestart (o : Op) : List Byte :=
  let (opcode, dst, src, srcCode, len) : Nat × EP × Nat × Nat × Nat := match o.kind with
    | .copy d s n => (0x280, d, s.addr, EngSpace.modCode s.sp, n)
    | .fill d w n => (0x283, d, w.toNat, 0, n)
    | _ => (0, default, 0, 0, 0)
  let mod := 1024 * o.handle.isSome.toNat + 128 * srcCode + 16 * EngSpace.modCode dst.sp + o.chan.getD 0
  le4 (o.chan.getD 0) ++ le4 opcode ++ le4 mod ++ leBytes 8 dst.addr ++ leBytes 8 src
    ++ le4 (match o.handle with
      | some n => n
      | none => o.barrier.getD 0)
    ++ le4 len ++ le4 o.done
/-- A region padded to 4 KiB, and regions laid out one after the other. -/
def padRegion (r : List Byte) : List Byte := r ++ List.replicate ((4096 - r.length % 4096) % 4096) 0
def layRegions (l : List (List Byte)) : List Byte := l.flatMap padRegion
/-- The regions of the save area before the scope registers, and from them on. -/
def saveHead (s : State) (t : TeamId) (x : Team) : List Byte := layRegions [saveHeader s t x, saveSequencers s t]
def saveTail (s : State) (t : TeamId) (x : Team) (c : Core) (v : SavedTeam) : List Byte :=
  layRegions [saveScope s t, saveLanes s t, saveLaneState s t, (List.range v.reach).map (fun i => s.mem.read (shAddr x.core (x.shBase + i))),
    v.tiles.flatMap saveTile, v.recs.flatMap (fun e => saveRange s c (e.1, e.2.1)), (v.ops.filter Op.restartable).flatMap saveRestart]
/-- The place of a save area of some length in device memory. -/
def saveAt (n len : Nat) : Nat := 4096 * (Config.savePlace n % ((Config.dramBytes - len) / 4096 + 1))

/-- A team saved, its core's resources freed. -/
def saveTeam (s : State) (t : TeamId) : State :=
  match s.team? t with
  | none => s
  | some x =>
    match s.core? x.core with
    | none => s
    | some c =>
      let v := savedOf s t x c
      let head := saveHead s t x
      let image := head ++ saveTail s t x c v
      let at_ := saveAt s.nonce image.length
      let s := putBytes s (placed at_ image)
      let s := giveUp { s with
        saved := s.saved ++ [{ v with scopeAt := at_ + head.length }]
        nonce := s.nonce + 1
        ops := s.ops.filter (fun o => !(o.team = t && o.parked)) } t x.core
      s.modTeam t (fun y => { y with state := .saved, leaving := false, toHold := false, requeue := 0 })
/-- The operations of teams that leave that have come to a page they cannot reach, stopped (R258, R259), and the private stacks written
back once the engines have drained. -/
def leaveStacks (s : State) : State :=
  let s := ((s.teams.filter (fun e => e.2.leaving)).flatMap (fun e => stuckOps s e.1)).foldl parkOp s
  s.teams.foldl (fun s e => if e.2.leaving && opsDrained s e.1 && pvSettled s e.1 && !s.galley.any (fun h => h.team = e.1) then
    writeBackPv s e.1 e.2.core else s) s
/-- Every unit that has drained, saved. -/
def saveAll (s : State) : State :=
  let s := leaveStacks s
  ((s.teams.map (fun e => e.1)).filter (fun t => saveReady s t)).foldl saveTeam s

/-! Restore (R261) -/

/-- Whether a core has what a saved team takes back: the bytes of `sh` that it reached, the tiles and records by their numbers, the granules,
and tiles for its withdrawn request. -/
def takesBack (s : State) (v : SavedTeam) (x : Team) (core : Nat) : Bool :=
  coreAccepts s v.id.launch core x.need x.chans && (v.reach ≤ x.shSize || (residents s core).isEmpty)
    && (match s.core? core with
      | none => true
      | some c =>
        let free := (List.range c.tiles.length).filter (fun i => ((c.tiles[i]?).map (fun (k : Tile) => k.owner.isNone)).getD false)
        v.tiles.all (fun e => free.contains e.1)
          && v.requeue ≤ (free.filter (fun i => !(v.tiles.any (fun e => e.1 == i)))).length + (v.tiles.filter (fun e => e.2.freed.isSome)).length
          && v.granHold.all (fun g => !(c.recs.any (fun r => r.valid && r.granules.contains g.1)) && !c.granHold.any (fun h => h.1 == g.1))
          && v.recs.all (fun e => ((c.recs[e.1]?).map (fun (r : Rec) => !r.valid && r.owner.isNone)).getD false)
          && v.recs.all (fun e => !(c.recs.any (fun r => r.valid && r.granules.any (fun g => e.2.1.granules.contains g)))
            && !c.granHold.any (fun g => e.2.1.granules.contains g.1)))

/-- The cores that a unit may go back to: its own, or those of the same pair position in its partition. -/
def homes (s : State) (x : Team) : List Nat :=
  let lead := (pairCores (pairOf x.core)).1 == x.core
  let part := ((s.context? x.ctx).map (fun c => c.part)).getD []
  x.core :: part.map (fun p => if lead then (pairCores p).1 else (pairCores p).2)

/-- Effect-log entries of a team's `sh` port and of its draws go with it to another core and die. DEDUCED, log 81, unsafe. -/
def moveEffects (s : State) (t : TeamId) (ctx old new : Nat) : State :=
  { s with effects := s.effects.map (fun e =>
      if e.key.ctx == ctx && e.key.launch == t.launch % 2 ^ 40 && e.key.team == t.num % shadowBase then
        (if e.point == 100000 + old then { e with point := 100000 + new }
         else if e.point == spoolPoint (dieOf old) then { e with point := spoolPoint (dieOf new) } else e) else e) }

/-- An operation taken up again: on its channel, whose pointer keeps the value it had (R259), in the matrix queue, or on the gather
unit. -/
def resumeOp (s : State) (core : Nat) (o : Op) : State :=
  let o := { o with core := core, parked := false }
  let s := { s with ops := s.ops ++ [o] }
  match o.chan with
  | none =>
    if o.cls = some .gather || o.cls = some .copy then queueGather s o
    else pump (s.modCore core (fun c => { c with mq := c.mq ++ [o.id] })) core
  | some k =>
    let s := modChan s core k (fun c => { c with
      ops := c.ops ++ [o.id], running := c.running || o.begun, cwp := if o.begun then BitVec.ofNat 32 o.done else c.cwp })
    if o.begun then s.later (.delivery o.id) else s.later (.channelOperationBegin (coreDie core).1 (coreDie core).2 k)
/-- CORES of the retained record of a launch, as its teams lie (R357). -/
def recordCores (s : State) (n : Nat) : State :=
  match s.launch? n with
  | none => s
  | some l =>
    let cores := (gridTeams s n).filterMap (fun t => if isShadow t then none else (s.team? t).map (fun x => x.core))
    let bs := leBytes 80 (cores.foldl (fun n c => n ||| 2 ^ c) 0)
    match l.recK with
    | some _ => (List.range 80).foldl (fun s i => match walk s l.ctx (recordOf s l + 0x158 + i) with
      | .ok e => compHold s [(e.place (recordOf s l + 0x158 + i), bs.getD i 0)]
      | .error _ => s) s
    | none => putBytes { s with retained := s.retained.map (fun e => if e.1 = l.record then
        (e.1, e.2.take 0x158 ++ bs ++ e.2.drop (0x158 + 80)) else e) } (placed (recordOf s l + 0x158) bs)

/-- One team put back on a core as it was saved. -/
def restoreSaved (s : State) (v : SavedTeam) (core : Nat) : State :=
  match s.team? v.id with
  | none => s
  | some x =>
    let s := haveCore s core
    let base := windowBase s core
    let s := s.modTeam v.id (fun y => { y with state := v.state, core := core, die := dieOf core, shBase := base })
    let put (l : List (Nat × Byte)) : List (Nat × Byte) := l.map (fun e => (shAddr core (base + e.1), e.2))
    let old := (windowCells s { x with core := core, shBase := base } v.reach).map (fun e => (e.1, (0 : Byte)))
    let s : State := putBytes (putBytes { s with saved := s.saved.filter (fun (w : SavedTeam) => w.id ≠ v.id) } (put old)) (put v.sh)
    let s := s.modCore core (fun c => { c with
      tiles := ((List.range c.tiles.length).zip c.tiles).map (fun (i, k) => (get? i v.tiles).getD k)
      recs := ((List.range c.recs.length).zip c.recs).map (fun (i, r) => ((v.recs.find? (fun e => e.1 == i)).map (fun e => e.2.1)).getD r)
      chans := ((List.range c.chans.length).zip c.chans).map (fun (k, h) =>
        if x.chans.getLsbD k then { h with cwp := (get? k v.chans).getD 0 } else h)
      granHold := c.granHold ++ v.granHold
      alloc := c.alloc ++ v.grants })
    let (n, s) := s.fresh
    let s := s.modCore core (fun c => { c with
      forme := (c.forme.spoil 1024 n (v.recs.flatMap (fun e => e.2.1.granules))).writes (v.recs.flatMap (fun e => e.2.2)) })
    let s := s.modCtxs (teamCtxs s v.id) (fun y => { y with wait := y.wait.map (retest s v.id) })
    recordCores (v.ops.foldl (fun s o => resumeOp s core o) (moveEffects s v.id x.ctx x.core core)) v.id.launch

/-- The saved records of a team's unit. -/
def savedUnit (s : State) (t : TeamId) : List SavedTeam := s.saved.filter (fun v => (unitTeams s t).contains v.id)
/-- Where each team of a saved unit can go back to together. -/
def places? (s : State) (t : TeamId) : Option (List (SavedTeam × Nat)) :=
  let vs := savedUnit s t
  if vs.isEmpty || vs.any (fun v => v.held) then none
  else match vs.head?.bind (fun v => s.team? v.id) with
    | none => none
    | some x0 =>
      ((List.range (homes s x0).length).findSome? (fun i =>
        let ps := vs.map (fun v => (v, match s.team? v.id with
          | some x => (homes s x).getD i 0
          | none => 0))
        if ps.all (fun p => match s.team? p.1.id with
          | some x => takesBack s p.1 x p.2 && (p.1.requeue = 0 || p.2 = x.core)
          | none => false) then some ps else none))
/-- The faults that a team brings back undelivered (R258). -/
def deliverLate (s : State) (t : TeamId) : State :=
  (((s.team? t).map (fun x => x.late)).getD []).foldl (fun s e => toHost s t e.1 e.2) (s.modTeam t (fun x => { x with late := [] }))
/-- A unit restored if its cores take it back. -/
def restoreUnit (s : State) (t : TeamId) : State :=
  match places? s t with
  | some ps => (ps.map (fun p => p.1.id)).foldl deliverLate (ps.foldl (fun s p => restoreSaved s p.1 p.2) s)
  | none => s

/-- `TEAM_RESTORE` (R261). -/
def execTeamRestore (t : TeamId) (s : State) : Host.Outcome State Fault Refusal := .next (restoreUnit s t)
/-- `TEAM_RESCHEDULE` (R225): the younger team of a wait cycle comes back to its core. -/
def execTeamReschedule (t : TeamId) (s : State) : Host.Outcome State Fault Refusal := .next (restoreUnit s t)

/-! The accumulator allocator (R219, R225) -/

/-- Tiles granted to the requests in arrival order, as long as the head fits. -/
def grantAll : Nat → State → Nat → State
  | 0, s, _ => s
  | fuel + 1, s, core =>
    match (s.core? core).bind (fun c => (c.alloc.find? (fun a => a.2.2.isNone)).map (fun a => (c, a))) with
    | none => s
    | some (c, (who, n, _)) =>
      let t := who.team?.getD ⟨0, 0⟩
      let free := (List.range c.tiles.length).filter (fun i => ((c.tiles[i]?).map (fun (k : Tile) => k.freeTo t)).getD false)
      if free.length < n then s
      else
        let ks := free.take n
        let s := s.modCore core (fun c => { c with
          tiles := ((List.range c.tiles.length).zip c.tiles).map (fun (i, k) =>
            if ks.contains i then { elems := ⟨[], [(0, s.nonce + i)]⟩, vm := 64, vn := 64, owner := some t, freed := none } else k)
          alloc := c.alloc.map (fun a => if a.1 = who then (a.1, a.2.1, some ks) else a) })
        grantAll fuel { s with nonce := s.nonce + 32 } core

/-- The younger team of a wait cycle (R225). -/
def waitCycle (s : State) (core : Nat) : Option TeamId :=
  match s.core? core with
  | none => none
  | some c => match (c.alloc.find? (fun a => a.2.2.isNone)).bind (fun a => a.1.team?) with
    | none => none
    | some t =>
      match (c.alloc.filter (fun a => a.2.2.isNone)).findSome? (fun a => a.1.team?.bind (fun u =>
          if u ≠ t && c.tiles.any (fun k => k.ownedBy u) then some u else none)) with
      | none => none
      | some u => some (if t.launch < u.launch then u else t)

/-- `ACCA_GRANT` (R219, R225): the allocator looks at its queue. -/
def execAccaGrant (die core : Nat) (s : State) : Host.Outcome State Fault Refusal :=
  let n := Config.coresPerDie * die + core
  let s := grantAll (((s.core? n).map (fun c => c.alloc.length)).getD 0) s n
  match waitCycle s n with
  | some t => .next (preempt s t false)
  | none => .next s

/-! Strikes and aborts (R277, R287, R298) -/

/-- A unit whose tile is not restartable stops, and the host gets the report (R287, R298). -/
def stopUnit (s : State) (t : TeamId) (f : FaultInfo) : State :=
  teamFault (discardHeld s (aliveUnit s t)) ((aliveUnit s t).headD t) f
/-- Whether the tile of a unit is not restartable. -/
def unitNr (s : State) (t : TeamId) : Bool := (aliveUnit s t).any (fun u => ((s.team? u).map (fun x => x.nr)).getD false)
/-- A unit rolled back, in proof mode with its twin (R296). -/
def rollbackAll (s : State) (t : TeamId) (d : Nat) : State :=
  let s := rollbackUnit s t d
  match (twinsOf s t).head? with
  | some q => if (aliveUnit s q).isEmpty then s else rollbackUnit s q d
  | none => s

/-- A strike against a containment unit, reported at d by a cell; a second report changes nothing further (R277). -/
def strikeUnit (s : State) (t : TeamId) (cell : Nat) : State :=
  if (aliveUnit s t).isEmpty then s
  else if unitNr s t then
    if (aliveUnit s t).all (fun u => ((s.team? u).map (fun x => x.struck)).getD false) then s else
    let s := (aliveUnit s t).foldl (fun s u => s.modTeam u (fun x => { x with struck := true })) s
    stopUnit s t { cause := .strikeNr, aux := BitVec.ofNat 32 cell }
  else rollbackAll s t s.tick

/-- Where an image of a slot lies in the flash: the firmware at the slot's start, the configuration block 8 MiB above it. -/
def imageAt (slot type : Nat) : Nat := flashAddr (2 ^ 24 * slot + (if type = 2 then 2 ^ 23 else 0))
/-- The slot that runs; slot A while none does. -/
def runSlot (s : State) : Nat := s.pages.slot - 1
/-- Bytes of the body of the device configuration block (R390). -/
def configNat (s : State) (off n : Nat) : Nat := leNat (s.mem.bytes (imageAt (s.pages.cfgSlot - 1) 2 + 0x200 + off) n)
/-- A block code of the strike map (R278, R390). -/
def strikeCode (s : State) (die cell i : Nat) : Nat := configNat s (0x9000 + 16 * (5120 * die + cell) + 2 * i) 2

/-- `STRIKE_REPORT` (R277): the count, then every core that the map names for the cell. The other blocks discard and replay what
they hold, which changes no state. -/
def execStrikeReport (die cell : Nat) (s : State) : Host.Outcome State Fault Refusal :=
  let s := countUp s (0x1000 + 5120 * die + cell)
  let codes := (List.range 8).map (strikeCode s die cell)
  let cores := distinct ((codes.filter (fun k => k / 2 ^ 12 == 1)).map (fun k => 160 * (k / 2 ^ 10 % 4) + k % 2 ^ 10))
  let ts := cores.flatMap (fun c => (residents s c).map (fun e => e.1))
  let units := ts.filter (fun t => (unitTeams s t).all (fun u => !ts.contains u || t.num ≤ u.num))
  .next (units.foldl (fun s t => strikeUnit s t cell) s)

/-- An abort completion for a physical address reaches a unit (R298). -/
def abortUnit (s : State) (t : TeamId) (pa : Nat) : State :=
  match s.team? t with
  | none => s
  | some x =>
    if !x.present then s
    else if unitNr s t || x.aborts.contains (x.epoch, pa) then
      stopUnit s t { cause := .abort, addr := BitVec.ofNat 32 pa, aux := BitVec.ofNat 32 (pa / 2 ^ 32 % 2 ^ 24) }
    else
      let s := (aliveUnit s t).foldl (fun s u => s.modTeam u (fun y => { y with aborts := y.aborts ++ [(y.epoch, pa)] })) s
      rollbackAll s t s.tick

/-- The kind of block that holds a physical address, as R393 numbers it. -/
def blockKind (pa : Nat) : Nat := if pa < Config.dramBytes then 3 else if 2 ^ 61 ≤ pa then 1 else 2
/-- The die of the memory that holds a physical address. -/
def memoryDie (pa : Nat) : Nat :=
  if 2 ^ 61 ≤ pa then dieOf (coreOfSh pa)
  else if 2 ^ 60 ≤ pa then (pa - 2 ^ 60) / Config.dzBytes % Config.dies
  else Config.dramDie pa % Config.dies
/-- Uncorrectable data found at a physical address (R298): the error is reported and counted at the memory's die, and its check word stays
uncorrectable. Its block group is not given. DESIGN CHOICE, log 82, safe. DESIGN CHOICE, log 129, safe. -/
def foundBad (s : State) (pa : Nat) : State :=
  let die := memoryDie pa
  let size := Config.checkBytes pa + 1
  let s := { s with bad := if s.bad.contains (pa / size * size, size) then s.bad else s.bad ++ [(pa / size * size, size)] }
  { (countUp s (0x300 + 64 * die + 8 * blockKind pa + (Config.freeWord s.nonce).toNat % 8)).say (.errorIrq die) with nonce := s.nonce + 1 }
/-- `ABORT_COMPLETION` (R298): the error is reported, then the requester's unit acts. -/
def execAbortCompletion (t : TeamId) (pa : Nat) (s : State) : Host.Outcome State Fault Refusal :=
  .next (abortUnit (foundBad s pa) t pa)
/-! The waiting budget (R262, R263) -/

/-- The live units of a team: its ganged groups or parted slices with work handed down, its groups and team contexts. -/
def unitsOf (s : State) (t : TeamId) : List CtxId :=
  (teamCtxs s t).filter (fun c => match c with
    | .slice t g i => (s.ctx c).live && (isParted s t g || (liveSlices s t g).head? = some (.slice t g i))
    | .group t g => !(liveSlices s t g).isEmpty
    | .team t r => ((role? s t r).map (fun x => !x.ended)).getD false
    | _ => false)

/-- A wait that is charged (R187, R262); a nap that has ended is none. -/
def Wait.charged (now : Nat) : Wait → Bool
  | .handle .. | .queuePop .. | .queuePush .. | .cls .. | .channel .. | .barrier .. | .pbar .. | .regang | .acca _ | .seal => true
  | .engine | .steal => true
  | .nap u => decide (now < u)
  | _ => false
/-- A unit that has nothing to issue until others have: it neither charges nor stops the charge. DEDUCED, log 16, unsafe. -/
def idle (x : Ctx) : Bool :=
  match x.wait with
  | some .lower | some .room => true
  | none => !x.busy && x.segs.isEmpty && x.stop.isNone
  | _ => false

/-- Whether a wait is on operations that stand suspended (R267). -/
def onSuspended (s : State) (c : CtxId) : Wait → Bool
  | .handle _ id => ((s.op? id).map (fun o => o.suspended)).getD false
  | .cls k _ => s.ops.any (fun o => o.cls == some k && o.suspended && o.units.contains c)
  | .channel k _ => s.ops.any (fun o => o.chan == some k && o.suspended && c.team? = some o.team)
  | .barrier objs _ => objs.any (fun a =>
    let feeds := s.ops.filter (fun o => c.team? = some o.team && o.barrier == some a.1.toNat)
    !feeds.isEmpty && feeds.all (fun o => o.suspended))
  | _ => false

/-- Whether the waiting budget of a context is at rest: a `TLBI` is under way, or a team waits for the host (R262). -/
def budgetRests (s : State) (ctx : Nat) : Bool :=
  !s.tlbis.isEmpty || s.teams.any (fun e => e.2.ctx == ctx && (match e.2.state with
    | .stopped _ => true
    | _ => false))
/-- The grid contexts of a context's launches that have an instruction to execute, or stand stopped for the host. -/
def gridUnits (s : State) (ctx : Nat) : List CtxId :=
  (s.ctxs.filter (fun e => match e.1 with
    | .grid n r => ((s.launch? n).map (fun l => l.ctx == ctx && (l.ready.contains r || e.2.stop.isSome))).getD false
    | _ => false)).map (fun e => e.1)
/-- The units of a context's running teams that stand in a charged wait, where every live unit does (R262). -/
def blockedUnits (s : State) (ctx : Nat) : List CtxId :=
  let ts := (s.teams.filter (fun e => e.2.ctx == ctx && e.2.state == .running && !e.2.leaving)).map (fun e => e.1)
  let us := (ts.flatMap (unitsOf s)).filter (fun c => !idle (s.ctx c)) ++ gridUnits s ctx
  let waits (c : CtxId) : Bool := (s.ctx c).stop.isNone && ((s.ctx c).wait.map (Wait.charged s.tick)).getD false
  if !budgetRests s ctx && us.all waits && !(budgetWaiters s).any (fun t => ts.contains t)
      && !us.all (fun c => ((s.ctx c).wait.map (onSuspended s c)).getD false) then us else []

/-- Reference ticks charged to the contexts whose units all wait. -/
def chargeWaits (s : State) (ns : Nat) : State :=
  { s with contexts := s.contexts.map (fun x =>
      if (blockedUnits s x.num).isEmpty then x
      else { x with used := x.used + (x.usedFrac + ns) / 1000, usedFrac := (x.usedFrac + ns) % 1000 }) }

/-- The budget of a context in µs (R363). -/
def Context.budget (x : Context) : Nat := if x.waitb = 0 then 10000 else x.waitb
/-- Whether a context's budget is spent and every unit still blocked. -/
def spent (s : State) (x : Context) : Bool := x.budget ≤ x.used && !(blockedUnits s x.num).isEmpty

/-- Kind, object and value of a snapshot entry (R263); 0 for a wait that it charges and does not list. DESIGN CHOICE, log 158, unsafe. -/
def waitEntry (s : State) (c : CtxId) (w : Wait) : Nat × Nat × Nat :=
  let t := c.team?.getD ⟨0, 0⟩
  let queue (q : Nat) : Nat := ((((s.team? t).bind (fun x => x.queues[q]?)).join).map (fun (y : QueueSt) => y.elems.length)).getD 0
  match w with
  | .barrier objs _ =>
    let a := (objs.head?.map (fun o => o.1.toNat)).getD 0
    let b := getBar s t a
    (0, a, b.gen % 2 ^ 15 * 2 ^ 17 + (if b.pend = 0 then 0 else 2 ^ 16) + b.arrived)
  | .queuePop q _ => (1, q, queue q)
  | .queuePush q _ => (2, q, queue q)
  | .handle n id => (3, n, if (s.op? id).isSome then 0xFFFFFFFF else (statusWord ((s.ctx c).h.getD (n % 16) .empty)).toNat)
  | .cls k _ => (4, (match k with
      | .copy => 0
      | .gather => 1
      | .matrix => 2
      | .coll => 3), countOf s c k)
  | .channel k _ => (5, k, (((s.team? t).bind (fun x => chanOf s x.core k)).map (fun h => h.cwp.toNat)).getD 0)
  | .pbar i _ => (6, i, ((get? i s.pbars).map (fun b => b.arrived.length)).getD 0)
  | .regang => (7, 0, match c with
      | .slice t g _ => (liveSlices s t g).foldl (fun n u => n + (if (s.ctx u).wait = some .regang then 2 ^ sliceNo u else 0)) 0
      | _ => 0)
  | .acca n => (8, n, ((s.core? (coreOf s t)).map (fun k => (k.tiles.filter (fun y => y.freeTo t)).length)).getD 0)
  | .nap u => (9, 0, u - s.tick)
  | .seal => (10, 0, (sealersOf s [t]).foldl (fun n a => n + 2 ^ a.2.role) 0)
  | _ => (0, 0, 0)
/-- The snapshot entry of a blocked unit. -/
def snapEntry (s : State) (c : CtxId) : List Byte :=
  let (k, o, v) := ((s.ctx c).wait.map (waitEntry s c)).getD (0, 0, 0)
  let sc := match c with
    | .slice .. => 0
    | .group .. => 2
    | _ => 3
  let g := match c with
    | .slice _ g _ | .group _ g => g
    | _ => 0xFF
  let i := match c with
    | .slice t g i => if isParted s t g then i else 0xFF
    | _ => 0xFF
  le4 (roleOf s c * 2 ^ 24 + sc * 2 ^ 16 + g * 2 ^ 8 + i) ++ le4 (s.ctx c).pc.toNat ++ le4 (k * 2 ^ 28 + o % 2 ^ 28) ++ le4 v

/-- `WAITBUDGET` (R263): the snapshot to the host, and the context off its cores until the host resumes it. -/
def execWaitbudget (ctx : Nat) (s : State) : Host.Outcome State Fault Refusal :=
  match s.context? ctx with
  | none => .next s
  | some x =>
    if !spent s x then .next s
    else
      let us := blockedUnits s ctx
      let c := us.headD (.team ⟨0, 0⟩ 0)
      let t := c.team?.getD ⟨0, 0⟩
      let r := roleOf s c
      let f : FaultInfo := { cause := .waitbudget, addr := BitVec.ofNat 32 x.used }
      let p : Pending := ⟨.team t r, f, (s.ctx (.team t r)).pc, peekWord s (.team t r) (s.ctx (.team t r)).pc, 3⟩
      let frame := frameBytes s t r p false (shownCtl s)
      let s := writeRing (faultTrigger s t p) ctx (ringEntry s ctx (some t) Cause.waitbudget.code frame (us.flatMap (snapEntry s)))
      let ts := (s.teams.filter (fun e => e.2.ctx == ctx && e.2.state == .running)).map (fun e => e.1)
      let s := ts.foldl (fun s t => preempt s t true) s
      .next { s with
        teams := s.teams.map (fun e => if e.2.ctx = ctx ∧ e.2.leaving = true then (e.1, { e.2 with toHold := true }) else e)
        saved := s.saved.map (fun v => if ((s.team? v.id).map (fun x => x.ctx)) = some ctx then { v with held := true } else v) }

/-! Translation (R264 to R268) -/

/-- An entry put into a translation cache, the oldest out of a full one. DESIGN CHOICE, log 45, unsafe. -/
def cacheIn (n : Nat) (e : Nat × Nat × Nat × Nat) (l : List (Nat × Nat × Nat × Nat)) : List (Nat × Nat × Nat × Nat) :=
  (l ++ [e]).drop (l.length + 1 - n)
/-- The die and the context for which a unit fetches and translates. -/
def transHome (s : State) (c : CtxId) : Option (Nat × Nat) :=
  match c with
  | .grid n _ => (s.launch? n).map (fun l => (l.home, l.ctx))
  | c => (c.team?.bind s.team?).map (fun x => (x.die, x.ctx))
/-- The lists of pages whose walks have ended, of the units and operations of a die and context that wait, changed by f. -/
def modWalks (s : State) (home : Nat × Nat → Bool) (f : List Nat → List Nat) : State :=
  { s with
    ctxs := s.ctxs.map (fun e => match e.2.wait with
      | some (.walk va l) => if ((transHome s e.1).map home).getD false then (e.1, { e.2 with wait := some (.walk va (f l)) }) else e
      | _ => e)
    ops := s.ops.map (fun o => if o.walk.isSome && ((s.team? o.team).map (fun x => home (dieOf o.core, x.ctx))).getD false then
      { o with walks := f o.walks } else o) }
/-- `TRANSLATION_WALK` (R264): the walk ends; a valid translation enters the caches of the die and of its cores that run the
context, and what waited for the page goes on. A walk whose page a `TLBI` removed leaves nothing (R268). -/
def execTranslationWalk (die ctx va : Nat) (s : State) : Host.Outcome State Fault Refusal :=
  if !((s.die? die).map (fun d => d.merge.contains (ctx, va))).getD false then .next s
  else
    if walkWaits s ctx va then .next (s.at_ (s.cycle + 1) (.translationWalk die ctx va)) else
    let s := s.modDie die (fun d => { d with merge := d.merge.filter (fun e => e ≠ (ctx, va)) })
    let s := modWalks s (fun h => h == (die, ctx)) (fun l => l ++ [va / 65536])
    match walk s ctx va with
    | .error _ => .next s
    | .ok l =>
      let e := (ctx, va / 2 ^ l.shift, l.shift, l.bits)
      let cores := (s.teams.filter (fun t => t.2.ctx == ctx && t.2.die == die && t.2.present)).map (fun t => t.2.core)
      let s := s.modDie die (fun d => { d with tlb := cacheIn 16384 e d.tlb })
      .next (cores.foldl (fun s c => s.modCore c (fun k => { k with tlb := cacheIn 256 e k.tlb })) s)

/-- Whether a translation of a context is one that a `TLBI` removes: all, or the page of a of one of some sizes. -/
def tlbiHits (ctl a : Nat) (ctx page shift : Nat) : Bool :=
  ctx == ctl % 64 && (bit ctl 8 || (page == a / 2 ^ shift && (match ctl / 64 % 4 with
    | 0 => shift == 16
    | 1 => shift == 21
    | 2 => shift == 30
    | _ => true)))
/-- Whether a walk in progress is for a page that a `TLBI` names. -/
def mergeHits (ctl a : Nat) (ctx va : Nat) : Bool :=
  ctx == ctl % 64 && (bit ctl 8 || (match ctl / 64 % 4 with
    | 0 => va / 2 ^ 16 == a / 2 ^ 16
    | 1 => va / 2 ^ 21 == a / 2 ^ 21
    | 2 | _ => va / 2 ^ 30 == a / 2 ^ 30))
/-- Translations removed on every die (R121), and walks for their pages, whether they are in progress or have just ended (R268). -/
def invalidate (s : State) (ctl a : Nat) : State :=
  let s := modWalks s (fun h => h.2 == ctl % 64) (fun l => l.filter (fun p => !mergeHits ctl a (ctl % 64) (65536 * p)))
  { s with
    cores := s.cores.map (fun c => { c with tlb := c.tlb.filter (fun e => !tlbiHits ctl a e.1 e.2.1 e.2.2.1) })
    dies := s.dies.map (fun d => { d with
      tlb := d.tlb.filter (fun e => !tlbiHits ctl a e.1 e.2.1 e.2.2.1)
      merge := d.merge.filter (fun e => !mergeHits ctl a e.1 e.2) }) }

/-- A die's acknowledgement of the oldest `TLBI` that waits for it. -/
def ackTlbi (s : State) (die : Nat) : State :=
  match s.tlbis.find? (fun t => t.2.2.contains die) with
  | none => s
  | some (id, _, _) =>
    let left : List (Nat × Nat × List Nat) := s.tlbis.map (fun (t : Nat × Nat × List Nat) =>
      if t.1 = id then (t.1, t.2.1, t.2.2.filter (fun d => d ≠ die)) else t)
    { s with tlbis := left.filter (fun t => !t.2.2.isEmpty) }
/-- `TLBI_ACK` (R121, R268). -/
def execTlbiAck (die : Nat) (s : State) : Host.Outcome State Fault Refusal := .next (ackTlbi s die)

/-! Naps, W scope, the power budget, the snapshot -/

/-- `NAP_EXPIRY` (R118). -/
def execNapExpiry (c : CtxId) (s : State) : Host.Outcome State Fault Refusal :=
  match (s.ctx c).wait with
  | some (.nap u) => .next (if u ≤ s.tick then s.modCtxs (unitOf s c) Ctx.rouse else s)
  | _ => .next s

/-- `W_SCOPE_EXECUTION` (R96, R319): 120 cycles after the last arrival the grid context executes. -/
def execWScopeExecution (launch role : Nat) (s : State) : Host.Outcome State Fault Refusal :=
  .next (s.modLaunch launch (fun l =>
    if l.arrived.any (fun a => a.1 == role && a.2 ≤ s.treeCycle) then
      { l with arrived := l.arrived.filter (fun a => a.1 ≠ role), ready := l.ready ++ [role] }
    else l))

/-- `BUDGET_REFILL` (R229, R391): every 1,024 cycles. -/
def execBudgetRefill (s : State) : Host.Outcome State Fault Refusal :=
  let s := { s with cores := s.cores.map (fun (c : Core) => { c with bucket := min 65535 (c.bucket + s.pages.govrate) }) }
  .next ((s.cores.map (fun c => c.num)).foldl pump (s.at_ (s.cycle + 1024) .budgetRefill))

/-- Ticks between two updates of the governor. -/
def governEvery : Nat := 10000
/-- `GOVERNOR_UPDATE` (R391): at every 10 µs boundary, with the power measured and the rate that the governor sets for it. -/
def execGovernorUpdate (watts rate : BitVec 16) (s : State) : Host.Outcome State Fault Refusal :=
  if s.tick < s.pages.govAt then .next s
  else
    let high := s.pages.govlim < watts.toNat
    .next { s with
      stretched := high
      nonce := s.nonce + 1
      pages := { s.pages with
        govAt := (s.tick / governEvery + 1) * governEvery
        govpwr := watts.toNat
        govrate := if s.pages.fixed then s.pages.govfix else rate.toNat
        govstr := if high && !s.stretched && s.pages.govstr ≠ 0xFFFFFFFF then s.pages.govstr + 1 else s.pages.govstr } }

/-- The trigger whose tag, context and PC a snapshot takes: that of `SNAP`, else of a fault, else the other. -/
def leadTrigger (ts : List Trigger) : Option Trigger :=
  match ts.find? (fun t => t.src == 1) with
  | some t => some t
  | none => match ts.find? (fun t => t.src == 4) with
    | some t => some t
    | none => ts.head?
/-- What a core latches for a snapshot (R392): the PCs of its slices, its groups' parted flags, the outstanding counters, the galley's
entries, the depth of the matrix queue and the effect counters; with them its reservation records and its teams' effects in their layouts
(R205, R288). DESIGN CHOICE, log 140, safe. -/
def latchCore (s : State) (c : Core) : List Nat :=
  let ts := (residents s c.num).map (fun e => e.1)
  let cs := s.ctxs.filter (fun e => (e.1.team?.map ts.contains).getD false)
  let held := s.galley.filter (fun h => h.core == c.num)
  (cs.filter (fun e => e.1.level = 1)).map (fun e => e.2.pc.toNat)
    ++ (cs.filter (fun e => e.1.level = 2)).map (fun e => e.2.parted.toNat)
    ++ cs.flatMap (fun e => [e.2.counts.copy, e.2.counts.gather, e.2.counts.matrix, e.2.counts.coll])
    ++ held.flatMap (fun h => h.bytes.flatMap (fun b => [b.1, b.2.toNat]))
    ++ [c.mq.length]
    ++ cs.map (fun e => e.2.eff)
    ++ c.recs.map (fun r => (r.word s c.num).toNat)
    ++ (s.effects.filter (fun e => ts.any (fun t => e.key.launch == t.launch % 2 ^ 40 && e.key.team == t.num % shadowBase))).map
      (fun e => (Effect.bits e).toNat)
/-- `SNAPSHOT_LATCH` (R392): the triggers of one cycle, 120 cycles on. -/
def execSnapshotLatch (s : State) : Host.Outcome State Fault Refusal :=
  match s.pages.triggers with
  | [] => .next s
  | f :: _ =>
    let ts := s.pages.triggers.filter (fun t => t.cycle == f.cycle)
    let rest := s.pages.triggers.filter (fun t => t.cycle ≠ f.cycle)
    if s.treeCycle < f.cycle + Config.barrierRelease then .next s
    else if s.pages.held then
      .next { s with pages := { s.pages with triggers := rest, dropped := min 0xFFFF (s.pages.dropped + ts.length) } }
    else match leadTrigger ts with
      | none => .next s
      | some k =>
        .next (({ s with
          nonce := s.nonce + 1
          pages := { s.pages with
            held := true
            src := ts.foldl (fun n t => n ||| t.src) 0
            sntag := k.tag
            snctx := k.ctx
            snpc := k.pc
            snref := k.tick
            snap := s.cores.map (fun c => (c.num, latchCore s c))
            snapNo := s.nonce
            triggers := rest } } : State).say (.snapshot (s.effects.map Effect.bits) (s.cores.map (fun c => (c.num, c.recs.map (Rec.word s c.num))))))

/-! Single steps (R270) -/

/-- `SINGLE_STEP`: the debug agent lets one slice of a stopped team issue. -/
def execSingleStep (t : TeamId) (group slice : Nat) (s : State) : Host.Outcome State Fault Refusal :=
  match s.team? t with
  | some x =>
    if x.state = .stopped .debug ∧ (s.ctx (.slice t group slice)).live then
      .next (s.modTeam t (fun x => { x with stepping := some (group, slice, 0) }))
    else .next s
  | none => .next s

/-- The stop after a step of a slice: the frame of the instruction stepped, with cause STEP. DEDUCED, log 22, unsafe. -/
def stepStop (s : State) (t : TeamId) (u : CtxId) (p : Pending) (partu : Bool) : State :=
  let s := stopTeam (s.modTeam t (fun x => { x with stepping := none })) t .debug
  s.say (.debug t (frameBytes s t (roleOf s u) p partu (shownCtl s)))

end Sys2Proof.Machine
end

