-- ==== Sys2Proof/Machine/Queues.lean ====
section
/-! DEFINITION. User-mode queues, packets, placement and the ends of grids (R303 to R309, R318, R348 to R361), and the compositor's
access to a context's memory. -/

namespace Sys2Proof.Machine

/-! The compositor's accesses -/

/-- The place of a byte of a context's address space; an address that no memory answers is an abort. DEDUCED, log 46, unsafe. -/
def vaPlace (s : State) (ctx va : Nat) (w : Want) : Except Cause Nat :=
  match walk s ctx va with
  | .error c => .error c
  | .ok l => match l.answer va w with
    | .ok pa => if exists_ pa 1 then .ok pa else .error .abort
    | .fault c => .error c
    | .miss => .error .page
def vaPlaces (s : State) (ctx va n : Nat) (w : Want) : Except Cause (List Nat) := (List.range n).mapM (fun i => vaPlace s ctx (va + i) w)
/-- The bytes of a context's address space as the compositors see them, with what they have written themselves; uncorrectable data is an
abort (R298). -/
def vaRead (s : State) (ctx va n : Nat) : Except Cause (List Byte) :=
  match vaPlaces s ctx va n .read with
  | .ok l => if (badAt s [compTeam] l).isSome then .error .abort else .ok (l.map (readByte s [compTeam]))
  | .error c => .error c
/-- Uncorrectable data that a read of the compositor has found is reported (R298). DEDUCED, log 163, unsafe. -/
def vaReport (s : State) (ctx va n : Nat) : State :=
  match vaPlaces s ctx va n .read with
  | .ok l => match badAt s [compTeam] l with
    | some a => foundBad s a
    | none => s
  | .error _ => s
/-- Bytes written to a context's address space by a copy channel of a home die. -/
def vaWrite (s : State) (ctx va : Nat) (bs : List Byte) : Except Cause State :=
  match vaPlaces s ctx va bs.length .write with
  | .ok l => .ok (putBytes s (l.zip bs))
  | .error c => .error c
/-- A signal or message of a compositor, held as its writes are (R280); one that has nowhere to go changes nothing. -/
def vaPut (s : State) (ctx va : Nat) (bs : List Byte) : State :=
  match vaPlaces s ctx va bs.length .write with
  | .ok l => compHold s (l.zip bs)
  | .error _ => s

/-- A field of n bytes at an offset of some bytes. -/
def field (bs : List Byte) (off n : Nat) : Nat := leNat ((bs.drop off).take n)

/-- A failure value of a signal (R356). -/
def isFailure (v : Nat) : Bool := 2 ^ 63 < v && v ≤ 2 ^ 63 + 0xFF
/-- What a completion leaves in a signal (R358, R359): −1 added, or the status exchanged in. -/
def signalAfter (old code : Nat) : Nat := if code = 0 then (old + (2 ^ 64 - 1)) % 2 ^ 64 else 2 ^ 63 + code
/-- One completion of a packet: at once, or, where another unit's write to the signal is held, once it is visible (R243), after those that
came before it. DEDUCED, log 85, unsafe. -/
def completeSignal (s : State) (ctx va code : Nat) : State :=
  if vaHeld s ctx va 8 || s.signals.any (fun e => e.1 = ctx && e.2.1 = va) then { s with signals := s.signals ++ [(ctx, va, code)] }
  else match vaRead s ctx va 8 with
    | .ok bs => vaPut s ctx va (leBytes 8 (signalAfter (leNat bs) code))
    | .error _ => vaReport s ctx va 8
/-- The completions that wait, as far as they can be made now. -/
def flushSignals (s : State) : State := s.signals.foldl (fun s e => completeSignal s e.1 e.2.1 e.2.2) { s with signals := [] }
/-- A packet completes: at its signal, or, for one that firmware dispatched, at DONE of its die (R375). -/
def completePacket (s : State) (q : HQueue) (p : Packet) (code : Nat) : State :=
  match p.recK with
  | some k => s.modDie q.home (fun d => { d with acc := { d.acc with dones := d.acc.dones ++ [BitVec.ofNat 32 (k + 256 * code)] } })
  | none => completeSignal { s with retained := drop p.rec_ s.retained } q.ctx (field p.bytes 0x30 8) code

/-! Packets (R353) -/

def Packet.head (p : Packet) : Nat := field p.bytes 0 4
def Packet.type (p : Packet) : Nat := p.head / 2 % 8
/-- An address of a packet: 8-byte aligned, 57 bits. -/
def addrOk (a : Nat) : Bool := a % 8 = 0 && a < 2 ^ 57
/-- The checks of R353 and of the table of bodies. DEDUCED, log 83, unsafe. -/
def Packet.ok (p : Packet) : Bool :=
  let h := p.head
  h / 2 ^ 13 = 0 && !bit h 8 && h / 64 % 4 ≠ 3 && h / 16 % 4 ≠ 3 && addrOk (field p.bytes 0x30 8)
    && (match p.type with
      | 0 => addrOk (field p.bytes 0x10 8) && addrOk (field p.bytes 0x18 8) && field p.bytes 0x20 4 ≤ 256
          && (!bit h 9 || field p.bytes 4 4 % 2 = 0)
      | 1 => field p.bytes 4 4 % 4 = 0 && addrOk (field p.bytes 8 8) && addrOk (field p.bytes 0x10 8)
      | 2 => 1 ≤ field p.bytes 4 4 && field p.bytes 4 4 ≤ 5
          && (List.range (field p.bytes 4 4)).all (fun i => addrOk (field p.bytes (8 + 8 * i) 8))
      | _ => false)

/-- The launch descriptor and the role table of a launch packet as read (R354, R355). -/
def Packet.args (p : Packet) : List Byte := (p.bytes.drop 64).take 256
def Packet.desc (p : Packet) : List Byte := (p.bytes.drop 320).take 256
def Packet.table (p : Packet) : List Byte := (p.bytes.drop 576).take 192

/-- The identifiers of PBMASK with their E. -/
def pbound (d : List Byte) : List (Nat × Nat) :=
  let m := field d 0x2C 4 + 2 ^ 32 * field d 0x30 4
  ((List.range 64).filter (fun i => bit m i)).map (fun i => (i, field d (0x40 + 2 * i) 2))
/-- The limits of the launch descriptor (R354); its code and private stacks lie in device memory (R347). -/
def descOk (d : List Byte) : Bool :=
  field d 0 8 % 65536 = 0 && field d 0 8 < 2 ^ 56 && addrOk (field d 8 8) && field d 0x10 8 % 65536 = 0 && field d 0x10 8 < 2 ^ 57
    && field d 0x18 8 < 2 ^ 56
    && 1 ≤ field d 0x20 4 && field d 0x20 4 ≤ 4096 && 1 ≤ field d 0x24 4 && field d 0x24 4 ≤ 16 && field d 0x28 4 < 2 ^ 16
    && field d 0x34 12 = 0 && field d 0xC0 64 = 0
/-- A role record. -/
def roleRec (t : List Byte) (i : Nat) : List Byte := (t.drop (0x40 + 16 * i)).take 16
def roleRecOk (t : List Byte) (i : Nat) : Bool :=
  let r := roleRec t i
  field r 0 1 = i && 1 ≤ field r 1 1 && field r 1 1 ≤ 32 && 1 ≤ field r 2 1 && field r 2 1 ≤ 8 && 1 ≤ field r 3 1 && field r 3 1 ≤ 32
    && field r 8 8 = 0
/-- The limits of the role table (R355, R6, R9); its MODE is the PAIR bit of the header. -/
def tableOk (t : List Byte) (pair : Bool) : Bool :=
  let n := field t 8 1
  let nc := field t 0x0A 1
  let a := field t 0x0B 1
  field t 0 4 = 0x54524741 && field t 4 4 = 1 && 1 ≤ n && n ≤ 4 && field t 9 1 = pair.toNat && nc ≤ 32
    && a / 32 % 4 = 0 && a % 2 = 0 && a % 32 ≤ 30
    && field t 0x1C 36 = 0 && (List.range 4).all (fun i => i < n || field (roleRec t i) 0 16 = 0)
    && (List.range n).all (roleRecOk t) && ((List.range n).map (fun i => field (roleRec t i) 1 1)).sum ≤ 32
    && (List.range 32).all (fun i => if i < nc then 0x100 ≤ field t (0x80 + 2 * i) 2 && field t (0x80 + 2 * i) 2 ≤ 0x1BF
      else field t (0x80 + 2 * i) 2 = 0)

/-- The roles of a table. -/
def rolesOf (t : List Byte) : List RoleSt :=
  let n := field t 8 1
  (List.range n).map (fun i =>
    let r := roleRec t i
    { first := ((List.range i).map (fun j => field (roleRec t j) 1 1)).sum
      groups := field r 1 1
      slices := field r 2 1
      budget := 8 * field r 3 1
      entry := BitVec.ofNat 32 (field r 4 4)
      ended := false
      handler := none
      viewchg := []
      frame := 0 })

/-- The extent of the index space (R353, R355): 0 takes that of `.tile`, and 1 where there is none. -/
def extentOf (p : Packet) : Nat × Nat × Nat :=
  let pick (x t : Nat) : Nat := if x ≠ 0 then x else if t ≠ 0 then t else 1
  (pick (field p.bytes 8 4) (field p.table 0x10 4), pick (field p.bytes 0x0C 2) (field p.table 0x14 4),
    pick (field p.bytes 0x0E 2) (field p.table 0x18 4))

/-- The `w` registers of a launch (R24, R67): the first 128 bytes of its arguments, with the base of `.data` where `.entry`
names it. -/
def argWords (p : Packet) : List Word :=
  let ws := (List.range 32).map (fun i => BitVec.ofNat 32 (field p.args (4 * i) 4))
  let a := field p.table 0x0B 1
  if a < 128 then ws
  else (ws.set (a % 32) (BitVec.ofNat 32 (field p.desc 0x10 8))).set (a % 32 + 1) (BitVec.ofNat 32 (field p.desc 0x14 4))

/-! Placement (R306 to R309) -/

/-- The cores of a context's partition. -/
def partition (s : State) (ctx : Nat) : List Nat :=
  (((s.context? ctx).map (fun c => c.part)).getD []).flatMap (fun p => [(pairCores p).1, (pairCores p).2])
/-- The ranges of the spool (R309): counts of teams per die. -/
def spoolRanges (n extent : Nat) (counts : List Nat) : List (Nat × Nat) :=
  (List.range Config.dies).map (fun d =>
    let lo := (counts.take d).sum
    (extent * lo / n, extent * (lo + counts.getD d 0) / n))

/-- The least elements of a list, taken one after the other: ascending order. -/
def ascending : Nat → List Nat → List Nat
  | 0, _ => []
  | fuel + 1, l => match l.min? with
    | none => []
    | some m => m :: ascending fuel (l.filter (fun x => x ≠ m))

/-- The cores for the units of a launch: a list of one or two cores each, in team order; `none` when they are not there.
DESIGN CHOICE, log 88, unsafe. -/
def chooseCores (s : State) (ctx n : Nat) (pair : Bool) (need : Need) (chans : BitVec 16) : Option (List (List Nat)) :=
  let ok (c : Nat) : Bool := coreAccepts s 0 c need chans
  if pair then
    let part := ((s.context? ctx).map (fun c => c.part)).getD []
    let all := ascending part.length part
    let k := if n = 0 then all.length else n / 2
    let free := (all.map (fun p => [(pairCores p).1, (pairCores p).2])).filter (fun u => u.all ok)
    if k = 0 || free.length < k then none else some (free.take k)
  else
    let part := partition s ctx
    let all := ascending part.length part
    let k := if n = 0 then all.length else n
    let free := (all.filter ok).map (fun c => [c])
    if k = 0 || free.length < k then none else some (free.take k)

/-- A shadow unit for every unit, each on another die (R294). -/
def chooseShadows (free : List (List Nat)) : List (List Nat) → Option (List (List Nat))
  | [] => some []
  | u :: us => match free.find? (fun v => dieOf (v.headD 0) ≠ dieOf (u.headD 0)) with
    | none => none
    | some v => (chooseShadows (free.filter (fun w => w ≠ v)) us).map (fun r => v :: r)

/-- Teams of a launch with their cores, shadow numbers from `shadowBase`. -/
def numberTeams (launch base : Nat) (us : List (List Nat)) : List (TeamId × Nat × Option TeamId) :=
  ((List.range us.length).zip us).flatMap (fun (k, u) => match u with
    | [a, b] => [(⟨launch, base + 2 * k⟩, a, some ⟨launch, base + 2 * k + 1⟩), (⟨launch, base + 2 * k + 1⟩, b, some ⟨launch, base + 2 * k⟩)]
    | [a] => [(⟨launch, base + k⟩, a, none)]
    | _ => [])

/-- A launch number whose low 40 bits a launch of the context still uses (R306). -/
def numberBusy (s : State) (ctx n : Nat) : Bool :=
  s.launches.any (fun l => l.ctx == ctx && l.num % 2 ^ 40 == n % 2 ^ 40)
/-- Grid contexts in use on a die (R25). -/
def gridCount (s : State) (home : Nat) : Nat :=
  (s.launches.filter (fun l => l.home == home)).foldl (fun n l => n + (s.ctxs.filter (fun e => match e.1 with
    | .grid k _ => k == l.num
    | _ => false)).length) 0

/-- The retained record of a placed launch (R357): a piece at an offset. DESIGN CHOICE, log 86, safe. -/
def putRecord (s : State) (q : HQueue) (p : Packet) (off : Nat) (bs : List Byte) : State :=
  match p.recK with
  | some k => match s.die? q.home with
    | some d => vaPut s q.ctx (d.acc.rec_.toNat + 512 * k + off) bs
    | none => s
  | none =>
    let old := (get? p.rec_ s.retained).getD (List.replicate 512 0)
    let whole := old.take off ++ bs ++ old.drop (off + bs.length)
    putBytes { s with retained := put p.rec_ whole s.retained } (placed (recordAddr p.rec_) whole)
/-- Where a launch would go: its units, their shadows, its number of teams. -/
def placementOf (s : State) (q : HQueue) (p : Packet) : Option (List (List Nat) × List (List Nat)) :=
  let d := p.desc
  let roles := rolesOf p.table
  let pair := bit p.head 9
  let chans := BitVec.ofNat 16 (field d 0x28 4)
  let need := Need.of roles (65536 * field d 0x24 4) chans
  if (pbound d).any (fun b => (get? b.1 s.pbars).isSome) || numberBusy s q.ctx s.launchCtr || 256 < gridCount s q.home + roles.length then none
  else match chooseCores s q.ctx (field p.bytes 4 4) pair need chans with
    | none => none
    | some us =>
      if !bit p.head 11 then some (us, [])
      else
        let ok (c : Nat) : Bool := coreAccepts s 0 c need chans && !us.any (fun u => u.contains c)
        let part := ((s.context? q.ctx).map (fun c => c.part)).getD []
        let free := if pair then (part.map (fun p => [(pairCores p).1, (pairCores p).2])).filter (fun u => u.all ok)
          else ((partition s q.ctx).filter ok).map (fun c => [c])
        (chooseShadows free us).map (fun v => (us, v))

/-- A launch placed (R306): its number, its teams, its grid contexts, its barriers, its spool, the rest of its record. -/
def placeLaunch (s : State) (q : HQueue) (p : Packet) (us vs : List (List Nat)) : State :=
  let d := p.desc
  let t := p.table
  let roles := rolesOf t
  let num := s.launchCtr
  let chans := BitVec.ofNat 16 (field d 0x28 4)
  let prim := numberTeams num 0 us
  let shad := numberTeams num shadowBase vs
  let cores := us.flatten
  let counts := (List.range Config.dies).map (fun k => (cores.filter (fun c => dieOf c = k)).length)
  let ext := extentOf p
  let l : Launch := {
    num := num
    ctx := q.ctx
    queue := q.num
    slot := p.slot
    home := q.home
    pairMode := bit p.head 9
    snap := bit p.head 10
    proof := bit p.head 11
    audit := bit p.head 12
    rel := p.head / 64 % 4
    n := cores.length
    extent := ext
    codeBase := field d 0 8
    pvBase := field d 0x18 8
    pvStride := 65536 * field d 0x20 4
    trapPc := if field t 0x0C 4 = 0xFFFFFFFF then none else some (BitVec.ofNat 32 (field t 0x0C 4))
    carry := (List.range (field t 0x0A 1)).map (fun i => BitVec.ofNat 11 (field t (0x80 + 2 * i) 2))
    signal := field p.bytes 0x30 8
    record := p.rec_
    recK := p.recK
    pbars := pbound d
    spool := spoolRanges cores.length (ext.1 * ext.2.1 * ext.2.2) counts
    steals := []
    draws := []
    status := 0
    placed := true
    killed := []
    arrived := []
    ready := [] }
  let s : State := { s with
    launchCtr := num + 1
    launches := s.launches ++ [l]
    pbars := s.pbars ++ (pbound d).map (fun b => (b.1, ⟨num, b.2, 0, [], [], false, 0⟩))
    ctxs := s.ctxs ++ ((List.range roles.length).zip roles).map (fun (r, x) =>
      (CtxId.grid num r, ({ pc := x.entry, sc := argWords p } : Ctx))) }
  let twin (base : Nat) (i : TeamId) : Option TeamId :=
    if vs.isEmpty then none else some ⟨num, if base = 0 then i.num + shadowBase else i.num - shadowBase⟩
  let start (base : Nat) (s : State) (e : TeamId × Nat × Option TeamId) : State :=
    putTeam s e.1 (newTeam q.ctx e.2.1 (windowBase s e.2.1) (65536 * field d 0x24 4) e.2.2 roles chans (twin base e.1))
  let s := shad.foldl (start shadowBase) (prim.foldl (start 0) s)
  let s := putRecord s q p 0x140 (leBytes 8 num)
  recordCores (putRecord s q p 0x150 (le4 (2 ^ 31 + 2 ^ 30 * (bit p.head 9).toNat + cores.length) ++ le4 0)) num

/-! Dispatch in ring order (R303, R304) -/

/-- The blocks of a copy packet, one after the other (R178): up to the next multiple of 256 of the destination, each read before
it is written. -/
def copyBlocks (ctx : Nat) : Nat → State → Nat → Nat → Nat → Except Cause State
  | 0, s, _, _, _ => .ok s
  | fuel + 1, s, src, dst, len =>
    if len = 0 then .ok s
    else
      let n := min len (256 - dst % 256)
      match vaRead s ctx src n with
      | .ok bs => match vaWrite s ctx dst bs with
        | .ok t => copyBlocks ctx fuel t (src + n) (dst + n) (len - n)
        | .error c => .error c
      | .error c => .error c
/-- A copy packet performed (R353) by a copy channel of the home die. DESIGN CHOICE, log 84, unsafe. -/
def copyPacket (s : State) (q : HQueue) (p : Packet) : Except Cause State :=
  copyBlocks q.ctx (field p.bytes 4 4 / 256 + 2) s (field p.bytes 8 8) (field p.bytes 0x10 8) (field p.bytes 4 4)

def popReady (s : State) (q : Nat) : State := s.modQueue q (fun x => { x with ready := x.ready.tail, deps := none })

/-- The tick of the next sample: within 2 µs (R304). -/
def nextSample (s : State) : Nat := s.tick + 1 + Config.latency s.nonce % 1000
/-- A barrier-AND packet begins to be sampled. -/
def startSampling (s : State) (q : HQueue) (p : Packet) : State :=
  let sigs := (List.range (field p.bytes 4 4)).map (fun i => field p.bytes (8 + 8 * i) 8)
  { s.modQueue q.num (fun x => { x with deps := some sigs, sampleAt := nextSample s }) with nonce := s.nonce + 1 }
/-- Whether a copy packet's bytes meet a write that is still held (R243). -/
def copyHeld (s : State) (x : HQueue) (p : Packet) : Bool :=
  p.type = 1 && (vaHeld s x.ctx (field p.bytes 8 8) (field p.bytes 4 4) || vaHeld s x.ctx (field p.bytes 0x10 8) (field p.bytes 4 4))

/-- The packets at the head of a queue dispatched, as far as nothing has to be waited for. -/
def advanceQueue : Nat → State → Nat → State
  | 0, s, _ => s
  | fuel + 1, s, q =>
    match (s.queue? q).bind (fun x => x.ready.head?.map (fun p => (x, p))) with
    | none => s
    | some (x, p) =>
      if p.ok && 2 ≤ p.type then (if x.deps.isSome then s else startSampling s x p)
      else if p.ok && copyHeld s x p then s.at_ (s.cycle + 1) (.placement q)
      else if !p.ok then advanceQueue fuel (popReady (completePacket s x p 3) q) q
      else match p.type with
        | 0 =>
          if !(descOk p.desc && tableOk p.table (bit p.head 9)) then advanceQueue fuel (popReady (completePacket s x p 3) q) q else s
        | 1 => match copyPacket s x p with
          | .ok t => advanceQueue fuel (popReady (completePacket t x p 0) q) q
          | .error c =>
            let s := if x.deps.isSome then s else
              writeRing ((vaReport s x.ctx (field p.bytes 8 8) (field p.bytes 4 4)).modQueue q (fun x => { x with deps := some [] })) x.ctx (ringEntry s x.ctx none c.code [] [])
            s.later (.placement q)
        | _ => s
/-- The queue goes on. DESIGN CHOICE, log 87, safe. -/
def serveQueue (s : State) (q : Nat) : State := advanceQueue (((s.queue? q).map (fun x => x.ready.length)).getD 0) s q

/-- `PLACEMENT` (R306): the launch at the head of a queue placed, if its cores are there. -/
def execPlacement (q : Nat) (s : State) : Host.Outcome State Fault Refusal :=
  match (s.queue? q).bind (fun x => x.ready.head?.map (fun p => (x, p))) with
  | none => .next s
  | some (x, p) =>
    if p.type ≠ 0 then .next (serveQueue s q)
    else match placementOf s x p with
      | some (us, vs) => .next (serveQueue ((popReady (placeLaunch s x p us vs) q).modQueue q (fun x => { x with placed := s.turn })) q)
      | none => .next s

/-- One sample of the signals of a barrier-AND packet (R304, R356): the failure of one, and those not yet satisfied. -/
def sample (s : State) (ctx : Nat) (sigs : List Nat) : Bool × List Nat :=
  let vals := sigs.map (fun a => (a, match vaRead s ctx a 8 with
    | .ok bs => some (leNat bs)
    | .error _ => none))
  (vals.any (fun v => (v.2.map isFailure).getD false),
    (vals.filter (fun v => !((v.2.map (fun n => n = 0 || 2 ^ 63 ≤ n)).getD false))).map (fun v => v.1))
/-- `BARRIER_AND_SAMPLE`: each signal not yet satisfied is judged by itself; the sample of one that meets a held write waits until the write
is visible, as any access of the compositor does (R243). -/
def execBarrierAndSample (q : Nat) (s : State) : Host.Outcome State Fault Refusal :=
  match (s.queue? q).bind (fun x => (x.ready.head?.bind (fun p => x.deps.map (fun d => (x, p, d))))) with
  | none => .next s
  | some (x, p, d) =>
    if p.type ≠ 2 then .next s
    else
      let waits := d.filter (fun a => vaHeld s x.ctx a 8)
      let (bad, left) := sample s x.ctx (d.filter (fun a => !waits.contains a))
      let s := (d.filter (fun a => !waits.contains a)).foldl (fun s a => vaReport s x.ctx a 8) s
      if bad then .next (serveQueue (popReady (completePacket s x p 4) q) q)
      else if waits.isEmpty && left.isEmpty then .next (serveQueue (popReady (completePacket s x p 0) q) q)
      else .next { s.modQueue q (fun x => { x with
          deps := some (d.filter (fun a => waits.contains a || left.contains a))
          sampleAt := if waits.isEmpty then nextSample s else s.tick + 1 }) with nonce := s.nonce + 1 }

/-! Consumption of a ring (R351) -/

/-- The bytes of the packet at the read index, when the compositor may read it and it is valid. -/
def slotAt (s : State) (x : HQueue) : Option (List Byte) :=
  if x.state = 1 ∧ x.rd < x.notify ∧ x.ready.isEmpty then
    match vaRead s x.ctx (x.ring + 64 * (x.rd % x.slots)) 64 with
    | .ok bs => if bit (field bs 0 4) 0 then some bs else none
    | .error _ => none
  else none

/-- Whether a write that is still held meets what the compositor reads and writes as it takes a packet (R243). -/
def packetHeld (s : State) (x : HQueue) : Bool :=
  let slot := x.ring + 64 * (x.rd % x.slots)
  vaHeld s x.ctx slot 64 || vaHeld s x.ctx x.rdAddr 8 || (match slotAt s x with
    | some bs => field bs 0 4 / 2 % 8 = 0 && (vaHeld s x.ctx (field bs 0x18 8) (min 256 (field bs 0x20 4)) || vaHeld s x.ctx (field bs 0x10 8) 256
        || (match vaRead s x.ctx (field bs 0x10 8 + 8) 8 with
          | .ok d => vaHeld s x.ctx (leNat d) 192
          | .error _ => false))
    | none => false)

/-- What a launch packet names, read with it: arguments, descriptor, role table; bytes that cannot be read make it invalid. -/
def launchBytes (s : State) (ctx : Nat) (bs : List Byte) : List Byte :=
  let n := min 256 (field bs 0x20 4)
  let rd (va n : Nat) : List Byte := match vaRead s ctx va n with
    | .ok l => l
    | .error _ => []
  let args := rd (field bs 0x18 8) n
  let desc := rd (field bs 0x10 8) 256
  let table := rd (field desc 8 8) 192
  bs ++ args ++ List.replicate (256 - args.length) 0 ++ desc ++ List.replicate (256 - desc.length) 0 ++ table

/-- `PACKET_CONSUME` (R351): the packet copied, its V cleared, the read index moved on, and the packet dispatched. -/
def execPacketConsume (q : Nat) (s : State) : Host.Outcome State Fault Refusal :=
  match (s.queue? q).bind (fun x => (slotAt s x).map (fun b => (x, b))) with
  | none => .next s
  | some (x, bs) =>
    let whole := if field bs 0 4 / 2 % 8 = 0 then launchBytes s x.ctx bs else bs
    let p : Packet := ⟨s.opNum, none, whole, x.rd⟩
    let s : State := { s with opNum := s.opNum + 1 }
    let s := if p.type = 0 then putRecord (putRecord s x p 0 (whole.take 320)) x p 0x148 (le4 q ++ le4 x.rd) else s
    let s := vaPut s x.ctx (x.ring + 64 * (x.rd % x.slots)) (le4 0)
    let s := vaPut s x.ctx x.rdAddr (leBytes 8 (x.rd + 1))
    let s := s.modQueue q (fun x => { x with rd := x.rd + 1, ready := x.ready ++ [p], served := s.turn })
    .next (serveQueue s q)

/-! The end of a grid (R307, R358, R359) -/

/-- Whether every team of a launch has ended. -/
def gridDone (s : State) (n : Nat) : Bool := (gridTeams s n).all (fun t => ((s.team? t).map (fun (x : Team) => decide (x.state = .ended))).getD true)

/-- A grid ends: the release, then exactly one completion. -/
def endGrid (s : State) (launch : Nat) : State :=
  match s.launch? launch with
  | none => s
  | some l =>
    if !gridDone s launch then s
    else
      let s := match l.recK with
        | some k => s.modDie l.home (fun d => { d with acc := { d.acc with dones := d.acc.dones ++ [BitVec.ofNat 32 (k + 256 * l.status)] } })
        | none => completeSignal s l.ctx l.signal l.status
      { s with
        launches := s.launches.filter (fun x => x.num ≠ launch)
        teams := s.teams.filter (fun e => e.1.launch ≠ launch || s.ops.any (fun o => o.team = e.1))
        ctxs := s.ctxs.filter (fun e => match e.1 with
          | .grid n _ => n ≠ launch
          | _ => true)
        pbars := s.pbars.filter (fun b => b.2.launch ≠ launch)
        retained := if l.recK.isSome then s.retained else drop l.record s.retained }
/-- `GRID_END`. -/
def execGridEnd (launch : Nat) (s : State) : Host.Outcome State Fault Refusal := .next (endGrid s launch)

/-! Destroying a queue (R360) -/

/-- The teams that are killed with one: its containment unit and, in proof mode, its twin. -/
def killSet (s : State) (t : TeamId) : List TeamId := distinct (unitTeams s t ++ twinsOf s t)

/-- A queue destroyed: its teams killed, its launches and the packets read completed with DESTROYED. -/
def destroyQueue (s : State) (n : Nat) : State :=
  match s.queue? n with
  | none => s
  | some q =>
    if q.state ≠ 1 then s
    else
      let s := s.modQueue n (fun x => { x with state := 2 })
      let ls := (s.launches.filter (fun l => l.queue == n)).map (fun l => l.num)
      let s := ls.foldl (fun s l => endGrid ((killTeams s (gridTeams s l) 1).modLaunch l (fun x => { x with status := 1 })) l) s
      let s := q.ready.foldl (fun s p => completePacket s q p 1) s
      s.modQueue n (fun x => { x with state := 3, ready := [], deps := none })

/-! Time slices (R305) -/

/-- The launch that waits at the head of a queue. -/
def waiting (x : HQueue) : Option Packet := x.ready.head?.bind (fun p => if p.type = 0 then some p else none)
/-- The priority of a launch's queue. -/
def priority (s : State) (l : Launch) : Nat := ((s.queue? l.queue).map (fun q => q.prio)).getD 0

/-- The teams of a context's grids of lower priority than a queue, on their cores. -/
def lowerTeams (s : State) (q : HQueue) : List TeamId :=
  (s.launches.filter (fun l => l.ctx == q.ctx && priority s l < q.prio)).flatMap (fun l => (gridTeams s l.num).filter (onCore s))
/-- A state in which some teams have left their cores. -/
def without (s : State) (ts : List TeamId) : State := ts.foldl (fun s t => s.modTeam t (fun x => { x with state := .saved })) s
/-- The teams that leave their cores already. -/
def leavingTeams (s : State) : List TeamId := (s.teams.filter (fun e => e.2.leaving)).map (fun e => e.1)
/-- The sublists of a list. -/
def sublists {α : Type} : List α → List (List α)
  | [] => [[]]
  | a :: l => sublists l ++ (sublists l).map (fun r => a :: r)
/-- Of some teams, the fewest that have to leave for a launch, whole containment units (R305). -/
def neededRoom (s : State) (q : HQueue) (p : Packet) (ts : List TeamId) : List TeamId :=
  let units := distinct (ts.map (unitTeams s))
  let heads := units.filter (fun u => units.all (fun v => !(v.any u.contains) || (v.headD ⟨0, 0⟩).num ≥ (u.headD ⟨0, 0⟩).num))
  let ways := ((sublists heads).map List.flatten).filter (fun out => (placementOf (without s out) q p).isSome)
  ways.foldl (fun best out => if out.length < best.length then out else best) ts
/-- Room made for the launch that waits at the head of a queue, where pre-emption can make it and nothing else does (R305): the state in
which it has its cores, and the teams that leave for it and those before it. -/
def makeRoom (r : State × List TeamId) (q : HQueue) : State × List TeamId :=
  let (s, out) := r
  match waiting q with
  | none => r
  | some p =>
    let placed (s : State) : State := match placementOf s q p with
      | some (us, vs) => placeLaunch s q p us vs
      | none => s
    if (placementOf s q p).isSome then (placed s, out)
    else
      let ts := lowerTeams s q
      if (placementOf (without s ts) q p).isNone then r
      else
        let go := neededRoom s q p ts
        (placed (without s go), out ++ go)
/-- Whether the cores that a saved team would take back are kept for a waiting launch of higher priority of its context, for which teams
of lower priority have made room or are leaving (R305): with the team back, the launch could not be placed. DEDUCED, log 134, unsafe. -/
def roomKept (s : State) (t : TeamId) : Bool :=
  match s.launch? t.launch, places? s t with
  | some l, some ps =>
    let s := without s (leavingTeams s)
    let back := ps.foldl (fun s p => s.modTeam p.1.id (fun x => { x with state := .running, core := p.2, shBase := windowBase s p.2 })) s
    s.queues.any (fun q => q.ctx == l.ctx && q.state == 1 && priority s l < q.prio && (waiting q).any (fun p =>
      (placementOf s q p).isSome && (placementOf back q p).isNone))
  | _, _ => false

/-- `TIME_SLICE_END` (R262, R305): the waiting budget is refilled, and the teams of grids of lower priority make room for a launch
that cannot be placed. -/
def execTimeSliceEnd (ctx : Nat) (s : State) : Host.Outcome State Fault Refusal :=
  match s.context? ctx with
  | none => .next s
  | some _ =>
    let s := s.modContext ctx (fun x => { x with
      used := 0
      usedFrac := 0
      sliceEnd := s.tick + 1000 * (if x.slice = 0 then 20000 else x.slice) })
    let qs := s.queues.filter (fun q => q.ctx == ctx && (waiting q).isSome && q.state == 1)
    let out := (([3, 2, 1].flatMap (fun n => qs.filter (fun q => q.prio == n))).foldl makeRoom (without s (leavingTeams s), [])).2
    .next (out.foldl (fun s t => preempt s t false) s)

end Sys2Proof.Machine
end

