-- ==== Sys2Proof/Machine/Boot.lean ====
section
/-! DEFINITION. Power-up and training (R383 to R389), images and their update (R366 to R370), the reset of a die and of the package
(R384), the connection table (R316, R317), the lifetime counters (R393). -/

namespace Sys2Proof.Machine

/-! Images (R366, R367) -/

/-- Exactly n bytes. -/
def sized (n : Nat) (bs : List Byte) : List Byte := (bs ++ List.replicate n 0).take n
/-- Bytes of an image. -/
def imageBytes (s : State) (slot type off n : Nat) : List Byte := s.mem.bytes (imageAt slot type + off) n
def imageNat (s : State) (slot type off n : Nat) : Nat := leNat (imageBytes s slot type off n)
/-- The body of an image. -/
def imageBody (s : State) (slot type : Nat) : List Byte := imageBytes s slot type 0x200 (imageNat s slot type 0x10 8)

/-- The fields of a header as R366 gives them; the body fits its half of the slot. -/
def headerOk (s : State) (slot type : Nat) : Bool :=
  let n := imageNat s slot type
  n 0 4 == 0x37494741 && n 4 4 == 1 && n 8 4 == type && n 0x10 8 + 0x200 ≤ 2 ^ 23 && (type != 1 || n 0x10 8 % 12 == 0)
    && n 0x1C 36 == 0 && n 0xB9 7 == 0 && n 0x132 206 == 0
/-- The owner key digests of a slot's configuration block. DEDUCED, log 103, unsafe. -/
def ownerKeys (s : State) (slot : Nat) : List (List Byte) :=
  ((List.range 8).map (fun i => imageBytes s slot 2 (0x200 + 0x100 + 64 * i) 64)).filter (fun k => k.any (fun b => b ≠ 0))
/-- Whether the signer of an image is one that counts: for firmware an owner of a slot's block, for a block the Horlys root key or
an owner of the block that it replaces. -/
def ownedKey (s : State) (slot type block : Nat) : Bool :=
  let d := shake256 (imageBytes s slot type 0x80 57) 64
  if type = 1 then (ownerKeys s block).contains d else d == Config.rootDigest || (ownerKeys s (1 - slot)).contains d
/-- Whether the flash does not give an image's bytes back. -/
def unreadable (s : State) (slot type : Nat) : Bool :=
  s.bad.any (fun w => imageAt slot type < w.1 + w.2 && w.1 < imageAt slot type + 0x200 + imageNat s slot type 0x10 8)

/-- Why an image is not authentic under the block of a slot, coded as in the boot status block; 0 for an authentic one. -/
def reasonUnder (s : State) (slot type block : Nat) : Nat :=
  if unreadable s slot type then 6
  else if !headerOk s slot type then 1
  else if shake256 (imageBody s slot type) 64 ≠ imageBytes s slot type 0x40 64 then 2
  else if !ed448Verify (imageBytes s slot type 0x80 57) (imageBytes s slot type 0 0xC0) (imageBytes s slot type 0xC0 114) then 3
  else if !ownedKey s slot type block then 4
  else if imageNat s slot type 0xC 4 < s.mram.minSvn.getD (type - 1) 0 then 5
  else 0
/-- Under the block of its own slot. -/
def imageReason (s : State) (slot type : Nat) : Nat := reasonUnder s slot type slot
/-- Why a slot does not serve. -/
def slotReason (s : State) (slot : Nat) : Nat := if imageReason s slot 2 ≠ 0 then imageReason s slot 2 else imageReason s slot 1

/-- One entry of the measurement log (R368): stage, TYPE, SVN, slot, digest. -/
def measurement (stage type svn slot : Nat) (digest : List Byte) : List Byte :=
  le4 stage ++ le4 type ++ le4 svn ++ le4 slot ++ List.replicate 48 0 ++ sized 64 digest
def measureImage (s : State) (slot type : Nat) : State :=
  { s with measurements := s.measurements ++
    [measurement s.pages.stage type (imageNat s slot type 0xC 4) slot (shake256 (imageBody s slot type) 64)] }
/-- The configuration block and the compositor image of a slot measured. -/
def measureSlot (s : State) (slot : Nat) : State := measureImage (measureImage s slot 2) slot 1

/-- The images authenticated at reset (R368): the ROM measured, then the preferred slot, then the other one if that fails. -/
def authenticate (s : State) : State :=
  let s := { s with measurements := [measurement 0 0 0 0 Config.romDigest] }
  let a := s.mram.bootSel
  let b := 1 - a
  let s := measureSlot s a
  let note (s : State) (k r : Nat) : State :=
    if k = 0 then { s with pages := { s.pages with reasonA := r } } else { s with pages := { s.pages with reasonB := r } }
  let s := note s a (slotReason s a)
  let s := if slotReason s a = 0 then s else let s := measureSlot s b; note s b (slotReason s b)
  let pick := if slotReason s a = 0 then a + 1 else if slotReason s b = 0 then b + 1 else 0
  { s with pages := { s.pages with stage := 1, slot := pick, cfgSlot := pick, recoveryProfile := pick == 0 } }

/-! The steps of DRAM and photonics (R385, R388) -/

def dramLimit (step : Nat) : Nat := [20000000, 50000000, 1000000, 10000000].getD step 0
def photLimit (step : Nat) : Nat := [2000000, 10000000, 1000000, 5000000].getD step 0
/-- Whether the steps before one are all in DONE. -/
def stepReady (done : BitVec 4) (step : Nat) : Bool := (List.range step).all (fun i => done.getLsbD i)

/-- GO written to a die's DRAM control. -/
def goDram (s : State) (k step : Nat) : State :=
  match s.die? k with
  | none => s
  | some d =>
    if d.dram.go then s
    else if !stepReady d.dram.done step then
      s.modDie k (fun d => { d with dram := { d.dram with step := step, err := true, code := 3 } })
    else
      let s := s.modDie k (fun d => { d with
        limit := some (s.tick + dramLimit step)
        dram := { d.dram with go := true, step := step, err := false, code := 0, result := 0 } })
      if step = 2 then s.later (.refreshSetup k) else if step = 3 then s.later (.scrub k) else s
/-- GO written to a die's photonics control; a bring-up begins with step 0, and takes every ring again (R389). -/
def goPhot (s : State) (k step : Nat) : State :=
  match s.die? k with
  | none => s
  | some d =>
    if d.phot.go then s
    else if !stepReady d.phot.done step then
      s.modDie k (fun d => { d with phot := { d.phot with step := step, err := true, code := 5 } })
    else
      let s := s.modDie k (fun d => { d with
        limit := some (s.tick + photLimit step)
        phot := { d.phot with
          go := true
          step := step
          err := false
          code := 0
          result := 0
          lost := if step = 0 then [] else d.phot.lost
          removed := if step = 0 then [] else d.phot.removed } })
      if step = 3 then s.later (.defaultCircuits k) else s

/-- The result of a running step noted; it ends a little later. DEDUCED, log 107, unsafe. -/
def dramResult (s : State) (k code : Nat) : State :=
  (s.modDie k (fun d => { d with dram := { d.dram with result := code } })).later (.dramStepEnd k)
def photResult (s : State) (k code : Nat) : State :=
  (s.modDie k (fun d => { d with phot := { d.phot with result := code } })).later (.photonicStepEnd k)
/-- Whether a step runs on a die. -/
def dramRuns (s : State) (k step : Nat) : Bool := ((s.die? k).map (fun d => d.dram.go && d.dram.step == step)).getD false
def photRuns (s : State) (k step : Nat) : Bool := ((s.die? k).map (fun d => d.phot.go && d.phot.step == step)).getD false

/-- The spares of a channel and layer (R385): the baseline map of the configuration block, then the field map of MRAM. -/
def spareLane (s : State) (die ch layer i : Nat) : Nat :=
  match s.mram.fieldMap.find? (fun e => e.1 == 64 * die + ch && e.2.1 == layer && e.2.2.1 == i) with
  | some e => e.2.2.2
  | none => if s.pages.cfgSlot = 0 then 0xFF else configNat s (0x1000 + ((64 * die + ch) * 16 + layer) * 8 + i) 1
def spareMap (s : State) (die ch layer : Nat) : List Nat := (List.range 8).map (spareLane s die ch layer)
/-- One failing lane mapped to a spare, where one is left. -/
def repairLane (s : State) (die : Nat) (f : LaneFault) : State :=
  let m := spareMap s die f.channel f.layer
  if m.contains f.lane then s
  else match m.findIdx? (fun l => l == 0xFF) with
    | some i => { s with mram := { s.mram with fieldMap := s.mram.fieldMap ++ [(64 * die + f.channel, f.layer, i, f.lane)] } }
    | none => s.modDie die (fun d => { d with dram := { d.dram with
        result := 1
        fail := d.dram.fail ||| (1 <<< f.channel) } })
/-- Spares in use by a channel and layer. -/
def sparesUsed (s : State) (die ch layer : Nat) : Nat := ((spareMap s die ch layer).filter (fun l => l ≠ 0xFF)).length

/-- `BOND_LANE_REPAIR` (R385): the built-in tests have found these lanes failing. -/
def execBondLaneRepair (die : Nat) (failing : List LaneFault) (s : State) : Host.Outcome State Fault Refusal :=
  if !dramRuns s die 0 then .next s
  else
    let s := failing.foldl (fun s f => if f.channel < 64 ∧ f.layer < 16 ∧ f.lane < 152 then repairLane s die f else s) s
    let most := (List.range 1024).foldl (fun n i => max n (sparesUsed s die (i / 16) (i % 16))) 0
    let s := s.modDie die (fun d => { d with dram := { d.dram with spare := most, mapped := true } })
    .next (dramResult s die (((s.die? die).map (fun d => d.dram.result)).getD 0))

/-- The key of a delay word: channel and layer. -/
def setDelay (ch layer : Nat) (w : Word) (l : List (Nat × Nat × Word)) : List (Nat × Nat × Word) :=
  l.filter (fun e => e.1 ≠ ch || e.2.1 ≠ layer) ++ [(ch, layer, w)]
def getDelay (ch layer : Nat) (l : List (Nat × Nat × Word)) : Word :=
  ((l.find? (fun e => e.1 == ch && e.2.1 == layer)).map (fun e => e.2.2)).getD 0
/-- The centre of a window of delays, the lower of two. -/
def centre (lo hi : BitVec 8) : Nat := (lo.toNat + hi.toNat) / 2
/-- A delay word at the centres of its windows. -/
def delayWord (m : DelayMeas) : Word := BitVec.ofNat 32 (centre m.rdLo m.rdHi * 256 + centre m.wrLo m.wrHi)
/-- Both windows have at least 16 steps. -/
def delayWide (m : DelayMeas) : Bool := m.rdLo.toNat + 15 ≤ m.rdHi.toNat && m.wrLo.toNat + 15 ≤ m.wrHi.toNat
/-- Whether every channel and layer has been found a window wide enough. -/
def sweptAll (meas : List DelayMeas) : Bool :=
  meas.all delayWide && (List.range 1024).all (fun i => meas.any (fun m => m.channel == i / 16 && m.layer == i % 16))
/-- `TIMING_CALIBRATION` (R385): delays at the centre of each window; one below 16 steps, or none, is too narrow. -/
def execTimingCalibration (die : Nat) (meas : List DelayMeas) (s : State) : Host.Outcome State Fault Refusal :=
  if !dramRuns s die 1 then .next s
  else
    let s := s.modDie die (fun d => { d with dram := { d.dram with
      dly := meas.foldl (fun l m => setDelay m.channel m.layer (delayWord m) l) d.dram.dly } })
    .next (dramResult s die (if sweptAll meas then 0 else 2))

/-- The refresh interval at a temperature in 1/16 °C. -/
def refreshFor (t : BitVec 16) : Nat := if t.toInt ≤ 85 * 16 then 3900 else 1950
/-- `REFRESH_SETUP` (R385). -/
def execRefreshSetup (die : Nat) (s : State) : Host.Outcome State Fault Refusal :=
  if !dramRuns s die 2 then .next s
  else .next (dramResult (s.modDie die (fun d => { d with dram := { d.dram with refi := refreshFor d.temp } })) die 0)
/-- `REFRESH_REJUDGE` (R385): the hottest sensor of the die reads temp; the interval is judged again once it has been set up. -/
def execRefreshRejudge (die : Nat) (temp : BitVec 16) (s : State) : Host.Outcome State Fault Refusal :=
  .next (s.modDie die (fun d => { d with
    temp := temp
    dram := if d.dram.done.getLsbD 2 then { d.dram with refi := refreshFor temp } else d.dram }))
/-- DRAM step 3 (R385): the die's memory written with zero. -/
def scrubDram (s : State) (die : Nat) : State :=
  let zero (c : Host.Cell) : Bool := c.1 < Config.dramBytes && Config.dramDie c.1 % 4 == die
  dramResult { s with
    mem := ⟨s.mem.cells.filter (fun c => !zero c)⟩
    bad := s.bad.filter (fun w => !(w.1 < Config.dramBytes && Config.dramDie w.1 % 4 == die)) } die 0

/-- `LIGHT` (R388): the comb laser is on; its monitor power is strong enough, or not. -/
def execLight (die : Nat) (strong : Bool) (s : State) : Host.Outcome State Fault Refusal :=
  if !photRuns s die 0 then .next s
  else .next (photResult (s.modDie die (fun d => { d with phot := { d.phot with lit := true } })) die (if strong then 0 else 1))

/-- A ring's record: lock and heat. -/
def ringOf (p : PhotRegs) (r : Nat) : Bool × Nat := (get? r p.rings).getD (false, 0)
def setRing (p : PhotRegs) (r : Nat) (lock : Bool) (heat : Nat) : PhotRegs := { p with rings := put r (lock, heat) p.rings }
/-- LOCKED. -/
def lockedRings (p : PhotRegs) : Nat := ((List.range 128).filter (fun r => (ringOf p r).1)).length
/-- `TUNE` (R388): the heats at which rings found their resonance. -/
def execTune (die : Nat) (heats : List (Nat × BitVec 12)) (s : State) : Host.Outcome State Fault Refusal :=
  if !photRuns s die 1 then .next s
  else
    let s := s.modDie die (fun d => { d with phot := heats.foldl (fun p h => setRing p h.1 (ringOf p h.1).1 h.2.toNat) d.phot })
    .next (photResult s die (if (List.range 128).all (fun r => (get? r heats).isSome) then 0 else 2))
/-- `LOCK` (R388, R389): the loops hold these rings, but for removed ones; in service a ring that was lost is locked again. -/
def execLock (die : Nat) (rings : List Nat) (s : State) : Host.Outcome State Fault Refusal :=
  let rings := rings.filter (fun r => !((s.die? die).map (fun d => d.phot.removed.contains r)).getD false)
  let t := s.modDie die (fun d => { d with phot := { rings.foldl (fun p r => setRing p r true (ringOf p r).2) d.phot with
    lost := d.phot.lost.filter (fun e => !rings.contains e.1) } })
  if photRuns s die 2 then .next (photResult t die (if ((t.die? die).map (fun d => lockedRings d.phot)).getD 0 < 128 then 3 else 0))
  else if ((s.die? die).map (fun d => rings.all (fun r => (get? r d.phot.lost).isSome))).getD false then .next t
  else .next s
/-- `DEFAULT_CIRCUITS` (R388): up once both ends of each are locked; a peer that is not ready by the limit is an error. -/
def execDefaultCircuits (die : Nat) (s : State) : Host.Outcome State Fault Refusal :=
  if !photRuns s die 3 then .next s
  else if s.dies.all (fun d => d.phot.done.getLsbD 2) then
    .next (photResult (s.modDie die (fun d => { d with phot := { d.phot with defaults := true } })) die 0)
  else if (((s.die? die).bind (fun d => d.limit)).map (fun t => decide (t ≤ s.tick))).getD true then .next (photResult s die 4)
  else .next (s.later (.defaultCircuits die))

/-! The reset of a die (R384) -/

/-- The bit of a die. -/
def dieBit (k : Nat) : BitVec 4 := 1#4 <<< k
/-- The counters written to MRAM (R393). -/
def saveCounters (s : State) : State :=
  { s with mram := { s.mram with counters := s.counters }, pages := { s.pages with savedAt := s.tick } }
/-- Whether an outcome that is due later is one of a die's own units. -/
def ofDie (k : Nat) : Instr → Bool
  | .dramStepEnd d | .photonicStepEnd d | .refreshSetup d | .scrub d | .defaultCircuits d | .dierstClear d | .circuitTuned d _
  | .tearDownDone d _ | .accessRead d _ | .accessWrite d _ | .accessAdd d _ | .accessExch d _ | .accessCas d _ | .accessCopy d _
  | .accessInvalid d _ | .dispatch d _ | .done d => d == k
  | _ => false
/-- The queues homed on a die destroyed, its teams killed. -/
def emptyDie (s : State) (k : Nat) : State :=
  let s := (ascending s.queues.length ((s.queues.filter (fun q => q.home == k && q.state == 1)).map (fun q => q.num))).foldl destroyQueue s
  killTeams s (distinct (((s.teams.filter (fun e => e.2.die == k && e.2.present)).map (fun e => e.1)).flatMap (killSet s))) 2
/-- Bit k of DIERST set: the counters saved (R393), then what R384 lists. -/
def dieDown (s : State) (k : Nat) : State :=
  if s.pages.dierst.getLsbD k then s
  else
    let s := emptyDie (saveCounters s) k
    let s : State := { s with
      timers := s.timers.filter (fun e => !ofDie k e.2)
      cores := s.cores.map (fun c => if dieOf c.num = k then { c with tlb := [] } else c)
      tlbis := (s.tlbis.map (fun (t : Nat × Nat × List Nat) => (t.1, t.2.1, t.2.2.filter (fun d => d ≠ k)))).filter (fun t => !t.2.2.isEmpty)
      ctxs := s.ctxs.filter (fun e => e.1 ≠ .firmware k)
      pages := { s.pages with
        dierst := s.pages.dierst ||| dieBit k
        dieok := s.pages.dieok &&& ~~~(dieBit k)
        dramok := s.pages.dramok &&& ~~~(dieBit k)
        phok := s.pages.phok &&& ~~~(dieBit k) } }
    s.modDie k (fun d => { Die.reset k with temp := d.temp })
/-- `DIERST_SET`. -/
def execDierstSet (die : Nat) (s : State) : Host.Outcome State Fault Refusal := .next (dieDown s die)

/-- A step of power-up failed (R383): FAILSTEP, every die in reset, the recovery profile. -/
def bootFail (s : State) (step : Nat) : State :=
  let s := (List.range Config.dies).foldl dieDown s
  { s with
    boot := .recovery
    limit := none
    pages := { s.pages with failstep := step, stage := 15, slot := 0, recoveryProfile := true } }

/-- Step 8 (R383): the SRAM of a die zero. -/
def scrubSram (s : State) (k : Nat) : State :=
  let mine (a : Nat) : Bool := (dzAddr k 0 ≤ a && a < dzAddr (k + 1) 0) || (shAddr (160 * k) 0 ≤ a && a < shAddr (160 * (k + 1)) 0)
  { s with
    mem := ⟨s.mem.cells.filter (fun c => !mine c.1)⟩
    cores := s.cores.filter (fun c => dieOf c.num ≠ k)
    galley := s.galley.filter (fun h => dieOf h.core ≠ k)
    pvCache := s.pvCache.filter (fun h => dieOf h.core ≠ k)
    bad := s.bad.filter (fun w => !mine w.1)
    effects := s.effects.filter (fun e => pointDie s e.key e.point ≠ k) }
/-- The compositor of a die at ENTRY (R376): its registers zero, its stacks empty. -/
def startCompositor (s : State) (k : Nat) : State :=
  let entry := BitVec.ofNat 32 (imageNat s (runSlot s) 1 0x18 4)
  { s with ctxs := s.ctxs.filter (fun e => e.1 ≠ .firmware k) ++ [(CtxId.firmware k, ({ pc := entry, sc := List.replicate 32 0 } : Ctx))] }

/-- Steps 5 and 6 of R383 for the dies that are brought up together: the DRAM of all trained once every one has its power and clocks. -/
def beginDram (s : State) : State :=
  let ks := (s.dies.filter (fun d => d.phase == 5)).map (fun d => d.num)
  if ks.all (fun k => s.pages.dieok.getLsbD k) then
    ks.foldl (fun s k => goDram (s.modDie k (fun d => { d with phase := 6, phaseBy := none })) k 0) s
  else s
/-- Step 9: the compositors of the dies whose SRAM is scrubbed, once no other die is being brought up. -/
def beginRun (s : State) : State :=
  if s.dies.any (fun d => d.phase ≠ 0 && d.phase ≠ 9) then s
  else
    let ks := (s.dies.filter (fun d => d.phase == 9)).map (fun d => d.num)
    let s := ks.foldl (fun s k => startCompositor (s.modDie k (fun d => { d with phase := 0 })) k) s
    if s.boot = .dies then { s with boot := .running, pages := { s.pages with stage := 2 } } else s
/-- The dies that are brought up go on together: to photonics once the DRAM of all is trained, to the scrub of their SRAM, for which each has
1 ms, once the photonics of all is up. -/
def advanceDies (s : State) : State :=
  let at_ (n : Nat) : List Nat := (s.dies.filter (fun d => d.phase == n)).map (fun d => d.num)
  if !(at_ 6).isEmpty && (at_ 6).all (fun k => s.pages.dramok.getLsbD k) then
    (at_ 6).foldl (fun s k => goPhot (s.modDie k (fun d => { d with phase := 7 })) k 0) s
  else if !(at_ 7).isEmpty && (at_ 7).all (fun k => s.pages.phok.getLsbD k) then
    (at_ 7).foldl (fun s k => (s.modDie k (fun d => { d with phase := 8, phaseBy := some (s.tick + 1000000) })).later (.scrub k)) s
  else s
/-- `SCRUB` (R383, R385): a die's memory, in its DRAM step 3, or its SRAM, in step 8 of power-up. -/
def execScrub (die : Nat) (s : State) : Host.Outcome State Fault Refusal :=
  if dramRuns s die 3 then .next (scrubDram s die)
  else if ((s.die? die).map (fun d => d.phase)) = some 8 then
    .next (beginRun (scrubSram (s.modDie die (fun d => { d with phase := 9, phaseBy := none })) die))
  else .next s

/-- Step 5 begun for a die: out of reset; for its power and clocks it has 2 ms. -/
def dieUp (s : State) (k : Nat) : State :=
  if !s.pages.dierst.getLsbD k then s
  else
    let s := { s with pages := { s.pages with dierst := s.pages.dierst &&& ~~~(dieBit k) } }
    (s.modDie k (fun d => { d with phase := 5, phaseBy := some (s.tick + 2000000) })).later (.dierstClear k)
/-- A die in step 5 has its power and clocks: DIEOK. -/
def dieReady (s : State) (k : Nat) : State :=
  if ((s.die? k).map (fun d => d.phase)) = some 5 then
    beginDram { s with pages := { s.pages with dieok := s.pages.dieok ||| dieBit k } }
  else s
/-- `DIERST_CLEAR` (R384): the release of a die from reset, and a moment later its end. -/
def execDierstClear (die : Nat) (s : State) : Host.Outcome State Fault Refusal :=
  .next (if s.pages.dierst.getLsbD die then dieUp s die else dieReady s die)

/-- `DRAM_STEP_END` (R385): GO falls; DONE, or ERR and CODE. A die that is brought up goes on to the next step. -/
def execDramStepEnd (die : Nat) (s : State) : Host.Outcome State Fault Refusal :=
  match s.die? die with
  | none => .next s
  | some d =>
    if !d.dram.go then .next s
    else
      let r := d.dram.result
      let done := if r = 0 then d.dram.done ||| (1#4 <<< d.dram.step) else d.dram.done
      let s := s.modDie die (fun d => { d with
        limit := none
        dram := { d.dram with go := false, err := r ≠ 0, code := r, done := done } })
      let s := if done = 0xF then { s with pages := { s.pages with dramok := s.pages.dramok ||| dieBit die } } else s
      if d.phase ≠ 6 then .next s
      else if r ≠ 0 then .next (bootFail s 6)
      else if d.dram.step < 3 then .next (goDram s die (d.dram.step + 1))
      else .next (advanceDies s)
/-- `PHOTONIC_STEP_END` (R388). -/
def execPhotonicStepEnd (die : Nat) (s : State) : Host.Outcome State Fault Refusal :=
  match s.die? die with
  | none => .next s
  | some d =>
    if !d.phot.go then .next s
    else
      let r := d.phot.result
      let done := if r = 0 then d.phot.done ||| (1#4 <<< d.phot.step) else d.phot.done
      let s := s.modDie die (fun d => { d with
        limit := none
        phot := { d.phot with go := false, err := r ≠ 0, code := r, done := done } })
      let s := if done = 0xF then { s with pages := { s.pages with phok := s.pages.phok ||| dieBit die } } else s
      if d.phase ≠ 7 then .next s
      else if r ≠ 0 then .next (bootFail s 7)
      else if d.phot.step < 3 then .next (goPhot s die (d.phot.step + 1))
      else .next (advanceDies s)

/-! Power-up, the link, reset (R383, R384, R386, R387) -/

/-- The context of the recovery sequencer. -/
def sequencer : CtxId := .firmware Config.dies

/-- The recovery sequencer's context at PC 0 of the boot ROM (R383). What the ROM's code does is the steps of power-up; its words are not
given, and it issues none of its own accord. DEDUCED, log 146, unsafe. -/
def startSequencer (s : State) : State :=
  { s with ctxs := s.ctxs.filter (fun e => e.1 ≠ sequencer) ++ [(sequencer, ({ sc := List.replicate 32 0 } : Ctx))] }
/-- `POWER_GOOD` (R383): out of cold reset; the recovery sequencer waits for the oscillator. -/
def execPowerGood (s : State) : Host.Outcome State Fault Refusal :=
  if s.boot ≠ .cold then .next s
  else .next ((startSequencer { s with boot := .osc, limit := some (s.tick + 5000000) }).later .oscclk)

/-- Link training begun. -/
def trainLink (s : State) : State :=
  { s with pages := { s.pages with train := true, linkup := false, phase := 1, width := 0, trainAt := s.tick, retries := 0 } }
/-- PHASE (R386): while the link trains, as the phases follow each other: at most 1 ms to detect, 11 presets of 1 ms each, and deskew for a
free time. -/
def linkPhase (s : State) : Nat :=
  let p := s.pages
  let spent := s.tick - p.trainAt
  let detect := Config.latency p.trainAt % 1000001
  if !p.train then p.phase
  else if spent < detect then 1
  else if spent < detect + 11000000 then 2
  else if spent < detect + 11000000 + Config.latency (p.trainAt + 1) then 3
  else 4
/-- The tick by which a training must end. -/
def trainLimit : Nat := 20000000
/-- `OSCCLK` (R383): the ticks start at 0, the images are authenticated, the link trains. -/
def execOscclk (s : State) : Host.Outcome State Fault Refusal :=
  if s.boot ≠ .osc then .next s
  else
    let s := authenticate { s with tick := 0, frac := 0, pages := { s.pages with osclk := true } }
    .next (trainLink (({ s with boot := .link, limit := some 20000000 } : State).at_ (s.cycle + 1024) .budgetRefill))

/-- The preset with the fewest errors, the lowest of several (R386). -/
def bestPreset (errors : List (BitVec 16)) : Nat :=
  (List.range (min 11 errors.length)).foldl (fun b i => if errors.getD i 0 < errors.getD b 0 then i else b) 0
/-- Whether a lane passes: its far receiver is there, it is not skewed by more than 64 UI, and nothing else fails. -/
def lanePasses (l : LaneTrain) : Bool := l.found && l.skew.toNat ≤ 64 && l.good
/-- The lanes that pass, as a map. -/
def passing (lanes : List LaneTrain) : Word :=
  BitVec.ofNat 32 (((List.range 32).map (fun n => if ((lanes[n]?).map lanePasses).getD false then 2 ^ n else 0)).sum)
/-- The physical lanes that carry the link (R386); none when no width is found. -/
def linkLanes (narrow : Bool) (lanes : BitVec 32) : Word :=
  if lanes = 0xFFFFFFFF then lanes
  else if narrow && lanes.extractLsb' 0 16 = 0xFFFF then 0x0000FFFF
  else if narrow && lanes.extractLsb' 16 16 = 0xFFFF then 0xFFFF0000
  else 0
/-- A training that fails: down; during power-up its step 4 has failed. -/
def trainFails (s : State) : State :=
  let s := { s with pages := { s.pages with train := false, phase := 0 } }
  if s.boot = .link then bootFail s 4 else s
/-- `LINK_UP` (R386): training ends with what it found of each lane, the physical lane at which the far end's lane 0 arrives, and each
lane's errors under each transmitter preset from 0 on. -/
def execLinkUp (lanes : List LaneTrain) (zeroAt : Nat) (errors : List (List (BitVec 16))) (s : State) : Host.Outcome State Fault Refusal :=
  if !s.pages.train then .next s
  else
    let m := linkLanes s.pages.narrow (passing lanes)
    if m = 0 then .next (trainFails s)
    else
      let s := { s with pages := { s.pages with
        train := false
        linkup := true
        phase := 5
        width := if m = 0xFFFFFFFF then 32 else 16
        fllmap := m
        flrev := zeroAt == 31
        fleq := lanes.mapIdx (fun i l => (l.margin, BitVec.ofNat 4 (bestPreset (errors.getD i [])))) } }
      if s.boot ≠ .link then .next s
      else if s.pages.recoveryProfile then .next { s with boot := .recovery, limit := none, pages := { s.pages with stage := 15 } }
      else .next ((List.range Config.dies).foldl dieUp { s with boot := .dies, limit := none })
/-- `TRAIN` and `LINK_RETRAIN` (R387): the link trains again. -/
def execTrain (s : State) : Host.Outcome State Fault Refusal := .next (trainLink s)
def execLinkRetrain (s : State) : Host.Outcome State Fault Refusal := .next (if s.pages.linkup then trainLink s else s)
/-- Whether a retry concerns the flit of the retry before: the link's flits are not modelled, so that this is a free value.
DESIGN CHOICE, log 165, safe. -/
def sameFlit (s : State) : Bool := (Config.freeWord s.nonce).getLsbD 0
/-- `LINK_RETRY` (R387): counted in FLERRS. The sixteenth in a row on one flit retrains the link. -/
def execLinkRetry (s : State) : Host.Outcome State Fault Refusal :=
  let n := if sameFlit s then s.pages.retries + 1 else 1
  let s := { s with nonce := s.nonce + 1, pages := { s.pages with flerrs := s.pages.flerrs + 1, retries := n } }
  .next (if 16 ≤ n && s.pages.linkup then trainLink s else s)

/-- Whether a limit has passed. -/
def pastLimit (s : State) (t : Option Nat) : Bool := (t.map (fun n => decide (n ≤ s.tick))).getD false
/-- Whether the running step of a die's bring-up has passed its limit. -/
def lateDie (s : State) (d : Die) : Bool :=
  ((d.phase == 5 || d.phase == 8) && pastLimit s d.phaseBy) || ((d.phase == 6 || d.phase == 7) && pastLimit s d.limit)
/-- Whether a training has taken 20 ms (R386). -/
def lateTraining (s : State) : Bool := s.pages.train && s.pages.trainAt + trainLimit ≤ s.tick
/-- `STEP_LIMIT_EXPIRY` (R383, R386): the running step of power-up, of the package or of a die, or a training, has passed its limit. -/
def execStepLimitExpiry (s : State) : Host.Outcome State Fault Refusal :=
  if pastLimit s s.limit then .next (bootFail s (if s.boot = .osc then 2 else 4))
  else match s.dies.find? (lateDie s) with
    | some d => .next (bootFail s d.phase)
    | none => .next (if lateTraining s then trainFails s else s)

/-- Whether a place outlasts a reset: flash and the host's memory. -/
def keeps (a : Nat) : Bool := 2 ^ 62 ≤ a || isHost a
def lasting (m : Memory) : Memory := ⟨m.cells.filter (fun c => keeps c.1)⟩
/-- A package reset (R384): the counters saved, the link dropped, step 2 of power-up begun. DESIGN CHOICE, log 108, unsafe. -/
def resetPackage (s : State) : State :=
  let s := saveCounters s
  (startSequencer { State.reset with
    cycle := s.cycle
    turn := s.turn
    nonce := s.nonce
    opNum := s.opNum
    inbox := s.inbox
    mem := lasting s.mem
    mram := s.mram
    counters := s.mram.counters
    boot := .osc
    bootCount := s.bootCount + 1
    limit := some 5000000
    bad := s.bad.filter (fun w => keeps w.1)
    out := s.out }).later .oscclk
/-- `POWER_LOSS` (R393): what counted since the last write to MRAM is lost. -/
def execPowerLoss (s : State) : Host.Outcome State Fault Refusal :=
  .next { State.reset with
    turn := s.turn
    nonce := s.nonce
    inbox := s.inbox
    mem := lasting s.mem
    bad := s.bad.filter (fun w => keeps w.1)
    mram := s.mram
    counters := s.mram.counters
    bootCount := s.bootCount + 1
    out := s.out }

/-- The temperature bin of a reading in 1/16 °C (R393). -/
def tempBin (t : BitVec 16) : Nat := if t.toInt < 20 * 16 then 0 else min 15 ((t.toInt - 320).toNat / 80 + 1)
/-- A counter of a die's seconds. -/
def countSecond (s : State) (d : Die) : State :=
  let s := countUp s (16 * d.num + tempBin d.temp)
  countUp { s with nonce := s.nonce + 1 } (0x40 + 16 * d.num + (Config.freeWord s.nonce).toNat % 16)
/-- `COUNTER_SAVE` (R393): every 1 s. The core-rail voltage has no reading in the spec: its bin is a free value. -/
def execCounterSave (s : State) : Host.Outcome State Fault Refusal :=
  if s.tick < s.pages.savedAt + 10 ^ 9 then .next s else .next (saveCounters (s.dies.foldl countSecond s))

/-! Rings in service (R389) -/

/-- `RING_LOCK_LOSS`: it carries nothing until it is locked again, for which it has 1 ms. -/
def execRingLockLoss (die ring : Nat) (s : State) : Host.Outcome State Fault Refusal :=
  match s.die? die with
  | none => .next s
  | some d =>
    if !s.pages.phok.getLsbD die || !(ringOf d.phot ring).1 then .next s
    else .next (s.modDie die (fun d => { d with phot := { setRing d.phot ring false (ringOf d.phot ring).2 with
      lost := put ring (s.tick + 1000000) d.phot.lost } }))
/-- `RING_REMOVAL`: removed until the next bring-up, and counted. -/
def execRingRemoval (die ring : Nat) (s : State) : Host.Outcome State Fault Refusal :=
  match (s.die? die).bind (fun d => get? ring d.phot.lost) with
  | none => .next s
  | some t =>
    if s.tick < t then .next s
    else .next (countUp (s.modDie die (fun d => { d with phot := { d.phot with
      lost := drop ring d.phot.lost
      removed := d.phot.removed ++ [ring] } })) (0x108 + die))

/-! The connection table (R316, R317) -/

/-- An entry: VALID, STATE, WAVES, DEST, FIRST. -/
def connOf (p : PhotRegs) (n : Nat) : Bool × Nat × Nat × Nat × Nat := (get? n p.conn).getD (false, 0, 0, 0, 0)
def setConn (s : State) (die n : Nat) (e : Bool × Nat × Nat × Nat × Nat) : State :=
  s.modDie die (fun d => { d with phot := { d.phot with conn := put n e d.phot.conn } })
/-- The word of an entry. -/
def connWord (e : Bool × Nat × Nat × Nat × Nat) : Word :=
  BitVec.ofNat 32 (2 ^ 31 * e.1.toNat + 2 ^ 29 * e.2.1 + 2 ^ 19 * e.2.2.1 + 2 ^ 15 * e.2.2.2.1 + 2 ^ 9 * e.2.2.2.2)
def connWaves (v : Word) : Nat := v.toNat / 2 ^ 19 % 32
def connDest (v : Word) : Nat := v.toNat / 2 ^ 15 % 4

/-- Whether wavelengths f to f + w − 1 are held by a circuit that leaves one die, or enters one. -/
def waveHeld (s : State) (egress : Bool) (die x : Nat) : Bool :=
  s.dies.any (fun d => d.phot.draining.any (fun c => (if egress then d.num == die else c.2.2.1 == die) && c.2.2.2 ≤ x && x < c.2.2.2 + c.2.1)
    || d.phot.conn.any (fun c =>
    c.2.1 && (c.2.2.1 == 1 || c.2.2.1 == 2) && (if egress then d.num == die else c.2.2.2.2.1 == die)
      && c.2.2.2.2.2 ≤ x && x < c.2.2.2.2.2 + c.2.2.2.1))
/-- Whether a ring has been removed. DESIGN CHOICE, log 109, safe. -/
def ringGone (s : State) (die ring : Nat) : Bool := ((s.die? die).map (fun d => d.phot.removed.contains ring)).getD false
/-- The places where w contiguous wavelengths are free in both dies. Wavelengths 0 to 47 carry the default circuits. -/
def waveChoices (s : State) (src dst w : Nat) : List Nat :=
  ((List.range 16).map (fun i => 48 + i)).filter (fun f => f + w ≤ 64 && (List.range w).all (fun i =>
    !waveHeld s true src (f + i) && !waveHeld s false dst (f + i) && !ringGone s src (f + i) && !ringGone s dst (64 + f + i)))

/-- `CONN_VALID_SET` (R317). While VALID is 1, it changes nothing. DEDUCED, log 95, unsafe. -/
def connSet (s : State) (die n : Nat) (v : Word) : State :=
  match s.die? die with
  | none => s
  | some d =>
    if (connOf d.phot n).1 then s
    else
      let w := connWaves v
      let dst := connDest v
      let fs := if w = 0 || 16 < w || dst = die then [] else waveChoices s die dst w
      match fs[(Config.freeWord s.nonce).toNat % fs.length]? with
      | none => setConn s die n (true, 3, w, dst, 0)
      | some f => (setConn { s with nonce := s.nonce + 1 } die n (true, 1, w, dst, f)).later (.circuitTuned die n)
def execConnValidSet (die n : Nat) (v : Word) (s : State) : Host.Outcome State Fault Refusal := .next (connSet s die n v)
/-- `CONN_VALID_CLEAR` (R317): WAVES and DEST are written while VALID is 0; a write that changes them as well, while VALID is 1, is ignored.
A circuit that is torn down keeps its wavelengths, and the entry shows its STATE, until that is done. -/
def connClear (s : State) (die n : Nat) (v : Word) : State :=
  match s.die? die with
  | none => s
  | some d =>
    let e := connOf d.phot n
    if !e.1 then setConn s die n (false, e.2.1, connWaves v, connDest v, e.2.2.2.2)
    else if connWaves v ≠ e.2.2.1 || connDest v ≠ e.2.2.2.1 then s
    else if e.2.1 = 1 || e.2.1 = 2 then
      (s.modDie die (fun d => { d with phot := { d.phot with
        draining := d.phot.draining ++ [(n, e.2.2.1, e.2.2.2.1, e.2.2.2.2)]
        conn := put n (false, e.2) d.phot.conn } })).later (.tearDownDone die n)
    else setConn s die n (false, 0, e.2.2.1, e.2.2.2.1, 0)
def execConnValidClear (die n : Nat) (v : Word) (s : State) : Host.Outcome State Fault Refusal := .next (connClear s die n v)
/-- `CIRCUIT_TUNED` (R317). -/
def execCircuitTuned (die n : Nat) (s : State) : Host.Outcome State Fault Refusal :=
  match (s.die? die).map (fun d => connOf d.phot n) with
  | some (true, 1, w, dst, f) => .next (setConn s die n (true, 2, w, dst, f))
  | _ => .next s
/-- An entry once nothing of it is torn down any more: idle, unless it has asked for a circuit again. -/
def PhotRegs.settle (p : PhotRegs) (n : Nat) : PhotRegs :=
  let e := connOf p n
  if e.1 || p.draining.any (fun c => c.1 == n) then p else { p with conn := put n (false, 0, e.2.2.1, e.2.2.2.1, 0) p.conn }
/-- `TEAR_DOWN_DONE` (R317): the oldest circuit of an entry that is being torn down. -/
def execTearDownDone (die n : Nat) (s : State) : Host.Outcome State Fault Refusal :=
  .next (s.modDie die (fun d => if d.phot.draining.any (fun c => c.1 == n) then { d with
    phot := ({ d.phot with draining := d.phot.draining.eraseP (fun c => c.1 == n) } : PhotRegs).settle n } else d))

/-! Firmware update (R369, R370) -/

/-- Completion codes of PLDM: success, and a command in the wrong state. PRESUMED, log 110, unsafe. -/
def pldmOk : Nat := 0
def pldmWrongState : Nat := 0x84
/-- The codes of the commands of R369 in messages. -/
def answer (s : State) (cmd code : Nat) (data : List Nat) : State := s.say (.pldm cmd code data)
/-- A command that needs a state of the update. -/
def inUpdate (s : State) (cmd : Nat) (ok : Bool) (f : Pldm → Pldm) : State :=
  if ok then answer { s with pldm := f s.pldm } cmd pldmOk [] else answer s cmd pldmWrongState []
/-- The slot that does not run. -/
def stagedSlot (s : State) : Nat := 1 - runSlot s

def execQuerydeviceidentifiers (s : State) : Host.Outcome State Fault Refusal := .next (answer s 0x01 pldmOk [])
def execGetfirmwareparameters (s : State) : Host.Outcome State Fault Refusal :=
  .next (answer s 0x02 pldmOk [imageNat s (runSlot s) 1 0xC 4, imageNat s (s.pages.cfgSlot - 1) 2 0xC 4])
def execRequestupdate (s : State) : Host.Outcome State Fault Refusal :=
  .next (inUpdate s 0x10 (s.pldm.state = .idle) (fun p => { p with state := .learn, staged := [] }))
def execPasscomponenttable (component : BitVec 16) (s : State) : Host.Outcome State Fault Refusal :=
  .next (inUpdate s 0x13 ((s.pldm.state = .learn || s.pldm.state = .ready) && (component = 1 || component = 2))
    (fun p => { p with state := .ready }))
/-- The image of a component fits its half of the slot. -/
def execUpdatecomponent (component : BitVec 16) (size : Nat) (s : State) : Host.Outcome State Fault Refusal :=
  .next (inUpdate s 0x14 (s.pldm.state = .ready && (component = 1 || component = 2) && size ≤ 2 ^ 23)
    (fun p => { p with state := .download, comp := component.toNat, size := size }))
/-- `REQUESTFIRMWAREDATA`: at most 1,024 bytes of the image, staged into the slot that is not running. -/
def execRequestfirmwaredata (off : Nat) (data : List Byte) (s : State) : Host.Outcome State Fault Refusal :=
  if s.pldm.state = .download ∧ data.length ≤ 1024 ∧ off + data.length ≤ s.pldm.size then
    .next (answer (putBytes s (placed (imageAt (stagedSlot s) s.pldm.comp + off) data)) 0x15 pldmOk [])
  else .next (answer s 0x15 pldmWrongState [])
def execTransfercomplete (ok : Bool) (s : State) : Host.Outcome State Fault Refusal :=
  .next (inUpdate s 0x16 (s.pldm.state = .download) (fun p => { p with state := if ok then .verify else .ready }))
/-- The slot whose block R367 applies to firmware that is verified while the device runs: the staged one's own, where that is staged as well
and verified, and otherwise that in effect. -/
def verifyBlock (s : State) : Nat := if s.pldm.staged.contains 2 then stagedSlot s else s.pages.cfgSlot - 1
/-- `VERIFYCOMPLETE`: R367 applied to the staged image. -/
def execVerifycomplete (s : State) : Host.Outcome State Fault Refusal :=
  if s.pldm.state ≠ .verify then .next (answer s 0x17 pldmWrongState [])
  else
    let r := reasonUnder s (stagedSlot s) s.pldm.comp (verifyBlock s)
    .next (answer { s with pldm := { s.pldm with state := if r = 0 then .apply else .ready } } 0x17 pldmOk [r])
def execApplycomplete (s : State) : Host.Outcome State Fault Refusal :=
  .next (inUpdate s 0x18 (s.pldm.state = .apply) (fun p => { p with state := .ready, staged := distinct (p.staged ++ [p.comp]) }))

def UpdSt.num : UpdSt → Nat
  | .idle => 0
  | .learn => 1
  | .ready => 2
  | .download => 3
  | .verify => 4
  | .apply => 5
  | .activate => 6
def execGetstatus (s : State) : Host.Outcome State Fault Refusal :=
  .next (answer s 0x1B pldmOk [UpdSt.num (if s.pldm.activating then .activate else s.pldm.state)])
def execCancelupdatecomponent (s : State) : Host.Outcome State Fault Refusal :=
  .next (inUpdate s 0x1C (s.pldm.state = .download || s.pldm.state = .verify || s.pldm.state = .apply) (fun p => { p with state := .ready }))
def execCancelupdate (s : State) : Host.Outcome State Fault Refusal :=
  .next (inUpdate s 0x1D (s.pldm.state ≠ .idle) (fun p => { p with state := .idle, staged := [] }))

end Sys2Proof.Machine
end

