-- ==== Sys2Proof/Machine/Float.lean ====
section
/-! DEFINITION. The floating-point instructions (R136 to R144). -/

namespace Sys2Proof.Machine

/-- The code that a register holds in a format: its low bits (R137, R141). -/
def codeIn (f : Fmt) (x : Nat) : Nat := x % 2 ^ (layout f).width
/-- The value of the n-th source in a format. -/
def fval (f : Fmt) (v : List Nat) (n : Nat) : Val := value f (codeIn f (v.getD n 0))
/-- The code of the n-th source in a format. -/
def fcode (f : Fmt) (v : List Nat) (n : Nat) : Nat := codeIn f (v.getD n 0)
/-- The n-th source, half i (R137). -/
def halfOf (v : List Nat) (n i : Nat) : Nat := v.getD n 0 / 65536 ^ i % 65536

/-- An instruction of two sources in a format. -/
def floatBin (h : Head) (d a : Reg) (b : Src) (g : List Nat → Nat) (s : State) : Host.Outcome State Fault Refusal :=
  alu h d 1 [.reg a 1, .src b] g s
/-- An instruction of three sources in a format. -/
def floatTern (h : Head) (d a b c : Reg) (g : List Nat → Nat) (s : State) : Host.Outcome State Fault Refusal :=
  alu h d 1 [.reg a 1, .reg b 1, .reg c 1] g s
/-- An instruction of one source in a format. -/
def floatUn (h : Head) (d a : Reg) (g : List Nat → Nat) (s : State) : Host.Outcome State Fault Refusal :=
  alu h d 1 [.reg a 1] g s
/-- An operation done for each half on its own (R137). -/
def perHalf (g : Nat → Nat) : Nat := g 0 + 65536 * g 1

/-- The value that a source of a type enters a conversion with (R141). -/
def sourceVal (t : NumTy) (x : Nat) : Val :=
  match t with
  | .int t => let n := intVal t x; .fin (decide (n < 0)) n.natAbs 0
  | .flt f => value f (codeIn f x)
/-- Registers that an operand of a type takes. -/
def numWords : NumTy → Nat
  | .int t => t.words
  | .flt _ => 1
/-- A conversion (R141): for a stochastic one, r is the low half of the lane's stepped state (R83). -/
def convertTo (t : NumTy) (rnd : Rnd) (sat : Bool) (r : Option Nat) (x : Val) : Nat :=
  match t with
  | .int t => lowBits (32 * t.words) (convertInt t rnd x)
  | .flt f => match r with
    | some r => convertSr f sat r x
    | none => convert f rnd sat x

/-- The stepped state of a generator, and the low half that a stochastic rounding compares with (R82, R83). -/
def drawGen (g : Word) : Word × Nat := (xorShift32 g, (xorShift32 g).toNat % 65536)

/-- The generator of a lane. -/
def genOf (s : State) (p : CtxId × Nat) : Word := (((s.ctx p.1).lanes[p.2]?).map (fun l => l.gen)).getD 0
def setGen (s : State) (p : CtxId × Nat) (g : Word) : State := s.modCtx p.1 (fun x => x.modLane p.2 (fun l => { l with gen := g }))

/-- The body of a stochastic conversion: each participating lane computes with its own generator, which it leaves stepped
(R83). -/
def srBody (d : Reg) (srcs : List Operand) (f : Word → List Nat → Nat × Word) (e : Env) (s : State) : Res :=
  match columns e s srcs with
  | .error b => b.res s
  | .ok (vals, t) =>
    let rs := (e.parts.zip vals).map (fun (p, v) => (p, f (genOf t p) v))
    store e (rs.foldl (fun t (p, r) => setGen t p r.2) t) .fixed (rs.map (fun (p, r) => (p, [(d, 1, r.1)])))

/-- Two narrow elements in a word, e0 lowest (R142). -/
def packed (f : Fmt) (e0 e1 : Nat) : Nat := e1 * 2 ^ (layout f).width + e0

def execFadd (h : Head) (f : Fmt) (rnd : Rnd) (d a : Reg) (b : Src) (s : State) : Host.Outcome State Fault Refusal :=
  floatBin h d a b (fun v => addCode f rnd (fval f v 0) (fval f v 1)) s
def execFsub (h : Head) (f : Fmt) (rnd : Rnd) (d a : Reg) (b : Src) (s : State) : Host.Outcome State Fault Refusal :=
  floatBin h d a b (fun v => addCode f rnd (fval f v 0) (fval f v 1).neg) s
def execFmul (h : Head) (f : Fmt) (rnd : Rnd) (d a : Reg) (b : Src) (s : State) : Host.Outcome State Fault Refusal :=
  floatBin h d a b (fun v => mulCode f rnd (fval f v 0) (fval f v 1)) s
def execFfma (h : Head) (f : Fmt) (rnd : Rnd) (d a b c : Reg) (s : State) : Host.Outcome State Fault Refusal :=
  floatTern h d a b c (fun v => fmaCode f rnd (fval f v 0) (fval f v 1) (fval f v 2)) s
def execFmin (h : Head) (f : Fmt) (d a : Reg) (b : Src) (s : State) : Host.Outcome State Fault Refusal :=
  floatBin h d a b (fun v => minCode f (fcode f v 0) (fcode f v 1)) s
def execFmax (h : Head) (f : Fmt) (d a : Reg) (b : Src) (s : State) : Host.Outcome State Fault Refusal :=
  floatBin h d a b (fun v => maxCode f (fcode f v 0) (fcode f v 1)) s
def execFcmp (h : Head) (f : Fmt) (cond : Cond) (d : BitVec 3) (a : Reg) (b : Src) (s : State) :
    Host.Outcome State Fault Refusal :=
  floatBin h (.p d) a b (fun v => (floatCond cond (fval f v 0) (fval f v 1)).toNat) s
def execFclass (h : Head) (f : Fmt) (d a : Reg) (s : State) : Host.Outcome State Fault Refusal :=
  floatUn h d a (fun v => 2 ^ fclass f (fcode f v 0)) s
def execFrnd (h : Head) (f : Fmt) (rnd : Rnd) (d a : Reg) (s : State) : Host.Outcome State Fault Refusal :=
  floatUn h d a (fun v => frndCode f rnd (fcode f v 0)) s
/-- a × 2^b, b a whole i32 in every type (R124, R140). -/
def execFscale (h : Head) (f : Fmt) (rnd : Rnd) (d a : Reg) (b : Src) (s : State) : Host.Outcome State Fault Refusal :=
  floatBin h d a b (fun v => fscaleCode f rnd (fcode f v 0) (intVal .i32 (v.getD 1 0))) s
def execFexp (h : Head) (f : Fmt) (d a : Reg) (s : State) : Host.Outcome State Fault Refusal :=
  floatUn h d a (fun v => lowBits 32 (fexpVal f (fcode f v 0))) s
/-- `CVT` (R141), with stochastic rounding under R83. -/
def execCvt (h : Head) (dst src : NumTy) (rnd : Rnd) (sat sr : Bool) (d a : Reg) (s : State) : Host.Outcome State Fault Refusal :=
  if sr then
    issue h { anchored := namesQueue [d] [.reg a (numWords src)] } (srBody d [.reg a (numWords src)] (fun g v =>
      (convertTo dst rnd sat (some (drawGen g).2) (sourceVal src (v.getD 0 0)), (drawGen g).1))) s
  else alu h d (numWords dst) [.reg a (numWords src)] (fun v => convertTo dst rnd sat none (sourceVal src (v.getD 0 0))) s
/-- `PACK` (R142): the elements in order, each with a draw of its own under SR (R83). -/
def execPack (h : Head) (f : Fmt) (rnd : Rnd) (sat sr : Bool) (d a : Reg) (b : Src) (s : State) : Host.Outcome State Fault Refusal :=
  if sr then
    issue h { anchored := namesQueue [d] [.reg a 1, .src b] } (srBody d [.reg a 1, .src b] (fun g v =>
      let r0 := drawGen g
      let r1 := drawGen r0.1
      (packed f (convertSr f sat r0.2 (fval .f32 v 0)) (convertSr f sat r1.2 (fval .f32 v 1)), r1.1))) s
  else floatBin h d a b (fun v => packed f (convert f rnd sat (fval .f32 v 0)) (convert f rnd sat (fval .f32 v 1))) s
/-- Element j of a word of narrow elements, as f32 (R143); one of 2^128 or more gives +infinity. DESIGN CHOICE, log 151, unsafe. -/
def unpackElement (f : Fmt) (a j : Nat) : Nat := convert .f32 .rne false (value f (codeIn f (a / 2 ^ ((layout f).width * j))))
def execUnpk (h : Head) (f : Fmt) (d a b : Reg) (s : State) : Host.Outcome State Fault Refusal :=
  alu h d 2 [.reg a 1, .reg b 1] (fun v =>
    let k := v.getD 1 0 % (32 / (layout f).width / 2)
    unpackElement f (v.getD 0 0) (2 * k) + 2 ^ 32 * unpackElement f (v.getD 0 0) (2 * k + 1)) s
def execHadd2 (h : Head) (f : Fmt) (rnd : Rnd) (d a : Reg) (b : Src) (s : State) : Host.Outcome State Fault Refusal :=
  floatBin h d a b (fun v => perHalf (fun i => addCode f rnd (value f (halfOf v 0 i)) (value f (halfOf v 1 i)))) s
def execHmul2 (h : Head) (f : Fmt) (rnd : Rnd) (d a : Reg) (b : Src) (s : State) : Host.Outcome State Fault Refusal :=
  floatBin h d a b (fun v => perHalf (fun i => mulCode f rnd (value f (halfOf v 0 i)) (value f (halfOf v 1 i)))) s
def execHfma2 (h : Head) (f : Fmt) (rnd : Rnd) (d a b c : Reg) (s : State) : Host.Outcome State Fault Refusal :=
  floatTern h d a b c (fun v => perHalf (fun i =>
    fmaCode f rnd (value f (halfOf v 0 i)) (value f (halfOf v 1 i)) (value f (halfOf v 2 i)))) s
def execHmin2 (h : Head) (f : Fmt) (d a : Reg) (b : Src) (s : State) : Host.Outcome State Fault Refusal :=
  floatBin h d a b (fun v => perHalf (fun i => minCode f (halfOf v 0 i) (halfOf v 1 i))) s
def execHmax2 (h : Head) (f : Fmt) (d a : Reg) (b : Src) (s : State) : Host.Outcome State Fault Refusal :=
  floatBin h d a b (fun v => perHalf (fun i => maxCode f (halfOf v 0 i) (halfOf v 1 i))) s
/-- a.h0 × b.h0 + a.h1 × b.h1 + c as one exact sum, rounded once to f32 (R90). -/
def execDot2f (h : Head) (f : Fmt) (rnd : Rnd) (d a b c : Reg) (s : State) : Host.Outcome State Fault Refusal :=
  floatTern h d a b c (fun v => convert .f32 rnd false (sumVal rnd
    [(value f (halfOf v 0 0)).mul (value f (halfOf v 1 0)), (value f (halfOf v 0 1)).mul (value f (halfOf v 1 1)),
      fval .f32 v 2])) s
/-- The body of `SEED` (R144): the generators of the participating lanes, at once. -/
def seedBody (b : Src) (e : Env) (s : State) : Res :=
  match columns e s [.src b] with
  | .error q => q.res s
  | .ok (vals, t) => .next ((e.parts.zip vals).foldl (fun t (p, v) =>
      setGen t p (if v.headD 0 = 0 then 0x2545F491 else BitVec.ofNat 32 (v.headD 0))) t)
def execSeed (h : Head) (b : Src) (s : State) : Host.Outcome State Fault Refusal :=
  issue h { anchored := namesQueue [] [.src b] } (seedBody b) s

end Sys2Proof.Machine
end

