-- ==== Sys2Proof/Machine/Mailbox.lean ====
section
/-! DEFINITION. The mailbox and its commands (R320, R336, R346, R350, R360 to R363, R368, R371, R372, R396). -/

namespace Sys2Proof.Machine

/-! Running a command (R362) -/

/-- Argument n of the command. -/
def arg (s : State) (n : Nat) : Nat := (s.mailbox.args.getD n 0).toNat
/-- Whether the command that runs is this one. -/
def runs (s : State) (code seq : BitVec 16) : Bool := s.mailbox.busy && s.mailbox.code == code && s.mailbox.seq == seq
/-- A command ends: results, then STATUS with its sequence number. -/
def endCommand (s : State) (err : Nat) (results : List Nat) : State :=
  let m := s.mailbox
  { s with mailbox := { m with
      busy := false
      dropped := false
      stSeq := m.seq
      err := if m.dropped then 1 else err
      results := results.map (BitVec.ofNat 64) ++ m.results.drop results.length } }
/-- Whether the package is in the recovery profile (R371). -/
def inRecovery (s : State) : Bool := s.boot == .recovery
/-- The commands that the recovery profile accepts, and those that it alone accepts. -/
def allowed (s : State) (code : BitVec 16) : Bool :=
  if inRecovery s then code == 0x0A || code == 0x0B || code == 0x10 || code == 0x11 || code == 0x12
  else !(code == 0x10 || code == 0x11 || code == 0x12)
/-- The step that a command code starts. -/
def commandStep (code seq : BitVec 16) : Instr :=
  if code = 0x0001 then .createCtx seq
  else if code = 0x0002 then .destroyCtx seq
  else if code = 0x0003 then .createQueue seq
  else if code = 0x0004 then .destroyQueue seq
  else if code = 0x0005 then .resume seq
  else if code = 0x0006 then .kill seq
  else if code = 0x0007 then .setap seq
  else if code = 0x0008 then .domainCreate seq
  else if code = 0x0009 then .domainRejoin seq
  else if code = 0x000A then .resync seq
  else if code = 0x000B then .attest seq
  else if code = 0x0010 then .imageWrite seq
  else if code = 0x0011 then .imageCommit seq
  else if code = 0x0012 then .reset seq
  else .otherCommandCode seq code
/-- A command that runs: what it does, or ERR 0x0004 where the profile does not allow it. While a write to bytes that it reads or writes is
held, it waits (R243). -/
def commandOn (code seq : BitVec 16) (s : State) (touches : List (Nat × Nat)) (f : State → State) : Host.Outcome State Fault Refusal :=
  if !runs s code seq then .next s
  else if !allowed s code then .next (endCommand s 4 [])
  else if touches.any (fun p => mustWait s [compTeam] p.1 p.2) then .next (s.at_ (s.cycle + 1) (commandStep code seq))
  else .next (f s)
def command (code seq : BitVec 16) (s : State) (f : State → State) : Host.Outcome State Fault Refusal := commandOn code seq s [] f
def badArgument (s : State) : State := endCommand s 2 []
def noResource (s : State) : State := endCommand s 3 []

/-- Bytes of memory as the compositors see them. -/
def compBytes (s : State) (a n : Nat) : List Byte := (List.range n).map (fun i => readByte s [compTeam] (a + i))
/-- What is done with n bytes of memory that a compositor reads; where they cannot be corrected, they are reported (R298), and its command ends
with ERR 0x0002. -/
def withBytes (s : State) (a n : Nat) (f : List Byte → State) : State :=
  match badAt s [compTeam] ((List.range n).map (a + ·)) with
  | some p => badArgument (foundBad s p)
  | none => f (compBytes s a n)

/-- The place in memory of a host address, with bit 56 set or clear. -/
def hostPlace (a : Nat) : Nat := hostBase + a % hostBase
def hostOk (a n : Nat) : Bool := a < 2 ^ 57 && a % hostBase + n ≤ hostBase

/-! Contexts (R363, R396) -/

/-- The fields of a context descriptor that are read again at RESUME, within their limits. -/
def descAgain (d : List Byte) : Bool := field d 0x1C 4 ≤ 1000000 && field d 0x20 4 % 65536 = 0 && field d 0x24 4 < 2
/-- The whole descriptor. -/
def descFirst (d : List Byte) : Bool :=
  field d 0 8 % 0x20000 = 0 && field d 0 8 < 2 ^ 56 && field d 8 8 % 0x4000 = 0 && field d 8 8 < 2 ^ 57
    && 2 ≤ field d 0x10 4 && field d 0x10 4 ≤ 10 && descAgain d && (d.drop 0x50).all (fun b => b = 0)
/-- The pairs of a partition. -/
def partOf (d : List Byte) : List Nat := (List.range 320).filter (fun p => bit (field d (0x28 + p / 8) 1) (p % 8))

/-- The least number that is not in use. -/
def lowestFree (n : Nat) (used : Nat → Bool) : Option Nat := (List.range n).find? (fun i => !used i)

/-- What RESUME and CREATE_CTX take of a descriptor. -/
def takeFields (d : List Byte) (x : Context) : Context :=
  { x with
    slice := field d 0x14 4
    waitb := field d 0x18 4
    timeout := if field d 0x1C 4 = 0 then 2000 else field d 0x1C 4
    pvmark := field d 0x20 4
    debug := bit (field d 0x24 4) 0 }
/-- A new context. -/
def newContext (s : State) (n a : Nat) (d : List Byte) : Context :=
  takeFields d {
    num := n
    desc := a
    root := field d 0 8
    frBase := field d 8 8
    frLog := field d 0x10 4
    slice := 0
    waitb := 0
    timeout := 0
    pvmark := 0
    debug := false
    part := partOf d
    used := 0
    usedFrac := 0
    sliceEnd := s.tick + 1000 * (if field d 0x14 4 = 0 then 20000 else field d 0x14 4)
    frProd := 0
    frFree := 0
    frSeq := 0
    frHeld := []
    exhausted := false }

/-- `CREATE_CTX`. -/
def createContext (s : State) : State :=
  let a := arg s 0
  if a % 8 ≠ 0 || Config.dramBytes < a + 256 then badArgument s
  else withBytes s a 256 (fun d =>
    if !descFirst d || s.contexts.any (fun x => x.part.any (fun p => (partOf d).contains p)) then badArgument s
    else match lowestFree 64 (fun n => (s.context? n).isSome) with
      | none => noResource s
      | some n => endCommand { s with contexts := s.contexts ++ [newContext s n a d] } 0 [n])
def execCreateCtx (seq : BitVec 16) (s : State) : Host.Outcome State Fault Refusal :=
  commandOn 0x0001 seq s [(arg s 0, 256)] createContext

/-- The numbers of the queues of a context, ascending. -/
def queuesOf (s : State) (ctx : Nat) : List Nat :=
  ascending s.queues.length ((s.queues.filter (fun q => q.ctx == ctx && q.state == 1)).map (fun q => q.num))
/-- `DESTROY_CTX`: every queue (each keeps its doorbell page, destroyed), then everything the context holds. -/
def destroyContext (s : State) : State :=
  let n := arg s 0
  if (s.context? n).isNone then badArgument s
  else
    let s := (queuesOf s n).foldl destroyQueue s
    let s := invalidate s (n % 64 + 256) 0
    endCommand { s with contexts := s.contexts.filter (fun x => x.num ≠ n) } 0 []
def execDestroyCtx (seq : BitVec 16) (s : State) : Host.Outcome State Fault Refusal := command 0x0002 seq s destroyContext

/-! Queues (R350, R360) -/

/-- `CREATE_QUEUE`: context, home die, priority, k, ring base, read index address. DESIGN CHOICE, log 91, unsafe. -/
def createQueue (s : State) : State :=
  let ctx := arg s 0
  let k := arg s 3
  if (s.context? ctx).isNone || Config.dies ≤ arg s 1 || 4 ≤ arg s 2 || k < 3 || 16 < k || arg s 4 % 4096 ≠ 0 || 2 ^ 57 ≤ arg s 4
      || arg s 5 % 8 ≠ 0 || 2 ^ 57 ≤ arg s 5 then badArgument s
  else match lowestFree 1024 (fun n => ((s.queue? n).map (fun q => q.state == 1 || q.state == 2)).getD false) with
    | none => noResource s
    | some n =>
      let q : HQueue := {
        num := n
        ctx := ctx
        home := arg s 1
        prio := arg s 2
        slots := 2 ^ k
        ring := arg s 4
        rdAddr := arg s 5
        rd := 0
        notify := 0
        state := 1
        drops := 0
        stale := 0
        ready := []
        deps := none
        sampleAt := 0
        placed := 0
        served := 0 }
      endCommand { s with queues := s.queues.filter (fun x => x.num ≠ n) ++ [q] } 0 [n]
def execCreateQueue (seq : BitVec 16) (s : State) : Host.Outcome State Fault Refusal := command 0x0003 seq s createQueue

/-- `DESTROY_QUEUE`. -/
def execDestroyQueue (seq : BitVec 16) (s : State) : Host.Outcome State Fault Refusal :=
  command 0x0004 seq s (fun s =>
    if ((s.queue? (arg s 0)).map (fun q => q.state == 1)).getD false then endCommand (destroyQueue s (arg s 0)) 0 [] else badArgument s)

/-! Teams (R396) -/

/-- The team that a command names. -/
def namedTeam (s : State) : Option TeamId :=
  let t : TeamId := ⟨arg s 1, arg s 2⟩
  match s.team? t with
  | some x => if x.ctx = arg s 0 ∧ x.state ≠ .ended ∧ t.num < shadowBase then some t else none
  | none => none

/-- The waits of a team that was stopped, executed afresh (R189). -/
def retryWaits (s : State) (t : TeamId) : State :=
  match (s.team? t).map (fun (x : Team) => x.state) with
  | some (TeamSt.stopped _) => s.modCtxs (teamCtxs s t) (fun x => { x with wait := (keptWait x.wait).map (retest s t) })
  | _ => s
/-- The grid contexts of a team's launch. -/
def gridCtxs (s : State) (t : TeamId) : List CtxId :=
  (s.ctxs.map (fun e => e.1)).filter (fun c => match c with
    | .grid n _ => n == t.launch
    | _ => false)
/-- One team resumed: units that stand stopped for the host go on, its grid contexts with them (R257), suspended operations are delivered
again, a saved team may be restored. -/
def resumeTeam (s : State) (t : TeamId) : State :=
  let s := retryWaits s t
  let s := s.modTeam t (fun x => { x with
    state := match x.state with
      | .stopped _ => .running
      | k => k
    toHold := false
    stepping := none })
  let s := s.modCtxs (teamCtxs s t ++ gridCtxs s t) (fun x => { x with stop := match x.stop with
    | some .fault => some .fault
    | _ => none })
  let again := s.ops.filter (fun o => o.team = t && o.suspended)
  let s := { s with
    ops := s.ops.map (fun o => if o.team = t then { o with suspended := false } else o)
    saved := s.saved.map (fun v => if v.id = t then { v with
      held := false
      state := match v.state with
        | .stopped _ => .running
        | k => k } else v) }
  again.foldl (fun s o => s.later (.delivery o.id)) s
/-- `RESUME`: the descriptor read again, then both teams of a pair together. DEDUCED, log 89, unsafe. -/
def resume (s : State) : State :=
  match namedTeam s with
  | none => badArgument s
  | some t =>
    match s.context? (arg s 0) with
    | none => badArgument s
    | some x => withBytes s x.desc 256 (fun d =>
      if !descAgain d then badArgument s
      else endCommand ((unitTeams s t).foldl resumeTeam (s.modContext x.num (takeFields d))) 0 [])
def execResume (seq : BitVec 16) (s : State) : Host.Outcome State Fault Refusal :=
  commandOn 0x0005 seq s (((s.context? (arg s 0)).toList.map (fun x => (x.desc, 256)))) resume

/-- `KILL`. -/
def execKill (seq : BitVec 16) (s : State) : Host.Outcome State Fault Refusal :=
  command 0x0006 seq s (fun s => match namedTeam s with
    | none => badArgument s
    | some t => endCommand (killTeams s (killSet s t) 2) 0 [])

/-! The aperture, domains (R320, R336, R346) -/

/-- `SETAP`. -/
def execSetap (seq : BitVec 16) (s : State) : Host.Outcome State Fault Refusal :=
  command 0x0007 seq s (fun s =>
    if 2 ≤ arg s 0 then badArgument s else endCommand { s with apbase := 2 ^ 38 * arg s 0 } 0 [])

/-- A new domain: no view yet, its first one proposed by its lowest rank. DEDUCED, log 94, unsafe. -/
def newDomain (s : State) (n r own hold ports : Nat) : Domain where
  num := n
  ranks := r
  own := own
  hold := hold
  ports := ports
  view := 0
  members := List.range r
  state := .normal
  noQuorum := false
  ackedNum := 0
  ackedFrom := 0
  proposal := none
  acks := []
  suspected := []
  heard := ((List.range r).filter (fun k => k ≠ own)).map (fun k => (k, s.tick, false))
  deadline := none
  nextSeq := 0
  confirmed := none
  colls := []
  early := []
  dropped := []
  unacked := []
  clashed := []
  offer := none
  joinAcks := []
  frozen := false
  answered := []
  commit := noSeq
  commitTo := []
  beat := s.tick
  again := s.tick + resendEvery
/-- `DOMAIN_CREATE`: the hold limit in ms, 0 for 10 s. -/
def createDomain (s : State) : State :=
  let n := arg s 0
  let r := arg s 1
  let hold := if arg s 3 = 0 then 10000 else arg s 3
  if 16 ≤ n || (s.domain? n).isSome || r < 2 || 1024 < r || r ≤ arg s 2 || 60000 < hold then badArgument s
  else
    let s := { s with domains := s.domains ++ [newDomain s n r (arg s 2) (1000000 * hold) (arg s 4)] }
    endCommand (propose s n) 0 []
def execDomainCreate (seq : BitVec 16) (s : State) : Host.Outcome State Fault Refusal := command 0x0008 seq s createDomain

/-- `DOMAIN_REJOIN`: an excluded package sends JOIN_REQ. -/
def rejoinDomain (s : State) : State :=
  match s.domain? (arg s 0) with
  | none => badArgument s
  | some d =>
    if d.state ≠ .excluded then badArgument s
    else
      let s := s.modDomain d.num (fun d => { d with state := .joining, deadline := none, offer := none, again := s.tick + resendEvery })
      endCommand (tellAll s d d.others (.joinReq d.num d.own)) 0 []
def execDomainRejoin (seq : BitVec 16) (s : State) : Host.Outcome State Fault Refusal := command 0x0009 seq s rejoinDomain

/-! RESYNC and ATTEST (R368, R372) -/

/-- A section, padded to a 4 KiB boundary; an empty one takes one page. -/
def section_ (bs : List Byte) : List Byte :=
  let n := max 1 ((bs.length + 4095) / 4096)
  sized (4096 * n) bs
def queueBytes (s : State) : List Byte :=
  s.queues.flatMap (fun q => le4 q.num ++ le4 q.state ++ leBytes 8 q.rd ++ leBytes 8 q.notify)
def contextBytes (s : State) : List Byte :=
  s.contexts.flatMap (fun x => le4 x.num ++ le4 0) ++ s.launches.flatMap (fun l => leBytes 8 l.num ++ le4 l.ctx ++ le4 l.n
    ++ leBytes 80 (((gridTeams s l.num).filterMap s.team?).foldl (fun n x => n ||| 2 ^ x.core) 0))
/-- The pending faults: each context's producer index with the headers of the entries that wait for its ring, then those that wait for their
role's handler. -/
def faultBytes (s : State) : List Byte :=
  s.contexts.flatMap (fun x => le4 x.num ++ le4 x.frHeld.length ++ leBytes 8 x.frProd ++ x.frHeld.flatMap (fun b => sized 64 (b.take 56)))
    ++ s.teams.flatMap (fun e => e.2.faults.flatMap (fun p => leBytes 8 e.1.launch ++ le4 e.1.num ++ le4 p.info.cause.code))
def MemberSt.num : MemberSt → Nat
  | .normal => 0
  | .leading => 1
  | .acked => 2
  | .excluded => 3
  | .joining => 4
def domainBytes (s : State) : List Byte :=
  s.domains.flatMap (fun d => le4 d.num ++ le4 d.view ++ le4 d.members.length ++ le4 (MemberSt.num d.state + 2 ^ 8 * d.noQuorum.toNat))
/-- The expert unlock value of a boot: another one than that of the boot before (R372). DESIGN CHOICE, log 105, safe. -/
def unlockOf : Nat → DWord
  | 0 => Config.unlockValue 0
  | n + 1 => if Config.unlockValue (n + 1) = unlockOf n then unlockOf n + 1 else Config.unlockValue (n + 1)
/-- The errors corrected since a counter was read last are a free number (R393). -/
def noteCorrected (s : State) (i : Nat) : State :=
  if 0x200 ≤ i ∧ i < 0x300 then
    { s with nonce := s.nonce + 1, counters := put i (min (2 ^ 64 - 1) ((get? i s.counters).getD 0 + (Config.freeWord s.nonce).toNat)) s.counters }
  else s
def counterBytes (s : State) : List Byte := s.counters.flatMap (fun c => leBytes 8 c.1 ++ leBytes 8 c.2)
/-- The summary, in the order of R372; in the recovery profile the queue, context and domain sections are empty. DESIGN CHOICE, log 92, unsafe. -/
def summary (s : State) : List Byte :=
  let r := inRecovery s
  section_ (if r then [] else queueBytes s) ++ section_ (if r then [] else contextBytes s) ++ section_ (faultBytes s)
    ++ section_ s.measurements.flatten ++ section_ (if r then [] else domainBytes s) ++ section_ (counterBytes s)
/-- `RESYNC`: at most the 64 KiB of the buffer; the expert unlock value. -/
def resync (s : State) : State :=
  let a := arg s 0
  if !hostOk a 65536 then badArgument s
  else
    let s := (List.range 256).foldl (fun s i => noteCorrected s (0x200 + i)) s
    let bs := (summary s).take 65536
    endCommand (putBytes s (placed (hostPlace a) bs)) 0 [bs.length, (unlockOf s.bootCount).toNat]
def execResync (seq : BitVec 16) (s : State) : Host.Outcome State Fault Refusal :=
  commandOn 0x000A seq s [(hostPlace (arg s 0), 65536)] resync

/-- `ATTEST`: public key, nonce, digest of the log, the log, signed. -/
def attest (s : State) : State :=
  if !hostOk (arg s 0) 32 || !hostOk (arg s 1) 65536 then badArgument s
  else
    let nonce := compBytes s (hostPlace (arg s 0)) 32
    let log := s.measurements.flatten
    let body := sized 57 (Config.devicePub 0) ++ nonce ++ shake256 log 64 ++ log
    let report := body ++ sized 114 (Config.ed448Sign 0 body)
    endCommand (putBytes s (placed (hostPlace (arg s 1)) report)) 0 [report.length]
def execAttest (seq : BitVec 16) (s : State) : Host.Outcome State Fault Refusal :=
  commandOn 0x000B seq s [(hostPlace (arg s 0), 32), (hostPlace (arg s 1), 65536)] attest

/-! Images in the recovery profile (R371), reset (R384), every other code -/

/-- `IMAGE_WRITE`: slot, offset, host address, length. -/
def imageWrite (s : State) : State :=
  let n := arg s 3
  if 2 ≤ arg s 0 || 4096 < n || 2 ^ 24 < arg s 1 + n || !hostOk (arg s 2) n then badArgument s
  else endCommand (putBytes s (placed (flashAddr (2 ^ 24 * arg s 0 + arg s 1)) (compBytes s (hostPlace (arg s 2)) n))) 0 []
def execImageWrite (seq : BitVec 16) (s : State) : Host.Outcome State Fault Refusal :=
  commandOn 0x0010 seq s [(hostPlace (arg s 2), arg s 3)] imageWrite
/-- `IMAGE_COMMIT`: the slot verified, and preferred only if it is authentic. -/
def imageCommit (s : State) : State :=
  let k := arg s 0
  if 2 ≤ k then badArgument s
  else
    let r := slotReason s k
    endCommand (if r = 0 then { s with mram := { s.mram with bootSel := k } } else s) 0 [r]
def execImageCommit (seq : BitVec 16) (s : State) : Host.Outcome State Fault Refusal := command 0x0011 seq s imageCommit
/-- `RESET`. -/
def execReset (seq : BitVec 16) (s : State) : Host.Outcome State Fault Refusal := command 0x0012 seq s resetPackage
/-- The codes that the mailbox lists. -/
def listedCode (code : BitVec 16) : Bool := (1 ≤ code.toNat && code.toNat ≤ 0x0B) || (0x10 ≤ code.toNat && code.toNat ≤ 0x12)
/-- `OTHER_COMMAND_CODE` (R362): ERR 0x0002 in either profile. -/
def execOtherCommandCode (seq code : BitVec 16) (s : State) : Host.Outcome State Fault Refusal :=
  .next (if listedCode code || !runs s code seq then s else badArgument s)

/-! The activation of firmware (R369, R370) -/

/-- The MRAM minimum raised to the SVN of an activated image (R367), and the activation measured (R368). -/
def raiseSvn (s : State) (slot type : Nat) : State :=
  let n := max (s.mram.minSvn.getD (type - 1) 0) (imageNat s slot type 0xC 4)
  measureImage { s with mram := { s.mram with minSvn := s.mram.minSvn.set (type - 1) n } } slot type
/-- The compositors that run now started at ENTRY of the slot that runs. DESIGN CHOICE, log 111, unsafe. -/
def restartCompositors (s : State) : State :=
  ((List.range Config.dies).filter (fun k => s.hasCtx (.firmware k))).foldl startCompositor s
/-- The command that runs, run to its end (R370). -/
def runCommand (s : State) : Host.Outcome State Fault Refusal :=
  let q := s.mailbox.seq
  match commandStep s.mailbox.code q with
  | .createCtx _ => execCreateCtx q s
  | .destroyCtx _ => execDestroyCtx q s
  | .createQueue _ => execCreateQueue q s
  | .destroyQueue _ => execDestroyQueue q s
  | .resume _ => execResume q s
  | .kill _ => execKill q s
  | .setap _ => execSetap q s
  | .domainCreate _ => execDomainCreate q s
  | .domainRejoin _ => execDomainRejoin q s
  | .resync _ => execResync q s
  | .attest _ => execAttest q s
  | .imageWrite _ => execImageWrite q s
  | .imageCommit _ => execImageCommit q s
  | .reset _ => execReset q s
  | _ => execOtherCommandCode q s.mailbox.code s
/-- The state with its running command ended, where it need not wait; its step falls away. -/
def commandEnded (s : State) : State :=
  if !s.mailbox.busy then s
  else match runCommand s with
    | .next t => { t with timers := t.timers.filter (fun e => e.2 ≠ commandStep s.mailbox.code s.mailbox.seq) }
    | _ => s
/-- The queue state that the compositors serialise: read indices, packets read with the launches that wait, what a barrier-AND still waits for,
retained records. -/
def handOver (s : State) : List Byte :=
  s.queues.flatMap (fun q => le4 q.num ++ le4 q.ready.length ++ leBytes 8 q.rd ++ q.ready.flatMap (fun p => p.bytes)
      ++ (q.deps.getD []).flatMap (leBytes 8))
    ++ s.retained.flatMap (fun e => leBytes 8 e.1 ++ e.2)
/-- It lies in `dz` of die 0, round past its end. -/
def handBytes (s : State) : List (Nat × Byte) :=
  ((handOver s).take Config.dzBytes).mapIdx (fun i b => (dzAddr 0 ((Config.handPlace s.nonce + i) % Config.dzBytes), b))

/-- `ACTIVATEFIRMWARE` (R369, R370): the staged slot preferred; a configuration block takes effect at the next reset, new compositor firmware
at once: the running command is ended, the queue state serialised, and the new image started. Whether it takes over in time is a free
value. -/
def execActivatefirmware (s : State) : Host.Outcome State Fault Refusal :=
  if s.pldm.state ≠ .ready ∨ s.pldm.staged.isEmpty ∨ s.pldm.activating then .next (answer s 0x1A pldmWrongState [])
  else if s.pldm.staged.contains 1 && (commandEnded s).boot ≠ s.boot then .next (commandEnded s)
  else if s.pldm.staged.contains 1 && (commandEnded s).mailbox.busy then .next (s.at_ (s.cycle + 1) .activatefirmware)
  else
    let k := stagedSlot s
    let s := if s.pldm.staged.contains 1 then commandEnded s else s
    let s := answer { s with mram := { s.mram with bootSel := k }, pldm := { s.pldm with state := .idle } } 0x1A pldmOk []
    if !s.pldm.staged.contains 1 then .next (raiseSvn s k 2)
    else
      let all := s.pldm.staged
      let taken := (Config.freeWord s.nonce).toNat % 2 = 1
      let s := putBytes s (handBytes s)
      let s := restartCompositors { s with nonce := s.nonce + 1, pages := { s.pages with slot := k + 1 } }
      if taken then .next (all.foldl (fun s c => raiseSvn s k c) s)
      else .next { s with pldm := { s.pldm with activating := true, until_ := s.tick + 2000000 } }
/-- `ACTIVATION_TIMEOUT` (R370): the old image goes on, and ApplyComplete reports failure. -/
def execActivationTimeout (s : State) : Host.Outcome State Fault Refusal :=
  if !s.pldm.activating || s.tick < s.pldm.until_ then .next s
  else
    let old := stagedSlot s
    let s := { s with
      pldm := { s.pldm with activating := false }
      mram := { s.mram with bootSel := old }
      pages := { s.pages with slot := old + 1 } }
    .next (answer (restartCompositors s) 0x18 1 [])

/-- A write of CMD: dropped while a command runs, or while compositor firmware changes over (R370). -/
def writeCmd (s : State) (v : Word) : State :=
  if s.mailbox.busy then { s with mailbox := { s.mailbox with dropped := true } }
  else if s.pldm.activating then s
  else
    let code : BitVec 16 := v.extractLsb' 0 16
    let seq : BitVec 16 := v.extractLsb' 16 16
    ({ s with mailbox := { s.mailbox with seq := seq, code := code, busy := true } } : State).later (commandStep code seq)

end Sys2Proof.Machine
end

