-- ==== Sys2Proof/Machine/Moves.lean ====
section
/-! DEFINITION. Moves, predicates and status registers (R149 to R152, R65). -/

namespace Sys2Proof.Machine

/-- A handle copied to another of the same contexts (R18, R149): both then name one operation, once the result is readable (R48,
R127). It changes what no log undoes, so an upper sequencer makes it when its lower units have come so far (R28). -/
def handleMove (d a : BitVec 4) (e : Env) (s : State) : Res :=
  if e.parts.any (fun p => (s.ctx p.1).h.getD a.toNat .empty == .empty) then
    .trap s { cause := .handle, addr := BitVec.ofNat 32 (0x1F0 + a.toNat) }
  else .next (s.modCtxs (e.parts.map (fun p => p.1)) (fun x => { x with
    hmoves := x.hmoves ++ [(d.toNat, x.h.getD a.toNat .empty, s.cycle + fixedLatency e.x)] }))

def execMov (h : Head) (d a : Reg) (s : State) : Host.Outcome State Fault Refusal :=
  match d, a with
  | .h x, .h y => issue h { anchored := true } (handleMove x y) s
  | d, a => alu h d 1 [.reg a 1] (fun v => v.headD 0) s
def execMovi (h : Head) (d : Reg) (imm : Word) (s : State) : Host.Outcome State Fault Refusal :=
  alu h d 1 [.imm imm.toNat] (fun v => v.headD 0) s
def execPlop (h : Head) (table : BitVec 8) (d a b c : BitVec 3) (s : State) : Host.Outcome State Fault Refusal :=
  alu h (.p d) 1 [.reg (.p a) 1, .reg (.p b) 1, .reg (.p c) 1]
    (fun v => tableBit table (v.getD 0 0) (v.getD 1 0) (v.getD 2 0)) s

/-- The eight predicates as sources. -/
def predSources : List Operand := (List.range 8).map (fun i => .reg (.p (BitVec.ofNat 3 i)) 1)
/-- Bits as a number, the first the lowest. -/
def bitsNat : List Nat → Nat
  | [] => 0
  | b :: r => b + 2 * bitsNat r

def execP2r (h : Head) (d a : Reg) (s : State) : Host.Outcome State Fault Refusal :=
  alu h d 1 (.reg a 1 :: predSources) (fun v => bitsNat v.tail &&& v.headD 0) s
/-- R2P (R151): p(i) := bit i of a for each i of the mask, `p7` excepted. -/
def execRegisterToPredicate (h : Head) (a : Reg) (b : Src) (s : State) : Host.Outcome State Fault Refusal :=
  issue h { anchored := namesQueue [] [.reg a 1, .src b] } (pureBody .fixed [.reg a 1, .src b] (fun v =>
    ((List.range 7).filter (fun i => (v.getD 1 0).testBit i)).map (fun i =>
      (.p (BitVec.ofNat 3 i), 1, ((v.getD 0 0).testBit i).toNat)))) s

/-- The value of a status register for a context (R65). DEDUCED, log 90, unsafe. -/
def statusVal (s : State) (c : CtxId) (n : BitVec 12) : Nat :=
  let x := s.ctx c
  let team := c.team?.bind s.team?
  match n.toNat with
  | 0x000 => (match c with
    | .slice t g _ | .group t g => isParted s t g
    | _ => false).toNat
  | 0x001 => x.rstk.length
  | 0x002 => x.calls.length
  | 0x003 => x.counts.copy + 2 ^ 8 * x.counts.gather + 2 ^ 16 * x.counts.matrix + 2 ^ 24 * x.counts.coll
  | 0x010 => (team.map (fun t => t.matstall.toNat)).getD 0
  | 0x011 => ((team.bind (fun t => s.context? t.ctx)).map (fun k => k.used)).getD 0
  | _ => 0

/-- `RDSR` (R65). PARTED at G scope is the value that program order gives it, so the sequencer waits for its lower units (R106), as it does
with a push to a queue (R107). -/
def execRdsr (h : Head) (d : Reg) (n : BitVec 12) (s : State) : Host.Outcome State Fault Refusal :=
  issue h { anchored := n = 0 || Reg.isQueue d, varying := true } (fun e s => store e s .varies (e.parts.map (fun p => (p, [(d, 1, statusVal s p.1 n)])))) s
/-- `WRSR` (R152): MATSTALL of the team. -/
def execWrsr (h : Head) (_n : BitVec 12) (a : Reg) (s : State) : Host.Outcome State Fault Refusal :=
  issue h { anchored := true } (fun e s => match columns e s [.reg a 1] with
    | .error b => b.res s
    | .ok (vals, t) => .next (t.modTeam e.team (fun x => { x with matstall := BitVec.ofNat 32 ((vals.headD []).headD 0) }))) s

end Sys2Proof.Machine
end

