-- ==== Sys2Proof/Machine/Pages.lean ====
section
/-! DEFINITION. What the host reaches (R245, R346 to R349, R371), and the control pages of every function (R380 to R393). -/

namespace Sys2Proof.Machine

/-! The control pages -/

/-- A register word of its fields. -/
def regWord (l : List (Nat × Nat)) : Word := BitVec.ofNat 32 ((l.map (fun e => e.2 * 2 ^ e.1)).sum)

/-- The counter that LCSEL names (R393). -/
def counterOf (s : State) : Nat := (get? s.pages.lcsel s.counters).getD 0
/-- The governor ceiling in W (R390, R391). DESIGN CHOICE, log 112, unsafe. -/
def ceiling (s : State) : Nat :=
  let n := if s.pages.cfgSlot = 0 then 0 else configNat s 0xD00 2
  if n = 0 ∨ 4200 < n then 4200 else n

/-- The DRAM registers of a die. -/
def readDram (s : State) (d : Die) (expert : Bool) (off : Nat) : Word :=
  let r := d.dram
  if !expert then match off with
    | 0x000 => regWord [(2, r.step), (0, r.go.toNat)]
    | 0x004 => regWord [(8, r.code), (4, r.done.toNat), (0, r.err.toNat)]
    | 0x008 => r.fail.extractLsb' 0 32
    | 0x00C => r.fail.extractLsb' 32 32
    | 0x010 => BitVec.ofNat 32 r.spare
    | 0x014 => BitVec.ofNat 32 r.refi
    | _ => 0
  else if off = 0 then BitVec.ofNat 32 r.sel
  else if 0x040 ≤ off ∧ off < 0x0C0 then
    let k := (off - 0x040) / 4
    BitVec.ofNat 32 (leNat ((List.range 4).map (fun i => BitVec.ofNat 8 (if r.mapped then spareLane s d.num r.sel (k / 2) (4 * (k % 2) + i) else 0xFF))))
  else if 0x100 ≤ off ∧ off < 0x140 then getDelay r.sel ((off - 0x100) / 4) r.dly
  else 0
/-- The photonics registers of a die. -/
def readPhot (d : Die) (expert : Bool) (off : Nat) : Word :=
  let r := d.phot
  if !expert then
    if 0x100 ≤ off ∧ off < 0x200 then connWord (connOf r ((off - 0x100) / 4))
    else match off with
      | 0x000 => regWord [(2, r.step), (0, r.go.toNat)]
      | 0x004 => regWord [(16, lockedRings r), (8, r.code), (4, r.done.toNat), (0, r.err.toNat)]
      | 0x008 => BitVec.ofNat 32 r.drift
      | _ => 0
  else if off < 0x200 then regWord [(16, (ringOf r (off / 4)).1.toNat), (0, (ringOf r (off / 4)).2)]
  else 0

/-- A register read by its function, page and offset, with what the read does (R380, RC and latching registers). -/
def readPage (s : State) (f : Nat) (expert : Bool) (off : Nat) : Word × State :=
  let p := s.pages
  let plain (w : Word) : Word × State := (w, s)
  if 1 ≤ f ∧ f ≤ 4 then plain (((s.die? (f - 1)).map (fun d => readDram s d expert off)).getD 0)
  else if 5 ≤ f ∧ f ≤ 8 then plain (((s.die? (f - 5)).map (fun d => readPhot d expert off)).getD 0)
  else match f, expert, off with
    | 0, false, 0x000 => plain (regWord [(28, p.failstep), (24, p.dieok.toNat), (20, p.dramok.toNat), (16, p.phok.toNat),
        (1, p.linkup.toNat), (0, p.osclk.toNat)])
    | 0, false, 0x004 | 0, false, 0x008 | 0, false, 0x00C | 0, false, 0x010 =>
      plain (((s.die? ((off - 4) / 4)).map (fun d => d.temp.setWidth 32)).getD 0)
    | 0, false, 0x014 => plain (BitVec.ofNat 32 p.unlkfail)
    | 0, true, 0x004 => plain (p.dierst.setWidth 32)
    | 9, false, 0x000 => plain (regWord [(1, p.narrow.toNat), (0, p.train.toNat)])
    | 9, false, 0x004 => plain (regWord [(24, linkPhase s), (16, p.width), (8, p.recoveryProfile.toNat), (0, p.linkup.toNat)])
    | 9, false, 0x008 => plain p.fllmap
    | 9, false, 0x00C => plain (ofBool p.flrev)
    | 9, false, 0x010 => (p.flerrs, { s with pages := { p with flerrs := 0 } })
    | 9, true, off => plain (if off < 0x80 then
        ((p.fleq[off / 4]?).map (fun e => regWord [(8, e.1.toNat), (0, e.2.toNat)])).getD 0 else 0)
    | 10, false, 0x000 => plain (BitVec.ofNat 32 p.govlim)
    | 10, false, 0x004 => plain (ofBool p.fixed)
    | 10, false, 0x008 => plain (BitVec.ofNat 32 p.govfix)
    | 10, false, 0x00C => plain (BitVec.ofNat 32 p.govrate)
    | 10, false, 0x010 => plain (BitVec.ofNat 32 p.govpwr)
    | 10, false, 0x014 => plain p.govstr
    | 11, false, 0x000 => plain (regWord [(16, p.dropped), (8, p.src), (0, p.held.toNat)])
    | 11, false, 0x004 => plain (regWord [(1, p.dbgen.toNat), (0, p.faulten.toNat)])
    | 11, false, 0x008 => plain p.sntag
    | 11, false, 0x00C => plain (BitVec.ofNat 32 p.snctx)
    | 11, false, 0x010 => plain p.snpc
    | 11, false, 0x014 => plain (BitVec.ofNat 32 p.snref)
    | 11, false, 0x018 => plain (BitVec.ofNat 32 (p.snref / 2 ^ 32))
    | 12, false, 0x000 => plain (BitVec.ofNat 32 p.lcsel)
    | 12, false, 0x004 =>
      let s := noteCorrected s p.lcsel
      (BitVec.ofNat 32 (counterOf s), { s with pages := { p with lcdatah := BitVec.ofNat 32 (counterOf s / 2 ^ 32) } })
    | 12, false, 0x008 => plain p.lcdatah
    | 12, false, 0x00C => plain (BitVec.ofNat 32 ((s.tick - p.savedAt) / 1000000))
    | 13, false, 0x000 => plain (BitVec.ofNat 32 p.smsel)
    | 13, false, 0x004 | 13, false, 0x008 | 13, false, 0x00C | 13, false, 0x010 =>
      plain (if 20479 < p.smsel ∨ p.cfgSlot = 0 then 0 else BitVec.ofNat 32 (configNat s (0x9000 + 16 * p.smsel + (off - 4)) 4))
    | _, _, _ => plain 0

/-- EXUNLK written (R381). -/
def writeExunlk (s : State) (f : Nat) (v : DWord) : State :=
  let others := s.pages.unlocked.filter (fun g => g ≠ f)
  if v = unlockOf s.bootCount then { s with pages := { s.pages with unlocked := others ++ [f] } }
  else { s with pages := { s.pages with unlocked := others, unlkfail := min 0xFFFF (s.pages.unlkfail + 1) } }

/-- The low word of a function's EXUNLK, and its high word with which it is written (R381, R382). -/
def exunlkLow (s : State) (f : Nat) : Word := (get? f s.pages.exlow).getD 0
/-- DESIGN CHOICE, log 125, safe. -/
def writeExunlkWord (s : State) (f : Nat) (high : Bool) (v : Word) : State :=
  if high then writeExunlk s f (v ++ exunlkLow s f) else { s with pages := { s.pages with exlow := put f v s.pages.exlow } }
/-- Whether a word of a function's page is a register (R122, R380 to R393). -/
def listed (f : Nat) (expert : Bool) (off : Nat) : Bool :=
  (!expert && (off == 0xFF8 || off == 0xFFC)) || (match f with
    | 0 => if expert then off ≤ 0x004 else off ≤ 0x014
    | 1 | 2 | 3 | 4 => if expert then off == 0 || (0x040 ≤ off && off < 0x0C0) || (0x100 ≤ off && off < 0x140) else off ≤ 0x014
    | 5 | 6 | 7 | 8 => if expert then off < 0x200 else off ≤ 0x008 || (0x100 ≤ off && off < 0x200)
    | 9 => if expert then off < 0x080 else off ≤ 0x010
    | 10 => !expert && off ≤ 0x014
    | 11 => !expert && off ≤ 0x01C
    | 12 => !expert && off ≤ 0x00C
    | _ => !expert && off ≤ 0x010)
/-- Whether a register is read-only as a whole (R122). -/
def readOnly (f : Nat) (expert : Bool) (off : Nat) : Bool :=
  if f = 0 then !expert && off ≤ 0x014
  else if f ≤ 4 then (!expert && 4 ≤ off && off ≤ 0x014) || (expert && 0x040 ≤ off && off < 0x0C0)
  else if f ≤ 8 then !expert && (off == 4 || off == 8)
  else match f with
    | 9 => (!expert && (off == 4 || off == 8 || off == 0xC)) || (expert && off < 0x80)
    | 10 => !expert && 0xC ≤ off && off ≤ 0x14
    | 11 => !expert && 8 ≤ off && off ≤ 0x18
    | 12 => !expert && 4 ≤ off && off ≤ 0xC
    | _ => !expert && 4 ≤ off && off ≤ 0x10

/-- DIERST written: each bit that changes (R384). -/
def writeDierst (s : State) (v : Word) : State :=
  (List.range Config.dies).foldl (fun s k => if v.getLsbD k then dieDown s k else dieUp s k) s
/-- `RSTCMD` (R384). -/
def writeRstcmd (s : State) (v : Word) : State := if v = 0xA5A5 then resetPackage s else s
/-- `HELD` (R392). -/
def writeHeld (s : State) (v : Word) : State := if v.getLsbD 0 then { s with pages := { s.pages with held := false } } else s
/-- `DBGTRIG` (R392): tag, context and PC of a debug trigger are not given. -/
def writeDbgtrig (s : State) (v : Word) : State :=
  if v.getLsbD 0 && s.pages.dbgen then
    fireTrigger { s with nonce := s.nonce + 3 } 2 (Config.freeWord s.nonce) ((Config.freeWord (s.nonce + 1)).toNat % 64)
      (Config.freeWord (s.nonce + 2))
  else s
/-- A control word of a bring-up unit: STEP, and GO. -/
def writeDram (s : State) (k : Nat) (v : Word) : State :=
  let step := v.toNat / 4 % 4
  if v.getLsbD 0 then goDram s k step
  else s.modDie k (fun d => if d.dram.go then d else { d with dram := { d.dram with step := step } })
def writePhot (s : State) (k : Nat) (v : Word) : State :=
  let step := v.toNat / 4 % 4
  if v.getLsbD 0 then goPhot s k step
  else s.modDie k (fun d => if d.phot.go then d else { d with phot := { d.phot with step := step } })
/-- A connection table entry written (R317). -/
def writeConn (s : State) (k n : Nat) (v : Word) : State := if v.getLsbD 31 then connSet s k n v else connClear s k n v

/-- A register written (R380). -/
def writePage (s : State) (f : Nat) (expert : Bool) (off : Nat) (v : Word) : State :=
  let p := s.pages
  if 1 ≤ f ∧ f ≤ 4 then
    let k := f - 1
    if !expert then (if off = 0 then writeDram s k v else s)
    else if off = 0 then s.modDie k (fun d => { d with dram := { d.dram with sel := v.toNat % 64 } })
    else if 0x100 ≤ off ∧ off < 0x140 ∧ off % 4 = 0 then
      s.modDie k (fun d => { d with dram := { d.dram with
        dly := setDelay d.dram.sel ((off - 0x100) / 4) (v &&& 0xFFFF) d.dram.dly } })
    else s
  else if 5 ≤ f ∧ f ≤ 8 then
    let k := f - 5
    if !expert then
      (if off = 0 then writePhot s k v
       else if 0x100 ≤ off ∧ off < 0x200 ∧ off % 4 = 0 then writeConn s k ((off - 0x100) / 4) v
       else s)
    else if off < 0x200 ∧ off % 4 = 0 then
      s.modDie k (fun d => if (ringOf d.phot (off / 4)).1 then d
        else { d with phot := setRing d.phot (off / 4) false (v.toNat % 4096) })
    else s
  else match f, expert, off with
    | 0, true, 0x000 => writeRstcmd s v
    | 0, true, 0x004 => writeDierst s v
    | 9, false, 0x000 =>
      let s := { s with pages := { p with narrow := v.getLsbD 1 } }
      if v.getLsbD 0 then trainLink s else s
    | 10, false, 0x000 => { s with pages := { p with govlim := max 1000 (min (ceiling s) (v.toNat % 65536)) } }
    | 10, false, 0x004 => { s with pages := { p with fixed := v.getLsbD 0 } }
    | 10, false, 0x008 => { s with pages := { p with govfix := v.toNat % 65536 } }
    | 11, false, 0x000 => writeHeld s v
    | 11, false, 0x004 => { s with pages := { p with dbgen := v.getLsbD 1, faulten := v.getLsbD 0 } }
    | 11, false, 0x01C => writeDbgtrig s v
    | 12, false, 0x000 => { s with pages := { p with lcsel := v.toNat % 65536 } }
    | 13, false, 0x000 => { s with pages := { p with smsel := v.toNat % 32768 } }
    | _, _, _ => s

/-- What the host writes beyond the pages that the recovery profile exposes is dropped there (R371). -/
def outsideRecovery (s : State) (f : State → State) : State := if inRecovery s then s else f s
def execRegisterWrite (f : Nat) (expert : Bool) (off : Nat) (v : Word) (s : State) : Host.Outcome State Fault Refusal :=
  .next (outsideRecovery s (fun s => writePage s f expert off v))
def execExunlk (f : Nat) (v : DWord) (s : State) : Host.Outcome State Fault Refusal :=
  .next (outsideRecovery s (fun s => if f ≤ 13 then writeExunlk s f v else s))
def execRstcmd (v : Word) (s : State) : Host.Outcome State Fault Refusal := .next (outsideRecovery s (fun s => writeRstcmd s v))
def execHeld (v : Word) (s : State) : Host.Outcome State Fault Refusal := .next (outsideRecovery s (fun s => writeHeld s v))
def execDbgtrig (v : Word) (s : State) : Host.Outcome State Fault Refusal := .next (outsideRecovery s (fun s => writeDbgtrig s v))
/-- A register that the host reads, its value to the host; zero in the recovery profile. -/
def hostReads (s : State) (f off : Nat) : State :=
  if inRecovery s then s.say (.hostRead (le4 0))
  else let (w, s) := readPage s f false off; s.say (.hostRead (le4 w.toNat))
/-- `FLERRS` and `LCDATAL`: the read. -/
def execFlerrs (s : State) : Host.Outcome State Fault Refusal := .next (hostReads s 9 0x010)
def execLcdatal (s : State) : Host.Outcome State Fault Refusal := .next (hostReads s 12 0x004)

/-! Doorbells (R348, R349) -/

/-- The doorbell page of a queue number that no command has given out yet: STATE 0 (R348). -/
def freePage (q : Nat) : HQueue where
  num := q
  ctx := 0
  home := 0
  prio := 0
  slots := 1
  ring := 0
  rdAddr := 0
  rd := 0
  notify := 0
  state := 0
  drops := 0
  stale := 0
  ready := []
  deps := none
  sampleAt := 0
  placed := 0
  served := 0
def withPage (s : State) (q : Nat) : State :=
  if q < 1024 ∧ s.queue? q = none then { s with queues := s.queues ++ [freePage q] } else s
/-- `NOTIFY`: the maximum kept, or a stale or narrow write counted, on a free page too. -/
def notifyWrite (s : State) (q bytes : Nat) (v : DWord) : State :=
  (withPage s q).modQueue q (fun x =>
    if bytes ≠ 8 then { x with drops := min 0xFFFF (x.drops + 1) }
    else if x.state = 1 ∧ x.notify < v.toNat then { x with notify := v.toNat }
    else { x with stale := min 0xFFFF (x.stale + 1) })
def execNotify (q bytes : Nat) (value : DWord) (s : State) : Host.Outcome State Fault Refusal :=
  .next (outsideRecovery s (fun s => notifyWrite s q bytes value))
/-- The first 24 bytes of a doorbell page. -/
def doorbell (q : HQueue) : List Byte :=
  leBytes 8 q.notify ++ leBytes 8 q.rd ++ leBytes 8 (q.stale + 2 ^ 16 * q.drops + 2 ^ 32 * q.state)

/-! Region 0 (R346, R362, R371) -/

/-- The boot status block. -/
def bootStatus (s : State) : Word :=
  regWord [(16, s.pages.reasonB), (8, s.pages.reasonA), (4, if s.pages.stage = 2 then s.pages.slot else 0), (0, s.pages.stage)]
/-- The mailbox page. -/
def mailboxPage (s : State) : List Byte :=
  let m := s.mailbox
  leBytes 8 (m.seq.toNat * 2 ^ 16 + m.code.toNat) ++ sized 120 (m.args.flatMap (fun a => leBytes 8 a.toNat))
    ++ leBytes 8 (m.stSeq.toNat * 2 ^ 16 + 2 * m.err + (m.busy || s.pldm.activating).toNat) ++ m.results.flatMap (fun a => leBytes 8 a.toNat)
/-- Some bytes of a list, zero beyond it. -/
def window (l : List Byte) (off n : Nat) : List Byte := (List.range n).map (fun i => l.getD (off + i) 0)

/-- A byte of the identity and status page: the boot status block, each context's producer index at a free place (R364), and the rest as it
is in this read. DESIGN CHOICE, log 101, unsafe. -/
def statusByte (s : State) (o : Nat) : Byte :=
  if 0x800 ≤ o ∧ o < 0x804 then (le4 (bootStatus s).toNat).getD (o - 0x800) 0
  else match s.contexts.find? (fun x => Config.indexPlace x.num % 4089 ≤ o && o < Config.indexPlace x.num % 4089 + 8) with
    | some x => (leBytes 8 x.frProd).getD (o - Config.indexPlace x.num % 4089) 0
    | none => (Config.freeCell s.nonce o).setWidth 8
/-- A byte of the snapshot window (R392): what a core has latched, or what another block has. -/
def snapshotByte (s : State) (o : Nat) : Byte :=
  let die := o / 0x40000
  let k := o % 0x40000
  if !s.pages.held then 0
  else if k < 0x28000 then Config.snapByte ((get? (Config.coresPerDie * die + k / 1024) s.pages.snap).getD []) (k % 1024)
  else (Config.freeCell s.pages.snapNo o).setWidth 8
/-- A read of n bytes of region 0. -/
def readRegion0 (s : State) (o n : Nat) : List Byte × State :=
  if o < 0x1000 then ((List.range n).map (fun i => if o + i < 0x1000 then statusByte s (o + i) else 0), { s with nonce := s.nonce + 1 })
  else if o < 0x2000 then (window (mailboxPage s) (o - 0x1000) n, s)
  else if 0x800000 ≤ o ∧ o < 0x900000 then
    ((List.range n).map (fun i => if o + i < 0x900000 then snapshotByte s (o - 0x800000 + i) else 0), s)
  else if inRecovery s then (List.replicate n 0, s)
  else if 0x100000 ≤ o ∧ o < 0x200000 then
    let f := (o - 0x100000) / 0x2000
    let expert := 0x1000 ≤ o % 0x2000
    if 13 < f ∨ n ≠ 4 ∨ o % 4 ≠ 0 ∨ (expert ∧ !s.pages.unlocked.contains f) then (List.replicate n 0, s)
    else
      let (w, s) := readPage s f expert (o % 0x1000)
      (le4 w.toNat, s)
  else if 0x400000 ≤ o ∧ o < 0x800000 then
    (match s.queue? ((o - 0x400000) / 4096) with
      | some q => window (doorbell q) (o % 4096) n
      | none => List.replicate n 0, s)
  else (List.replicate n 0, s)

/-- A write to region 0. -/
def writeRegion0 (s : State) (o : Nat) (bs : List Byte) : State :=
  let n := bs.length
  let v := leNat bs
  if 0x1000 ≤ o ∧ o < 0x2000 then
    let a := o - 0x1000
    if a = 0 ∧ n = 4 then writeCmd s (BitVec.ofNat 32 v)
    else if 8 ≤ a ∧ a < 0x078 ∧ a % n = 0 ∧ n = 8 then
      { s with mailbox := { s.mailbox with args := s.mailbox.args.set ((a - 8) / 8) (BitVec.ofNat 64 v) } }
    else s
  else if inRecovery s then s
  else if 0x100000 ≤ o ∧ o < 0x200000 then
    let f := (o - 0x100000) / 0x2000
    let expert := 0x1000 ≤ o % 0x2000
    let a := o % 0x1000
    if 13 < f then s
    else if !expert ∧ a = 0xFF8 ∧ n = 8 then writeExunlk s f (BitVec.ofNat 64 v)
    else if n ≠ 4 ∨ o % 4 ≠ 0 ∨ (expert ∧ !s.pages.unlocked.contains f) then s
    else writePage s f expert a (BitVec.ofNat 32 v)
  else if 0x400000 ≤ o ∧ o < 0x800000 then
    if o % 4096 < 8 then notifyWrite s ((o - 0x400000) / 4096) (if o % 4096 = 0 then n else 0) (BitVec.ofNat 64 v) else s
  else s

/-! Region 1 and link atomics (R245, R346, R347) -/

/-- The place in device memory of an aperture offset. -/
def aperture (s : State) (off n : Nat) : Option Nat :=
  if off + n ≤ 2 ^ 38 ∧ !inRecovery s then some (s.apbase + off) else none
/-- The link atomics (R347). -/
def linkOp (op : AtomOp) : Bool := op = .add || op = .exch || op = .cas
/-- The value after an atomic. -/
def atomAfter (op : AtomOp) (old v c : Nat) : Nat := if op = .cas then (if old = c then v else old) else apply op 64 old v
/-- What the host gets of n bytes of memory at a place; an abort where they cannot be corrected, which is reported (R298). -/
def hostGets (s : State) (p n : Nat) (f : List Byte → State) : State :=
  match badAt s [] ((List.range n).map (p + ·)) with
  | some a => (foundBad s a).say (.hostAbort a)
  | none => f (s.mem.bytes p n)
/-- A link atomic at a place; its old value to its sender. -/
def linkAt (s : State) (p : Nat) (op : AtomOp) (v c : DWord) : State :=
  hostGets s p 8 (fun old => (putBytes s (placed p (leBytes 8 (atomAfter op (leNat old) v.toNat c.toNat)))).say (.hostRead old))
/-- An atomic of the host at a place: what is no link atomic, or is not aligned, completes as unsupported. -/
def hostAtomic (s : State) (p : Option Nat) (a : Nat) (op : AtomOp) (v c : DWord) : State :=
  if !linkOp op || a % 8 ≠ 0 then s.say .hostUnsupported
  else match p with
    | some p => linkAt s p op v c
    | none => s.say (.hostRead (List.replicate 8 0))

/-- `HOST_APERTURE_ACCESS` (R245, R346). An offset of 2^40 or more is offset − 2^40 of region 0. -/
def execHostApertureAccess (off : Nat) (acc : HostAccess) (s : State) : Host.Outcome State Fault Refusal :=
  if 2 ^ 40 ≤ off then
    let o := off - 2 ^ 40
    match acc with
    | .read n =>
      let (bs, s) := readRegion0 s o n
      .next (s.say (.hostRead bs))
    | .write bs => .next (writeRegion0 s o bs)
    | .atomic .. => .next (s.say .hostUnsupported)
  else match acc with
    | .read n => .next (match aperture s off n with
      | some p => hostGets s p n (fun bs => s.say (.hostRead bs))
      | none => s.say (.hostRead (List.replicate n 0)))
    | .write bs => .next (match aperture s off bs.length with
      | some p => putBytes s (placed p bs)
      | none => s)
    | .atomic op v c => .next (hostAtomic s (aperture s off 8) off op v c)
/-- `LINK_ATOMIC` (R347): at host memory, with address bit 56 set, or through region 1. -/
def execLinkAtomic (addr : DWord) (op : AtomOp) (value compare : DWord) (s : State) : Host.Outcome State Fault Refusal :=
  let a := addr.toNat
  .next (hostAtomic s (if isHost a then some a else aperture s a 8) a op value compare)

/-- The device bytes that an event of the host reads or writes: they wait for writes still held (R243). DEDUCED, log 100, unsafe. -/
def hostTouches (s : State) : Instr → Option (Nat × Nat)
  | .hostApertureAccess off acc =>
    if 2 ^ 40 ≤ off then none
    else
      let n := match acc with
        | .read n => n
        | .write bs => bs.length
        | .atomic .. => 8
      (aperture s off n).map (fun p => (p, n))
  | .linkAtomic addr _ _ _ => if hostBase ≤ addr.toNat then some (addr.toNat, 8) else (aperture s addr.toNat 8).map (fun p => (p, 8))
  | _ => none
/-- Whether an event of the host has to wait: for held writes, or for a link that trains (R387). -/
def hostWaits (s : State) (i : Instr) : Bool :=
  (match hostTouches s i with
    | some (p, n) => mustWait s [] p n
    | none => false)
  || (s.pages.train && (match i with
    | .hostApertureAccess .. | .linkAtomic .. | .notify .. => true
    | _ => false))

end Sys2Proof.Machine
end

