-- ==== Sys2Proof/Machine/Special.lean ====
section
/-! DEFINITION. The special functions (R145 to R147). Where the manual gives a bound, the result is a free value held inside
an enclosure of the bound around the exact result; where it gives the result, the result is computed. -/

namespace Sys2Proof.Machine

/-- Fractional bits of the fixed-point numbers below. -/
def fx : Nat := 256
/-- 2π, ln 2 (each rounded down), and 1/(2π) with 480 fractional bits. -/
def twoPi : Nat := 0x6487ed5110b4611a62633145c06e0e68948127044533e63a0105df531d89cd912
def ln2 : Nat := 0xb17217f7d1cf79abc9e3b39803f2f6af * 2 ^ 128
def invTwoPi : Nat := 0x28be60db9391054a7f09d5f47d4d377036d8a5664f10e4107f9458eaf7aef1586dc91b8e909374b801924bba827464873f877ac72c4a69cfba208d7d

/-- Codes of f32 as integers in the order of their values, both zeros at 0. -/
def ordCode (c : Nat) : Int := if c < 2 ^ 31 then c else -((c : Int) - 2 ^ 31)
def codeOrd (i : Int) : Nat := if 0 ≤ i then i.toNat else 2 ^ 31 + (-i).toNat

/-- An enclosure of an exact positive result: the result is lo × 2^e where lo = hi, and lies strictly between the two otherwise. -/
structure Encl where
  lo : Nat
  hi : Nat
  e : Int
  deriving DecidableEq, Repr

/-- The free value n of operand a, held within k half-ulps of the exact result, or within 2^w if that is wider; `neg` gives
the sign; an ulp is that of the exact result (R145). An end that the exact result only comes near to is open: it is moved inwards by less
than any f32 code is apart from it. An exact result beyond the largest finite value overflows. -/
def within (n a : Nat) (neg : Bool) (k : Nat) (wide : Option Int) (r : Encl) : Nat :=
  let l := layout .f32
  let top := if r.lo < r.hi then stepExp l (2 * r.hi - 1) (r.e - 1) else stepExp l (max r.hi 1) r.e
  let half : Dy := ⟨k, top - 1⟩
  let tol : Dy := match wide with
    | some w => if half.lt ⟨1, w⟩ then ⟨1, w⟩ else half
    | none => half
  let nudge : Dy := if r.lo < r.hi then ⟨1, -1100⟩ else Dy.zero
  let lo := ((Dy.mk r.lo r.e).sub tol).add nudge
  let lo := if wide.isNone && lo.m < 0 then Dy.zero else lo
  let hi := ((Dy.mk r.hi r.e).add tol).sub nudge
  if !(Dy.mk r.lo r.e).lt ⟨1, 128⟩ then infCode .f32 neg
  else
    let a0 := ordCode (convert .f32 .ru false (lo.val false))
    let b0 := ordCode (convert .f32 .rd false (hi.val false))
    let x := ordCode (Config.special n (BitVec.ofNat 32 a)).toNat
    let x := if neg then -x else x
    let y := max a0 (min b0 x)
    if neg then (if y = 0 then 2 ^ 31 else codeOrd (-y)) else codeOrd y

/-- An exact value as f32. -/
def exact (m : Int) (e : Int) : Nat := convert .f32 .rne false ((Dy.mk m e).val false)

def nan32 : Nat := nanCode .f32
def inf32 (neg : Bool) : Nat := infCode .f32 neg
def zero32 (neg : Bool) : Nat := signCode .f32 neg 0
def one32 (neg : Bool) : Nat := signCode .f32 neg 0x3F800000

/-- The mantissa and exponent of a positive dyadic with an even exponent. -/
def evenExp (m : Nat) (e : Int) : Nat × Int := if e % 2 = 0 then (m, e) else (2 * m, e - 1)

def rcpVal (a : Nat) : Nat :=
  match value .f32 a with
  | .nan => nan32
  | .inf s => zero32 s
  | .fin s 0 _ => inf32 s
  | .fin s m e => let q := 2 ^ 128 / m; within 0 a s 2 none ⟨q, if q * m = 2 ^ 128 then q else q + 1, -e - 128⟩

def rsqVal (a : Nat) : Nat :=
  match value .f32 a with
  | .nan => nan32
  | .inf s => if s then nan32 else zero32 false
  | .fin s 0 _ => inf32 s
  | .fin true _ _ => nan32
  | .fin false m e =>
    let (m, e) := evenExp m e
    let q := isqrt 130 0 (2 ^ 256 / m)
    within 1 a false 2 none ⟨q, if q * q * m = 2 ^ 256 then q else q + 1, -(e / 2) - 128⟩

/-- √a under RND: the root of a × 2^120 with what is lost as one more bit (R145). -/
def sqrtVal (rnd : Rnd) (a : Nat) : Nat :=
  match value .f32 a with
  | .nan => nan32
  | .inf s => if s then nan32 else inf32 false
  | .fin s 0 _ => zero32 s
  | .fin true _ _ => nan32
  | .fin false m e =>
    let (m, e) := evenExp m e
    let n := m * 2 ^ 120
    let r := isqrt 75 0 n
    convert .f32 rnd false (.fin false (2 * r + (if r * r = n then 0 else 1)) (e / 2 - 61))

/-- Σ x^k / k! up to n terms, x < 1 with fx fractional bits, rounded down. -/
def expTaylor : Nat → Nat → Nat → Nat → Nat
  | 0, _, _, sum => sum
  | n + 1, k, x, sum =>
    let t := sum
    -- Horner: 1 + (x / k) × rest
    expTaylor n (k - 1) x (2 ^ fx + x * t / 2 ^ fx / k)
/-- An enclosure of e^x for 0 ≤ x < 1. -/
def expFix (x : Nat) : Nat := expTaylor 60 60 x (2 ^ fx)

/-- Slack of the fixed-point sums, in units of the last place. -/
def slack : Nat := 2 ^ 110

def ex2Val (a : Nat) : Nat :=
  match value .f32 a with
  | .nan => nan32
  | .inf s => if s then zero32 false else inf32 false
  | .fin s m e =>
    let d : Dy := ⟨if s then -(m : Int) else m, e⟩
    if m = 0 then one32 false
    else if 9 ≤ (log2 m : Int) + e then (if s then within 3 a false 4 none ⟨0, 1, -1000⟩ else inf32 false)
    else
      let x : Int := d.at_ (min d.e (-160))
      let sc := (-(min d.e (-160))).toNat
      let n := x / 2 ^ sc
      let f := (x % 2 ^ sc).toNat
      if f = 0 then exact 1 n
      else
        let t := f * ln2 / 2 ^ sc
        let y := expFix t
        within 3 a false 4 none ⟨max (y - slack) (2 ^ fx), min (y + slack) (2 ^ (fx + 1)), n - fx⟩

/-- log2 of a mantissa 1 ≤ y < 2 with fx fractional bits: n bits by repeated squaring, rounded down each time. -/
def log2Bits : Nat → Nat → Nat → Nat
  | 0, _, acc => acc
  | n + 1, y, acc =>
    let z := y * y / 2 ^ fx
    if 2 ^ (fx + 1) ≤ z then log2Bits n (z / 2) (2 * acc + 1) else log2Bits n z (2 * acc)

def lg2Val (a : Nat) : Nat :=
  match value .f32 a with
  | .nan => nan32
  | .inf s => if s then nan32 else inf32 false
  | .fin _ 0 _ => inf32 true
  | .fin true _ _ => nan32
  | .fin false m e =>
    let k := log2 m
    let n := (k : Int) + e
    if m = 2 ^ k then exact n 0
    else
      -- log2 a = n + g, 0 < g < 1, g with 80 fractional bits and a few units of slack
      let g := log2Bits 80 (m * 2 ^ (fx - k)) 0
      let x : Int := n * 2 ^ 80 + g
      let wide : Option Int := if n = -1 ∨ n = 0 then some (-22) else none
      if 0 ≤ x then within 4 a false 4 wide ⟨x.toNat, x.toNat + 8, -80⟩
      else within 4 a true 4 wide ⟨(-x).toNat - 8, (-x).toNat, -80⟩

/-- The fraction of R146 with 160 fractional bits: a − floor(a + 0.5). -/
def turnFrac (m : Int) (e : Int) : Int :=
  let x := (Dy.mk m e).at_ (min e (-160))
  let sc := (-(min e (-160))).toNat
  x - (2 * x + 2 ^ sc) / 2 ^ (sc + 1) * 2 ^ sc

/-- Σ (−1)^k x^(2k+s) / (2k+s)! by Horner, x ≤ π/2 with fx fractional bits; s is 1 for the sine, 0 for the cosine. -/
def trigTaylor : Nat → Nat → Nat → Int → Int
  | 0, _, _, acc => acc
  | n + 1, s, x2, acc =>
    let k := 2 * n + 1 + s
    trigTaylor n s x2 (2 ^ fx - (x2 : Int) * acc / (2 ^ fx * k * (k + 1)))
/-- The sine and the cosine of x. -/
def sinFix (x : Nat) : Int := trigTaylor 40 1 (x * x / 2 ^ fx) (2 ^ fx) * x / 2 ^ fx
def cosFix (x : Nat) : Int := trigTaylor 40 0 (x * x / 2 ^ fx) (2 ^ fx)

/-- |sin 2πf| or |cos 2πf| for 0 < f < 1/4, held within 1.5 ulp. -/
def trigWithin (n a : Nat) (neg cosine : Bool) (f sc : Nat) : Nat :=
  let x := f * twoPi / 2 ^ sc
  let y := (if cosine then cosFix x else sinFix x).toNat
  within n a neg 3 none ⟨y - 2 ^ 16, min (y + 2 ^ 16) (2 ^ fx), -fx⟩

/-- SIN of a finite value: f in [−1/2, 1/2), by quarter turns (R146). -/
def sinTurns (n a : Nat) (s : Bool) (m : Nat) (e : Int) : Nat :=
  let sc := (-(min e (-160))).toNat
  let f := turnFrac (if s then -(m : Int) else m) e
  let q := 2 ^ sc / 4
  let g := f.natAbs
  if g = 0 then zero32 s
  else if g = 2 * q then zero32 true
  else if g = q then one32 (decide (f < 0))
  else if g < q then trigWithin n a (decide (f < 0)) (2 ^ sc ≤ 8 * g) (if 8 * g < 2 ^ sc then g else q - g) sc
  else
    let r := 2 * q - g
    trigWithin n a (decide (f < 0)) (2 ^ sc ≤ 8 * r) (if 8 * r < 2 ^ sc then r else q - r) sc

/-- COS of a finite value (R146). -/
def cosTurns (n a : Nat) (s : Bool) (m : Nat) (e : Int) : Nat :=
  let sc := (-(min e (-160))).toNat
  let f := turnFrac (if s then -(m : Int) else m) e
  let q := 2 ^ sc / 4
  let g := f.natAbs
  if g = 0 then one32 false
  else if g = 2 * q then one32 true
  else if g = q then zero32 false
  else if g < q then trigWithin n a false (8 * g < 2 ^ sc) (if 8 * g < 2 ^ sc then g else q - g) sc
  else
    let r := 2 * q - g
    trigWithin n a true (8 * r < 2 ^ sc) (if 8 * r < 2 ^ sc then r else q - r) sc

def sinVal (a : Nat) : Nat :=
  match value .f32 a with
  | .fin s m e => sinTurns 5 a s m e
  | _ => nan32
def cosVal (a : Nat) : Nat :=
  match value .f32 a with
  | .fin s m e => cosTurns 6 a s m e
  | _ => nan32

/-- tanh |a| from e^(−2|a|), within 2 ulp or 2^−23 (R145). -/
def tanhVal (a : Nat) : Nat :=
  match value .f32 a with
  | .nan => nan32
  | .inf s => one32 s
  | .fin s 0 _ => zero32 s
  | .fin s m e =>
    if 5 ≤ (log2 m : Int) + e then within 8 a s 4 (some (-23)) ⟨2 ^ 60 - 1, 2 ^ 60, -60⟩
    else
      -- x = |a| in units of 2^−160; e^(−2x) = (e^(−1/64))^(128 x) is formed from 2x = k + f, with e^(−k) by products
      let x2 := ((Dy.mk (2 * m) e).at_ (min e (-160))).toNat * 2 ^ fx / 2 ^ (-(min e (-160))).toNat
      let k := x2 / 2 ^ fx
      let f := x2 % 2 ^ fx
      let e1 := 2 ^ (2 * fx) / expFix (2 ^ fx - 1)
      let y := (List.range k).foldl (fun y _ => y * e1 / 2 ^ fx) (2 ^ (2 * fx) / expFix f)
      let t := (2 ^ fx - y) * 2 ^ fx / (2 ^ fx + y)
      within 8 a s 4 (some (-23)) ⟨t - slack, t + slack, -fx⟩

/-- `RRED` (R147): turns and quadrant. -/
def rredVal (a : Nat) : Nat :=
  match value .f32 a with
  | .fin s m e =>
    let sc := (480 - (min e 0)).toNat
    let u : Int := (m * invTwoPi * 2 ^ (max e 0).toNat : Nat)
    let u := if s then -u else u
    let x := u - (2 * u + 2 ^ sc) / 2 ^ (sc + 1) * 2 ^ sc
    let c := convert .f32 .rne false ((Dy.mk x (-(sc : Int))).val s)
    let c := if c = 0x3F000000 then 0xBF000000 else c
    let q := ((8 * x + 2 ^ sc) / 2 ^ (sc + 1)) % 4
    c + 2 ^ 32 * q.toNat
  | _ => nan32

def execRcp (h : Head) (d a : Reg) (s : State) : Host.Outcome State Fault Refusal := special h d 1 a rcpVal s
def execRsq (h : Head) (d a : Reg) (s : State) : Host.Outcome State Fault Refusal := special h d 1 a rsqVal s
def execSqrt (h : Head) (rnd : Rnd) (d a : Reg) (s : State) : Host.Outcome State Fault Refusal := special h d 1 a (sqrtVal rnd) s
def execEx2 (h : Head) (d a : Reg) (s : State) : Host.Outcome State Fault Refusal := special h d 1 a ex2Val s
def execLg2 (h : Head) (d a : Reg) (s : State) : Host.Outcome State Fault Refusal := special h d 1 a lg2Val s
def execSin (h : Head) (d a : Reg) (s : State) : Host.Outcome State Fault Refusal := special h d 1 a sinVal s
def execCos (h : Head) (d a : Reg) (s : State) : Host.Outcome State Fault Refusal := special h d 1 a cosVal s
def execSincos (h : Head) (d a : Reg) (s : State) : Host.Outcome State Fault Refusal :=
  special h d 2 a (fun a => sinVal a + 2 ^ 32 * cosVal a) s
def execTanh (h : Head) (d a : Reg) (s : State) : Host.Outcome State Fault Refusal := special h d 1 a tanhVal s
def execRred (h : Head) (d a : Reg) (s : State) : Host.Outcome State Fault Refusal := special h d 2 a rredVal s

end Sys2Proof.Machine
end

