-- ==== Sys2Proof/Machine/System.lean ====
section
/-! DEFINITION. System instructions (R119 to R122), the registers of the compositor (R373 to R375), the services of R365. -/

namespace Sys2Proof.Machine

/-! SNAP (R119) -/

/-- The launch that a unit runs. -/
def launchOf (s : State) : CtxId → Option Launch
  | .grid n _ => s.launch? n
  | c => c.team?.bind (fun t => s.launch? t.launch)
/-- `SNAP`: the trigger with the tag, `%ctx` and the PC, where the launch permits it. -/
def execSnap (h : Head) (a : Reg) (s : State) : Host.Outcome State Fault Refusal :=
  issue h { anchored := true } (fun e s => match columns e s [.reg a 1] with
    | .error b => b.res s
    | .ok (vals, t) => .next (match launchOf t e.c with
      | some l => if l.snap then fireTrigger t 1 (BitVec.ofNat 32 ((vals.headD []).headD 0)) l.ctx (s.ctx e.c).pc else t
      | none => t)) s

/-! SYSCALL (R120, R365) -/

/-- `SYSCALL`: t0 to t3 are passed as they read at its issue (R48), and the team context blocks until the compositor answers. -/
def syscallBody (n : Word) (e : Env) (s : State) : Res :=
  match (s.ctx e.c).wait with
  | some (.service k a) => .stall s (.service k a)
  | _ =>
    if meetsPending s [(e.c, .sc 0, 0), (e.c, .sc 1, 0)] then .stall s .result
    else holdWith (s.later (.syscallAnswer e.team (roleOf s e.c))) e (.service n ((List.range 4).map (fun i => (s.ctx e.c).cell (.sc i))))
def execSyscall (h : Head) (n : Word) (s : State) : Host.Outcome State Fault Refusal := issue h { anchored := true } (syscallBody n) s

/-- The service number a wait stands for, and the words passed. -/
def Wait.service? : Wait → Option (Word × List Word)
  | .service n a => some (n, a)
  | _ => none
/-- Service 0x02: t0 to t3 posted to the fault ring as cause TRAP; 1 when the ring is full. DESIGN CHOICE, log 96, unsafe. -/
def postService (s : State) (t : TeamId) (args : List Word) : Word × State :=
  match (s.team? t).bind (fun x => s.context? x.ctx) with
  | none => (1, s)
  | some x =>
    if x.frProd - x.frFree < 2 ^ x.frLog && x.frHeld.isEmpty then
      (0, writeRing s x.num (ringEntry s x.num (some t) Cause.trap.code [] (words4 4 args)))
    else (1, s)
/-- The answer of the reference compositor: the values of t0 and t1. -/
def service (s : State) (t : TeamId) (args : List Word) (n : Word) : Word × Option Word × State :=
  if n = 0 then (0, none, s)
  else if n = 1 then (BitVec.ofNat 32 s.tick, some (BitVec.ofNat 32 (s.tick / 2 ^ 32)), s)
  else if n = 2 then
    let (w, s) := postService s t args
    (w, none, s)
  else (0xFFFFFFFF, none, s)
/-- `SYSCALL_ANSWER`: t0 and t1 written, and the team context goes on. While it is in a handler, or off its core, or the compositor
firmware changes over, the answer waits. -/
def execSyscallAnswer (t : TeamId) (role : Nat) (s : State) : Host.Outcome State Fault Refusal :=
  let c := CtxId.team t role
  let x := s.ctx c
  match x.wait.bind Wait.service?, x.saved.bind (fun k => k.wait.bind Wait.service?) with
  | some (n, args), _ =>
    if x.stop.isNone ∧ onCore s t ∧ !s.pldm.activating then
      let (a, b, s) := service s t args n
      .next (s.modCtx c (fun x =>
        let y := x.setNow ((Loc.sc 0, a) :: (b.map (fun w => (Loc.sc 1, w))).toList)
        { y with
          pc := y.pc + 1
          wait := none
          joined := false
          next := s.cycle + 1
          last := s.cycle + 1
          vars := y.vars.map (fun r => { r with left := r.left - 1 }) }))
    else .next (s.later (.syscallAnswer t role))
  | none, some _ => .next (s.later (.syscallAnswer t role))
  | none, none => .next s

/-! TLBI (R121) -/

/-- The die of compositor code; one past the last die for recovery code, which reaches the control pages alone (R382). -/
def firmwareDie : CtxId → Option Nat
  | .firmware k => some k
  | _ => none
/-- The dies out of reset. -/
def diesUp (s : State) : List Nat := (List.range Config.dies).filter (fun k => !s.pages.dierst.getLsbD k)
/-- `TLBI`: it completes when every die has acknowledged. DEDUCED, log 47, unsafe. -/
def tlbiBody (a b : Reg) (e : Env) (s : State) : Res :=
  match firmwareDie e.c, (s.ctx e.c).wait with
  | none, _ => .trap s { cause := .illop }
  | some _, some (.tlbi id) => if s.tlbis.any (fun t => t.1 == id) then .stall s (.tlbi id) else .next s
  | some k, _ => match columns e s [.reg a 2, .reg b 1] with
    | .error q => q.res s
    | .ok (vals, t) =>
      let v := vals.headD []
      let t := invalidate t (v.getD 1 0) (v.getD 0 0)
      let ds := diesUp t
      if ds.isEmpty then .next t
      else
        let id := t.opNum
        let t := ds.foldl (fun s d => s.later (.tlbiAck d)) { t with opNum := id + 1, tlbis := t.tlbis ++ [(id, k, ds)] }
        holdWith t e (.tlbi id)
def execTlbi (h : Head) (a b : Reg) (s : State) : Host.Outcome State Fault Refusal := issue h { anchored := true } (tlbiBody a b) s

/-! The access port (R374) -/

def acc (s : State) (die : Nat) : AccRegs := ((s.die? die).map (fun d => d.acc)).getD .reset
def modAcc (s : State) (die : Nat) (f : AccRegs → AccRegs) : State := s.modDie die (fun d => { d with acc := f d.acc })

/-- The fields of ACCCMD. -/
structure PortCmd where
  op : Nat
  wide : Bool
  acquire : Bool
  release : Bool
  guarded : Bool
  len : Nat
  zero : Bool
  deriving DecidableEq, Repr
def PortCmd.of (c : Word) : PortCmd :=
  let n := c.toNat
  ⟨n % 8, bit n 3, bit n 4, bit n 5, bit n 6, n / 2 ^ 16 % 4096, n / 2 ^ 7 % 512 = 0 && n / 2 ^ 28 = 0⟩
/-- Whether a command is invalid: cause 0x01. -/
def PortCmd.invalid (c : PortCmd) (r : AccRegs) : Bool :=
  6 ≤ c.op || !c.zero || (c.op ≠ 5 && c.len ≠ 0) || 2048 < c.len || (c.op = 5 && c.wide) || (c.acquire && (c.op = 1 || c.op = 5))
    || (c.release && (c.op = 0 || c.op = 5)) || (c.op = 5 && r.dst.toNat / 2 ^ 57 ≠ 0)
def PortCmd.bytes (c : PortCmd) : Nat := if c.wide then 8 else 4
def PortCmd.atomic (c : PortCmd) : Bool := c.op = 2 || c.op = 3 || c.op = 4

/-- Why an access fails before its translation. DEDUCED, log 99, unsafe. -/
def portCheck (s : State) (r : AccRegs) (c : PortCmd) : Option Nat :=
  let a := r.addr.toNat
  if c.invalid r then some 0x01
  else if c.guarded && !((s.queue? r.qsel).map (fun q => q.state == 1)).getD false then some 0x00
  else if (if c.op = 5 then a % 8 ≠ 0 || r.dst.toNat % 8 ≠ 0 else a % c.bytes ≠ 0) then some 0x08
  else if c.atomic && hostBase ≤ a && !c.wide then some 0x09
  else none

/-- The bytes that an access reads and writes. -/
def portPlaces (s : State) (r : AccRegs) (c : PortCmd) : Except Cause (List Nat × List Nat) :=
  let a := r.addr.toNat
  match c.op with
  | 0 => (vaPlaces s r.ctx a c.bytes .read).map (fun l => (l, []))
  | 1 => (vaPlaces s r.ctx a c.bytes .write).map (fun l => ([], l))
  | 5 => match vaPlaces s r.ctx a c.len .read with
    | .error e => .error e
    | .ok l => (vaPlaces s r.ctx r.dst.toNat c.len .write).map (fun m => (l, m))
  | _ => (vaPlaces s r.ctx a c.bytes .write).map (fun l => (l, l))

/-- Bytes copied one after the other, each read when its turn comes. -/
def copyUp (m : Memory) : List (Nat × Nat) → Memory
  | [] => m
  | (a, b) :: r => copyUp (m.write b (m.read a)) r
/-- A failed access. -/
def portFail (s : State) (die : Nat) (c : PortCmd) (cause : Nat) : State :=
  modAcc s die (fun r => { r with timedOut := false, err := true, cause := cause, dat := if c.op = 0 || c.atomic then 0 else r.dat })
/-- The data registers with a value read: the low word alone for 32 bits. -/
def takeData (old : DWord) (wide : Bool) (v : Nat) : DWord :=
  if wide then BitVec.ofNat 64 v else old.extractLsb' 32 32 ++ BitVec.ofNat 32 v
/-- An access performed. -/
def portDo (s : State) (die : Nat) (c : PortCmd) (src dst : List Nat) : State :=
  let r := acc s die
  let w := 8 * c.bytes
  let old := leNat (src.map s.mem.read)
  let v := r.dat.toNat % 2 ^ w
  let put (s : State) (n : Nat) : State := putBytes s (dst.zip (leBytes c.bytes n))
  let s := match c.op with
    | 0 => s
    | 1 => put s v
    | 2 => put s (apply .add w old v)
    | 3 => put s v
    | 4 => if old = r.dst.toNat % 2 ^ w then put s v else s
    | _ => putBytes s (dst.map (fun b => (b, (copyUp s.mem (src.zip dst)).read b)))
  modAcc s die (fun r => { r with timedOut := false, err := false, cause := 0, dat := if c.op = 0 || c.atomic then takeData r.dat c.wide old else r.dat })
/-- One access of the port; `none` while bytes it touches are held in a galley (R243). A timeout, or data that cannot be corrected, is an abort
(R298, R337). -/
def portAccess (s : State) (die : Nat) (w : Word) : Option State :=
  let r := acc s die
  let c := PortCmd.of w
  match portCheck s r c with
  | some k => some (portFail s die c k)
  | none => match portPlaces s r c with
    | .error e => some (portFail s die c e.code)
    | .ok (src, dst) =>
      if r.timedOut then some (portFail s die c Cause.abort.code)
      else if (src ++ dst).any (fun a => mustWait s [] a 1) then none
      else match badAt s [] src with
        | some a => some (portFail (foundBad s a) die c Cause.abort.code)
        | none => some (portDo s die c src dst)
/-- `REQUEST_TIMEOUT` (R337): an abort completion, for a team or for the compositors whose accesses wait at the place; suspended while the die is
halted for debug (R338), and for host memory while the link trains (R387). -/
def execRequestTimeout (t : TeamId) (pa : Nat) (s : State) : Host.Outcome State Fault Refusal :=
  .next (if haltedDie s (((s.team? t).map (fun x => x.die)).getD 0) || (s.pages.train && isHost pa) then
      s.at_ (s.cycle + 1) (.requestTimeout t pa)
    else if t = compTeam then
      { s with dies := s.dies.map (fun d =>
          if (s.ctx (.firmware d.num)).wait = some .access then { d with acc := { d.acc with timedOut := true } } else d) }
    else abortUnit s t pa)
/-- An access as a step of its own, of one operation. -/
def portStep (s : State) (die : Nat) (w : Word) (ok : PortCmd → Bool) : Host.Outcome State Fault Refusal :=
  if !ok (PortCmd.of w) then .next s
  else match portAccess s die w with
    | some s => .next s
    | none => .next s
def portOp (s : State) (die n : Nat) (c : PortCmd) : Bool := c.op == n && !c.invalid (acc s die)

def execAccessRead (die : Nat) (c : Word) (s : State) : Host.Outcome State Fault Refusal := portStep s die c (portOp s die 0)
def execAccessWrite (die : Nat) (c : Word) (s : State) : Host.Outcome State Fault Refusal := portStep s die c (portOp s die 1)
def execAccessAdd (die : Nat) (c : Word) (s : State) : Host.Outcome State Fault Refusal := portStep s die c (portOp s die 2)
def execAccessExch (die : Nat) (c : Word) (s : State) : Host.Outcome State Fault Refusal := portStep s die c (portOp s die 3)
def execAccessCas (die : Nat) (c : Word) (s : State) : Host.Outcome State Fault Refusal := portStep s die c (portOp s die 4)
def execAccessCopy (die : Nat) (c : Word) (s : State) : Host.Outcome State Fault Refusal := portStep s die c (portOp s die 5)
def execAccessInvalid (die : Nat) (c : Word) (s : State) : Host.Outcome State Fault Refusal :=
  portStep s die c (fun c => c.invalid (acc s die))

/-! Queue registers, DISPATCH and DONE (R373, R375) -/

/-- NOTIFY of the selected queue; a queue that is not active, or homed elsewhere, reads as its RDIDX. -/
def notifyOf (s : State) (die : Nat) : Nat :=
  match s.queue? (acc s die).qsel with
  | some q => if q.state = 1 ∧ q.home = die then q.notify else q.rd
  | none => 0
/-- A read of QNOTL: its value, the high word latched. -/
def readQnotl (s : State) (die : Nat) : Word × State :=
  let n := notifyOf s die
  (BitVec.ofNat 32 n, modAcc s die (fun r => { r with qnoth := BitVec.ofNat 32 (n / 2 ^ 32) }))
def execQnotl (die : Nat) (s : State) : Host.Outcome State Fault Refusal := .next (readQnotl s die).2
/-- A write of QRDL: RDIDX of the doorbell page, a free one too. -/
def writeQrdl (s : State) (die : Nat) (v : Word) : State :=
  let r := acc s die
  (withPage s r.qsel).modQueue r.qsel (fun q => { q with rd := r.qrdh.toNat * 2 ^ 32 + v.toNat })
def execQrdl (die : Nat) (v : Word) (s : State) : Host.Outcome State Fault Refusal := .next (writeQrdl s die v)

/-- Bytes that a compositor reads of a context's address space, none where the read fails. -/
def readOr (s : State) (ctx va n : Nat) : List Byte :=
  match vaRead s ctx va n with
  | .ok l => l
  | .error _ => []
/-- What DISPATCH reads of a record: the record, and for a launch its descriptor and its role table. -/
def recordParts (s : State) (ctx a : Nat) : List (Nat × Nat) :=
  let pkt := sized 64 (readOr s ctx a 64)
  if field pkt 0 4 / 2 % 8 = 0 then
    [(a, 320), (field pkt 0x10 8, 256), (field (sized 256 (readOr s ctx (field pkt 0x10 8) 256)) 8 8, 192)]
  else [(a, 64)]
/-- The packet of a record that firmware keeps; its arguments are zero beyond their size (R357). -/
def recordPacket (s : State) (q : HQueue) (base k : Nat) : Packet :=
  let a := base + 512 * k
  let rd (va n : Nat) : List Byte := sized n (readOr s q.ctx va n)
  let pkt := rd a 64
  let desc := rd (field pkt 0x10 8) 256
  let whole := if field pkt 0 4 / 2 % 8 = 0 then pkt ++ sized 256 (rd (a + 0x40) (field pkt 0x20 4)) ++ desc ++ rd (field desc 8 8) 192 else pkt
  ⟨a, some k, whole, (q.rd + (2 ^ 32 - 1)) % 2 ^ 32⟩
/-- Whether DISPATCH has to wait for a write to what it reads (R243). -/
def dispatchHeld (s : State) (die : Nat) (v : Word) : Bool :=
  v.toNat / 256 == 0 && (match s.queue? (acc s die).qsel with
    | some q => q.state == 1 && q.home == die
        && (recordParts s q.ctx ((acc s die).rec_.toNat + 512 * v.toNat)).any (fun p => vaHeld s q.ctx p.1 p.2)
    | none => false)
/-- A write of DISPATCH. -/
def dispatchRecord (s : State) (die : Nat) (v : Word) : State :=
  if v.toNat / 256 ≠ 0 then modAcc s die (fun r => { r with err := true, cause := 1 })
  else
    let k := v.toNat
    let post (s : State) (code : Nat) : State :=
      modAcc s die (fun r => { r with dones := r.dones ++ [BitVec.ofNat 32 (k + 256 * code)] })
    match s.queue? (acc s die).qsel with
    | none => post s 1
    | some q =>
      if q.state ≠ 1 ∨ q.home ≠ die then post s 1
      else
        let p := recordPacket s q (acc s die).rec_.toNat k
        let s := (recordParts s q.ctx p.rec_).foldl (fun s r => vaReport s q.ctx r.1 r.2) s
        let s := putRecord s q p 0x140 (leBytes 8 0 ++ le4 q.num ++ le4 p.slot ++ List.replicate 0xB0 0)
        serveQueue (s.modQueue q.num (fun x => { x with ready := x.ready ++ [p] })) q.num
def execDispatch (die : Nat) (k : Word) (s : State) : Host.Outcome State Fault Refusal :=
  .next (if dispatchHeld s die k then s.at_ (s.cycle + 1) (.dispatch die k) else dispatchRecord s die k)
/-- A read of DONE: the oldest entry, removed. -/
def readDone (s : State) (die : Nat) : Word × State :=
  match (acc s die).dones with
  | [] => (0xFFFFFFFF, s)
  | w :: r => (w, modAcc s die (fun x => { x with dones := r }))
def execDone (die : Nat) (s : State) : Host.Outcome State Fault Refusal := .next (readDone s die).2

/-! CSRR and CSRW (R122, R373, R382) -/

/-- A page register's number taken apart. -/
def pageNum (n : Nat) : Option (Nat × Bool × Nat) :=
  if 0x10000 ≤ n ∧ n < 0x10000 + 0x800 * 14 then
    let m := n - 0x10000
    some (m / 0x800, 0x400 ≤ m % 0x800, 4 * (m % 0x400))
  else none

/-- A register read by the compositor of a die; `none` for an unlisted number. -/
def readCsr (s : State) (die n : Nat) : Option (Word × State) :=
  let r := acc s die
  let plain (w : Word) : Option (Word × State) := some (w, s)
  match pageNum n with
  | some (f, e, off) => if listed f e off then some (readPage s f e off) else none
  | none =>
    if Config.dies ≤ die then none
    else if 0x400 ≤ n ∧ n < 0x440 then plain (((s.die? die).map (fun d => connWord (connOf d.phot (n - 0x400)))).getD 0)
    else match n with
      | 0x100 => plain (BitVec.ofNat 32 r.ctx)
      | 0x101 => plain (r.addr.extractLsb' 0 32)
      | 0x102 => plain (r.addr.extractLsb' 32 32)
      | 0x103 => plain (r.dat.extractLsb' 0 32)
      | 0x104 => plain (r.dat.extractLsb' 32 32)
      | 0x105 => plain (r.dst.extractLsb' 0 32)
      | 0x106 => plain (r.dst.extractLsb' 32 32)
      | 0x107 => plain 0
      | 0x108 => plain (regWord [(8, r.cause), (0, r.err.toNat)])
      | 0x110 => plain (BitVec.ofNat 32 r.qsel)
      | 0x111 => some (readQnotl s die)
      | 0x112 => plain r.qnoth
      | 0x113 => plain 0
      | 0x114 => plain r.qrdh
      | 0x116 => plain (r.rec_.extractLsb' 0 32)
      | 0x117 => plain (r.rec_.extractLsb' 32 32)
      | 0x118 => plain 0
      | 0x119 => some (readDone s die)
      | _ => none

/-- What a write of a register does. -/
inductive CsrWrite
  | illegal
  | wait
  | ok (s : State)

def setLow (x : DWord) (v : Word) : DWord := x.extractLsb' 32 32 ++ v
def setHigh (x : DWord) (v : Word) : DWord := v ++ x.extractLsb' 0 32
/-- A register written by the compositor of a die. -/
def writeCsr (s : State) (die n : Nat) (v : Word) : CsrWrite :=
  let set (f : AccRegs → AccRegs) : CsrWrite := .ok (modAcc s die f)
  match pageNum n with
  | some (f, e, off) =>
    if !listed f e off then .illegal
    else if !e && 0xFF8 ≤ off then .ok (writeExunlkWord s f (off == 0xFFC) v)
    else if readOnly f e off then .illegal
    else .ok (writePage s f e off v)
  | none =>
    if Config.dies ≤ die then .illegal
    else if 0x400 ≤ n ∧ n < 0x440 then .ok (writeConn s die (n - 0x400) v)
    else match n with
      | 0x100 => set (fun r => { r with ctx := v.toNat % 64 })
      | 0x101 => set (fun r => { r with addr := setLow r.addr v })
      | 0x102 => set (fun r => { r with addr := setHigh r.addr (v &&& 0x1FFFFFF) })
      | 0x103 => set (fun r => { r with dat := setLow r.dat v })
      | 0x104 => set (fun r => { r with dat := setHigh r.dat v })
      | 0x105 => set (fun r => { r with dst := setLow r.dst v })
      | 0x106 => set (fun r => { r with dst := setHigh r.dst v })
      | 0x107 => match portAccess s die v with
        | some s => .ok s
        | none => .wait
      | 0x110 => set (fun r => { r with qsel := v.toNat % 1024 })
      | 0x113 => .ok (writeQrdl s die v)
      | 0x114 => set (fun r => { r with qrdh := v })
      | 0x116 => set (fun r => { r with rec_ := setLow r.rec_ (v &&& 0xFFFFFE00) })
      | 0x117 => set (fun r => { r with rec_ := setHigh r.rec_ (v &&& 0x1FFFFFF) })
      | 0x118 => if dispatchHeld s die v then .wait else .ok (dispatchRecord s die v)
      | 0x119 => .ok s
      | _ => .illegal

/-- ILLREG of a control register number. DEDUCED, log 98, unsafe. -/
def csrFault (n : Word) : FaultInfo := { cause := .illreg, addr := n, aux := 2 }
/-- `CSRR`: the read happens once, when the result can be written. -/
def csrrBody (d : Reg) (n : Word) (e : Env) (s : State) : Res :=
  match firmwareDie e.c with
  | none => .trap s { cause := .illop }
  | some k =>
    if meetsPending s (cellsOf s .W e.c 0 1 d 0) then .stall s .result
    else match readCsr s k n.toNat with
      | none => .trap s (csrFault n)
      | some (w, t) => store e t .fixed (e.parts.map (fun p => (p, [(d, 1, w.toNat)])))
def execCsrr (h : Head) (d : Reg) (n : Word) (s : State) : Host.Outcome State Fault Refusal := issue h {
  } (csrrBody d n) s
/-- `CSRW`. -/
def csrwBody (n : Word) (a : Reg) (e : Env) (s : State) : Res :=
  match firmwareDie e.c with
  | none => .trap s { cause := .illop }
  | some k => match columns e s [.reg a 1] with
    | .error b => b.res s
    | .ok (vals, t) => match writeCsr t k n.toNat (BitVec.ofNat 32 ((vals.headD []).headD 0)) with
      | .illegal => .trap s (csrFault n)
      | .wait => .stall s .access
      | .ok t => .next t
def execCsrw (h : Head) (n : Word) (a : Reg) (s : State) : Host.Outcome State Fault Refusal := issue h { anchored := true } (csrwBody n a) s

/-! The fault ring (R364) -/

/-- `FAULT_RING_ENTRY_FREE`: an entry freed, and the oldest held one written. -/
def execFaultRingEntryFree (ctx : Nat) (s : State) : Host.Outcome State Fault Refusal :=
  match s.context? ctx with
  | none => .next s
  | some x =>
    if x.frProd ≤ x.frFree then .next s
    else
      .next (flushRing (s.modContext ctx (fun x => { x with frFree := x.frFree + 1 })) ctx)

end Sys2Proof.Machine
end

