-- ==== Sys2Proof/Machine/Work.lean ====
section
/-! DEFINITION. Work instructions: role queues (R191 to R196), tiles (R197 to R200), package barriers (R201). -/

namespace Sys2Proof.Machine

/-! QTRY, QCNT, QCFG -/

/-- One `QTRY` pop of one element: the element, or that there is none. -/
def tryPop (s : State) (t : TeamId) (q : Nat) : Except QBar (Option Word × State) :=
  match popElems s t q 1 with
  | .ok (ws, s) => .ok (ws.head?, s)
  | .error (.stall (.queuePop ..)) => .ok (none, s)
  | .error b => .error b
/-- One `QTRY` push of one element: whether it went in; one past the quota fails (R195). DEDUCED, log 38, safe. -/
def tryPush (s : State) (t : TeamId) (r q : Nat) (v : Word) : Except QBar (Bool × State) :=
  match pushElems s t r q [v] with
  | .ok s => .ok (true, s)
  | .error (.stall (.queuePush ..)) => .ok (false, s)
  | .error (.stall w) => .error (.stall w)
  | .error (.trap f) => if f.cause = .quota then .ok (false, s) else .error (.trap f)

/-- The outcome of one participant of a `QTRY`: what it writes. -/
abbrev Tried := (CtxId × Nat) × List Out

/-- `QTRY` for the participants in ascending lane order (R195). -/
def tryAll (e : Env) (q : Nat) (d : Reg) (pc : BitVec 3) (push : Bool) :
    State → List ((CtxId × Nat) × List Nat) → Except QBar (List Tried × State)
  | s, [] => .ok ([], s)
  | s, (p, v) :: rest =>
    let one : Except QBar (List Out × State) :=
      if push then (tryPush s e.team (roleOf s e.c) q (BitVec.ofNat 32 (v.headD 0))).map (fun x =>
        ([(.p pc, 1, x.1.toNat)], x.2))
      else (tryPop s e.team q).map (fun x => match x.1 with
        | some w => ([(d, 1, w.toNat), (.p pc, 1, 1)], x.2)
        | none => ([(.p pc, 1, 0)], x.2))
    match one with
    | .error b => .error b
    | .ok (o, s) => (tryAll e q d pc push s rest).map (fun x => ((p, o) :: x.1, x.2))

def qtryBody (d : Reg) (q : BitVec 5) (push : Option Reg) (pc : BitVec 3) (e : Env) (s : State) : Res :=
  match columns e s ((push.map (fun r => Operand.reg r 1)).toList) with
  | .error b => b.res s
  | .ok (vals, t) => match tryAll e q.toNat d pc push.isSome t (e.parts.zip vals) with
    | .error b => b.res s
    | .ok (outs, t) => store e t .varies outs
def execQtry (h : Head) (d : Reg) (q : BitVec 5) (push : Option Reg) (pc : BitVec 3) (s : State) :
    Host.Outcome State Fault Refusal :=
  issue h loadHow (qtryBody d q push pc) s

/-- `QCNT` (R196): one sample for every participant. -/
def qcntBody (d : Reg) (q : BitVec 5) (e : Env) (s : State) : Res :=
  match queueOf s e.team q.toNat with
  | none => .trap s (queueBounds q.toNat)
  | some x => store e s .varies (e.parts.map (fun p => (p, [(d, 1, x.elems.length)])))
def execQcnt (h : Head) (d : Reg) (q : BitVec 5) (s : State) : Host.Outcome State Fault Refusal := issue h loadHow (qcntBody d q) s

/-- The descriptor of `QCFG` by its fields (R191), with the ring and the quota. -/
structure QDesc where
  qn : Nat
  spill : Bool
  allowl : Nat
  prod : Nat
  capl : Nat
  base : Nat
  ring : Nat
  quota : Nat
  deriving DecidableEq, Repr
def QDesc.of (a ring quota : Nat) : QDesc :=
  ⟨a / 2 ^ 25 % 32, bit a 24, a / 2 ^ 20 % 16, a / 2 ^ 16 % 16, a / 2 ^ 12 % 16, a % 4096, ring, quota⟩
/-- Whether a ring and a quota are valid (R191). -/
def QDesc.ringOk (d : QDesc) : Bool := d.ring % 4 = 0 && d.ring < 2 ^ 56 && 1 ≤ d.quota && d.quota ≤ 2 ^ 24
/-- The cases of R192, and bits [31:30], which R191 calls zero. DEDUCED, log 155, unsafe. -/
def QDesc.bad (s : State) (t : TeamId) (n a : Nat) (d : QDesc) : Bool :=
  a / 2 ^ 30 ≠ 0 || d.qn ≠ n || 12 < d.capl || d.prod = 0
    || (List.range 4).any (fun r => bit d.prod r && (role? s t r).isNone)
    || 2 ^ 20 < d.base * 256 + 4 * 2 ^ d.capl
    || (!d.spill && d.capl < d.allowl) || (d.spill && !d.ringOk)
    || ((queueOf s t n).map (fun (q : QueueSt) => !q.elems.isEmpty)).getD false
/-- The queue that a descriptor configures. -/
def QDesc.queue (d : QDesc) : QueueSt :=
  ⟨256 * d.base, 2 ^ d.capl, 2 ^ d.allowl, BitVec.ofNat 4 d.prod, d.spill, d.ring, d.quota, [], 0⟩

/-- `QCFG` (R191, R192). Without SPILL, B and C are read and mean nothing. DESIGN CHOICE, log 156, unsafe. -/
def qcfgBody (q : BitVec 5) (a b c : Reg) (e : Env) (s : State) : Res :=
  engineSrcs e s [.reg a 1, .reg b 2, .reg c 1] (fun v s =>
    let d := QDesc.of (v.getD 0 0) (v.getD 1 0) (v.getD 2 0)
    if QDesc.bad s e.team q.toNat (v.getD 0 0) d then .trap s (queueBounds q.toNat)
    else .next (setQueue s e.team q.toNat (QDesc.queue d)))
def execQcfg (h : Head) (q : BitVec 5) (a b c : Reg) (s : State) : Host.Outcome State Fault Refusal :=
  issue h engineHow (qcfgBody q a b c) s

/-! TILE (R197, R198, R200) -/

/-- The draws of the participating lanes of a `TILE.L`, each with its key; what a lane drew before the instruction was interrupted keeps
its own. -/
def laneDraws (s : State) (e : Env) : List ((CtxId × Nat) × EffKey) :=
  let kept := ((drawsOf s e.team.launch).filter (fun q => q.unit = e.c && q.teams.isEmpty)).flatMap (fun q => q.lanes)
  e.parts.map (fun p => (p, (get? p kept).getD (effKey s p)))
/-- The result of a draw: the index plus one, or 0 for a spool that was empty. DESIGN CHOICE, log 43, safe. -/
def drawnOf (s : State) (t : TeamId) (k : EffKey) : Nat :=
  ((replayed s t k (spoolPoint (dieOf (coreOf s t))) 0 4 0).map (fun x => x.result.toNat)).getD 0
/-- The lanes' draws join the queue of their die's spool, unless they stand in it. -/
def queueLanes (s : State) (e : Env) (ks : List ((CtxId × Nat) × EffKey)) : State :=
  if (drawsOf s e.team.launch).any (fun q => q.unit = e.c && q.teams.isEmpty) then s
  else queueDraw s e.team.launch ⟨dieOf (coreOf s e.team), e.c, [], ks⟩
/-- The draws of the lanes delivered: a coordinate and true, or false (R197, R198). -/
def giveDraws (d : Reg) (pd : BitVec 3) (e : Env) (s : State) (ks : List ((CtxId × Nat) × EffKey)) : Res :=
  let t := ks.foldl (fun s _ => sign s e.team (sigEffect 0 0 4 3 0)) (leaveSpool s e.team.launch e.c)
  store e (countEffect t e.unit) .varies (ks.map (fun (p, k) =>
    let v := drawnOf s e.team k
    if v = 0 then (p, [(.p pd, 1, 0)])
    else (p, ((List.range 3).zip (coordOf s e.team.launch (v - 1))).map (fun (i, x) => (d.up i, 1, x)) ++ [(.p pd, 1, 1)])))

/-- `TILE.L` (R200): the lanes draw in ascending order, after every draw that came to the spool before them (R309). -/
def tileLanes (d : Reg) (pd : BitVec 3) (e : Env) (s : State) : Res :=
  let die := dieOf (coreOf s e.team)
  let point := spoolPoint die
  let ks := laneDraws s e
  let fresh (s : State) : List ((CtxId × Nat) × EffKey) := ks.filter (fun k => (replayed s e.team k.2 point 0 4 0).isNone)
  let new := fresh s
  if new.isEmpty then giveDraws d pd e s ks
  else if isShadow e.team then .stall s .effects
  else
    let ahead := ((drawsOf s e.team.launch).filter (fun q => q.die = die && q.unit ≠ e.c)).flatMap (fun q =>
      (q.lanes.filter (fun k => (replayed s e.team k.2 point 0 4 0).isNone)).map (fun _ => point))
    match effectBar s e.team new.length (ahead ++ new.map (fun _ => point)) 4 with
    | some b => b.res s
    | none =>
      let t := serveSpool (queueLanes s e ks) e.team.launch die
      if (fresh t).isEmpty then giveDraws d pd e t ks else holdWith t e .steal

/-- `TILE` (R197): a seal point at T, lane draws at L. -/
def execTile (h : Head) (nr : Bool) (d : Reg) (pd : BitVec 3) (s : State) : Host.Outcome State Fault Refusal :=
  match h.scope with
  | .T => issue h (sealHow true) (sealPoint true nr d pd) s
  | _ => issue h { sealHow true with effect := true } (tileLanes d pd) s

/-! PBAR (R201) -/

/-- The barrier that an id names for a launch. -/
def pbarOf (s : State) (n id : Nat) : Option PBar :=
  match get? id s.pbars with
  | some b => if b.launch = n ∧ id < 64 then some b else none
  | none => none
/-- One arrival of a team context. -/
def arrivePbar (s : State) (id : Nat) (who : TeamId × Nat) : State :=
  closePbar (modPbar s id (fun b => { b with arrived := b.arrived ++ [who] })) id

/-- `PBAR`: a wait that follows an arrival carries its phase plus one; one before it, 0. -/
def pbarBody (kind : PbarKind) (a : Src) (e : Env) (s : State) : Res :=
  let who := (e.team, roleOf s e.c)
  match (s.ctx e.c).wait with
  | some (.pbar id (_ + 1)) =>
    if ((pbarOf s e.team.launch id).map (fun b => b.arrived.contains who)).getD false then .hold s else .next s
  | _ => engineSrcs e s [.src a] (fun v s =>
    let id := v.getD 0 0
    match pbarOf s e.team.launch id with
    | none => .trap s (boundsFault 0)
    | some b =>
      let mine := b.arrived.contains who
      match kind with
      | .wait => if mine then .stall s (.pbar id (b.phase + 1)) else .next s
      | .arrive => if mine || b.releasing then .stall s (.pbar id 0) else .next (arrivePbar s id who)
      | .sync => if mine || b.releasing then .stall s (.pbar id 0)
          else holdWith (arrivePbar s id who) e (.pbar id (b.phase + 1)))
def execPbar (h : Head) (kind : PbarKind) (a : Src) (s : State) : Host.Outcome State Fault Refusal :=
  issue h { anchored := true, noHandler := true } (pbarBody kind a) s

/-- `PBAR_RELEASE` (R201, R319): the next phase opens, and naps end. -/
def execPbarRelease (id : Nat) (s : State) : Host.Outcome State Fault Refusal :=
  match get? id s.pbars with
  | none => .next s
  | some b =>
    if !b.releasing || s.treeCycle < b.due then .next s
    else
      let s := modPbar s id (fun b => { b with phase := b.phase + 1, arrived := [], releasing := false })
      .next ((gridTeams s b.launch).foldl rouseTeam s)

end Sys2Proof.Machine
end

