-- ==== Sys2Proof/Machine/Xissue.lean ====
section
/-! DEFINITION. `XISSUE` (R110 to R114): instructions that the lanes hold as data. -/

namespace Sys2Proof.Machine

/-- The meaning of a word that `XISSUE` may issue (R111); any other instruction does nothing here. -/
def execWord (i : Instr) (s : State) : Host.Outcome State Fault Refusal :=
  match i with
  | .add h ty sat d a b => execAdd h ty sat d a b s
  | .sub h ty sat d a b => execSub h ty sat d a b s
  | .addc h ty d a b pc => execAddc h ty d a b pc s
  | .subb h ty d a b pc => execSubb h ty d a b pc s
  | .mul h ty sat d a b => execMul h ty sat d a b s
  | .mulh h ty d a b => execMulh h ty d a b s
  | .mad h ty sat d a b c => execMad h ty sat d a b c s
  | .madw h ty d a b c => execMadw h ty d a b c s
  | .min h ty d a b => execMin h ty d a b s
  | .max h ty d a b => execMax h ty d a b s
  | .abs h ty sat d a => execAbs h ty sat d a s
  | .neg h ty sat d a => execNeg h ty sat d a s
  | .and h ty d a b => execAnd h ty d a b s
  | .or h ty d a b => execOr h ty d a b s
  | .xor h ty d a b => execXor h ty d a b s
  | .not h ty d a => execNot h ty d a s
  | .andn h ty d a b => execAndn h ty d a b s
  | .shl h ty d a b => execShl h ty d a b s
  | .shr h ty d a b => execShr h ty d a b s
  | .sar h ty d a b => execSar h ty d a b s
  | .shf h right d a b c => execShf h right d a b c s
  | .rot h ty d a b => execRot h ty d a b s
  | .bfe h ty d a b c => execBfe h ty d a b c s
  | .bfi h d a b c => execBfi h d a b c s
  | .popc h d a => execPopc h d a s
  | .clz h d a => execClz h d a s
  | .brev h d a => execBrev h d a s
  | .prmt h d a b c => execPrmt h d a b c s
  | .sel h ty d a b pc => execSel h ty d a b pc s
  | .icmp h ty cond d a b => execIcmp h ty cond d a b s
  | .lea h ty shift d a b => execLea h ty shift d a b s
  | .dp4 h ty sat d a b c => execDp4 h ty sat d a b c s
  | .dp2 h ty sat d a b c => execDp2 h ty sat d a b c s
  | .sad h ty sat d a b c => execSad h ty sat d a b c s
  | .clamp h ty d a b c => execClamp h ty d a b c s
  | .fadd h f rnd d a b => execFadd h f rnd d a b s
  | .fsub h f rnd d a b => execFsub h f rnd d a b s
  | .fmul h f rnd d a b => execFmul h f rnd d a b s
  | .ffma h f rnd d a b c => execFfma h f rnd d a b c s
  | .fmin h f d a b => execFmin h f d a b s
  | .fmax h f d a b => execFmax h f d a b s
  | .fcmp h f cond d a b => execFcmp h f cond d a b s
  | .fclass h f d a => execFclass h f d a s
  | .frnd h f rnd d a => execFrnd h f rnd d a s
  | .fscale h f rnd d a b => execFscale h f rnd d a b s
  | .fexp h f d a => execFexp h f d a s
  | .cvt h dst src rnd sat sr d a => execCvt h dst src rnd sat sr d a s
  | .pack h f rnd sat sr d a b => execPack h f rnd sat sr d a b s
  | .unpk h f d a b => execUnpk h f d a b s
  | .hadd2 h f rnd d a b => execHadd2 h f rnd d a b s
  | .hmul2 h f rnd d a b => execHmul2 h f rnd d a b s
  | .hfma2 h f rnd d a b c => execHfma2 h f rnd d a b c s
  | .hmin2 h f d a b => execHmin2 h f d a b s
  | .hmax2 h f d a b => execHmax2 h f d a b s
  | .dot2f h f rnd d a b c => execDot2f h f rnd d a b c s
  | .seed h b => execSeed h b s
  | .rcp h d a => execRcp h d a s
  | .rsq h d a => execRsq h d a s
  | .sqrt h rnd d a => execSqrt h rnd d a s
  | .ex2 h d a => execEx2 h d a s
  | .lg2 h d a => execLg2 h d a s
  | .sin h d a => execSin h d a s
  | .cos h d a => execCos h d a s
  | .sincos h d a => execSincos h d a s
  | .tanh h d a => execTanh h d a s
  | .rred h d a => execRred h d a s
  | .mov h d a => execMov h d a s
  | .movi h d imm => execMovi h d imm s
  | .plop h table d a b c => execPlop h table d a b c s
  | .p2r h d a => execP2r h d a s
  | .registerToPredicate h a b => execRegisterToPredicate h a b s
  | .ld h o w sp sx d a off => execLd h o w sp sx d a off s
  | .st h o w sp d a off => execSt h o w sp d a off s
  | .atom h o w sp op d a off => execAtom h o w sp op d a off s
  | .red h o w sp op d a off => execRed h o w sp op d a off s
  | .cas h o w sp d a b c => execCas h o w sp d a b c s
  | _ => .next s

/-- Whether an instruction is of a class that `XISSUE` may issue (R111). -/
def wordClass (i : Instr) (op : Nat) : Bool :=
  match i with
  | .ld _ _ _ sp _ _ _ _ => sp ≠ .pv
  | .st _ _ _ sp _ _ _ => sp ≠ .pv
  | .atom _ _ _ sp _ _ _ _ => sp ≠ .pv
  | .red _ _ _ sp _ _ _ _ => sp ≠ .pv
  | .cas _ _ _ sp _ _ _ _ => sp ≠ .pv
  | _ => (0x040 ≤ op && op < 0x180) || (0x1C0 ≤ op && op < 0x200)

/-- The instruction of a permitted word (R111). DESIGN CHOICE, log 34, unsafe. -/
def permitted (env : DecEnv) (w : BitVec 96) : Option Instr :=
  let f := Fields.ofWord w
  match decode env w with
  | .ok i => if f.sc = 0 && !f.mb 15 && wordClass i f.op.toNat then some i else none
  | .error _ => none

/-- The words of the participating lanes. -/
def laneWords (e : Env) (s : State) (a : Reg) : List ((CtxId × Nat) × BitVec 96) :=
  e.parts.map (fun p => (p, BitVec.ofNat 96 (readNat s .L p.1 p.2 3 a)))
/-- The lanes that hold a word. -/
def wordHolders (l : List ((CtxId × Nat) × BitVec 96)) (w : BitVec 96) : List (CtxId × Nat) := (l.filter (fun e => e.2 = w)).map (fun e => e.1)
def laneMask (l : List (CtxId × Nat)) : Nat := maskOf (l.map (fun p => laneNum p.1 p.2))

/-- The words issued one after the other: the state, the cells written, and what ended the run early: a stall or a fault of a
word, with its place in the order. -/
structure WordRun where
  state : State
  written : List (CtxId × Loc)
  stall : Option (Nat × Wait)
  trap : Option (Nat × FaultInfo)

/-- The words from place k on. -/
def runWords (l : List ((CtxId × Nat) × BitVec 96)) (env : DecEnv) : Nat → List (BitVec 96) → WordRun → WordRun
  | _, [], r => r
  | k, w :: ws, r =>
    match permitted env w with
    | none => runWords l env (k + 1) ws r
    | some i =>
      let lanes := wordHolders l w
      match execWord i { r.state with xm := some ⟨lanes, [], none, none⟩ } with
      | .next t =>
        let m := t.xm.getD ⟨[], [], none, none⟩
        match m.stall, m.trap with
        | some q, _ => { r with state := unmade r.state t, stall := some (k, q) }
        | none, some f => { r with trap := some (k, { f with xk := k, mask := laneMask lanes }) }
        | none, none =>
          if meetsPending r.state (m.written.map (fun c => (c.1, c.2, (0 : Word)))) then { r with stall := some (k, .result) }
          else runWords l env (k + 1) ws { r with state := { t with xm := none }, written := r.written ++ m.written }
      | _ => { r with stall := some (k, .access) }

/-- What the words wrote, as one variable result that has arrived or is on its way (R113): the cells as they were, the values to
come. -/
def gatherResult (s t : State) (written : List (CtxId × Loc)) (la : Nat) (arrived : Bool) : Nat × State :=
  let cells := distinct written
  let (id, t) := t.fresh
  let owners := distinct (cells.map (fun c => c.1))
  (id, owners.foldl (fun u o =>
    let mine := (cells.filter (fun c => c.1 = o)).map (fun c => c.2)
    let new := mine.map (fun l => (l, (t.ctx o).cell l))
    u.modCtx o (fun x =>
      let y := (x.setCells (mine.map (fun l => (l, (s.ctx o).cell l)))).yieldTo new
      { y with vars := y.vars ++ [⟨id, new, la, arrived, false⟩] })) t)

/-- What the words wrote, as a variable result that arrives a free number of cycles later. -/
def wordsResult (e : Env) (s : State) (r : WordRun) (la : Nat) : State :=
  let (id, t) := gatherResult s r.state r.written la false
  if r.written.isEmpty then t else t.later (.resultArrival e.c id)

/-- `XISSUE` (R112): nothing issues while a word is refused; then one issue slot for each distinct word. While a word stalls, those
before it have issued, and the `XISSUE` goes on from there. In the LA window of an older result it counts once (R50).
DESIGN CHOICE, log 148, unsafe. DEDUCED, log 164, unsafe. -/
def xissueBody (a : Reg) (e : Env) (s : State) : Res :=
  let l := laneWords e s a
  let env : DecEnv := ⟨((role? s e.team (roleOf s e.c)).map (fun r => r.budget)).getD 0, false⟩
  let bad := l.filter (fun p => (permitted env p.2).isNone)
  match bad with
  | b :: _ => .trap s { cause := .xword, mask := laneMask (bad.map (fun p => p.1)), xword := b.2 }
  | [] =>
    let k0 := (s.ctx e.c).xk
    let words := (distinct (l.map (fun p => p.2))).drop k0
    let r := runWords l env k0 words ⟨s, [], none, none⟩
    match r.stall, r.trap with
    | some (k, w), _ =>
      if k = k0 then .stall r.state w
      else holdWith ((wordsResult e s r (e.h.hints.la.toNat + 1)).modCtxs e.unit (fun x => { x with xk := k })) e w
    | none, some (_, f) => .raised (raise (gatherResult s r.state r.written e.h.hints.la.toNat true).2 e.c e.x.num f)
    | none, none =>
      let t := retire (wordsResult e s r e.h.hints.la.toNat) e (varIds s e.unit) true
      .done (t.modCtxs e.unit (fun x => { x with next := x.next + (words.length - 1) }))
def execXissue (h : Head) (a : Reg) (s : State) : Host.Outcome State Fault Refusal := issue h { varying := true } (xissueBody a) s

end Sys2Proof.Machine
end

