-- ==== Sys2Proof/Machine/Dispatch.lean ====
section
/-! DEFINITION. The dispatch of every instruction and step to its meaning. -/

namespace Sys2Proof.Machine

def exec (i : Instr) (s : State) : Host.Outcome State Fault Refusal :=
  match i with
  | .nop h => Sys2Proof.Machine.execNop h s
  | .bra h off => Sys2Proof.Machine.execBra h off s
  | .br h cs neg a off => Sys2Proof.Machine.execBr h cs neg a off s
  | .brx h cs neg a b => Sys2Proof.Machine.execBrx h cs neg a b s
  | .call h off => Sys2Proof.Machine.execCall h off s
  | .callx h b => Sys2Proof.Machine.execCallx h b s
  | .ret h => Sys2Proof.Machine.execRet h s
  | .lcnt h d src => Sys2Proof.Machine.execLcnt h d src s
  | .loop h d off => Sys2Proof.Machine.execLoop h d off s
  | .rcv h off => Sys2Proof.Machine.execRcv h off s
  | .regang h => Sys2Proof.Machine.execRegang h s
  | .exit h => Sys2Proof.Machine.execExit h s
  | .vote h cs neg kind d a => Sys2Proof.Machine.execVote h cs neg kind d a s
  | .xissue h a => Sys2Proof.Machine.execXissue h a s
  | .trap h code => Sys2Proof.Machine.execTrap h code s
  | .bkpt h => Sys2Proof.Machine.execBkpt h s
  | .tret h => Sys2Proof.Machine.execTret h s
  | .nap h n => Sys2Proof.Machine.execNap h n s
  | .add h ty sat d a b => Sys2Proof.Machine.execAdd h ty sat d a b s
  | .sub h ty sat d a b => Sys2Proof.Machine.execSub h ty sat d a b s
  | .addc h ty d a b pc => Sys2Proof.Machine.execAddc h ty d a b pc s
  | .subb h ty d a b pc => Sys2Proof.Machine.execSubb h ty d a b pc s
  | .mul h ty sat d a b => Sys2Proof.Machine.execMul h ty sat d a b s
  | .mulh h ty d a b => Sys2Proof.Machine.execMulh h ty d a b s
  | .mad h ty sat d a b c => Sys2Proof.Machine.execMad h ty sat d a b c s
  | .madw h ty d a b c => Sys2Proof.Machine.execMadw h ty d a b c s
  | .min h ty d a b => Sys2Proof.Machine.execMin h ty d a b s
  | .max h ty d a b => Sys2Proof.Machine.execMax h ty d a b s
  | .abs h ty sat d a => Sys2Proof.Machine.execAbs h ty sat d a s
  | .neg h ty sat d a => Sys2Proof.Machine.execNeg h ty sat d a s
  | .and h ty d a b => Sys2Proof.Machine.execAnd h ty d a b s
  | .or h ty d a b => Sys2Proof.Machine.execOr h ty d a b s
  | .xor h ty d a b => Sys2Proof.Machine.execXor h ty d a b s
  | .not h ty d a => Sys2Proof.Machine.execNot h ty d a s
  | .andn h ty d a b => Sys2Proof.Machine.execAndn h ty d a b s
  | .shl h ty d a b => Sys2Proof.Machine.execShl h ty d a b s
  | .shr h ty d a b => Sys2Proof.Machine.execShr h ty d a b s
  | .sar h ty d a b => Sys2Proof.Machine.execSar h ty d a b s
  | .shf h right d a b c => Sys2Proof.Machine.execShf h right d a b c s
  | .rot h ty d a b => Sys2Proof.Machine.execRot h ty d a b s
  | .bfe h ty d a b c => Sys2Proof.Machine.execBfe h ty d a b c s
  | .bfi h d a b c => Sys2Proof.Machine.execBfi h d a b c s
  | .popc h d a => Sys2Proof.Machine.execPopc h d a s
  | .clz h d a => Sys2Proof.Machine.execClz h d a s
  | .brev h d a => Sys2Proof.Machine.execBrev h d a s
  | .prmt h d a b c => Sys2Proof.Machine.execPrmt h d a b c s
  | .sel h ty d a b pc => Sys2Proof.Machine.execSel h ty d a b pc s
  | .icmp h ty cond d a b => Sys2Proof.Machine.execIcmp h ty cond d a b s
  | .lea h ty shift d a b => Sys2Proof.Machine.execLea h ty shift d a b s
  | .dp4 h ty sat d a b c => Sys2Proof.Machine.execDp4 h ty sat d a b c s
  | .dp2 h ty sat d a b c => Sys2Proof.Machine.execDp2 h ty sat d a b c s
  | .sad h ty sat d a b c => Sys2Proof.Machine.execSad h ty sat d a b c s
  | .clamp h ty d a b c => Sys2Proof.Machine.execClamp h ty d a b c s
  | .fadd h f rnd d a b => Sys2Proof.Machine.execFadd h f rnd d a b s
  | .fsub h f rnd d a b => Sys2Proof.Machine.execFsub h f rnd d a b s
  | .fmul h f rnd d a b => Sys2Proof.Machine.execFmul h f rnd d a b s
  | .ffma h f rnd d a b c => Sys2Proof.Machine.execFfma h f rnd d a b c s
  | .fmin h f d a b => Sys2Proof.Machine.execFmin h f d a b s
  | .fmax h f d a b => Sys2Proof.Machine.execFmax h f d a b s
  | .fcmp h f cond d a b => Sys2Proof.Machine.execFcmp h f cond d a b s
  | .fclass h f d a => Sys2Proof.Machine.execFclass h f d a s
  | .frnd h f rnd d a => Sys2Proof.Machine.execFrnd h f rnd d a s
  | .fscale h f rnd d a b => Sys2Proof.Machine.execFscale h f rnd d a b s
  | .fexp h f d a => Sys2Proof.Machine.execFexp h f d a s
  | .cvt h dst src rnd sat sr d a => Sys2Proof.Machine.execCvt h dst src rnd sat sr d a s
  | .pack h f rnd sat sr d a b => Sys2Proof.Machine.execPack h f rnd sat sr d a b s
  | .unpk h f d a b => Sys2Proof.Machine.execUnpk h f d a b s
  | .hadd2 h f rnd d a b => Sys2Proof.Machine.execHadd2 h f rnd d a b s
  | .hmul2 h f rnd d a b => Sys2Proof.Machine.execHmul2 h f rnd d a b s
  | .hfma2 h f rnd d a b c => Sys2Proof.Machine.execHfma2 h f rnd d a b c s
  | .hmin2 h f d a b => Sys2Proof.Machine.execHmin2 h f d a b s
  | .hmax2 h f d a b => Sys2Proof.Machine.execHmax2 h f d a b s
  | .dot2f h f rnd d a b c => Sys2Proof.Machine.execDot2f h f rnd d a b c s
  | .seed h b => Sys2Proof.Machine.execSeed h b s
  | .rcp h d a => Sys2Proof.Machine.execRcp h d a s
  | .rsq h d a => Sys2Proof.Machine.execRsq h d a s
  | .sqrt h rnd d a => Sys2Proof.Machine.execSqrt h rnd d a s
  | .ex2 h d a => Sys2Proof.Machine.execEx2 h d a s
  | .lg2 h d a => Sys2Proof.Machine.execLg2 h d a s
  | .sin h d a => Sys2Proof.Machine.execSin h d a s
  | .cos h d a => Sys2Proof.Machine.execCos h d a s
  | .sincos h d a => Sys2Proof.Machine.execSincos h d a s
  | .tanh h d a => Sys2Proof.Machine.execTanh h d a s
  | .rred h d a => Sys2Proof.Machine.execRred h d a s
  | .shfl h mode seg d a b c => Sys2Proof.Machine.execShfl h mode seg d a b c s
  | .pswap h d a c => Sys2Proof.Machine.execPswap h d a c s
  | .reduce h ty op d a pc => Sys2Proof.Machine.execReduce h ty op d a pc s
  | .scan h ty op excl d a pc => Sys2Proof.Machine.execScan h ty op excl d a pc s
  | .matchLanes h float d a c => Sys2Proof.Machine.execMatchLanes h float d a c s
  | .ballot h d a c => Sys2Proof.Machine.execBallot h d a c s
  | .elect h d a => Sys2Proof.Machine.execElect h d a s
  | .bcast h d a b => Sys2Proof.Machine.execBcast h d a b s
  | .firstl h d a c => Sys2Proof.Machine.execFirstl h d a c s
  | .mov h d a => Sys2Proof.Machine.execMov h d a s
  | .movi h d imm => Sys2Proof.Machine.execMovi h d imm s
  | .plop h table d a b c => Sys2Proof.Machine.execPlop h table d a b c s
  | .p2r h d a => Sys2Proof.Machine.execP2r h d a s
  | .registerToPredicate h a b => Sys2Proof.Machine.execRegisterToPredicate h a b s
  | .rdsr h d n => Sys2Proof.Machine.execRdsr h d n s
  | .wrsr h n a => Sys2Proof.Machine.execWrsr h n a s
  | .ld h o w sp sx d a off => Sys2Proof.Machine.execLd h o w sp sx d a off s
  | .st h o w sp d a off => Sys2Proof.Machine.execSt h o w sp d a off s
  | .ldx h o w sp n d a off => Sys2Proof.Machine.execLdx h o w sp n d a off s
  | .stx h o w sp n d a off => Sys2Proof.Machine.execStx h o w sp n d a off s
  | .atom h o w sp op d a off => Sys2Proof.Machine.execAtom h o w sp op d a off s
  | .red h o w sp op d a off => Sys2Proof.Machine.execRed h o w sp op d a off s
  | .cas h o w sp d a b c => Sys2Proof.Machine.execCas h o w sp d a b c s
  | .fence h o => Sys2Proof.Machine.execFence h o s
  | .bcopy h ch dsp ssp d a b done => Sys2Proof.Machine.execBcopy h ch dsp ssp d a b done s
  | .bgath h k dsp ssp d a b done => Sys2Proof.Machine.execBgath h k dsp ssp d a b done s
  | .bscat h k dsp ssp d a b done => Sys2Proof.Machine.execBscat h k dsp ssp d a b done s
  | .bfill h ch dsp d a b done => Sys2Proof.Machine.execBfill h ch dsp d a b done s
  | .bred h op ch dsp ssp d a b done => Sys2Proof.Machine.execBred h op ch dsp ssp d a b done s
  | .batom h op w64 dsp d a b done => Sys2Proof.Machine.execBatom h op w64 dsp d a b done s
  | .bari h a b => Sys2Proof.Machine.execBari h a b s
  | .barx h a b => Sys2Proof.Machine.execBarx h a b s
  | .bara h a => Sys2Proof.Machine.execBara h a s
  | .barw h a b => Sys2Proof.Machine.execBarw h a b s
  | .bar h a b => Sys2Proof.Machine.execBar h a b s
  | .cwait h cls n => Sys2Proof.Machine.execCwait h cls n s
  | .hwait h a => Sys2Proof.Machine.execHwait h a s
  | .htest h d a => Sys2Proof.Machine.execHtest h d a s
  | .hcancel h a => Sys2Proof.Machine.execHcancel h a s
  | .chwait h ch a => Sys2Proof.Machine.execChwait h ch a s
  | .obres h f sp blk scl d a b base => Sys2Proof.Machine.execObres h f sp blk scl d a b base s
  | .obrel h a => Sys2Proof.Machine.execObrel h a s
  | .obld h d a off => Sys2Proof.Machine.execObld h d a off s
  | .obsc h d a off => Sys2Proof.Machine.execObsc h d a off s
  | .mma h at_ bt pair d a b c => Sys2Proof.Machine.execMma h at_ bt pair d a b c s
  | .mmag h at_ bt pair d a b c => Sys2Proof.Machine.execMmag h at_ bt pair d a b c s
  | .mmas h at_ bt pair d a b c => Sys2Proof.Machine.execMmas h at_ bt pair d a b c s
  | .acca h d a => Sys2Proof.Machine.execAcca h d a s
  | .accf h a => Sys2Proof.Machine.execAccf h a s
  | .accz h a => Sys2Proof.Machine.execAccz h a s
  | .accld h f sp d a b done => Sys2Proof.Machine.execAccld h f sp d a b done s
  | .accrd h f d a b => Sys2Proof.Machine.execAccrd h f d a b s
  | .accst h addOn f rnd sat sr sp d a b done => Sys2Proof.Machine.execAccst h addOn f rnd sat sr sp d a b done s
  | .accwr h f d a b => Sys2Proof.Machine.execAccwr h f d a b s
  | .qtry h d q push pc => Sys2Proof.Machine.execQtry h d q push pc s
  | .qcnt h d q => Sys2Proof.Machine.execQcnt h d q s
  | .tile h nr d pd => Sys2Proof.Machine.execTile h nr d pd s
  | .seal h => Sys2Proof.Machine.execSeal h s
  | .pbar h kind id => Sys2Proof.Machine.execPbar h kind id s
  | .coll h op red ty policy d a b c => Sys2Proof.Machine.execColl h op red ty policy d a b c s
  | .view h d a => Sys2Proof.Machine.execView h d a s
  | .qcfg h q a b c => Sys2Proof.Machine.execQcfg h q a b c s
  | .snap h a => Sys2Proof.Machine.execSnap h a s
  | .syscall h n => Sys2Proof.Machine.execSyscall h n s
  | .tlbi h a b => Sys2Proof.Machine.execTlbi h a b s
  | .csrr h d n => Sys2Proof.Machine.execCsrr h d n s
  | .csrw h n a => Sys2Proof.Machine.execCsrw h n a s
  | .resultArrival c id => Sys2Proof.Machine.execResultArrival c id s
  | .channelOperationBegin die core ch => Sys2Proof.Machine.execChannelOperationBegin die core ch s
  | .delivery op => Sys2Proof.Machine.execDelivery op s
  | .operationCompletion op => Sys2Proof.Machine.execOperationCompletion op s
  | .formeLoadFinish op => Sys2Proof.Machine.execFormeLoadFinish op s
  | .productStart op => Sys2Proof.Machine.execProductStart op s
  | .productRetire op => Sys2Proof.Machine.execProductRetire op s
  | .accaGrant die core => Sys2Proof.Machine.execAccaGrant die core s
  | .teamReschedule t => Sys2Proof.Machine.execTeamReschedule t s
  | .checkpointValid t => Sys2Proof.Machine.execCheckpointValid t s
  | .galleyRelease die core => Sys2Proof.Machine.execGalleyRelease die core s
  | .abortCompletion t pa => Sys2Proof.Machine.execAbortCompletion t pa s
  | .timeSliceEnd ctx => Sys2Proof.Machine.execTimeSliceEnd ctx s
  | .waitbudget ctx => Sys2Proof.Machine.execWaitbudget ctx s
  | .teamRestore t => Sys2Proof.Machine.execTeamRestore t s
  | .teamEnd t => Sys2Proof.Machine.execTeamEnd t s
  | .translationWalk die ctx va => Sys2Proof.Machine.execTranslationWalk die ctx va s
  | .tlbiAck die => Sys2Proof.Machine.execTlbiAck die s
  | .napExpiry c => Sys2Proof.Machine.execNapExpiry c s
  | .pbarRelease id => Sys2Proof.Machine.execPbarRelease id s
  | .wScopeExecution launch role => Sys2Proof.Machine.execWScopeExecution launch role s
  | .packetConsume q => Sys2Proof.Machine.execPacketConsume q s
  | .barrierAndSample q => Sys2Proof.Machine.execBarrierAndSample q s
  | .placement q => Sys2Proof.Machine.execPlacement q s
  | .gridEnd launch => Sys2Proof.Machine.execGridEnd launch s
  | .createCtx seq => Sys2Proof.Machine.execCreateCtx seq s
  | .destroyCtx seq => Sys2Proof.Machine.execDestroyCtx seq s
  | .createQueue seq => Sys2Proof.Machine.execCreateQueue seq s
  | .destroyQueue seq => Sys2Proof.Machine.execDestroyQueue seq s
  | .resume seq => Sys2Proof.Machine.execResume seq s
  | .kill seq => Sys2Proof.Machine.execKill seq s
  | .setap seq => Sys2Proof.Machine.execSetap seq s
  | .domainCreate seq => Sys2Proof.Machine.execDomainCreate seq s
  | .domainRejoin seq => Sys2Proof.Machine.execDomainRejoin seq s
  | .resync seq => Sys2Proof.Machine.execResync seq s
  | .attest seq => Sys2Proof.Machine.execAttest seq s
  | .imageWrite seq => Sys2Proof.Machine.execImageWrite seq s
  | .imageCommit seq => Sys2Proof.Machine.execImageCommit seq s
  | .reset seq => Sys2Proof.Machine.execReset seq s
  | .accessRead die c => Sys2Proof.Machine.execAccessRead die c s
  | .accessWrite die c => Sys2Proof.Machine.execAccessWrite die c s
  | .accessAdd die c => Sys2Proof.Machine.execAccessAdd die c s
  | .accessExch die c => Sys2Proof.Machine.execAccessExch die c s
  | .accessCas die c => Sys2Proof.Machine.execAccessCas die c s
  | .accessCopy die c => Sys2Proof.Machine.execAccessCopy die c s
  | .accessInvalid die c => Sys2Proof.Machine.execAccessInvalid die c s
  | .qnotl die => Sys2Proof.Machine.execQnotl die s
  | .qrdl die v => Sys2Proof.Machine.execQrdl die v s
  | .dispatch die k => Sys2Proof.Machine.execDispatch die k s
  | .done die => Sys2Proof.Machine.execDone die s
  | .rstcmd v => Sys2Proof.Machine.execRstcmd v s
  | .dierstSet die => Sys2Proof.Machine.execDierstSet die s
  | .dierstClear die => Sys2Proof.Machine.execDierstClear die s
  | .refreshSetup die => Sys2Proof.Machine.execRefreshSetup die s
  | .scrub die => Sys2Proof.Machine.execScrub die s
  | .defaultCircuits die => Sys2Proof.Machine.execDefaultCircuits die s
  | .connValidSet die n v => Sys2Proof.Machine.execConnValidSet die n v s
  | .connValidClear die n v => Sys2Proof.Machine.execConnValidClear die n v s
  | .circuitTuned die n => Sys2Proof.Machine.execCircuitTuned die n s
  | .tearDownDone die n => Sys2Proof.Machine.execTearDownDone die n s
  | .ringRemoval die ring => Sys2Proof.Machine.execRingRemoval die ring s
  | .held v => Sys2Proof.Machine.execHeld v s
  | .dbgtrig v => Sys2Proof.Machine.execDbgtrig v s
  | .exunlk f v => Sys2Proof.Machine.execExunlk f v s
  | .registerWrite f expert off v => Sys2Proof.Machine.execRegisterWrite f expert off v s
  | .heartbeatSend dom => Sys2Proof.Machine.execHeartbeatSend dom s
  | .heartbeat dom rank view hold => Sys2Proof.Machine.execHeartbeat dom rank view hold s
  | .suspicion dom rank => Sys2Proof.Machine.execSuspicion dom rank s
  | .propose dom v members proposer => Sys2Proof.Machine.execPropose dom v members proposer s
  | .ack dom v rank seq => Sys2Proof.Machine.execAck dom v rank seq s
  | .viewCommit dom v members seq => Sys2Proof.Machine.execViewCommit dom v members seq s
  | .proposeTimeout dom => Sys2Proof.Machine.execProposeTimeout dom s
  | .commitTimeout dom => Sys2Proof.Machine.execCommitTimeout dom s
  | .messageResend dom => Sys2Proof.Machine.execMessageResend dom s
  | .joinReq dom rank => Sys2Proof.Machine.execJoinReq dom rank s
  | .joinOffer dom v members coordinator => Sys2Proof.Machine.execJoinOffer dom v members coordinator s
  | .joinAck dom v rank => Sys2Proof.Machine.execJoinAck dom v rank s
  | .collectiveFlit dom tag seq sender f => Sys2Proof.Machine.execCollectiveFlit dom tag seq sender f s
  | .flitResend dom => Sys2Proof.Machine.execFlitResend dom s
  | .fin dom tag seq pos => Sys2Proof.Machine.execFin dom tag seq pos s
  | .confirm dom tag seq => Sys2Proof.Machine.execConfirm dom tag seq s
  | .requestTimeout t pa => Sys2Proof.Machine.execRequestTimeout t pa s
  | .syscallAnswer t role => Sys2Proof.Machine.execSyscallAnswer t role s
  | .dramStepEnd die => Sys2Proof.Machine.execDramStepEnd die s
  | .photonicStepEnd die => Sys2Proof.Machine.execPhotonicStepEnd die s
  | .faultRingEntryFree ctx => Sys2Proof.Machine.execFaultRingEntryFree ctx s
  | .otherCommandCode seq code => Sys2Proof.Machine.execOtherCommandCode seq code s
  | .governorUpdate watts rate => Sys2Proof.Machine.execGovernorUpdate watts rate s
  | .strikeReport die cell => Sys2Proof.Machine.execStrikeReport die cell s
  | .hostApertureAccess off acc => Sys2Proof.Machine.execHostApertureAccess off acc s
  | .linkAtomic addr op value compare => Sys2Proof.Machine.execLinkAtomic addr op value compare s
  | .notify q bytes value => Sys2Proof.Machine.execNotify q bytes value s
  | .singleStep t group slice => Sys2Proof.Machine.execSingleStep t group slice s
  | .bondLaneRepair die failing => Sys2Proof.Machine.execBondLaneRepair die failing s
  | .timingCalibration die meas => Sys2Proof.Machine.execTimingCalibration die meas s
  | .refreshRejudge die temp => Sys2Proof.Machine.execRefreshRejudge die temp s
  | .light die strong => Sys2Proof.Machine.execLight die strong s
  | .tune die heats => Sys2Proof.Machine.execTune die heats s
  | .lock die rings => Sys2Proof.Machine.execLock die rings s
  | .ringLockLoss die ring => Sys2Proof.Machine.execRingLockLoss die ring s
  | .passcomponenttable component => Sys2Proof.Machine.execPasscomponenttable component s
  | .updatecomponent component size => Sys2Proof.Machine.execUpdatecomponent component size s
  | .requestfirmwaredata off data => Sys2Proof.Machine.execRequestfirmwaredata off data s
  | .transfercomplete ok => Sys2Proof.Machine.execTransfercomplete ok s
  | .linkUp lanes zeroAt errors => Sys2Proof.Machine.execLinkUp lanes zeroAt errors s
  | .budgetRefill => Sys2Proof.Machine.execBudgetRefill s
  | .snapshotLatch => Sys2Proof.Machine.execSnapshotLatch s
  | .train => Sys2Proof.Machine.execTrain s
  | .linkRetrain => Sys2Proof.Machine.execLinkRetrain s
  | .flerrs => Sys2Proof.Machine.execFlerrs s
  | .lcdatal => Sys2Proof.Machine.execLcdatal s
  | .counterSave => Sys2Proof.Machine.execCounterSave s
  | .powerGood => Sys2Proof.Machine.execPowerGood s
  | .oscclk => Sys2Proof.Machine.execOscclk s
  | .stepLimitExpiry => Sys2Proof.Machine.execStepLimitExpiry s
  | .querydeviceidentifiers => Sys2Proof.Machine.execQuerydeviceidentifiers s
  | .getfirmwareparameters => Sys2Proof.Machine.execGetfirmwareparameters s
  | .requestupdate => Sys2Proof.Machine.execRequestupdate s
  | .verifycomplete => Sys2Proof.Machine.execVerifycomplete s
  | .applycomplete => Sys2Proof.Machine.execApplycomplete s
  | .activatefirmware => Sys2Proof.Machine.execActivatefirmware s
  | .getstatus => Sys2Proof.Machine.execGetstatus s
  | .cancelupdatecomponent => Sys2Proof.Machine.execCancelupdatecomponent s
  | .cancelupdate => Sys2Proof.Machine.execCancelupdate s
  | .activationTimeout => Sys2Proof.Machine.execActivationTimeout s
  | .powerLoss => Sys2Proof.Machine.execPowerLoss s
  | .linkRetry => Sys2Proof.Machine.execLinkRetry s

end Sys2Proof.Machine
end

