-- ==== Sys2Proof/Machine/Schedule.lean ====
section
/-! DEFINITION. Which unit or event acts next: instruction fetch, segments and tickets (R26, R27, R106, R107), fused groups (R162,
R163), the issue ports (R312), the events that fall due by themselves, and the passing of a cycle. -/

namespace Sys2Proof.Machine

/-! Instruction words -/

/-- The words at a PC as the front end looks ahead, past every permission; compositor code lies in the flash (R376). -/
def codeWord (s : State) (c : CtxId) (pc : Word) : BitVec 96 :=
  match c with
  | .firmware _ => BitVec.ofNat 96 (leNat (s.mem.bytes (imageAt (runSlot s) 1 + 0x200 + 12 * pc.toNat) 12))
  | c => peekWord s c pc
/-- The level of a word by its SC field; a reserved code is the slice's, which raises its fault (R2, R41). DEDUCED, log 19, unsafe. -/
def wordLevel (w : BitVec 96) : Nat :=
  match (Fields.ofWord w).sc.toNat with
  | 2 => 2
  | 3 => 3
  | 4 => 4
  | _ => 1
/-- The level of the word at a context's PC. -/
def levelHere (s : State) (c : CtxId) : Nat := wordLevel (codeWord s c (s.ctx c).pc)

/-- What decides the checks of a unit's words (R45). -/
def envOf (s : State) (c : CtxId) : DecEnv :=
  match c with
  | .firmware _ => ⟨256, true⟩
  | .grid n r => ⟨(((gridTeams s n).head?.bind (fun t => role? s t r)).map (fun q => q.budget)).getD 256, false⟩
  | c => ⟨((c.team?.bind (fun t => role? s t (roleOf s c))).map (fun q => q.budget)).getD 256, false⟩

/-- What a fetch meets. -/
inductive Fetched
  | word (w : BitVec 96)
  | miss (va : Nat)
  | fault (c : Cause) (va : Nat)
  deriving DecidableEq, Repr

/-- The core through which a unit fetches. -/
def fetchCore (s : State) (c : CtxId) : Nat :=
  match c.team?.bind s.team? with
  | some x => x.core
  | none => Config.coresPerDie * ((launchOf s c).map (fun l => l.home)).getD 0

/-- The words at the PC of a unit, fetched with the checks of R266; a word may lie in two pages. -/
def fetch (s : State) (c : CtxId) : Fetched :=
  match launchOf s c with
  | none => .word (codeWord s c (s.ctx c).pc)
  | some l =>
    let va := (l.codeBase + 12 * (s.ctx c).pc.toNat) % 2 ^ 57
    let last := (va + 11) % 2 ^ 57
    match translate s (fetchCore s c) l.ctx va .fetch (walksOf s c), translate s (fetchCore s c) l.ctx last .fetch (walksOf s c) with
    | .miss, _ => .miss va
    | _, .miss => .miss last
    | .fault e, _ => .fault e va
    | _, .fault e => .fault e last
    | .ok p, .ok q =>
      let n := min 12 (65536 - va % 65536)
      .word (BitVec.ofNat 96 (leNat (s.mem.bytes p n ++ s.mem.bytes (q + n - 11) (12 - n))))

/-! One attempt of a unit -/

/-- A unit tries the instruction at its PC: the fetch, whose faults show the SC of the word (R254), the decode checks of R45 and R46, then its
meaning. A W-scope instruction in a handler is illegal there (R255). A unit that has run ahead waits with a fault until program order has reached
it (R42, R46). -/
def attemptOne (s : State) (c : CtxId) : Host.Outcome State Fault Refusal :=
  let s := { s with cur := some c, took := .none }
  let wait (s : State) (w : Wait) : State := { s.modCtxs (unitOf s c) (fun x => { x with wait := some w }) with took := .stalled }
  match fetch s c with
  | .miss va => .next (wait (startWalk s (fetchCore s c) (((launchOf s c).map (fun l => l.ctx)).getD 0) va) (.walk va (walksOf s c)))
  | .fault e va =>
    if !(s.ctx c).tickets.isEmpty then .next (wait s .lower)
    else .next (raise s c (Fields.ofWord (codeWord s c (s.ctx c).pc)).sc.toNat { cause := e, addr := BitVec.ofNat 32 va, aux := BitVec.ofNat 32 (va / 2 ^ 32) })
  | .word w =>
    match decode (envOf s c) w with
    | .ok i =>
      if c.level = 3 && wordLevel w = 4 then
        (if !(s.ctx c).tickets.isEmpty then .next (wait s .lower) else .next (raise s c 4 { cause := .illop }))
      else exec i s
    | .error d =>
      if !(s.ctx c).tickets.isEmpty then .next (wait s .lower)
      else .next (raise s c (Fields.ofWord w).sc.toNat { cause := d.cause, addr := d.addr, aux := d.aux })

/-- Whether an attempt did something: it did not only wait. -/
def progress : Host.Outcome State Fault Refusal → Bool
  | .next t => t.took ≠ .stalled
  | _ => true

/-! Fused groups (R162, R163) -/

/-- The head of an instruction that may stand in a fused group, the registers it writes, and whether it names a queue
register. -/
def fuseHead : Instr → Option (Head × List Reg × Bool)
  | .icmp h _ _ d a b => some (h, [.p d], namesQueue [] [.reg a 1, .src b])
  | .fcmp h _ _ d a b => some (h, [.p d], namesQueue [] [.reg a 1, .src b])
  | .add h ty _ d a b => some (h, (List.range ty.words).map d.up, namesQueue [d] [.reg a 1, .src b])
  | .and h ty d a b => some (h, (List.range ty.words).map d.up, namesQueue [d] [.reg a 1, .src b])
  | .lea h ty _ d a b => some (h, (List.range ty.words).map d.up, namesQueue [d] [.reg a 1, .src b])
  | .ffma h _ _ d a b c => some (h, [d], namesQueue [d] [.reg a 1, .reg b 1, .reg c 1])
  | .fmax h _ d a b => some (h, [d], namesQueue [d] [.reg a 1, .src b])
  | .cvt h dst _ _ _ _ d a => some (h, (List.range (match dst with
      | .int ty => ty.words
      | .flt _ => 1)).map d.up, namesQueue [d] [.reg a 1])
  | .ld h _ _ _ _ d a off => some (h, [d], namesQueue [d] [.reg a 1, .src off])
  | .st h _ _ _ d a off => some (h, [], namesQueue [] [.reg d 1, .reg a 1, .src off])
  | .plop h _ d _ _ _ => some (h, [.p d], false)
  | .rcv h _ => some (h, [], false)
  | .br h _ _ _ _ => some (h, [], false)
  | _ => none

/-- The links of the table of R162 between two members that follow each other. -/
def linked (x : Scope) : Instr → Instr → Bool
  | .icmp _ _ _ d _ _, .br _ cs _ (some a) _ => a == d && cs == x
  | .fcmp _ _ _ d _ _, .br _ cs _ (some a) _ => a == d && cs == x
  | .add _ _ _ d _ _, .icmp _ _ _ _ a _ => a == d
  | .and _ _ d _ _, .icmp _ _ _ _ a _ => a == d
  | .lea _ _ _ d _ _, .ld _ _ _ _ _ _ a _ => a == d
  | .lea _ _ _ d _ _, .st _ _ _ _ _ a _ => a == d
  | .ffma _ _ _ d _ _ _, .fmax _ _ _ a _ => a == d
  | .cvt _ _ _ _ _ _ d _, .st _ _ _ _ e _ _ => e == d
  | _, _ => false
/-- The triples of R162. -/
def linkedThree (x : Scope) : Instr → Instr → Instr → Bool
  | .ffma _ _ _ d _ _ _, .fmax _ _ e a _, .cvt _ _ _ _ _ _ _ b => a == d && b == e
  | .ffma _ _ _ d _ _ _, .cvt _ _ _ _ _ _ e a, .st _ _ _ _ f _ _ => a == d && f == e
  | .icmp _ _ _ d _ _, .rcv _ _, .br _ cs _ (some a) _ => a == d && cs == x
  | .icmp _ _ _ d _ _, .plop _ _ e a b c, .br _ cs _ (some f) _ => (a == d || b == d || c == d) && f == e && cs == x
  | _, _, _ => false

/-- Whether a member may follow the first one, as its heads stand. -/
def follows (f m : Head) (i : Instr) : Bool :=
  m.guard == f.guard && !m.join && (m.scope == f.scope || (f.scope == .L && m.scope == .S && (match i with
    | .br .. | .rcv .. => true
    | _ => false)))
    && (f.scope ≠ .L || (match i with
      | .rcv .. => m.scope == .S
      | _ => true))
def quiet (h : Head) : Bool := h.hints.gap == 0 && !h.hints.yld

/-- The instruction at a PC that may stand in a fused group. -/
def memberAt (s : State) (c : CtxId) (pc : Word) : Option (Instr × Head) :=
  match decode (envOf s c) (codeWord s c pc) with
  | .ok i => match fuseHead i with
    | some (h, _, false) => some (i, h)
    | _ => none
  | .error _ => none
/-- How many members follow the first one at a PC. Where two groups of the table overlap, the one that starts first stands, and a triple
before a pair. DEDUCED, log 124, unsafe. -/
def fuseCount (s : State) (c : CtxId) (pc : Word) : Nat :=
  match memberAt s c pc with
  | none => 0
  | some (i, h) =>
    if !quiet h then 0
    else match memberAt s c (pc + 1) with
      | none => 0
      | some (j, g) =>
        if !follows h g j then 0
        else
          let pair := if linked h.scope i j then 1 else 0
          if !quiet g then pair
          else match memberAt s c (pc + 2) with
            | some (k, f) => if follows h f k && linkedThree h.scope i j k then 2 else pair
            | none => pair
/-- The registers that the instruction at a PC writes, as a member of a fused group. -/
def memberWrites (s : State) (c : CtxId) (pc : Word) : List Reg :=
  match decode (envOf s c) (codeWord s c pc) with
  | .ok i => ((fuseHead i).map (fun m => m.2.1)).getD []
  | .error _ => []

/-- A group that a later member keeps from issuing: nothing of it has issued, but for the walks begun. -/
def heldBack (s : State) (c : CtxId) (t : State) : State :=
  { (unmade s t).modCtxs (unitOf s c) (fun x => { x with wait := (t.ctx c).wait }) with cur := some c, took := .stalled }
/-- The registers that a member reads anew: those that the member before it has written, or, where that writes none, those that this one read
anew itself; it names the linked result by one of them (R162, R163). -/
def linkedRegs (s : State) (c : CtxId) (pc : Word) (old : List Reg) : List Reg :=
  if (memberWrites s c pc).isEmpty then old else memberWrites s c pc
/-- The members of a group from a PC on, n of them, after those before it have issued (R163). -/
def fuseRest (s : State) (c : CtxId) : Nat → Word → State → Host.Outcome State Fault Refusal
  | 0, _, t => .next (t.modCtxs (unitOf s c) (fun x => { x with fresh := [] }))
  | n + 1, pc, t =>
    let u := t.modCtxs (unitOf s c) (fun x => { x with fresh := linkedRegs s c (pc - 1) x.fresh, wait := (s.ctx c).wait })
    match attemptOne u c with
    | .next v =>
      if v.took = .stalled then .next (heldBack s c v) else if v.took = .issued then fuseRest s c n (pc + 1) v else .next v
    | o => o
/-- A unit tries the instruction at its PC, with the members of its group behind it: they issue in one slot (R162, R163). -/
def attempt (s : State) (c : CtxId) : Host.Outcome State Fault Refusal :=
  let pc := (s.ctx c).pc
  let n := fuseCount s c pc
  match attemptOne s c with
  | .next t => if n ≠ 0 && t.took = .issued then fuseRest s c n (pc + 1) t else .next t
  | o => o

/-! Active units -/

/-- Whether a context takes no segments from above: a grid context, a compositor, a team context in its handler (R255). -/
def isTop (s : State) : CtxId → Bool
  | .grid .. | .firmware _ => true
  | .team t r => ((role? s t r).map (fun q => q.handler.isSome)).getD false
  | _ => false

/-- Whether a unit's role stands at the boundary at which it takes VIEWCHG, until that is delivered (R335). -/
def viewDue (s : State) (c : CtxId) : Bool :=
  match c.team?.bind (fun t => role? s t (roleOf s c)) with
  | some q => !q.viewchg.isEmpty && q.handler.isNone && !q.ended
  | none => false
/-- Whether a unit may act now: nothing has stopped it, its role or its team, or a single step lets it, in whose handler its role alone runs
(R270). W scope stalls while firmware changes over (R370). -/
def unitActive (s : State) (c : CtxId) : Bool :=
  (s.ctx c).stop.isNone && (match c with
    | .grid .. | .firmware _ => !s.pldm.activating
    | c => match c.team?.bind s.team? with
      | none => false
      | some x => !x.leaving && (match x.state, x.stepping with
        | .running, _ => !viewDue s c
        | .stopped .debug, some (g, i, 0) => (unitOf s c).any (fun u => match u with
          | .slice _ h j => h == g && j == i
          | _ => false)
        | .stopped .debug, some (g, _, 2) => roleOf s c == x.roleOfGroup g
        | .stopped .debug, some _ => true
        | _, _ => false))

/-- The slices and sequencer contexts with work: live slices, groups and roles with live lanes, grids, compositors. -/
def workers (s : State) : List CtxId :=
  (s.ctxs.map (fun e => e.1)).filter (fun c => unitActive s c && (match c with
    | .slice .. => (s.ctx c).live
    | .firmware k => k < Config.dies
    | c => !(children s c).isEmpty))

/-! Segments and tickets -/

/-- The end of the segment that starts at a PC: the first word at or above a level; the fuel bounds a run of unlisted memory. -/
def segmentEnd (s : State) (c : CtxId) (level : Nat) : Nat → Word → Word
  | 0, pc => pc
  | n + 1, pc => if level ≤ wordLevel (codeWord s c pc) then pc else segmentEnd s c level n (pc + 1)

/-- A segment for a checkpoint's record of a context. -/
def ckSeg (c : CtxId) (g : Seg) (k : Ckpt) : Ckpt :=
  { k with ctxs := k.ctxs.map (fun (e : CkCtx) => if e.id = c ∧ e.seen < g.tid then { e with segs := e.segs ++ [g], seen := g.tid } else e) }
/-- A segment given to a child, once: a team context that is in its handler gets it for its return, and the checkpoints of a team hold
what its grid context has handed down. -/
def giveSeg (s : State) (g : Seg) (c : CtxId) : State :=
  let s := s.modCtx c (fun x => match c, x.saved with
    | .team .., some k => if k.seen < g.tid then { x with saved := some { k with segs := k.segs ++ [g], seen := g.tid } } else x
    | _, _ => if x.seen < g.tid then { x with segs := x.segs ++ [g], seen := g.tid } else x)
  match c with
  | .team t _ => s.modTeam t (fun x => { x with ckpts := x.ckpts.map (ckSeg c g), ckpt0 := x.ckpt0.map (ckSeg c g) })
  | _ => s
/-- A segment handed down with its ticket (R106). The units below wait with the instructions that read what is on its way (R51).
DESIGN CHOICE, log 18, unsafe. -/
def handDown (s : State) (c : CtxId) : State :=
  let x := s.ctx c
  let fin := segmentEnd s c c.level (s.mem.cells.length + 1) (x.pc + 1)
  let k : Ticket := ⟨x.nextTid, fin, (List.range 4).map (fun i => x.through (.lc i)), x.calls, x.logBase + x.log.length⟩
  let s := s.modCtx c (fun y => { y with tickets := y.tickets ++ [k], nextTid := y.nextTid + 1, pc := fin, past := drop k.id y.past })
  (children s c).foldl (fun s u => giveSeg s ⟨x.pc, fin, k.id⟩ u) s

/-- Whether a unit at a PC stands at an instruction of a higher scope. -/
def aboveAt (s : State) (c : CtxId) (pc : Word) : Bool := c.level < wordLevel (codeWord s c pc)
/-- Whether a unit that stands at an instruction of a higher scope has come to the end of its segment: where its sequencer goes on,
or past it outside every subroutine. Any other such word stands outside the segment, in code that the unit's own control has
reached; it is not in its sequencer's fetch order, and the unit passes over it (R106, R273). DEDUCED, log 20, unsafe. -/
def endsAt (s : State) (c : CtxId) (pc : Word) : Bool :=
  let x := s.ctx c
  match x.segs.head? with
  | some g => pc == g.fin || (x.calls.isEmpty && decide (g.fin.toNat < pc.toNat))
  | none => true

/-- Whether a child still has to issue something of a segment (R27, R107). A unit that waits in `BAR` at the segment's last word has
issued it. -/
def holdsSeg (s : State) (tid : Nat) (u : CtxId) : Bool :=
  let x := s.ctx u
  let segs := match u, x.saved with
    | .team .., some k => k.segs
    | _, _ => x.segs
  segs.any (fun g => g.tid == tid) && !((segs.head?.map (fun g => g.tid == tid)).getD false && (match x.wait with
    | some (.barrier _ true) => aboveAt s u (x.pc + 1) && endsAt s u (x.pc + 1)
    | _ => false))
/-- The oldest ticket freed with its log entries. -/
def Ctx.retireTicket (x : Ctx) : Ctx :=
  let rest := x.tickets.tail
  let pos := (rest.head?.map (fun k => k.pos)).getD (x.logBase + x.log.length)
  { x with tickets := rest, log := x.log.drop (pos - x.logBase), logBase := pos }

/-- One context's segments: the next one begun, a finished one left, one handed down, one retired (R26, R27, R106, R107). DEDUCED, log 21, unsafe. -/
def tidyCtx (s : State) (c : CtxId) : State :=
  let x := s.ctx c
  let level := levelHere s c
  let top := isTop s c
  let s := match x.tickets with
    | k :: _ => if (children s c).any (holdsSeg s k.id) then s else s.modCtx c Ctx.retireTicket
    | [] => s
  if !top && !x.busy then
    (match x.segs, parent s c with
      | g :: _, some p => if g.tid < (s.ctx p).nextTid then s.modCtx c (fun y => { y with pc := g.start, busy := true }) else s
      | _, _ => s)
  else if !top && c.level < level && !endsAt s c x.pc && !(c.level == 1 && isParted s (c.team?.getD ⟨0, 0⟩) (groupNo c)) then
    s.modCtx c (fun y => { y with pc := y.pc + 1 })
  else if !top && c.level < level then
    if x.tickets.isEmpty && !(c.level == 1 && (isParted s (c.team?.getD ⟨0, 0⟩) (groupNo c))) then
      s.modCtx c (fun y => { y with segs := y.segs.tail, busy := false })
    else s
  else if level < c.level && x.tickets.length < Config.maxTickets && (match c with
      | .firmware _ => false
      | _ => true) then handDown s c
  else s

/-- A W-scope instruction whose role has arrived in every team: the barrier tree releases it 120 cycles later (R96, R319). DEDUCED, log 24, unsafe. -/
def arriveW (s : State) (c : CtxId) : State :=
  match c with
  | .grid n r =>
    let l := (s.launch? n).map (fun l => l.arrived.any (fun a => a.1 == r) || l.ready.contains r)
    if levelHere s c = 4 ∧ (s.ctx c).tickets.isEmpty ∧ l = some false then
      s.modLaunch n (fun l => { l with arrived := l.arrived ++ [(r, s.treeCycle + Config.barrierRelease)] })
    else s
  | _ => s

/-- VIEWCHG delivered to a role at an issue boundary (R335): the newest number of a domain, once no role of its team is in its handler. -/
def deliverView (s : State) (t : TeamId) (r : Nat) : State :=
  match role? s t r with
  | none => s
  | some q => match q.viewchg with
    | [] => s
    | (dom, v) :: _ =>
      let ready := ((s.team? t).map (fun x => decide (x.state = .running) && !x.leaving && !x.handling && x.faults.isEmpty
        && frameFits s t x r)).getD false
      if !ready || q.ended || q.handler.isSome || (roleCtxs s t r).any (fun c => (s.ctx c).stop.isSome) then s
      else
        let s := s.modTeam t (fun x => { x with roles := x.roles.modify r (fun q => { q with viewchg := drop dom q.viewchg }) })
        let s := s.modCtxs (roleCtxs s t r) Ctx.halt
        let pc := (s.ctx (.team t r)).pc
        route s t r ⟨.team t r, { cause := .viewchg, addr := BitVec.ofNat 32 v, aux := BitVec.ofNat 32 dom }, pc, peekWord s (.team t r) pc, 3⟩
/-- The VIEWCHG due of every team. -/
def deliverViews (s : State) : State :=
  s.teams.foldl (fun s e => (List.range e.2.roles.length).foldl (fun s r => deliverView s e.1 r) s) s

/-- A compositor that raised a fault has stopped: the recovery sequencer resets its die, which it then releases (R376, R384). -/
def resetFaulted (s : State) : State :=
  s.ctxs.foldl (fun s e => match e.1, e.2.stop with
    | .firmware k, some _ => (dieDown s k).at_ s.cycle (.dierstClear k)
    | _, _ => s) s

/-- What a stop with STEP names: the instruction of a unit at a PC (R254, R255). -/
def stepAt (s : State) (c : CtxId) (pc : Word) : Pending :=
  ⟨c, { cause := .step }, pc, codeWord s c pc, (Fields.ofWord (codeWord s c pc)).sc.toNat⟩
/-- A single step whose handler has returned (R270): it names the instruction that the slice stands at. -/
def endSteps (s : State) : State :=
  s.teams.foldl (fun s e => match e.2.stepping with
    | some (g, i, 2) =>
      let u := CtxId.slice e.1 g i
      if inHandler s u then s else stepStop s e.1 u (stepAt s u (s.ctx u).pc) (partedUnit s u)
    | _ => s) s
/-- Whether the instruction that a stepped slice stands at needs other units (R270): one of a higher scope, or a wait that another unit
ends. -/
def needsOthers (s : State) (u : CtxId) : Bool :=
  let x := s.ctx u
  (aboveAt s u x.pc && (!x.busy || endsAt s u x.pc)) || (match x.wait with
    | some .regang | some (.barrier ..) | some (.queuePop ..) | some (.queuePush ..) => true
    | _ => false)

/-- What needs no time: segments, arrivals, teams that have drained, members that have settled. -/
def tidy (s : State) : State :=
  let s := endSteps (resetFaulted (deliverViews (noteHalts (saveAll s))))
  let s := (s.teams.map (fun e => e.1)).foldl deliverQueued s
  let s := flushSignals ((s.contexts.map (fun x => x.num)).foldl flushRing s)
  let s := s.domains.foldl (fun s d => if d.offer.isSome then answerOffer s d.num else s) s
  let s := s.domains.foldl (fun s d => ((s.domain? d.num).map (drainEarly s)).getD s) s
  let s := (workers s).foldl tidyCtx s
  (workers s).foldl arriveW s

/-! Events that fall due by themselves -/

/-- The first event of a list that is due. -/
def firstOfAll {α : Type} (l : List α) (due : α → Bool) (i : α → Instr) : Option Instr := (l.find? due).map i

/-- Events of power-up, service and update. DESIGN CHOICE, log 102, unsafe. -/
def dueBoot (s : State) : Option Instr :=
  if s.boot = .cold then (if 1000000 ≤ s.tick then some .powerGood else none)
  else if pastLimit s s.limit || s.dies.any (lateDie s) || lateTraining s then some .stepLimitExpiry
  else if s.boot = .running && s.pages.govAt ≤ s.tick then
    some (.governorUpdate (Config.watts s.nonce) (Config.refillRate s.pages.govlim (Config.watts s.nonce) s.nonce))
  else if (s.boot = .running || s.boot = .recovery) && s.pages.savedAt + 10 ^ 9 ≤ s.tick then some .counterSave
  else if s.pldm.activating && s.pldm.until_ ≤ s.tick then some .activationTimeout
  else s.dies.findSome? (fun d => firstOfAll d.phot.lost (fun e => e.2 ≤ s.tick) (fun e => .ringRemoval d.num e.1))

/-- Releases of the package barrier tree (R319). -/
def dueTree (s : State) : Option Instr :=
  match firstOfAll s.pbars (fun b => b.2.releasing && b.2.due ≤ s.treeCycle) (fun b => .pbarRelease b.1) with
  | some i => some i
  | none => match s.launches.findSome? (fun l => (l.arrived.find? (fun a => a.2 ≤ s.treeCycle)).map (fun a => (l.num, a.1))) with
    | some (n, r) => some (.wScopeExecution n r)
    | none => firstOfAll s.pages.triggers (fun t => t.cycle + Config.barrierRelease ≤ s.treeCycle) (fun _ => .snapshotLatch)

/-- Events of galleys, checkpoints, teams and grids. -/
def dueTeams (s : State) : Option Instr :=
  match (releasable (outflows s) [] s.galley).1.head? with
  | some h => some (.galleyRelease (dieOf h.core) (h.core % Config.coresPerDie))
  | none =>
    match s.teams.find? (fun e => (e.2.ckpts.head?.map (fun k => !k.valid && decide (k.c + Config.galleyWindow < s.tick))).getD false) with
    | some e => some (.checkpointValid e.1)
    | none =>
      match s.teams.find? (fun e => teamDone s e.1 e.2 || (teamOver s e.1 e.2 && teamFlushes s e.1 e.2)) with
      | some e => some (.teamEnd e.1)
      | none =>
        match firstOfAll s.launches (fun l => gridDone s l.num && !vaHeld s l.ctx l.signal 8) (fun l => .gridEnd l.num) with
        | some i => some i
        | none => firstOfAll s.ctxs (fun e => match e.2.wait with
          | some (.nap u) => u ≠ 0 && u ≤ s.tick
          | _ => false) (fun e => .napExpiry e.1)

/-- Events of contexts and queues: time slices, the waiting budget, placement, restores, packets (R262, R303, R305, R306, R351). -/
def dueQueues (s : State) : Option Instr :=
  match firstOfAll s.contexts (fun x => x.sliceEnd ≤ s.tick) (fun x => .timeSliceEnd x.num) with
  | some i => some i
  | none => match firstOfAll s.contexts (fun x => spent s x) (fun x => .waitbudget x.num) with
    | some i => some i
    | none =>
      if s.pldm.activating then none
      else
        let could (q : HQueue) : Bool := q.state == 1 && ((waiting q).map (fun p => (placementOf s q p).isSome)).getD false
        let qs := s.queues.filter could
        match qs.find? (fun q => qs.all (fun r => r.prio < q.prio || (r.prio == q.prio && q.placed ≤ r.placed))) with
        | some q => some (.placement q.num)
        | none =>
          match s.saved.find? (fun v => (places? s v.id).isSome && !roomKept s v.id) with
          | some v => some (if v.requeue = 0 then .teamRestore v.id else .teamReschedule v.id)
          | none => match firstOfAll s.queues (fun q => q.deps.isSome && q.sampleAt ≤ s.tick && ((q.ready.head?.map (fun p => p.type)) == some 2))
              (fun q => .barrierAndSample q.num) with
          | some i => some i
          | none =>
            let qs := s.queues.filter (fun q => !s.hasCtx (.firmware q.home) && (slotAt s q).isSome && !packetHeld s q)
            firstOfAll qs (fun q => qs.all (fun r => r.prio < q.prio || (r.prio == q.prio && q.served ≤ r.served))) (fun q => .packetConsume q.num)

/-- Events of one collective domain (R330, R331, R336, R343). -/
def dueDomain (s : State) (d : Domain) : Option Instr :=
  let past := (d.deadline.map (fun t => decide (t ≤ s.tick))).getD false
  if d.beat ≤ s.tick then some (.heartbeatSend d.num)
  else match firstOfAll d.others (overdue s d) (fun r => .suspicion d.num r) with
    | some i => some i
    | none =>
      if past && d.state == .leading && d.proposal.isSome then some (.proposeTimeout d.num)
      else if mustPropose d then some (.suspicion d.num (d.suspected.headD 0))
      else if past && (d.state == .acked || d.state == .joining) then some (.commitTimeout d.num)
      else if d.again ≤ s.tick && !(unanswered d).isEmpty then some (.messageResend d.num)
      else if d.unacked.any (fun u => u.again ≤ s.tick) then some (.flitResend d.num)
      else none
def dueDomains (s : State) : Option Instr := if collStopped s then none else s.domains.findSome? (dueDomain s)

/-- The event that is due first. -/
def dueEvent (s : State) : Option Instr :=
  match dueBoot s with
  | some i => some i
  | none => match (dueTree s).or (dueTeams s) with
    | some i => some i
    | none => match dueQueues s with
      | some i => some i
      | none => dueDomains s

/-! The choice among units (R312) -/

/-- Whether no team of a grid in which a role lives is stopped: a W-scope instruction waits for one that is (R109). -/
def teamsRun (s : State) (n r : Nat) : Bool :=
  (gridTeams s n).all (fun t => match s.team? t, role? s t r with
    | some x, some q => q.ended || ((decide (x.state = .running) || x.stepping.isSome) && !x.leaving)
    | _, _ => true)
/-- Whether a unit's clock runs: a core's stands while it is stretched (R319, R391). -/
def clocked (s : State) : CtxId → Bool
  | .grid .. | .firmware _ => true
  | _ => !s.stretched
/-- Whether a unit stands at an instruction that is its own to try now. -/
def standsReady (s : State) (c : CtxId) : Bool :=
  let x := s.ctx c
  x.next ≤ s.cycle && clocked s c && (match c with
    | .slice t g _ =>
      if isParted s t g then x.busy || isTop s c
      else (liveSlices s t g).head? == some c && (liveSlices s t g).all (fun u => (s.ctx u).busy) && levelHere s c == 1
    | .group .. => x.busy && levelHere s c == 2
    | .team t r => if isTop s c then 3 ≤ levelHere s c else x.busy && levelHere s (.team t r) == 3
    | .grid n r => ((s.launch? n).map (fun l => l.ready.contains r)).getD false && levelHere s c == 4 && teamsRun s n r
    | .firmware _ => true)
/-- DEDUCED, log 23, safe. -/
def candidates (s : State) : List CtxId := (workers s).filter (standsReady s)

/-- The port of a slice-stream: its core, and its group modulo 4. -/
def portOf (s : State) (c : CtxId) : Nat × Nat := (coreOf s (c.team?.getD ⟨0, 0⟩), groupNo c % 4)
/-- Whether a slice-stream comes before another: the one whose last issue lies further back, then by group and slice. -/
def before (s : State) (a b : CtxId) : Bool :=
  (s.ctx a).last < (s.ctx b).last
    || ((s.ctx a).last == (s.ctx b).last && (groupNo a < groupNo b || (groupNo a == groupNo b && sliceNo a ≤ sliceNo b)))
/-- The stream that a port issues from, out of its streams and the ready ones among them. -/
def portPick (s : State) (streams ready : List CtxId) : Option CtxId :=
  let old := ready.filter (fun c => 64 ≤ (s.ctx c).skip)
  let pool := if old.isEmpty then ready else old
  let newest := streams.foldl (fun n c => max n (s.ctx c).last) 0
  let keep := pool.filter (fun c => !((s.ctx c).yld && (s.ctx c).last == newest))
  let pool := if keep.isEmpty then pool else keep
  pool.find? (fun c => pool.all (before s c))
/-- The unit that issues next on every port that has not issued in this cycle, out of the ready streams. -/
def portPicks (s : State) (ready : List CtxId) : List CtxId :=
  let streams := (s.ctxs.map (fun e => e.1)).filter (fun c => c.level == 1)
  (distinct (ready.map (portOf s))).filterMap (fun p =>
    let mine := streams.filter (fun c => portOf s c == p)
    if mine.any (fun c => (s.ctx c).last == s.cycle + 1) then none
    else portPick s mine (ready.filter (fun c => portOf s c == p)))

/-! After an instruction, and the passing of a cycle -/

/-- Whether the instruction of a unit c is the one that a stepped slice stands at (R270): its own, or that of an upper context on its
path; a `REGANG` issues in every slice that waits in it. -/
def stepsWith (s : State) (c u : CtxId) : Bool :=
  (unitOf s c).contains u || ((s.ctx u).wait = some .regang && groupCtx c = groupCtx u)
    || ((c = groupCtx u || c = teamCtx s u || c = gridCtx s u) && (s.ctx c).pc = (s.ctx u).pc)
/-- The single step of one team after an instruction of a unit (R270). -/
def noteStepOf (s : State) (c : CtxId) (t : State) (k : TeamId) (x : Team) : State :=
  match x.stepping with
  | none => t
  | some (g, i, stage) =>
    let u := CtxId.slice k g i
    if stage < 2 && stepsWith s c u then
      if t.took = .issued then
        stepStop t k u (stepAt s (if c.level = 1 then u else c) ((s.ctx c).pc + BitVec.ofNat 32 (fuseCount s c (s.ctx c).pc))) (partedUnit s u)
      else if ((role? t k (roleOf s u)).map (fun q => q.handler.isSome)).getD false && ((t.team? k).map (fun y => decide (y.state = x.state))).getD false then
        t.modTeam k (fun y => { y with stepping := some (g, i, 2) })
      else t.modTeam k (fun y => { y with stepping := none })
    else if t.took = .trapped && (c.team? = some k) && ((t.team? k).map (fun y => decide (y.state = .stopped .host))).getD false then
      t.modTeam k (fun y => { y with stepping := none })
    else t
def noteStep (s : State) (c : CtxId) (t : State) : State :=
  s.teams.foldl (fun t e => noteStepOf s c t e.1 e.2) t
/-- What follows an attempt that did something. -/
def after (s : State) (c : CtxId) (t : State) : State :=
  if t.took = .issued then
    let t := match c with
      | .grid n r => t.modLaunch n (fun l => { l with ready := l.ready.filter (fun k => k ≠ r) })
      | _ => t
    noteStep s c t
  else if t.took = .trapped then noteStep s c t
  else t

/-- A unit that waits in this cycle: what its attempt began stays; one that found its port taken counts the cycle. -/
def waitOne (s : State) (c : CtxId) : State :=
  match attempt s c with
  | .next t => if t.took = .stalled then t else s.modCtxs (unitOf s c) (fun x => { x with skip := x.skip + 1 })
  | _ => s
/-- A cycle passes. DEDUCED, log 15, unsafe. -/
def passCycle (s : State) (cs : List CtxId) : State :=
  let s := cs.foldl waitOne s
  let s := { s with teams := s.teams.map (fun e => (e.1, { e.2 with stepping := match e.2.stepping with
    | some (g, i, 0) => if needsOthers s (.slice e.1 g i) then some (g, i, 1) else some (g, i, 0)
    | k => k })) }
  let s := (budgetWaiters s).foldl (fun s t => s.modTeam t (fun x =>
    { x with matstall := if x.matstall = 0xFFFFFFFF then x.matstall else x.matstall + 1 })) s
  let t := s.passCycles 1
  { chargeWaits t (t.tick - s.tick) with cur := none, took := .none }

/-- The units that are to be tried, each with what its attempt would do. -/
def tries (s : State) : List (CtxId × Host.Outcome State Fault Refusal) := (candidates s).map (fun c => (c, attempt s c))
/-- Whether a try ends in a fault, and in a breakpoint. -/
def traps : Host.Outcome State Fault Refusal → Bool
  | .next t => t.took = .trapped
  | _ => false
def breaks (s : State) (c : CtxId) : Host.Outcome State Fault Refusal → Bool
  | .next t => t.took = .trapped && ((c.team?.bind t.team?).map (fun x => x.state)) = some (.stopped .debug)
      && ((c.team?.bind s.team?).map (fun x => x.stepping)) = some none
  | _ => false
/-- Whether one of two units that fault in one cycle is delivered, and not the other: units of one role, or two breakpoints of one team
(R251, R269). -/
def rivals (s : State) (a b : CtxId × Host.Outcome State Fault Refusal) : Bool :=
  traps a.2 && traps b.2 && a.1.team?.isSome && a.1.team? == b.1.team?
    && (roleOf s a.1 == roleOf s b.1 || (breaks s a.1 a.2 && breaks s b.1 b.2))
/-- Of the units that fault in one cycle with a unit, the one of the lowest group, and then slice (R251). -/
def foremost (s : State) (tried : List (CtxId × Host.Outcome State Fault Refusal)) (picks : List CtxId) (c : CtxId) : CtxId :=
  match tried.find? (fun e => e.1 = c) with
  | none => c
  | some e =>
    let rs := ((tried.filter (fun d => picks.contains d.1 && rivals s e d)).map (fun d => d.1))
    (rs.find? (fun a => rs.all (fun b => groupNo a < groupNo b || (groupNo a == groupNo b && sliceNo a ≤ sliceNo b)))).getD c
/-- The unit that issues, out of those whose attempts do something. -/
def picked (s : State) (tried : List (CtxId × Host.Outcome State Fault Refusal)) : Option CtxId :=
  let able := (tried.filter (fun e => progress e.2)).map (fun e => e.1)
  let picks := portPicks s (able.filter (fun c => c.level == 1)) ++ able.filter (fun c => c.level ≠ 1)
  if picks.length = 1 then picks.head? else (picks[Config.choice s.turn % picks.length]?).map (foremost s tried picks)
/-- One unit issues, or a cycle passes. -/
def issueNext (s : State) : Host.Outcome State Fault Refusal :=
  let tried := tries s
  match (picked s tried).bind (fun c => tried.find? (fun e => e.1 = c)) with
  | some (c, .next t) => .next (after s c t)
  | some (_, o) => o
  | none => .next (passCycle s (tried.map (fun e => e.1)))

/-- Whether an event comes over the link: the host's requests reach the device in their order (R245). -/
def overLink : Instr → Bool
  | .hostApertureAccess .. | .linkAtomic .. | .notify .. => true
  | _ => false
/-- The event from outside that comes next, with those that stay: the oldest, or, where that is one of the host's that waits, the oldest that
does not come over the link. -/
def nextEvent (s : State) : Option (Instr × List Instr) :=
  match s.inbox with
  | [] => none
  | i :: l =>
    if !hostWaits s i then some (i, l)
    else (l.find? (fun j => !overLink j)).map (fun j => (j, i :: l.erase j))
/-- What acts next: an event from outside, an outcome that falls due, an event that is due by itself, an
issue. -/
def advance (s : State) : Host.Outcome State Fault Refusal :=
  match nextEvent s with
  | some (i, rest) => exec i { s with inbox := rest }
  | none =>
    match s.timers.find? (fun e => e.1 ≤ s.cycle) with
    | some e => exec e.2 { s with timers := s.timers.erase e }
    | none =>
      let t := tidy s
      match dueEvent t with
      | some i => exec i t
      | none => if (candidates t).isEmpty && t ≠ s then .next t else issueNext t

/-- A new step. -/
def begin_ (s : State) : State := { noteSources s with turn := s.turn + 1, cur := none, took := .none, xm := none }

end Sys2Proof.Machine
end

