-- ==== Sys2Proof/Machine/Step.lean ====
section
/-! DEFINITION. The step of the machine, and the state whose next step runs one given instruction. -/

namespace Sys2Proof.Machine

/-- One step: whatever acts next. DESIGN CHOICE, log 1, unsafe. -/
def step (s : State) : Host.Outcome State Fault Refusal := advance (begin_ s)

/-! A program of one instruction -/

/-- The launch that the loaded program stands in: number 0, one team of one role on core 0, its code at address 0. -/
def loadLaunch : Launch where
  num := 0
  ctx := 0
  queue := 0
  slot := 0
  home := 0
  pairMode := false
  snap := true
  proof := false
  audit := false
  rel := 0
  n := 1
  extent := (1, 1, 1)
  codeBase := 0
  pvBase := 2 ^ 29
  pvStride := 65536
  trapPc := none
  carry := []
  signal := 0
  record := 0
  recK := none
  pbars := []
  spool := [(0, 1), (0, 0), (0, 0), (0, 0)]
  steals := []
  draws := []
  status := 0
  placed := true
  killed := []
  arrived := []
  ready := []
/-- Its context: tables at 0x10000 that map the first GiB onto itself. -/
def loadContext (tick : Nat) : Context where
  num := 0
  desc := 0
  root := 0x10000
  frBase := 0x100000
  frLog := 4
  slice := 0
  waitb := 0
  timeout := 2000
  pvmark := 0
  debug := false
  part := [0]
  used := 0
  usedFrac := 0
  sliceEnd := tick + 20000000
  frProd := 0
  frFree := 0
  frSeq := 0
  frHeld := []
  exhausted := false
/-- Its team at start: one group of one slice with the whole register budget. -/
def loadTeam : Team := newTeam 0 0 0 65536 none [⟨0, 1, 1, 256, 0, false, none, [], 0⟩] 0xFFFF none

/-- What memory holds for it: the tables, the instruction, and a `NOP.W` behind it, at which the upper contexts stand. -/
def loadBytes (at_ w : Nat) : List (Nat × Byte) :=
  placed at_ (leBytes 12 w) ++ placed 12 (leBytes 12 0xF000) ++ placed 0x10000 (leBytes 8 0x20001) ++ placed 0x20000 (leBytes 8 0x0F)

/-- A context that works on the loaded instruction, one that has handed it down, one that has not received it. -/
def Ctx.working (x : Ctx) : Ctx := { x with pc := 0, segs := [⟨0, 1, 1⟩], busy := true, seen := 1 }
def Ctx.handed (x : Ctx) : Ctx :=
  { x with pc := 1, segs := [⟨0, 1, 1⟩], busy := true, seen := 1, tickets := [⟨1, 1, [0, 0, 0, 0], [], 0⟩], nextTid := 2 }
def loadCtx (level : Nat) (c : CtxId) (x : Ctx) : Ctx :=
  if c.level < level then x else if c.level = level then (if level = 4 then { x with pc := 0 } else x.working) else x.handed

/-- Everything else at rest, so that no other unit or event comes first. -/
def atRest (s : State) : State :=
  { s with
    inbox := []
    timers := s.timers.filter (fun e => s.cycle < e.1) ++ [(s.cycle + 1024, .budgetRefill)]
    ctxs := []
    teams := []
    launches := []
    cores := [{ newCore 0 65535 with tlb := [(0, 0, 30, 0x0F)] }]
    ops := []
    galley := []
    signals := []
    stretched := false
    pbars := []
    contexts := []
    queues := []
    domains := []
    saved := []
    dies := s.dies.map (fun d => { d with phase := 0, limit := none, phaseBy := none, phot := { d.phot with lost := [] } })
    limit := none
    boot := .running
    pldm := .reset
    pages := { s.pages with dierst := 0, slot := 1, cfgSlot := 1, train := false, triggers := [], govAt := s.tick + 10000, savedAt := s.tick } }

/-- The state s with one instruction loaded: of a team that has just started, or, for the opcodes that only compositor code holds,
of the compositor of die 0. DESIGN CHOICE, log 7, safe. -/
def State.withFetchWord (s : State) (nbits w : Nat) : State :=
  let w := w % 2 ^ nbits % 2 ^ 96
  let r := atRest s
  if (wideEnv (w % 1024)).firmware then
    { r with
      mem := r.mem.writes (placed (imageAt 0 1 + 0x200) (leBytes 12 w))
      ctxs := [(.firmware 0, { sc := List.replicate 32 0 })] }
  else
    let level := wordLevel (BitVec.ofNat 96 w)
    let r := putTeam { r with
      mem := r.mem.writes (loadBytes 0 w)
      launches := [{ loadLaunch with ready := if level = 4 then [0] else [] }]
      contexts := [loadContext s.tick]
      ctxs := [(.grid 0 0, { sc := List.replicate 32 0 })] } ⟨0, 0⟩ loadTeam
    { r with ctxs := r.ctxs.map (fun e => (e.1, loadCtx level e.1 e.2)) }

end Sys2Proof.Machine
end

