-- ==== Sys2Proof/Safety.lean ====
section
/-! DEFINITION. The terms that claims use: safe runs, when a unit is free to issue an instruction, and what an instruction that
writes registers leaves. -/

namespace Sys2Proof

open Machine

/-- A run of n steps from a state that reaches a next state. -/
def SafeFrom (s : State) : Nat → Prop
  | 0 => True
  | n + 1 => ∃ t, step s = .next t ∧ SafeFrom t n

/-- A property of states that every step keeps. -/
def Kept (p : State → Prop) : Prop := ∀ s t, p s → step s = .next t → p t

/-! The issue of an instruction -/

/-- The unit's results that fall due, written (R48, R50). -/
def settled (s : State) (c : CtxId) : State := s.modCtxs (unitOf s c) (fun x => (x.settle s.cycle).collect)

/-- Whether the join of R99 has still to act before an instruction of a unit. -/
def joins (s : State) (c : CtxId) (h : Head) : Bool := h.join && h.scope.level == 1 && !((settled s c).ctx c).joined

/-- The state in which the body of an instruction runs: results that fall due written, and a join that merges made. -/
def entered (s : State) (c : CtxId) (h : Head) : State :=
  if joins s c h then (settled s c).modCtxs (unitOf s c) (fun x => { x.merge with joined := true }) else settled s c

/-- What the body is given: the unit, and the lanes or contexts whose guard holds (R44, R125). -/
def envAt (s : State) (c : CtxId) (h : Head) (raw : Bool) : Env :=
  let u := entered s c h
  ⟨c, h.scope, h, unitOf u c, if raw then [] else participants u h.scope c (unitOf u c) h.guard⟩

/-- A unit whose turn it is may issue an instruction of a head: it executes that scope; no window has closed on a result that is
still to arrive (R50); a join finds its entries and has no lanes to switch to (R99); and what the kind of the instruction asks:
no ticket held (R107), a place for a variable result (R50), no handler (R255). -/
structure Issues (s : State) (c : CtxId) (h : Head) (how : How) : Prop where
  cur : s.cur = some c
  alone : s.xm = none
  present : s.hasCtx c = true
  serves : c.serves h.scope = true
  open_ : (unitOf s c).any (fun u => windowShut ((settled s c).ctx u)) = false
  joins : joins s c h = true → joinFault (settled s c) (unitOf s c) = false ∧ joinSwitches (settled s c) (unitOf s c) = false
  handler : how.noHandler = true → inHandler (entered s c h) c = false
  room : how.varying = true → varFull (entered s c h) (unitOf (entered s c h) c) = false
  anchor : how.anchored = true → ((entered s c h).ctx c).tickets = []

/-- An instruction issues with the effect t: its unit goes on to the next word, or where t has sent it. -/
def IssuesTo (i : Instr) (s : State) (c : CtxId) (h : Head) (raw advance : Bool) (t : State) : Prop :=
  exec i s = .next (retire t (envAt s c h raw) (varIds (entered s c h) (unitOf (entered s c h) c)) advance)

/-! Results in registers -/

/-- The last value that some writes give a cell. -/
def lastWord (ws : List (Loc × Word)) (l : Loc) : Option Word := ws.foldl (fun w e => if e.1 = l then some e.2 else w) none

/-- The destinations of some writes are free: no variable result is on its way to one of the cells (R50), and the ahead log of an
upper context has room (R27). -/
structure Clear (u : State) (ws : List (CtxId × Loc × Word)) : Prop where
  alone : u.xm = none
  free : ∀ w ∈ ws, ∀ r ∈ (u.ctx w.1).vars, ∀ x ∈ r.writes, x.1 ≠ w.2.1
  room : ∀ o ∈ ownersOf ws, logRoom u o (writesOf o ws) = true

/-- What an instruction that only writes registers leaves of a state u: every register cell holds, once the results on their way
are written, the last value written to it or what it held; the unit goes on to the next word; and nothing else changes. -/
structure Writes (u t : State) (unit : List CtxId) (ws : List (CtxId × Loc × Word)) : Prop where
  issued : t.took = .issued
  value : ∀ o l, u.hasCtx o = true → (t.ctx o).through l = (lastWord (writesOf o ws) l).getD ((u.ctx o).through l)
  pc : ∀ x ∈ unit, u.hasCtx x = true → (t.ctx x).pc = (u.ctx x).pc + 1
  stays : ∀ x, x ∉ unit → (t.ctx x).pc = (u.ctx x).pc
  control : ∀ o,
    { t.ctx o with
      pc := (u.ctx o).pc, wait := (u.ctx o).wait, joined := (u.ctx o).joined, next := (u.ctx o).next, last := (u.ctx o).last
      skip := (u.ctx o).skip, yld := (u.ctx o).yld, xk := (u.ctx o).xk, vars := (u.ctx o).vars, fixed := (u.ctx o).fixed, log := (u.ctx o).log } = u.ctx o
  rest : { t with ctxs := u.ctxs, took := u.took, timers := u.timers, nonce := u.nonce } = u

/-- What an instruction whose results are read by the next one leaves (R48): as `Writes`, with the registers written at once. -/
structure WritesNow (u t : State) (unit : List CtxId) (ws : List (CtxId × Loc × Word)) : Prop where
  issued : t.took = .issued
  value : ∀ o l, u.hasCtx o = true → (t.ctx o).through l = (lastWord (writesOf o ws) l).getD ((u.ctx o).through l)
  pc : ∀ x ∈ unit, u.hasCtx x = true → (t.ctx x).pc = (u.ctx x).pc + 1
  stays : ∀ x, x ∉ unit → (t.ctx x).pc = (u.ctx x).pc
  lanes : ∀ o, (t.ctx o).lanes.map (fun y => { y with v := [], p := 0 }) = (u.ctx o).lanes.map (fun y => { y with v := [], p := 0 })
  control : ∀ o,
    { t.ctx o with
      pc := (u.ctx o).pc, wait := (u.ctx o).wait, joined := (u.ctx o).joined, next := (u.ctx o).next, last := (u.ctx o).last
      skip := (u.ctx o).skip, yld := (u.ctx o).yld, xk := (u.ctx o).xk, vars := (u.ctx o).vars, fixed := (u.ctx o).fixed, log := (u.ctx o).log
      lanes := (u.ctx o).lanes, sc := (u.ctx o).sc, p := (u.ctx o).p, lc := (u.ctx o).lc } = u.ctx o
  rest : { t with ctxs := u.ctxs, took := u.took, timers := u.timers, nonce := u.nonce } = u

/-- Fixed results fall due at a cycle (R48). -/
def DueAt (t : State) (ws : List (CtxId × Loc × Word)) (due : Nat) : Prop :=
  ∀ w ∈ ws, t.hasCtx w.1 = true → ⟨w.2.1, w.2.2, due⟩ ∈ (t.ctx w.1).fixed
/-- Variable results are on their way, and one arrival of theirs is to come (R50). -/
def OnTheWay (u t : State) (c : CtxId) (ws : List (CtxId × Loc × Word)) : Prop :=
  (∀ w ∈ ws, t.hasCtx w.1 = true → ∃ r ∈ (t.ctx w.1).vars, r.id = u.nonce ∧ r.arrived = false ∧ r.writes = writesOf w.1 ws)
    ∧ (ws ≠ [] → ∃ n, u.cycle < n ∧ t.timers = u.timers ++ [(n, .resultArrival c u.nonce)])

/-- The operands of the participants are read; nothing is read where none takes part. -/
def OperandsRead (e : Env) (s : State) (srcs : List Operand) (vals : List (List Nat)) (u : State) : Prop :=
  if e.parts = [] then vals = [] ∧ u = s else columns e s srcs = .ok (vals, u)

/-- The results of the participants, from the values of their operands. -/
def resultsOf (e : Env) (vals : List (List Nat)) (f : List Nat → List Out) : List ((CtxId × Nat) × List Out) :=
  (e.parts.zip vals).map (fun (p, v) => (p, f v))

/-- How the results of an instruction reach their registers: fixed ones after the latency of R48, variable ones by an arrival
(R50), the rest before the next instruction. -/
def Lands (rd : Ready) (x : Scope) (u t : State) (c : CtxId) (ws : List (CtxId × Loc × Word)) : Prop :=
  match rd with
  | .fixed => DueAt t ws (u.cycle + fixedLatency x)
  | .varies | .acquired => OnTheWay u t c ws
  | .now => ∀ o l w, t.hasCtx o = true → lastWord (writesOf o ws) l = some w → (t.ctx o).cell l = w

/-- The instruction i issues, and writes the results outs (R125, R126): whatever the state in which its unit may issue, and whatever the
queues its operands pop and its results are pushed to. -/
def Results (i : Instr) (s : State) (c : CtxId) (h : Head) (rd : Ready) (v : State) (outs : List ((CtxId × Nat) × List Out)) : Prop :=
  ∀ u, pushOuts (envAt s c h false) v outs = .ok u → Clear u (outCells (envAt s c h false) v outs) →
    ∃ t, exec i s = .next t ∧ (if rd = .now then WritesNow u t (envAt s c h false).unit (outCells (envAt s c h false) v outs)
        else Writes u t (envAt s c h false).unit (outCells (envAt s c h false) v outs))
      ∧ Lands rd h.scope u t c (outCells (envAt s c h false) v outs)

/-- An instruction that computes results from its operands, lane by lane or once for its context (R125). -/
def Computes (i : Instr) (h : Head) (how : How) (rd : Ready) (srcs : List Operand) (f : List Nat → List Out) : Prop :=
  ∀ s c vals v, Issues s c h how → OperandsRead (envAt s c h false) (entered s c h) srcs vals v →
    Results i s c h rd v (resultsOf (envAt s c h false) vals f)

/-- A register instruction of fixed latency: n registers from d take f of the operands; it is anchored when it names a queue
register (R107). -/
def OneResult (i : Instr) (h : Head) (d : Reg) (n : Nat) (srcs : List Operand) (f : List Nat → Nat) : Prop :=
  Computes i h { anchored := namesQueue [d] srcs } .fixed srcs (fun v => [(d, n, f v)])
/-- One of variable latency (R145). -/
def LateResult (i : Instr) (h : Head) (d : Reg) (n : Nat) (a : Reg) (f : Nat → Nat) : Prop :=
  Computes i h { varying := true } .varies [.reg a 1] (fun v => [(d, n, f (v.headD 0))])

/-- A lane-scope cross-lane instruction (R153): with the member mask kept (R154), each participant's result is f of all participants'
numbers and operands and of its own. -/
def CrossResult (i : Instr) (h : Head) (srcs : List Operand) (mask : Reg) (f : List (Nat × List Nat) → Nat × List Nat → List Out) : Prop :=
  ∀ s c vals v, Issues s c h { varying := true } → readsPending (entered s c h) h.scope c 0 1 mask = false →
    memberFault (envAt s c h false) (entered s c h) mask = none →
    OperandsRead (envAt s c h false) (entered s c h) srcs vals v →
    let all := ((envAt s c h false).parts.zip vals).map (fun (p, x) => (laneNum p.1 p.2, x))
    Results i s c h .varies v (((envAt s c h false).parts.zip all).map (fun (p, x) => (p, f all x)))

/-- An upper cross-lane instruction whose guard holds (R153): once the results of the units below are written and its own operands are
read, its results are f of the operands and of the lanes below. -/
def UpperResult (i : Instr) (h : Head) (srcs : List Operand) (f : Env → State → List Nat → List (CtxId × Nat) → List Out) : Prop :=
  ∀ s c vals v, Issues s c h upperHow → (envAt s c h false).parts ≠ [] → settledBelow (entered s c h) c = true →
    OperandsRead (envAt s c h false) (entered s c h) srcs vals v →
    Results i s c h .varies v [((c, 0), f (envAt s c h false) (viewBelow v c) (vals.headD []) (lanesUnder v c))]

/-! Local memory -/

/-- The accesses of a local-memory instruction pass every check of R166, and none has to wait at its ordering point (R243); data that is
read is correctable (R298). -/
structure Reaches (e : Env) (v : State) (sp : Space) (al n : Nat) (w : Want) (vals : List (List Nat)) (l : List Access) : Prop where
  checked : checkAccess e v sp al n w (e.parts.zip (vals.map addrOf)) = .ok l
  free : anyHeld v e.team l = false
  sound : w = .read ∨ w = .pvRead → badRead v e.team sp l = none

/-- What stores of n bytes leave: each byte of an access reads as stored, where no other byte of the instruction lies in its place; every other
place reads as before, whoever reads; but for the signature, nothing else changes. -/
structure Stores (v t : State) (team : TeamId) (sp : Space) (n : Nat) (l : List Access) (data : Access → Nat) : Prop where
  stored : ∀ x ∈ l, ∀ i < n, ∀ a, x.cells[i]? = some a → (∀ y ∈ l, ∀ j, (y, j) ≠ (x, i) → y.cells[j]? ≠ some a) →
    readIn t team sp a = BitVec.ofNat 8 (data x / 256 ^ i)
  frame : ∀ a, (∀ x ∈ l, a ∉ x.cells) →
    (∀ u, readByte t u a = readByte v u a) ∧ ∀ k, readPv t k a = readPv v k a
  rest : { t with galley := v.galley, pvCache := v.pvCache, nonce := v.nonce, teams := v.teams } = v
  teams : ∀ u, (t.team? u).map (fun y => { y with sig := 0 }) = (v.team? u).map (fun y => { y with sig := 0 })

/-- A load of k registers, each access of n bytes (R168 to R171): the registers take the bytes read, as f extends them. -/
def Loads (i : Instr) (h : Head) (o : MemOrd) (sp : Space) (al n k : Nat) (f : Nat → Nat) (d a : Reg) (off : Src) : Prop :=
  ∀ s c vals v l, Issues s c h loadHow → acquiring (entered s c h) (envAt s c h false) = false →
    OperandsRead (envAt s c h false) (entered s c h) [.reg a 1, .src off] vals v →
    Reaches (envAt s c h false) v sp al n (if sp = .pv then .pvRead else .read) vals l →
    Results i s c h (if o.acquires then .acquired else .varies) v (l.map (fun x => (x.who, [(d, k,
      f (leNat (x.cells.map (readIn v (envAt s c h false).team sp))))])))

/-- A store of k registers from d, each access of n bytes (R168, R170): it issues, and its bytes are stored. -/
def StoresFrom (i : Instr) (h : Head) (sp : Space) (al n k : Nat) (d a : Reg) (off : Src) : Prop :=
  ∀ s c vals v l, Issues s c h memHow → acquiring (entered s c h) (envAt s c h false) = false →
    OperandsRead (envAt s c h false) (entered s c h) [.reg a 1, .src off, .reg d k] vals v →
    Reaches (envAt s c h false) v sp al n (if sp = .pv then .pvWrite else .write) vals l →
    (sp ≠ .pv → galleyFits v (envAt s c h false).team (l.flatMap (fun x => x.cells.zip (leBytes n 0))) = true) →
    ∃ t, IssuesTo i s c h false true t ∧ Stores v t (envAt s c h false).team sp n l
      (fun x => ((get? x.who ((envAt s c h false).parts.zip vals)).getD []).getD 2 0)

/-- Atomics made one after the other on a memory m (R173): each takes the old value of its place and writes the new one, if there is
one; an access whose effect is logged takes the logged result and changes nothing (R289). -/
def atomicsOn (op : AtomOp) (n : Nat) (logged : Access → Option Nat) (arg : Access → Nat × Option Nat) :
    List Access → (Nat → Byte) → List Nat × (Nat → Byte)
  | [], m => ([], m)
  | x :: r, m =>
    match logged x with
    | some y => let (l, k) := atomicsOn op n logged arg r m; (y :: l, k)
    | none =>
      let old := leNat (x.cells.map m)
      let (l, k) := atomicsOn op n logged arg r (fun a =>
        match atomNew op (8 * n) old (arg x).1 (arg x).2 with
        | some v => (get? a (x.cells.zip (leBytes n v))).getD (m a)
        | none => m a)
      (old :: l, k)

/-- What the atomics of one instruction leave: memory, as the team sees it, is that of the accesses made in some order, and olds are
the values they took; every other register and byte is as before. -/
structure Atomically (v t : State) (team : TeamId) (op : AtomOp) (n : Nat) (logged : Access → Option Nat)
    (arg : Access → Nat × Option Nat) (l : List Access) (olds : Access → Nat) : Prop where
  order : ∃ r : List Access, r.Perm l ∧ (atomicsOn op n logged arg r (readByte v (unitTeams v team))).1 = r.map olds
    ∧ ∀ a, readByte t (unitTeams v team) a = (atomicsOn op n logged arg r (readByte v (unitTeams v team))).2 a
  others : ∀ a, (∀ x ∈ l, a ∉ x.cells) → ∀ u, readByte t u a = readByte v u a
  registers : ∀ o, { t.ctx o with eff := (v.ctx o).eff } = v.ctx o
  rest : { t with galley := v.galley, effects := v.effects, nonce := v.nonce, teams := v.teams, counters := v.counters
                  ctxs := v.ctxs } = v

/-- An instruction that makes atomics may make them: every check passes, none waits, the data is correctable, the effect log takes them
(R166, R173, R288 to R290, R298). -/
structure Performs (e : Env) (v : State) (sp : Space) (op : AtomOp) (n : Nat) (vals : List (List Nat)) (l : List Access) : Prop where
  checked : checkAccess e v sp n n .write (e.parts.zip (vals.map addrOf)) = .ok l
  primary : isShadow e.team = true → l.filter (fun x => (replayed v e.team (effKey v x.who) (pointOf x.place) op.code 0 x.addr).isNone) = []
  free : anyHeld v e.team (l.filter (fun x => (replayed v e.team (effKey v x.who) (pointOf x.place) op.code 0 x.addr).isNone)) = false
  sound : badRead v e.team sp (l.filter (fun x => (replayed v e.team (effKey v x.who) (pointOf x.place) op.code 0 x.addr).isNone)) = none
  room : effectBar v e.team (l.filter (fun x => (replayed v e.team (effKey v x.who) (pointOf x.place) op.code 0 x.addr).isNone)).length
    ((l.filter (fun x => (replayed v e.team (effKey v x.who) (pointOf x.place) op.code 0 x.addr).isNone)).map
      (fun x => pointOf x.place)) sp.eng.num = none
  galley : galleyFits v e.team ((l.filter (fun x => (replayed v e.team (effKey v x.who) (pointOf x.place) op.code 0 x.addr).isNone)).flatMap
    (fun x => x.cells.zip (leBytes n 0))) = true

/-- An atomic instruction of n bytes with the sources srcs; `cas` takes a compare value and a new one. -/
def Atomics (h : Head) (how : How) (sp : Space) (op : AtomOp) (n : Nat) (cas : Bool) (srcs : List Operand)
    (leaves : State → CtxId → State → List Access → (Access → Nat) → Prop) : Prop :=
  ∀ s c vals v l, Issues s c h how → acquiring (entered s c h) (envAt s c h false) = false →
    OperandsRead (envAt s c h false) (entered s c h) srcs vals v → Performs (envAt s c h false) v sp op n vals l →
    ∃ t olds, Atomically v t (envAt s c h false).team op n
        (fun x => (replayed v (envAt s c h false).team (effKey v x.who) (pointOf x.place) op.code 0 x.addr).map (fun e => e.result.toNat))
        (fun x => let w := (get? x.who ((envAt s c h false).parts.zip vals)).getD []
          if cas then (w.getD 3 0, some (w.getD 2 0)) else (w.getD 2 0, none)) l olds
      ∧ leaves s c t l olds

/-! Control at S scope -/

/-- An S-scope control instruction issues (R97): from the state v in which its operands are read, every slice of the unit is changed and
goes to its own next PC, the group parts when the slices differ, and nothing else changes. -/
def SlicesGo (i : Instr) (s : State) (c : CtxId) (h : Head) (v : State) (next : CtxId → Word) (change : CtxId → Ctx → Ctx) : Prop :=
  ∃ t, IssuesTo i s c h true false t
    ∧ (∀ o, o.level = 1 → v.hasCtx o = true → t.ctx o =
        if o ∈ (envAt s c h true).unit then { change o (v.ctx o) with pc := next o } else v.ctx o)
    ∧ (∀ o, o.level ≠ 1 → v.hasCtx o = true → t.ctx o =
        if o = groupCtx c ∧ 1 < (distinct ((envAt s c h true).unit.map next)).length then { v.ctx o with parted := true } else v.ctx o)
    ∧ { t with ctxs := s.ctxs } = { v with ctxs := s.ctxs }

/-- The target of a branch or call: relative to the PC (R37), or read from a register by the units that decide (R21, R95); v is the state
it is read in. -/
def TargetRead (s : State) (c : CtxId) (h : Head) (raw : Bool) (r : Reg) (v : State) (dest : CtxId → Word) : Prop :=
  ∃ vals, columns (targetEnv (envAt s c h raw) (entered s c h)) (entered s c h) [.reg r 1] = .ok (vals, v)
    ∧ dest = targetOf (targetEnv (envAt s c h raw) (entered s c h)).parts vals

/-- An instruction is stopped by a fault, in the state in which it has read its operands (R42, R249): nothing of it is done. -/
def Faults (i : Instr) (s : State) (c : CtxId) (h : Head) (v : State) (f : FaultInfo) : Prop :=
  exec i s = .next (raise (unmade (entered s c h) v) c h.scope.num f)

/-- The lanes that an `EXIT` ends (R105). -/
def exiting (e : Env) (s : State) : List (CtxId × Nat) :=
  match e.x with
  | .L => e.parts
  | .S => allLanes (e.parts.map (fun p => p.1))
  | _ => allLanes (slicesUnder s e.c)

/-- The fault of a `TRAP` (R115): its code in ADDR, and the participating lanes of L scope in MASK. -/
def trapFault (h : Head) (code : Word) (parts : List (CtxId × Nat)) : FaultInfo :=
  { cause := .trap
    addr := code
    mask := if h.scope = .L then maskOf (parts.map (fun p => laneNum p.1 p.2)) else 0 }

/-- The effect instructions: each is counted as it issues (R288). -/
def countsEffect : Instr → Bool
  | .atom .. | .red .. | .cas .. | .bred .. | .batom .. | .coll .. => true
  | .accst _ add .. => add
  | .tile h .. => h.scope ≠ .T
  | _ => false

/-! Engines -/

/-- An engine operation o has been queued by an instruction (R175 to R177): it stands last on its channel, or on the gather unit; its
units count it; its handle, if it names one, is pending; and no byte of memory has changed. -/
structure OpQueued (v t : State) (e : Env) (o : Op) (hd : Option (BitVec 4)) : Prop where
  new : t.ops = v.ops ++ [o]
  number : o.id = v.opNum ∧ t.opNum = v.opNum + 1
  whose : o.team = e.team ∧ o.issuer = e.c ∧ o.units = counters v e.c ∧ o.core = ((v.team? e.team).map (fun x => x.core)).getD 0
  unbegun : o.begun = false ∧ o.finished = false ∧ o.cancel = false ∧ o.done = 0
  queue : match o.chan with
    | some k => (chanOf t o.core k).map (fun x => x.ops) = (chanOf v o.core k).map (fun x => x.ops ++ [o.id])
    | none => (t.core? o.core).map (fun x => x.gather) = (v.core? o.core).map (fun x => x.gather ++ [o.id])
  contexts : ∀ x, v.hasCtx x = true → t.ctx x = { v.ctx x with
    counts := match o.cls with
      | some k => if x ∈ o.units then (v.ctx x).counts.upd k (fun n => n + 1) else (v.ctx x).counts
      | none => (v.ctx x).counts
    h := match hd with
      | some n => if x = e.c then (v.ctx x).h.set n.toNat (.pending o.id) else (v.ctx x).h
      | none => (v.ctx x).h
    hmoves := match hd with
      | some n => if x = e.c then (v.ctx x).hmoves.filter (fun m => m.1 ≠ n.toNat) else (v.ctx x).hmoves
      | none => (v.ctx x).hmoves
    eff := (t.ctx x).eff }
  memory : t.mem = v.mem ∧ t.galley = v.galley

/-- An instruction queues an operation of a kind: with a channel or on the gather unit, and the barrier address its operands give. -/
def Queues (i : Instr) (s : State) (c : CtxId) (h : Head) (v : State) (kind : OpKind) (cls : OpClass) (chan : Option Nat)
    (bar : Option Nat) (hd : Option (BitVec 4)) : Prop :=
  ∃ t o, IssuesTo i s c h false true t ∧ OpQueued v t (envAt s c h false) o hd
    ∧ o.kind = kind ∧ o.cls = some cls ∧ o.chan = chan ∧ o.barrier = bar

/-- A barrier object after an `Advance` (R189): the phase ends when PEND is 0 and EXPECT arrivals are there, exited lanes among them
when lanes arrive. -/
def advanced (b : Bar) (exited : Nat) : Bar :=
  if b.pend = 0 ∧ b.expect ≤ b.arrived + (if b.lane then exited else 0) then { b with gen := (b.gen + 1) % 2 ^ 16, arrived := 0 } else b
/-- The lanes of a team that have exited. -/
def exitedOf (s : State) (t : TeamId) : Nat := ((s.team? t).map (fun x => x.exited)).getD 0

/-- A barrier object of a team holds b, and nothing else has changed but waits. -/
structure ObjectSet (v t : State) (team : TeamId) (a : Nat) (b : Bar) : Prop where
  value : getBar t team a = b
  frame : ∀ p, resolve v team .sh a 16 = some p → ∀ y, ¬(p ≤ y ∧ y < p + 16) → ∀ u, readByte t u y = readByte v u y
  registers : ∀ x, { t.ctx x with wait := (v.ctx x).wait } = v.ctx x
  memory : t.mem = v.mem

/-- A barrier instruction of one context reaches its object at a: its operands are vals, the object passes the checks of R189, no
release holds it, and the galley takes it where it is written. -/
structure OnObject (writes : Bool) (s : State) (c : CtxId) (h : Head) (srcs : List Operand) (v : State) (a n : Nat) : Prop where
  open_ : acquiring (entered s c h) (envAt s c h false) = false
  reads : ∃ vals, columns (envAt s c h false) (entered s c h) srcs = .ok (vals, v) ∧ (vals.headD []).getD 0 0 = a ∧ (vals.headD []).getD 1 0 = n
  valid : objectFault v (envAt s c h false).team a = none
  free : objectHeld v (envAt s c h false).team a = false
  galley : writes = true → galleyFits v (envAt s c h false).team (objectBytes v (envAt s c h false).team a) = true

/-- A command of the mailbox has run: STATUS carries its sequence number and ERR, and its results stand (R362). -/
def Commands (i : Instr) (s : State) (err : Nat) (rs : List Nat) (P : State → Prop) : Prop :=
  ∃ t, exec i s = .next t ∧ t.mailbox.busy = false ∧ t.mailbox.stSeq = s.mailbox.seq
    ∧ t.mailbox.err = (if s.mailbox.dropped then 1 else err) ∧ t.mailbox.results.take rs.length = rs.map (BitVec.ofNat 64) ∧ P t

/-- The update command `i` is answered by one message with the command, the code and the data, and leaves a state with `p`. -/
def PldmAnswers (s : State) (i : Instr) (cmd code : Nat) (l : List Nat) (p : State → Prop) : Prop :=
  ∃ t, exec i s = .next t ∧ t.out = s.out ++ [.pldm cmd code l] ∧ p t

end Sys2Proof
end

