-- ==== Sys2Proof/WellFormed.lean ====
section
/-! DEFINITION. Which terms are instructions: a coded instruction whose fields pass every static check of R45 in the widest
environment, and a step whose numbers name agents the part has. -/

namespace Sys2Proof

/-- Fields that a word cannot carry in the form at hand: the immediate form of SHFL has no member mask (R155), BALLOT
takes one at L scope only (R154), OBRES a base register with ds4 scales only (R203). -/
def shapeOk : Instr → Bool
  | .shfl _ _ _ _ _ (.imm _) c => c == .zero
  | .ballot h _ _ c => c.isSome == (h.scope == .L)
  | .obres _ _ _ _ l _ _ _ c => c.isSome == (l == .ds4)
  | _ => true

/-- The agents a step names exist: dies 0 to 3, cores 0 to 159, channels 0 to 15, contexts 0 to 63, sensor cells 0 to
5,119, queues 0 to 1,023, domains 0 to 15, package barriers 0 to 63, functions 0 to 13 (R1, R22, R32, R277, R303, R320,
R201, R380). -/
def agentOk : Instr → Bool
  | .channelOperationBegin d c k => d < 4 && c < 160 && k < 16
  | .accaGrant d c | .galleyRelease d c => d < 4 && c < 160
  | .strikeReport d c => d < 4 && c < 5120
  | .timeSliceEnd c | .waitbudget c | .faultRingEntryFree c => c < 64
  | .translationWalk d c _ => d < 4 && c < 64
  | .tlbiAck d | .qnotl d | .done d | .dierstSet d | .dierstClear d | .refreshSetup d | .scrub d | .defaultCircuits d
  | .dramStepEnd d | .photonicStepEnd d => d < 4
  | .accessRead d _ | .accessWrite d _ | .accessAdd d _ | .accessExch d _ | .accessCas d _ | .accessCopy d _
  | .accessInvalid d _ | .qrdl d _ | .dispatch d _ => d < 4
  | .bondLaneRepair d _ | .timingCalibration d _ | .refreshRejudge d _ | .light d _ | .tune d _ | .lock d _ => d < 4
  | .connValidSet d n _ | .connValidClear d n _ => d < 4 && n < 64
  | .circuitTuned d n | .tearDownDone d n => d < 4 && n < 64
  | .ringLockLoss d r | .ringRemoval d r => d < 4 && r < 128
  | .pbarRelease n => n < 64
  | .notify q _ _ | .packetConsume q | .barrierAndSample q | .placement q => q < 1024
  | .exunlk f _ => f < 14
  | .registerWrite f _ _ _ => f < 14
  | .heartbeatSend n | .heartbeat n _ _ _ | .suspicion n _ | .propose n _ _ _ | .ack n _ _ _ | .viewCommit n _ _ _
  | .proposeTimeout n | .commitTimeout n | .messageResend n | .joinReq n _ | .joinOffer n _ _ _ | .joinAck n _ _
  | .collectiveFlit n _ _ _ _ | .flitResend n | .fin n _ _ _ | .confirm n _ _ => n < 16
  | _ => true

/-- The widest environment for the fields of an instruction. -/
def Fields.wide (f : Fields) : DecEnv := wideEnv f.op.toNat

/-- Well-formed: what the checks of R45 accept and the word can carry, or a step of agents that exist. -/
def wellFormed (i : Instr) : Bool :=
  match i.fields with
  | some f => (checkFields f.wide f).isNone && shapeOk i
  | none => agentOk i

end Sys2Proof
end

