-- ==== Sys2Proof/Certificates/Slice0/Obligations.lean ====
section
/-! DEFINITION. The statements of this model, each with the rule of the manual that it formalises. -/

section

open Sys2Proof Sys2Proof.Machine

/-! Register instructions -/

/-- The integer instructions (R128 to R135): each issues, reads its operands, and its destination takes the result of R128 in the type's
width, clamped under SAT (R129). Carries (R131): the sum or difference of the two words and the carry or borrow in, and the carry or
borrow out. The model's choice in it: log 153. -/
def Obligations.IntegerResults : Prop :=
  (∀ (h : Head) (ty : IntTy) (sat : Bool) (d a b c : Reg) (x : Src) (p : BitVec 3) (k : BitVec 3)
    (cond : Cond),
  OneResult (.add h ty sat d a x) h d ty.words [.reg a ty.words, .typed ty x] (fun v => intResult ty sat (ival ty v 0 + ival ty v 1))
  ∧ OneResult (.sub h ty sat d a x) h d ty.words [.reg a ty.words, .typed ty x] (fun v => intResult ty sat (ival ty v 0 - ival ty v 1))
  ∧ OneResult (.mul h ty sat d a x) h d ty.words [.reg a ty.words, .typed ty x] (fun v => intResult ty sat (ival ty v 0 * ival ty v 1))
  ∧ OneResult (.mulh h ty d a x) h d 1 [.reg a 1, .typed ty x] (fun v => lowBits 64 (ival ty v 0 * ival ty v 1) / 2 ^ 32)
  ∧ OneResult (.mad h ty sat d a b c) h d 1 [.reg a 1, .reg b 1, .reg c 1]
      (fun v => intResult ty sat (ival ty v 0 * ival ty v 1 + ival ty v 2))
  ∧ OneResult (.madw h ty d a b c) h d 2 [.reg a 1, .reg b 1, .reg c 2]
      (fun v => lowBits 64 (ival ty v 0 * ival ty v 1 + v.getD 2 0))
  ∧ OneResult (.min h ty d a x) h d ty.words [.reg a ty.words, .typed ty x]
      (fun v => intResult ty false (min (ival ty v 0) (ival ty v 1)))
  ∧ OneResult (.max h ty d a x) h d ty.words [.reg a ty.words, .typed ty x]
      (fun v => intResult ty false (max (ival ty v 0) (ival ty v 1)))
  ∧ OneResult (.abs h ty sat d a) h d ty.words [.reg a ty.words] (fun v => intResult ty sat ((ival ty v 0).natAbs : Int))
  ∧ OneResult (.neg h ty sat d a) h d ty.words [.reg a ty.words] (fun v => intResult ty sat (-ival ty v 0))
  ∧ OneResult (.clamp h ty d a b c) h d ty.words [.reg a ty.words, .reg b ty.words, .reg c ty.words]
      (fun v => intResult ty false (min (max (ival ty v 0) (ival ty v 1)) (ival ty v 2)))
  ∧ OneResult (.sel h ty d a b p) h d ty.words [.reg a ty.words, .reg b ty.words, .reg (.p p) 1]
      (fun v => if v.getD 2 0 ≠ 0 then v.getD 0 0 else v.getD 1 0)
  ∧ OneResult (.icmp h ty cond p a x) h (.p p) 1 [.reg a ty.words, .typed ty x]
      (fun v => (intCond cond (ival ty v 0) (ival ty v 1)).toNat)
  ∧ OneResult (.lea h ty k d a x) h d ty.words [.reg a ty.words, .src x]
      (fun v => (v.getD 0 0 + v.getD 1 0 * 2 ^ k.toNat) % 2 ^ ty.width)
  ∧ OneResult (.dp4 h ty sat d a b c) h d 1 [.reg a 1, .reg b 1, .reg c 1]
      (fun v => sumElements ty sat 4 (fun x y => x * y) (v.getD 0 0) (v.getD 1 0) (v.getD 2 0))
  ∧ OneResult (.dp2 h ty sat d a b c) h d 1 [.reg a 1, .reg b 1, .reg c 1]
      (fun v => sumElements ty sat 2 (fun x y => x * y) (v.getD 0 0) (v.getD 1 0) (v.getD 2 0))
  ∧ OneResult (.sad h ty sat d a b c) h d 1 [.reg a 1, .reg b 1, .reg c 1]
      (fun v => sumElements ty sat (32 / ty.width) (fun x y => ((x - y).natAbs : Int)) (v.getD 0 0) (v.getD 1 0) (v.getD 2 0)))
  ∧ (∀ (h : Head) (ty : IntTy) (d a b : Reg) (p : BitVec 3),
  Computes (.addc h ty d a b p) h { anchored := namesQueue [d] [.reg a 1, .reg b 1, .reg (.p p) 1] } .fixed
      [.reg a 1, .reg b 1, .reg (.p p) 1] (fun v =>
        [(d, 1, (v.getD 0 0 + v.getD 1 0 + v.getD 2 0) % 2 ^ 32), (.p p, 1, (v.getD 0 0 + v.getD 1 0 + v.getD 2 0) / 2 ^ 32 % 2)])
  ∧ Computes (.subb h ty d a b p) h { anchored := namesQueue [d] [.reg a 1, .reg b 1, .reg (.p p) 1] } .fixed
      [.reg a 1, .reg b 1, .reg (.p p) 1] (fun v =>
        [(d, 1, (((v.getD 0 0 : Int) - v.getD 1 0 - v.getD 2 0) % 2 ^ 32).toNat),
          (.p p, 1, if v.getD 0 0 < v.getD 1 0 + v.getD 2 0 then 1 else 0)]))

/-- Bit operations, shifts, bit fields and bytes (R132 to R134). -/
def Obligations.BitResults : Prop := ∀ (h : Head) (ty : IntTy) (d a b c : Reg) (x : Src) (right : Bool),
  OneResult (.and h ty d a x) h d ty.words [.reg a ty.words, .typed ty x] (fun v => v.getD 0 0 &&& v.getD 1 0)
  ∧ OneResult (.or h ty d a x) h d ty.words [.reg a ty.words, .typed ty x] (fun v => v.getD 0 0 ||| v.getD 1 0)
  ∧ OneResult (.xor h ty d a x) h d ty.words [.reg a ty.words, .typed ty x] (fun v => v.getD 0 0 ^^^ v.getD 1 0)
  ∧ OneResult (.not h ty d a) h d ty.words [.reg a ty.words] (fun v => notBits ty.width (v.getD 0 0))
  ∧ OneResult (.andn h ty d a x) h d ty.words [.reg a ty.words, .typed ty x] (fun v => v.getD 0 0 &&& notBits ty.width (v.getD 1 0))
  ∧ OneResult (.shl h ty d a x) h d ty.words [.reg a ty.words, .src x] (fun v => shlVal ty.width (v.getD 0 0) (v.getD 1 0))
  ∧ OneResult (.shr h ty d a x) h d ty.words [.reg a ty.words, .src x] (fun v => shrVal ty.width (v.getD 0 0) (v.getD 1 0))
  ∧ OneResult (.sar h ty d a x) h d ty.words [.reg a ty.words, .src x] (fun v => sarVal ty.width (v.getD 0 0) (v.getD 1 0))
  ∧ OneResult (.rot h ty d a x) h d ty.words [.reg a ty.words, .src x] (fun v => rotVal ty.width (v.getD 0 0) (v.getD 1 0))
  ∧ OneResult (.shf h right d a b c) h d 1 [.reg a 1, .reg b 1, .reg c 1]
      (fun v => shfVal right (v.getD 0 0) (v.getD 1 0) (v.getD 2 0))
  ∧ OneResult (.bfe h ty d a b c) h d 1 [.reg a 1, .reg b 1, .reg c 1] (fun v => bfeVal ty (v.getD 0 0) (v.getD 1 0) (v.getD 2 0))
  ∧ OneResult (.bfi h d a b c) h d 1 [.reg a 1, .reg b 1, .reg c 1] (fun v => bfiVal (v.getD 0 0) (v.getD 1 0) (v.getD 2 0))
  ∧ OneResult (.prmt h d a b c) h d 1 [.reg a 1, .reg b 1, .reg c 1] (fun v => prmtVal (v.getD 0 0) (v.getD 1 0) (v.getD 2 0))
  ∧ OneResult (.popc h d a) h d 1 [.reg a 1] (fun v => popc (v.getD 0 0))
  ∧ OneResult (.clz h d a) h d 1 [.reg a 1] (fun v => clz (v.getD 0 0))
  ∧ OneResult (.brev h d a) h d 1 [.reg a 1] (fun v => brev (v.getD 0 0))

/-- The functions that the bit instructions apply, bit by bit (R132, R133): shifts and rotations as those of bit vectors of the type's
width, a shift by the width or more included; the number of set bits; the leading zeros; the bits in reverse order. The result of an
arithmetic instruction (R129): the exact result modulo 2^w, or, under SAT, the nearest value of the type. The functions of atomics (R173):
sums and bit operations of bit vectors of the width, the least and greatest of signed and unsigned values, an exchange, a wrapping
increment and decrement, and a compare that writes only when it agrees. -/
def Obligations.ValueFunctions : Prop :=
  (∀ (w : Nat) (x : BitVec w) (n : Nat) (y : Word), 0 < w →
  shlVal w x.toNat n = (x <<< n).toNat ∧ shrVal w x.toNat n = (x >>> n).toNat ∧ sarVal w x.toNat n = (x.sshiftRight n).toNat
  ∧ rotVal w x.toNat n = (x.rotateLeft n).toNat ∧ notBits w x.toNat = (~~~x).toNat
  ∧ popc y.toNat = ((List.range 32).filter (fun i => y.getLsbD i)).length
  ∧ (∀ i < 32, (brev y.toNat).testBit i = y.getLsbD (31 - i))
  ∧ clz y.toNat ≤ 32 ∧ y.toNat < 2 ^ (32 - clz y.toNat) ∧ (y ≠ 0 → y.getLsbD (31 - clz y.toNat) = true))
  ∧ (∀ (ty : IntTy) (x : Int), ty = .i32 ∨ ty = .n32 ∨ ty = .i64 ∨ ty = .n64 →
  (intResult ty false x : Int) = x % 2 ^ ty.width
  ∧ intVal ty (intResult ty true x) = (if x < intMin ty then intMin ty else if intMax ty < x then intMax ty else x))
  ∧ (∀ (w : Nat) (x y : BitVec w) (c : Nat), 0 < w →
  apply .add w x.toNat y.toNat = (x + y).toNat ∧ apply .and w x.toNat y.toNat = (x &&& y).toNat
  ∧ apply .or w x.toNat y.toNat = (x ||| y).toNat ∧ apply .xor w x.toNat y.toNat = (x ^^^ y).toNat
  ∧ apply .exch w x.toNat y.toNat = y.toNat
  ∧ apply .umin w x.toNat y.toNat = min x.toNat y.toNat ∧ apply .umax w x.toNat y.toNat = max x.toNat y.toNat
  ∧ apply .smin w x.toNat y.toNat = (if y.slt x then y else x).toNat ∧ apply .smax w x.toNat y.toNat = (if x.slt y then y else x).toNat
  ∧ apply .incw w x.toNat y.toNat = (if y.toNat ≤ x.toNat then 0 else x + 1).toNat
  ∧ apply .decw w x.toNat y.toNat = (if x = 0 ∨ y.toNat < x.toNat then y else x - 1).toNat
  ∧ atomNew .cas w x.toNat y.toNat (some c) = if x.toNat = c then some y.toNat else none)

/-- The floating-point instructions without stochastic rounding (R136 to R143). The model's choice in it: log 151. -/
def Obligations.FloatResults : Prop := ∀ (h : Head) (f : Fmt) (rnd : Rnd) (sat : Bool) (dst src : NumTy) (cond : Cond) (d a b c : Reg)
    (x : Src) (p : BitVec 3),
  OneResult (.fadd h f rnd d a x) h d 1 [.reg a 1, .src x] (fun v => addCode f rnd (fval f v 0) (fval f v 1))
  ∧ OneResult (.fsub h f rnd d a x) h d 1 [.reg a 1, .src x] (fun v => addCode f rnd (fval f v 0) (fval f v 1).neg)
  ∧ OneResult (.fmul h f rnd d a x) h d 1 [.reg a 1, .src x] (fun v => mulCode f rnd (fval f v 0) (fval f v 1))
  ∧ OneResult (.ffma h f rnd d a b c) h d 1 [.reg a 1, .reg b 1, .reg c 1]
      (fun v => fmaCode f rnd (fval f v 0) (fval f v 1) (fval f v 2))
  ∧ OneResult (.fmin h f d a x) h d 1 [.reg a 1, .src x] (fun v => minCode f (fcode f v 0) (fcode f v 1))
  ∧ OneResult (.fmax h f d a x) h d 1 [.reg a 1, .src x] (fun v => maxCode f (fcode f v 0) (fcode f v 1))
  ∧ OneResult (.fcmp h f cond p a x) h (.p p) 1 [.reg a 1, .src x] (fun v => (floatCond cond (fval f v 0) (fval f v 1)).toNat)
  ∧ OneResult (.fclass h f d a) h d 1 [.reg a 1] (fun v => 2 ^ fclass f (fcode f v 0))
  ∧ OneResult (.frnd h f rnd d a) h d 1 [.reg a 1] (fun v => frndCode f rnd (fcode f v 0))
  ∧ OneResult (.fscale h f rnd d a x) h d 1 [.reg a 1, .src x] (fun v => fscaleCode f rnd (fcode f v 0) (intVal .i32 (v.getD 1 0)))
  ∧ OneResult (.fexp h f d a) h d 1 [.reg a 1] (fun v => lowBits 32 (fexpVal f (fcode f v 0)))
  ∧ OneResult (.cvt h dst src rnd sat false d a) h d (numWords dst) [.reg a (numWords src)]
      (fun v => convertTo dst rnd sat none (sourceVal src (v.getD 0 0)))
  ∧ OneResult (.pack h f rnd sat false d a x) h d 1 [.reg a 1, .src x]
      (fun v => packed f (convert f rnd sat (fval .f32 v 0)) (convert f rnd sat (fval .f32 v 1)))
  ∧ OneResult (.unpk h f d a b) h d 2 [.reg a 1, .reg b 1] (fun v =>
      let k := v.getD 1 0 % (32 / (layout f).width / 2)
      unpackElement f (v.getD 0 0) (2 * k) + 2 ^ 32 * unpackElement f (v.getD 0 0) (2 * k + 1))
  ∧ OneResult (.hadd2 h f rnd d a x) h d 1 [.reg a 1, .src x]
      (fun v => perHalf (fun i => addCode f rnd (value f (halfOf v 0 i)) (value f (halfOf v 1 i))))
  ∧ OneResult (.hmul2 h f rnd d a x) h d 1 [.reg a 1, .src x]
      (fun v => perHalf (fun i => mulCode f rnd (value f (halfOf v 0 i)) (value f (halfOf v 1 i))))
  ∧ OneResult (.hfma2 h f rnd d a b c) h d 1 [.reg a 1, .reg b 1, .reg c 1]
      (fun v => perHalf (fun i => fmaCode f rnd (value f (halfOf v 0 i)) (value f (halfOf v 1 i)) (value f (halfOf v 2 i))))
  ∧ OneResult (.hmin2 h f d a x) h d 1 [.reg a 1, .src x] (fun v => perHalf (fun i => minCode f (halfOf v 0 i) (halfOf v 1 i)))
  ∧ OneResult (.hmax2 h f d a x) h d 1 [.reg a 1, .src x] (fun v => perHalf (fun i => maxCode f (halfOf v 0 i) (halfOf v 1 i)))
  ∧ OneResult (.dot2f h f rnd d a b c) h d 1 [.reg a 1, .reg b 1, .reg c 1] (fun v => convert .f32 rnd false (sumVal rnd
      [(value f (halfOf v 0 0)).mul (value f (halfOf v 1 0)), (value f (halfOf v 0 1)).mul (value f (halfOf v 1 1)), fval .f32 v 2]))

/-- The special functions (R145): variable results, of one word or, for `SINCOS` and `RRED`, of two. Stochastic conversions and `SEED`
(R82, R83, R144): every participating lane steps its own generator, once for each element, and rounds with the low half of the stepped
state; `SEED` sets the generators, 0 becoming 0x2545F491. The model's choice in it: log 9. -/
def Obligations.SpecialResults : Prop :=
  (∀ (h : Head) (rnd : Rnd) (d a : Reg),
  LateResult (.rcp h d a) h d 1 a rcpVal ∧ LateResult (.rsq h d a) h d 1 a rsqVal ∧ LateResult (.sqrt h rnd d a) h d 1 a (sqrtVal rnd)
  ∧ LateResult (.ex2 h d a) h d 1 a ex2Val ∧ LateResult (.lg2 h d a) h d 1 a lg2Val ∧ LateResult (.sin h d a) h d 1 a sinVal
  ∧ LateResult (.cos h d a) h d 1 a cosVal ∧ LateResult (.sincos h d a) h d 2 a (fun x => sinVal x + 2 ^ 32 * cosVal x)
  ∧ LateResult (.tanh h d a) h d 1 a tanhVal ∧ LateResult (.rred h d a) h d 2 a rredVal)
  ∧ (∀ (h : Head) (dst src : NumTy) (f : Fmt) (rnd : Rnd) (sat : Bool) (d a : Reg) (x : Src)
    (s : State) (c : CtxId) (vals : List (List Nat)) (v : State),
  (Issues s c h { anchored := namesQueue [d] [.reg a (numWords src)] } →
    OperandsRead (envAt s c h false) (entered s c h) [.reg a (numWords src)] vals v →
    Results (.cvt h dst src rnd sat true d a) s c h .fixed
      (((envAt s c h false).parts.zip vals).foldl (fun t e => setGen t e.1 (xorShift32 (genOf v e.1))) v)
      (((envAt s c h false).parts.zip vals).map (fun e => (e.1,
        [(d, 1, convertTo dst rnd sat (some ((xorShift32 (genOf v e.1)).toNat % 65536)) (sourceVal src (e.2.getD 0 0)))]))))
  ∧ (Issues s c h { anchored := namesQueue [d] [.reg a 1, .src x] } →
    OperandsRead (envAt s c h false) (entered s c h) [.reg a 1, .src x] vals v →
    Results (.pack h f rnd sat true d a x) s c h .fixed
      (((envAt s c h false).parts.zip vals).foldl (fun t e => setGen t e.1 (xorShift32 (xorShift32 (genOf v e.1)))) v)
      (((envAt s c h false).parts.zip vals).map (fun e => (e.1, [(d, 1, packed f
        (convertSr f sat ((xorShift32 (genOf v e.1)).toNat % 65536) (fval .f32 e.2 0))
        (convertSr f sat ((xorShift32 (xorShift32 (genOf v e.1))).toNat % 65536) (fval .f32 e.2 1)))]))))
  ∧ (Issues s c h { anchored := namesQueue [] [.src x] } → OperandsRead (envAt s c h false) (entered s c h) [.src x] vals v →
    IssuesTo (.seed h x) s c h false true (((envAt s c h false).parts.zip vals).foldl (fun t e =>
      setGen t e.1 (if e.2.headD 0 = 0 then 0x2545F491 else BitVec.ofNat 32 (e.2.headD 0))) v)))

/-- Moves, predicates and status registers (R149 to R152): a register or an immediate moved, a truth table of three predicates, the
predicates as a word under a mask and back (`p7` is never written), a status register read. A handle moved to another handle of the same
contexts, none of them empty: once the result is readable (R127) both name one operation (R18, R149). `WRSR` writes MATSTALL of the team (R152).
What operands read that name no cell that is written (R13, R22, R23): `zero` reads 0 in every word and `p7` true, and writes to them fall
away; each special register has the value of its unit's place, team, core, channel or counter, and a pair of `%clk` or `%ref` is one sample.
The model's choice in it: log 90. -/
def Obligations.MoveResults : Prop :=
  (∀ (h : Head) (d a : Reg) (imm : Word) (table : BitVec 8) (p q r w : BitVec 3) (x : Src),
  ((∀ m n, ¬(d = .h m ∧ a = .h n)) → OneResult (.mov h d a) h d 1 [.reg a 1] (fun v => v.headD 0))
  ∧ OneResult (.movi h d imm) h d 1 [.imm imm.toNat] (fun v => v.headD 0)
  ∧ OneResult (.plop h table p q r w) h (.p p) 1 [.reg (.p q) 1, .reg (.p r) 1, .reg (.p w) 1]
      (fun v => (table.getLsbD (4 * v.getD 0 0 + 2 * v.getD 1 0 + v.getD 2 0)).toNat)
  ∧ OneResult (.p2r h d a) h d 1 (.reg a 1 :: predSources) (fun v => bitsNat v.tail &&& v.headD 0)
  ∧ Computes (.registerToPredicate h a x) h { anchored := namesQueue [] [.reg a 1, .src x] } .fixed [.reg a 1, .src x] (fun v =>
      ((List.range 7).filter (fun i => (v.getD 1 0).testBit i)).map (fun i =>
        (.p (BitVec.ofNat 3 i), 1, ((v.getD 0 0).testBit i).toNat)))
  ∧ ∀ (n : BitVec 12) (s : State) (c : CtxId), Issues s c h { anchored := n = 0 || Reg.isQueue d, varying := true } →
      Results (.rdsr h d n) s c h .varies (entered s c h)
        ((envAt s c h false).parts.map (fun e => (e, [(d, 1, statusVal (entered s c h) e.1 n)]))))
  ∧ (∀ (h : Head) (x y : BitVec 4) (n : BitVec 12) (a : Reg) (s : State) (c : CtxId),
  (Issues s c h { anchored := true } → (∀ p ∈ (envAt s c h false).parts, ((entered s c h).ctx p.1).h.getD y.toNat .empty ≠ .empty) →
    (envAt s c h false).parts ≠ [] →
    IssuesTo (.mov h (.h x) (.h y)) s c h false true
      ((entered s c h).modCtxs ((envAt s c h false).parts.map (fun p => p.1)) (fun z => { z with
        hmoves := z.hmoves ++ [(x.toNat, z.h.getD y.toNat .empty, (entered s c h).cycle + fixedLatency h.scope)] })))
  ∧ (∀ (z : Ctx) (now due : Nat) (v : HandleSt), z.hmoves = [(x.toNat, v, due)] → x.toNat < z.h.length →
      ((z.settle now).h.getD x.toNat .empty = if due ≤ now then v else z.h.getD x.toNat .empty))
  ∧ ∀ vals v, Issues s c h { anchored := true } → (envAt s c h false).parts ≠ [] →
    OperandsRead (envAt s c h false) (entered s c h) [.reg a 1] vals v →
    IssuesTo (.wrsr h n a) s c h false true
      (v.modTeam (envAt s c h false).team (fun t => { t with matstall := BitVec.ofNat 32 ((vals.headD []).headD 0) })))
  ∧ (∀ (s : State) (x : Scope) (c : CtxId) (k n val : Nat) (neg : Bool),
  readNat s x c k n .zero = 0 ∧ cellsOf s x c k n .zero val = [] ∧ cellsOf s x c k n (.p 7) val = []
  ∧ ((x = .L → k < (s.ctx c).lanes.length) → readCell s x c k (.p 7) = 1 ∧ guardOn s x c k ⟨neg, 7⟩ = !neg)
  ∧ (∀ t g i, c = .slice t g i → readReg s x c k (.sp .lane) = BitVec.ofNat 32 (4 * i + k)
    ∧ readReg s x c k (.sp .slice) = BitVec.ofNat 32 i ∧ readReg s x c k (.sp .group) = BitVec.ofNat 32 g)
  ∧ (∀ t g, c = .group t g → readReg s x c k (.sp .group) = BitVec.ofNat 32 g)
  ∧ (∀ t y, c.team? = some t → s.team? t = some y →
    (t.num < 640 → readReg s x c k (.sp .team) = BitVec.ofNat 32 t.num)
    ∧ readReg s x c k (.sp .pair) = BitVec.ofNat 32 (pairOf y.core) ∧ readReg s x c k (.sp .die) = BitVec.ofNat 32 (y.core / 160)
    ∧ readReg s x c k (.sp .ctx) = BitVec.ofNat 32 y.ctx ∧ readReg s x c k (.sp .tileinc) = y.inc
    ∧ ∀ (m : BitVec 4), (y.chans.getLsbD m.toNat = false → readReg s x c k (.sp (.cwp m)) = 0)
      ∧ ∀ z, y.chans.getLsbD m.toNat = true → chanOf s y.core m.toNat = some z → readReg s x c k (.sp (.cwp m)) = z.cwp)
  ∧ (∀ m l, c = .grid m n → s.launch? m = some l → readReg s x c k (.sp .ctx) = BitVec.ofNat 32 l.ctx)
  ∧ readReg s x c k (.sp .role) = BitVec.ofNat 32 (roleOf s c)
  ∧ readNat s x c k 1 (.sp .clk) = s.cycle % 2 ^ 32 ∧ readNat s x c k 1 (.sp .clkhi) = s.cycle / 2 ^ 32 % 2 ^ 32
  ∧ readNat s x c k 1 (.sp .ref) = s.tick % 2 ^ 32 ∧ readNat s x c k 1 (.sp .refhi) = s.tick / 2 ^ 32 % 2 ^ 32
  ∧ readNat s x c k 2 (.sp .clk) = s.cycle % 2 ^ 64 ∧ readNat s x c k 2 (.sp .ref) = s.tick % 2 ^ 64)

/-! Cross-lane instructions -/

/-- Cross-lane instructions at L scope (R155 to R161): each participant takes the value of the lane that the rule names among the
participants, or the tree, prefix or mask over them. Cross-lane instructions at G and T scope (R153, R157, R160, R161): the tree over the
lanes below, the mask of the lanes whose predicate is true, the lowest of them, the register of a named lane. -/
def Obligations.LaneExchange : Prop :=
  (∀ (h : Head) (mode : ShflMode) (seg : BitVec 3) (d a c : Reg) (x : Src) (p : BitVec 3)
    (ty : NumTy) (op : RedOp) (excl float : Bool) (po : Option (BitVec 3)) (m : Option Reg),
  CrossResult (.shfl h mode seg d a x c) h [.reg a 1, .src x] c (fun all y =>
    [(d, 1, (laneVal all (shflSource mode (32 / 2 ^ seg.toNat) y.1 (y.2.getD 1 0)) 0).getD (y.2.getD 0 0))])
  ∧ CrossResult (.pswap h d a c) h [.reg a 1] c (fun all y => [(d, 1, match laneVal all (y.1 ^^^ 1) 0 with
      | none => 0
      | some v => if y.1 % 2 = 1 then v else pswapNeg v)])
  ∧ CrossResult (.scan h ty op excl d a po) h [.reg a 1] .zero (fun all y =>
      let node := prefixNode (combine ty op) (leaves (all.map (fun z => (z.1, z.2.getD 0 0)))) (y.1 + if excl then 0 else 1)
      (d, 1, node.getD (identity ty op)) :: poOut po node.isSome)
  ∧ CrossResult (.matchLanes h float d a c) h [.reg a 1] c (fun all y => [(d, 1, maskOf ((all.filter (fun z =>
      z.1 = y.1 ∨ keysMatch float (y.2.getD 0 0) (z.2.getD 0 0))).map (fun z => z.1)))])
  ∧ CrossResult (.firstl h d p c) h [.reg (.p p) 1] c (fun all _ =>
      [(d, 1, (((all.filter (fun z => z.2.getD 0 0 ≠ 0)).map (fun z => z.1)).min?).getD 32)])
  ∧ (h.scope = .L → CrossResult (.reduce h ty op d a po) h [.reg a 1] .zero (fun all _ =>
      (d, 1, reduceVal ty op (all.map (fun z => (z.1, z.2.getD 0 0))) 5) :: poOut po true))
  ∧ (h.scope = .L → CrossResult (.ballot h d p m) h [.reg (.p p) 1] (m.getD .zero) (fun all _ =>
      [(d, 1, maskOf ((all.filter (fun z => z.2.getD 0 0 ≠ 0)).map (fun z => z.1)))])))
  ∧ (∀ (h : Head) (d a : Reg) (x : Src) (p : BitVec 3) (ty : NumTy) (op : RedOp)
    (po : Option (BitVec 3)) (m : Option Reg),
  (h.scope ≠ .L → UpperResult (.reduce h ty op d a po) h [] (fun e w _ ls =>
    (d, 1, reduceVal ty op (ls.map (fun l => (numberAt e.x l, (readReg w .L l.1 l.2 a).toNat))) 10) :: poOut po (!ls.isEmpty)))
  ∧ (h.scope ≠ .L → UpperResult (.ballot h d p m) h [] (fun e w _ ls => [(d, 1, maskOf (trueLanes w e.x ls p))]))
  ∧ UpperResult (.elect h d p) h [] (fun e w _ ls => [(d, 1, ((trueLanes w e.x ls p).min?).getD 0xFFFFFFFF)])
  ∧ ∀ s c vals v l, Issues s c h upperHow → (envAt s c h false).parts ≠ [] → settledBelow (entered s c h) c = true →
      OperandsRead (envAt s c h false) (entered s c h) [.src x] vals v →
      namedLane (viewBelow v c) h.scope c ((vals.headD []).headD 0) = some l →
      Results (.bcast h d a x) s c h .varies v [((c, 0), [(d, 1, (readReg (viewBelow v c) .L l.1 l.2 a).toNat)])])

/-! Local memory -/

/-- Loads (R168 to R171): a value of the width at the address base + offset, extended as R169 says, or n consecutive values.
The model's choice in it: log 6. -/
def Obligations.LoadResults : Prop := ∀ (h : Head) (o : MemOrd) (w : Width) (sp : Space) (sx : Bool) (d a : Reg) (off : Src) (n : BitVec 4),
  Loads (.ld h o w sp sx d a off) h o sp w.bytes w.bytes w.words (extend w sx) d a off
  ∧ Loads (.ldx h o w sp n d a off) h o sp w.bytes (4 * (n.toNat + 1)) (n.toNat + 1) id d a off

/-- Stores (R168 to R170): the low bytes of the register, or of n consecutive registers, at the address base + offset, and no other
byte of memory. The model's choice in it: log 6. -/
def Obligations.StoreResults : Prop := ∀ (h : Head) (o : MemOrd) (w : Width) (sp : Space) (d a : Reg) (off : Src) (n : BitVec 4),
  StoresFrom (.st h o w sp d a off) h sp w.bytes w.bytes w.words d a off
  ∧ StoresFrom (.stx h o w sp n d a off) h sp w.bytes (4 * (n.toNat + 1)) (n.toNat + 1) d a off

/-- The checks before an access (R166), in a space other than `pv`: every access passes exactly when each address is a multiple of the
alignment and its bytes lie in the space; a fault is ALIGN where an address is skew, with the address of the lowest such
participant, and else BOUNDS. -/
def Obligations.AccessChecks : Prop := ∀ (e : Env) (s : State) (sp : Space) (al n : Nat) (w : Want) (l : List ((CtxId × Nat) × Nat)),
  sp ≠ .pv →
  ((∀ b ∈ l, b.2 % al = 0) → (∀ b ∈ l, (resolve s e.team sp.eng b.2 n).isSome) →
    checkAccess e s sp al n w l = .ok (l.map (fun b => ⟨b.1, b.2, cellsFrom ((resolve s e.team sp.eng b.2 n).getD 0) n⟩)))
  ∧ (∀ b r, l.filter (fun b => b.2 % al ≠ 0) = b :: r → ∃ f, checkAccess e s sp al n w l = .no (.trap s f) ∧ f.cause = .align
      ∧ f.addr = BitVec.ofNat 32 b.2)
  ∧ (∀ b r, (∀ b ∈ l, b.2 % al = 0) → l.filter (fun b => (resolve s e.team sp.eng b.2 n).isNone) = b :: r →
      ∃ f, checkAccess e s sp al n w l = .no (.trap s f) ∧ f.cause = .bounds ∧ f.addr = BitVec.ofNat 32 b.2)

/-- Atomics (R173, R288, R289): the accesses of the participants take effect one at a time, each on the value that the one before it
left; `ATOM` and `CAS` write the old values to the destination, `RED` writes none. The model's choices in it: log 6 and 10. -/
def Obligations.AtomicResults : Prop := ∀ (h : Head) (o : MemOrd) (w : Width) (sp : Space) (op : AtomOp) (d a b c : Reg) (off : Src),
  Atomics h atomHow sp op w.bytes false [.reg a 1, .src off, .reg d w.words] (fun s k t l olds =>
    Results (.atom h o w sp op d a off) s k h (if o.acquires then .acquired else .varies) t
      (l.map (fun x => (x.who, [(d, w.words, olds x)]))))
  ∧ Atomics h atomHow sp .cas w.bytes true [.reg a 1, .reg b 1, .reg d w.words, .reg c w.words] (fun s k t l olds =>
    Results (.cas h o w sp d a b c) s k h (if o.acquires then .acquired else .varies) t
      (l.map (fun x => (x.who, [(d, w.words, olds x)]))))
  ∧ Atomics h redHow sp op w.bytes false [.reg a 1, .src off, .reg d w.words] (fun s k t _ _ =>
    IssuesTo (.red h o w sp op d a off) s k h false true t)

/-- `FENCE` (R172): once the unit's earlier writes are performed, and its earlier reads have their values where the fence acquires, it
issues and changes nothing. The model's choice in it: log 26. -/
def Obligations.FenceCompletes : Prop := ∀ (h : Head) (o : MemOrd) (s : State) (c : CtxId),
  Issues s c h memHow → (envAt s c h false).parts ≠ [] →
  (o.acquires = true → outstanding (entered s c h) (envAt s c h false).unit = false) →
  (match ((entered s c h).ctx c).wait with
    | some (.fence n) => n ≤ (entered s c h).tick
    | _ => o.order = .rel ∨ o.order = .ar → fenceUntil (entered s c h) ((envAt s c h false).unit ++ contextsBelow (entered s c h) c) o.scope ≤ (entered s c h).tick) →
  IssuesTo (.fence h o) s c h false true (entered s c h)

/-! Control -/

/-- The agreement of a vote (R92, R93): no unit true, or every unit true, decides it; otherwise NONUNIFORM is raised, with the mask of
the units where the predicate is true. A branch on its own scope's predicate takes that predicate (R95).
The model's choice in it: log 28. -/
def Obligations.VoteAgreement : Prop := ∀ (s : State) (x y : Scope) (c : CtxId) (neg : Bool) (a : BitVec 3),
  condition s x c y neg none = .ok true
  ∧ (x = y → condition s x c y neg (some a) = .ok (readPred s x c 0 a ^^ neg))
  ∧ (x ≠ y → (∀ u ∈ voteUnits s x c y a, u.2 = false) → condition s x c y neg (some a) = .ok neg)
  ∧ (x ≠ y → voteUnits s x c y a ≠ [] → (∀ u ∈ voteUnits s x c y a, u.2 = true) → condition s x c y neg (some a) = .ok (!neg))
  ∧ (x ≠ y → (∃ u ∈ voteUnits s x c y a, u.2 = true) → (∃ u ∈ voteUnits s x c y a, u.2 = false) →
      ∃ f, condition s x c y neg (some a) = .error f ∧ f.cause = .nonuniform
        ∧ f.mask = maskOf (((voteUnits s x c y a).filter (fun u => u.2)).map (fun u => u.1)))

/-- Branches at G, T and W scope (R37, R95): the PC goes to the target where the condition holds, and on to the next word where it does
not. -/
def Obligations.UpperBranches : Prop := ∀ (h : Head) (cs : Scope) (neg b : Bool) (a : Option (BitVec 3)) (off : Word) (r : Reg)
    (s : State) (c : CtxId),
  2 ≤ h.scope.level → (envAt s c h false).parts ≠ [] →
  (Issues s c h {} → IssuesTo (.bra h off) s c h false false
    ((entered s c h).modCtx c (fun x => { x with pc := ((entered s c h).ctx c).pc + 1 + off })))
  ∧ (Issues s c h { anchored := votes h.scope cs a } → branchReady (entered s c h) (envAt s c h false) cs a = true →
      condition (entered s c h) h.scope c cs neg a = .ok b →
      IssuesTo (.br h cs neg a off) s c h false false ((entered s c h).modCtx c (fun x =>
        { x with pc := if b then ((entered s c h).ctx c).pc + 1 + off else x.pc + 1 })))
  ∧ ∀ v dest, Issues s c h { anchored := votes h.scope cs a || Reg.isQueue r } → TargetRead s c h false r v dest →
      branchReady v (envAt s c h false) cs a = true → condition v h.scope c cs neg a = .ok b →
      IssuesTo (.brx h cs neg a r) s c h false false (v.modCtx c (fun x => { x with pc := if b then dest c else x.pc + 1 }))

/-- Control at S scope (R95, R97, R103, R104): every slice of the unit goes where its own decision sends it, a slice without an active lane
where that of the lowest active slice does, counting, pushing and popping on its own counter and stack; a gang whose slices differ
parts. The model's choices in it: log 29 and 150. -/
def Obligations.SliceBranches : Prop := ∀ (h : Head) (cs : Scope) (neg : Bool) (a : Option (BitVec 3)) (off : Word) (r : Reg) (d : BitVec 2)
    (s : State) (c : CtxId) (b : CtxId → Bool),
  h.scope = .S → Issues s c h { raw := true } →
  (∀ i v dest, ((i = .br h cs neg a off ∧ v = entered s c h ∧ dest = fun x => (v.ctx x).pc + 1 + off)
      ∨ (i = .brx h cs neg a r ∧ TargetRead s c h true r v dest)
      ∨ (i = .bra h off ∧ a = none ∧ v = entered s c h ∧ dest = fun x => (v.ctx x).pc + 1 + off)) →
    branchReady v (envAt s c h true) cs a = true →
    (∀ u ∈ (envAt s c h true).unit, takesPart v (envAt s c h true) u = true →
      condition v .S (decider v (envAt s c h true).unit u) cs neg a = .ok (b u)) →
    SlicesGo i s c h v (fun u => if takesPart v (envAt s c h true) u && b u then
      dest (decider v (envAt s c h true).unit u) else (v.ctx c).pc + 1) (fun _ x => x))
  ∧ (let u := entered s c h
    let e := envAt s c h true
    let n (x : CtxId) : Word := readReg u .S x 0 (.lc d)
    Clear u (((e.unit.filter (takesPart u e)).filter (fun x => n x ≠ 0)).map (fun x => (x, .lc d.toNat, n x - 1))) →
    ∃ t, IssuesTo (.loop h d off) s c h true false t
      ∧ (∀ o l, u.hasCtx o = true → (t.ctx o).through l =
          if o ∈ e.unit ∧ takesPart u e o = true ∧ l = .lc d.toNat ∧ n o ≠ 0 then n o - 1 else (u.ctx o).through l)
      ∧ (∀ o, u.hasCtx o = true → (t.ctx o).pc = if o ∈ e.unit then
          (if takesPart u e o = true ∧ ¬(n (decider u e.unit o) = 0 ∨ n (decider u e.unit o) = 1) then (u.ctx c).pc + 1 + off
            else (u.ctx c).pc + 1) else (u.ctx o).pc)
      ∧ { t with ctxs := s.ctxs } = { u with ctxs := s.ctxs })
  ∧ (∀ i v dest, ((i = .call h off ∧ v = entered s c h ∧ dest = fun x => (v.ctx x).pc + 1 + off)
      ∨ (i = .callx h r ∧ TargetRead s c h true r v dest)) →
    let e := envAt s c h true
    ((∀ x ∈ e.unit, takesPart v e x = true → (v.ctx x).calls.length < callDepth x) →
      SlicesGo i s c h v (fun x => if takesPart v e x then dest (decider v e.unit x) else (v.ctx c).pc + 1)
        (fun x y => if takesPart v e x then { y with calls := ((v.ctx c).pc + 1) :: y.calls } else y))
    ∧ ((∃ x ∈ e.unit, takesPart v e x = true ∧ callDepth x ≤ (v.ctx x).calls.length) → ((unmade (entered s c h) v).ctx c).tickets = [] →
        Faults i s c h v { cause := .calldepth }))
  ∧ (let u := entered s c h
    let e := envAt s c h true
    ((∃ x ∈ e.unit, takesPart u e x = true ∧ (u.ctx x).calls = []) → (u.ctx c).tickets = [] →
        Faults (.ret h) s c h u { cause := .calldepth, sub := 1 })
    ∧ ((∀ x ∈ e.unit, takesPart u e x = true → (u.ctx x).calls ≠ []) →
        SlicesGo (.ret h) s c h u (fun x => if takesPart u e x then (u.ctx (decider u e.unit x)).calls.headD ((u.ctx c).pc + 1)
            else (u.ctx c).pc + 1)
          (fun x y => if takesPart u e x then { y with calls := y.calls.tail } else y)))

/-- Branches at L scope (R98): with no lane taken the unit falls through, with every participating lane taken it branches, and
otherwise the lanes taken wait at the target in the top entry of the reconvergence stack of each slice; the first slice, in order, whose
stack is empty or whose top entry is in use raises RCVOVF, with SUB 1 or 2, before any change. -/
def Obligations.LaneBranches : Prop := ∀ (h : Head) (neg : Bool) (a : Option (BitVec 3)) (off : Word) (r : Reg) (s : State) (c : CtxId),
  h.scope = .L → Issues s c h {} → (envAt s c h false).parts ≠ [] →
  ∀ i dest, ((i = .br h .L neg a off ∧ dest = ((entered s c h).ctx c).pc + 1 + off)
      ∨ (i = .brx h .L neg a r ∧ ∃ f, TargetRead s c h false r (entered s c h) f ∧ dest = f c)
      ∨ (i = .bra h off ∧ a = none ∧ dest = ((entered s c h).ctx c).pc + 1 + off)) →
    let taken := (envAt s c h false).parts.filter (fun p => match a with
      | none => true
      | some a => readPred (entered s c h) .L p.1 p.2 a ^^ neg)
    (taken = [] → IssuesTo i s c h false true (entered s c h))
    ∧ (taken = (envAt s c h false).parts →
      IssuesTo i s c h false false ((entered s c h).modCtxs (envAt s c h false).unit (fun x => { x with pc := dest })))
    ∧ (taken ≠ [] → taken ≠ (envAt s c h false).parts →
      (∀ u ∈ (envAt s c h false).unit, ∃ e q, ((entered s c h).ctx u).rstk = e :: q ∧ e.pend = 0 ∧ e.phase = false) →
      ∃ t, IssuesTo i s c h false true t ∧ { t with ctxs := s.ctxs } = { entered s c h with ctxs := s.ctxs }
        ∧ ∀ o, (entered s c h).hasCtx o = true → t.ctx o = if o ∈ (envAt s c h false).unit then
          ((entered s c h).ctx o).diverge dest (lanesOf o taken) else (entered s c h).ctx o)
    ∧ (taken ≠ [] → taken ≠ (envAt s c h false).parts → ((entered s c h).ctx c).tickets = [] → ∀ pre u post,
      (envAt s c h false).unit = pre ++ u :: post →
      (∀ y ∈ pre, ∃ e q, ((entered s c h).ctx y).rstk = e :: q ∧ e.pend = 0 ∧ e.phase = false) →
      (((entered s c h).ctx u).rstk = [] → Faults i s c h (entered s c h) { cause := .rcvovf, sub := 1 })
      ∧ ∀ e q, ((entered s c h).ctx u).rstk = e :: q → e.pend ≠ 0 ∨ e.phase = true →
        Faults i s c h (entered s c h) { cause := .rcvovf, sub := 2 })

/-- Calls and returns (R104, R97): `CALL` and `CALLX` push PC + 1 and go to the target, `RET` pops the top entry into the PC; at S scope
every slice that takes part does so with its own stack. A full stack, or an empty one at a return, raises CALLDEPTH before any change
(R17); an upper sequencer that has run ahead raises it once its lower units have come so far (R109). -/
def Obligations.CallsAndReturns : Prop := ∀ (h : Head) (off : Word) (r : Reg) (s : State) (c : CtxId),
  (2 ≤ h.scope.level → (envAt s c h false).parts ≠ [] →
    (∀ i v dest, ((i = .call h off ∧ Issues s c h {} ∧ v = entered s c h ∧ dest = fun x => (v.ctx x).pc + 1 + off)
        ∨ (i = .callx h r ∧ Issues s c h { anchored := Reg.isQueue r } ∧ TargetRead s c h false r v dest)) →
      ((v.ctx c).calls.length < callDepth c →
        IssuesTo i s c h false false (v.modCtx c (fun x => { x with calls := ((v.ctx c).pc + 1) :: x.calls, pc := dest c })))
      ∧ (callDepth c ≤ (v.ctx c).calls.length → ((unmade (entered s c h) v).ctx c).tickets = [] →
        Faults i s c h v { cause := .calldepth }))
    ∧ (Issues s c h {} →
      (((entered s c h).ctx c).calls = [] → ((entered s c h).ctx c).tickets = [] →
        Faults (.ret h) s c h (entered s c h) { cause := .calldepth, sub := 1 })
      ∧ ∀ top rest, ((entered s c h).ctx c).calls = top :: rest →
        IssuesTo (.ret h) s c h false false ((entered s c h).modCtx c (fun x => { x with calls := rest, pc := top }))))
  ∧ (h.scope = .S → Issues s c h { raw := true } →
    let u := entered s c h
    let unit := (envAt s c h true).unit
    let on (x : CtxId) : Bool := guardOn u .S x 0 h.guard
    (∀ x ∈ unit, (u.ctx x).active = true) →
    ((∀ x ∈ unit, on x = true → (u.ctx x).calls.length < callDepth x) →
        SlicesGo (.call h off) s c h u (fun x => if on x then (u.ctx x).pc + 1 + off else (u.ctx c).pc + 1)
          (fun x y => if on x then { y with calls := ((u.ctx c).pc + 1) :: y.calls } else y))
    ∧ ((∀ x ∈ unit, on x = true → (u.ctx x).calls ≠ []) →
        SlicesGo (.ret h) s c h u (fun x => if on x then (u.ctx x).calls.headD ((u.ctx c).pc + 1) else (u.ctx c).pc + 1)
          (fun x y => if on x then { y with calls := y.calls.tail } else y))
    ∧ ((u.ctx c).tickets = [] → (∃ x ∈ unit, on x = true ∧ callDepth x ≤ (u.ctx x).calls.length) →
        Faults (.call h off) s c h u { cause := .calldepth })
    ∧ ((u.ctx c).tickets = [] → (∃ x ∈ unit, on x = true ∧ (u.ctx x).calls = []) →
        Faults (.ret h) s c h u { cause := .calldepth, sub := 1 }))

/-- `LCNT` and `LOOP` (R103): the counter takes the operand; a counter that is not zero is decremented, and the loop goes to the target
unless the counter was 0 or 1. -/
def Obligations.LoopCounting : Prop := ∀ (h : Head) (d : BitVec 2) (src : Src) (off : Word) (s : State) (c : CtxId),
  Computes (.lcnt h d src) h { anchored := namesQueue [] [.src src] } .now [.src src] (fun v => [(.lc d, 1, v.headD 0)])
  ∧ (2 ≤ h.scope.level → Issues s c h {} → (envAt s c h false).parts ≠ [] →
    let u := entered s c h
    let n := readReg u h.scope c 0 (.lc d)
    Clear u (if n = 0 then [] else [(c, .lc d.toNat, n - 1)]) →
    ∃ t, IssuesTo (.loop h d off) s c h false false t
      ∧ (∀ o l, u.hasCtx o = true → (t.ctx o).through l =
          if o = c ∧ l = .lc d.toNat ∧ n ≠ 0 then n - 1 else (u.ctx o).through l)
      ∧ (u.hasCtx c = true → (t.ctx c).pc = if n = 0 ∨ n = 1 then (u.ctx c).pc + 1 else (u.ctx c).pc + 1 + off)
      ∧ { t with ctxs := s.ctxs } = { u with ctxs := s.ctxs })
  ∧ (h.scope = .S → Issues s c h { raw := true } →
    let u := entered s c h
    let unit := (envAt s c h true).unit
    let n (x : CtxId) : Word := readReg u .S x 0 (.lc d)
    let on (x : CtxId) : Bool := guardOn u .S x 0 h.guard
    (∀ x ∈ unit, (u.ctx x).active = true) →
    Clear u (((unit.filter on).filter (fun x => n x ≠ 0)).map (fun x => (x, .lc d.toNat, n x - 1))) →
    ∃ t, IssuesTo (.loop h d off) s c h true false t
      ∧ (∀ o l, u.hasCtx o = true → (t.ctx o).through l =
          if o ∈ unit ∧ on o = true ∧ l = .lc d.toNat ∧ n o ≠ 0 then n o - 1 else (u.ctx o).through l)
      ∧ (∀ o, u.hasCtx o = true → (t.ctx o).pc = if o ∈ unit then
          (if on o = true ∧ ¬(n o = 0 ∨ n o = 1) then (u.ctx c).pc + 1 + off else (u.ctx c).pc + 1) else (u.ctx o).pc)
      ∧ { t with ctxs := s.ctxs } = { u with ctxs := s.ctxs })

/-- `RCV` and `REGANG` (R98, R101): `RCV` pushes an entry with no lane waiting in every slice of its unit, or raises RCVOVF on a full stack
(R17); `REGANG` does
nothing in a gang, and in a parted group the last slice to come closes the wait of all, with equal PCs and depths: the group is one gang
again. The model's choice in it: log 29. -/
def Obligations.DivergenceAndGangs : Prop := ∀ (h : Head) (off : Word) (s : State) (c : CtxId),
  (Issues s c h {} → (envAt s c h false).parts ≠ [] →
    (∀ u ∈ (envAt s c h false).unit, ((entered s c h).ctx u).rstk.length < 16) →
    IssuesTo (.rcv h off) s c h false true ((entered s c h).modCtxs (envAt s c h false).unit
      (fun x => { x with rstk := ⟨x.pc + 1 + off, 0, false⟩ :: x.rstk })))
  ∧ (Issues s c h {} → (envAt s c h false).parts ≠ [] → (∃ u ∈ (envAt s c h false).unit, 16 ≤ ((entered s c h).ctx u).rstk.length) →
    ((entered s c h).ctx c).tickets = [] → Faults (.rcv h off) s c h (entered s c h) { cause := .rcvovf })
  ∧ (Issues s c h {} → (envAt s c h false).parts ≠ [] → (∀ t g i, c = .slice t g i → isParted (entered s c h) t g = false) →
    IssuesTo (.regang h) s c h false true (entered s c h))
  ∧ ∀ t g i p n, c = .slice t g i → Issues s c h {} → (envAt s c h false).parts ≠ [] → isParted (entered s c h) t g = true →
    (∀ u ∈ liveSlices (entered s c h) t g, (u = c ∨ ((entered s c h).ctx u).wait = some .regang)
      ∧ ((entered s c h).ctx u).pc = p ∧ ((entered s c h).ctx u).rstk.length = n) →
    ∃ q, exec (.regang h) s = .next q ∧ q.took = .issued
      ∧ ((entered s c h).hasCtx (.group t g) = true → isParted q t g = false)
      ∧ (∀ u ∈ liveSlices (entered s c h) t g, (entered s c h).hasCtx u = true → (q.ctx u).pc = p + 1 ∧ (q.ctx u).wait = none)
      ∧ ∀ o, o ∉ liveSlices (entered s c h) t g → o ≠ .group t g → q.ctx o = (entered s c h).ctx o

/-- The join (R99): an instruction with the join mark, of a unit whose entries hold lanes that wait and are in their first phase, does
not issue; the waiting lanes run from the PC of the entry. -/
def Obligations.JoinSwitches : Prop := ∀ (i : Instr) (h : Head) (s : State) (c : CtxId),
  i.fields.bind headOf = some h → s.cur = some c → s.xm = none → s.hasCtx c = true → c.serves h.scope = true →
  (unitOf s c).any (fun u => windowShut ((settled s c).ctx u)) = false → joins s c h = true →
  joinFault (settled s c) (unitOf s c) = false → joinSwitches (settled s c) (unitOf s c) = true →
  ∃ t, exec i s = .next t ∧ t.took = .joined
    ∧ { t with ctxs := s.ctxs, took := s.took } = { settled s c with ctxs := s.ctxs, took := s.took }
    ∧ ∀ o, t.ctx o = if o ∈ unitOf s c ∧ s.hasCtx o = true then
        { ((settled s c).ctx o).switch ((settled s c).ctx o).pc with wait := none, next := s.cycle + 1 } else (settled s c).ctx o

/-- A guard that holds for no participant (R44, R125): the instruction issues, goes on to the next word and has no effect; an effect
instruction is counted, as every one that issues is (R288). -/
def Obligations.GuardedOff : Prop := ∀ (i : Instr) (h : Head) (s : State) (c : CtxId),
  i.fields.bind headOf = some h → Issues s c h ⟨true, true, true, false, false⟩ → (envAt s c h false).parts = [] →
  (h.scope = .S → ∀ off b cs neg a d, i ≠ .bra h off ∧ i ≠ .br h cs neg a off ∧ i ≠ .brx h cs neg a b ∧ i ≠ .call h off ∧ i ≠ .callx h b
    ∧ i ≠ .ret h ∧ i ≠ .loop h d off) →
  IssuesTo i s c h false true (if countsEffect i then
    (entered s c h).modCtxs (envAt s c h false).unit (fun x => { x with eff := (x.eff + 1) % 8192 }) else entered s c h)

/-- `EXIT` (R105, R7): once the galley takes the objects on which lanes wait, the lanes named are live no more, every other lane is as live
as before; the team counts the lanes that exited; no lane's registers change. -/
def Obligations.ExitEnds : Prop := ∀ (h : Head) (s : State) (c : CtxId),
  Issues s c h { anchored := true } → (envAt s c h false).parts ≠ [] →
  galleyFits (entered s c h) (envAt s c h false).team ((waitedObjects (entered s c h) (envAt s c h false).team).flatMap
    (objectBytes (entered s c h) (envAt s c h false).team)) = true →
  ∃ t, exec (.exit h) s = .next t ∧ t.took = .issued
    ∧ (∀ u k, k < 4 → (entered s c h).hasCtx u = true →
        (((t.ctx u).lanes[k]?).map (fun (l : Lane) => l.live)) = ((((entered s c h).ctx u).lanes[k]?).map (fun (l : Lane) =>
          l.live && !(exiting (envAt s c h false) (entered s c h)).contains (u, k)))
        ∧ (((t.ctx u).lanes[k]?).map (fun (l : Lane) => (l.v, l.p))) = ((((entered s c h).ctx u).lanes[k]?).map (fun (l : Lane) => (l.v, l.p))))
    ∧ (t.team? (envAt s c h false).team).map (fun (x : Team) => x.exited) =
        ((entered s c h).team? (envAt s c h false).team).map (fun (x : Team) => x.exited
          + ((exiting (envAt s c h false) (entered s c h)).filter (fun p =>
            ((((entered s c h).ctx p.1).lanes[p.2]?).map (fun (l : Lane) => l.live)).getD false)).length)

/-- `VOTE` (R94): once the voted predicates are written, the verdict is readable by the next instruction. The verdicts of `VOTE` (R94):
all units, none of them, some but not all, more than half. -/
def Obligations.VoteResults : Prop :=
  (∀ (h : Head) (cs : Scope) (neg : Bool) (k : VoteKind) (d a : BitVec 3) (s : State) (c : CtxId),
  Issues s c h { anchored := 2 ≤ h.scope.level && h.scope ≠ cs } →
  branchReady (entered s c h) (envAt s c h false) cs (some a) = true →
  Results (.vote h cs neg k d a) s c h .now (entered s c h) ((envAt s c h false).parts.map (fun p => (p, [(.p d, 1,
    (verdict k (if h.scope = cs then [readPred (entered s c h) h.scope p.1 0 a ^^ neg]
      else (voteUnits (entered s c h) h.scope p.1 cs a).map (fun b => b.2 ^^ neg))).toNat)]))))
  ∧ (∀ (us : List Bool),
  (verdict .every us = true ↔ ∀ b ∈ us, b = true) ∧ (verdict .none us = true ↔ ∀ b ∈ us, b = false)
  ∧ (verdict .split us = true ↔ true ∈ us ∧ false ∈ us) ∧ (verdict .maj us = true ↔ us.count false < us.count true))

/-- `NOP`, `BKPT` and `NAP` (R91, R116, R118): `NOP` has no effect, nor `BKPT` without a debug agent; `NAP` of 0 acts as a yield (R52), any other
waits until that many ticks from now, and goes on once the wait has ended. The model's choice in it: log 13. -/
def Obligations.Waiting : Prop := ∀ (h : Head) (n : Src) (s : State) (c : CtxId),
  (Issues s c h {} → IssuesTo (.nop h) s c h false true (entered s c h))
  ∧ (Issues s c h { anchored := true } → (envAt s c h false).parts ≠ [] →
    (debugged (entered s c h) c = false → IssuesTo (.bkpt h) s c h false true (entered s c h))
    ∧ (debugged (entered s c h) c = true → exec (.bkpt h) s = .next (raise (entered s c h) c h.scope.num { cause := .bkpt }))
    ∧ (((entered s c h).ctx c).wait = some (.nap 0) → IssuesTo (.nap h n) s c h false true (entered s c h))
    ∧ ∀ vals v, (∀ u, ((entered s c h).ctx c).wait ≠ some (.nap u)) → columns (envAt s c h false) (entered s c h) [.src n] = .ok (vals, v) →
      let k := (vals.headD []).headD 0
      (k = 0 → exec (.nap h n) s = .next ((retire v (envAt s c h false) (varIds v (envAt s c h false).unit) true).modCtxs
        (envAt s c h false).unit (fun x => { x with yld := decide (h.scope.level = 1) })))
      ∧ (k ≠ 0 → ∃ t, exec (.nap h n) s = .next t ∧ t.took = .stalled ∧ { t with ctxs := s.ctxs, took := s.took } =
          { v with ctxs := s.ctxs, took := s.took } ∧ ∀ o, t.ctx o = if o ∈ (envAt s c h false).unit ∧ v.hasCtx o = true then
            { v.ctx o with wait := some (.nap (v.tick + k)) } else v.ctx o))

/-- Taking an exception (R251 to R255): a fault of a unit whose role has a handler, and no role of whose team is in one, makes every
context of the role below the grid stand at the `.trap` entry, with its lanes active, empty stacks and zero loop counters, once the galley
takes the frame; the frame in the team's `sh` holds INFO, the PC, the mask, ADDR and AUX; memory and the contexts of other teams are as they
were. `TRAP` (R115) raises
its fault at its unit with its code in ADDR and, at L scope, the participating lanes in MASK; `TrapEntry` says what that leaves.
The model's choice in it: log 32. -/
def Obligations.TrapEntry : Prop :=
  (∀ (s : State) (c : CtxId) (sc : Nat) (f : FaultInfo) (t : TeamId) (r : Nat) (x : Team) (q : RoleSt)
    (l : Launch) (entry : Word),
  faultHome s c = some (t, r) → c.level < 4 → s.hasCtx c = true → c ∈ roleCtxs s t r → s.team? t = some x → x.roles[r]? = some q →
  x.handling = false → frameFits s t x r = true → f.cause.dest = .handler → s.launch? t.launch = some l → l.trapPc = some entry →
  let u := raise s c sc f
  let p : Pending := ⟨c, { f with xk := max f.xk (s.ctx c).xk }, (s.ctx c).pc, peekWord s c (s.ctx c).pc, sc⟩
  u.took = .trapped
  ∧ (role? u t r).bind (fun q => q.handler) = some p
  ∧ (∀ o ∈ roleCtxs s t r, s.hasCtx o = true → o.level < 4 → (u.ctx o).pc = entry ∧ (u.ctx o).lc = [0, 0, 0, 0] ∧ (u.ctx o).calls = []
      ∧ (u.ctx o).rstk = [] ∧ (u.ctx o).parted = false ∧ (u.ctx o).wait = none ∧ (u.ctx o).saved.isSome = true
      ∧ ∀ y ∈ (u.ctx o).lanes, y.live = true → y.path = true)
  ∧ frameWord u t (frameAddr s t x r) 0x00 = BitVec.ofNat 32 (infoWord p (partedUnit s c))
  ∧ frameWord u t (frameAddr s t x r) 0x04 = (s.ctx c).pc
  ∧ frameWord u t (frameAddr s t x r) 0x08 = BitVec.ofNat 32 f.mask
  ∧ frameWord u t (frameAddr s t x r) 0x0C = f.addr ∧ frameWord u t (frameAddr s t x r) 0x10 = f.aux
  ∧ u.mem = s.mem ∧ ∀ o, o.team? ≠ some t → o.level < 4 → u.ctx o = s.ctx o)
  ∧ (∀ (h : Head) (code : Word) (s : State) (c : CtxId),
  Issues s c h { anchored := true } → (envAt s c h false).parts ≠ [] →
  exec (.trap h code) s = .next (raise (entered s c h) c h.scope.num (trapFault h code (envAt s c h false).parts)))

/-- The return from an exception (R117, R256): `TRET` in a handler ends the handler; the team context takes PC and loop counters from
the frame, a slice of the faulting group those of its own block, the faulting group its loop counters and G.PC, and every other context of
the role stands as it did; then paths without a lane end (R100). A gang's G.PC is that of its slices (R109): where the handler leaves it, the
group's own sequencer stands where it stood. Outside a handler it raises ILLOP. The model's choices in it: log 13, 20 and 77. -/
def Obligations.TrapReturn : Prop := ∀ (h : Head) (s : State) (c : CtxId),
  Issues s c h { anchored := true } → (envAt s c h false).parts ≠ [] →
  let u := entered s c h
  (inHandler u c = false → Faults (.tret h) s c h u { cause := .illop })
  ∧ ∀ t x p, c.team? = some t → u.team? t = some x → (role? u t (roleOf u c)).bind (fun q => q.handler) = some p →
    let a := shAddr x.core (x.shBase + ((x.roles[roleOf u c]?).map (fun q => q.frame)).getD 0)
    ∃ v, exec (.tret h) s = .next { endPaths v t (roleOf u c) with took := .issued }
      ∧ (role? v t (roleOf u c)).bind (fun q => q.handler) = none
      ∧ ∀ o k, o ∈ roleCtxs u t (roleOf u c) → u.hasCtx o = true → (u.ctx o).saved = some k →
        (v.ctx o).saved = none ∧ (v.ctx o).stop = none
        ∧ (∀ r, o = .team t r → (v.ctx o).pc = frameWord u t a 0x040 ∧ (v.ctx o).lc = frameWords u t a 0x044 4)
        ∧ (∀ g, o = .group t g → p.scope ≠ 3 → p.scope ≠ 4 → groupNo p.unit = g → (v.ctx o).lc = frameWords u t a 0x0E4 4
          ∧ (v.ctx o).pc = if k.parted = false ∧ p.unit.level = 1
              ∧ frameWord u t a 0x0E0 = ((u.ctx p.unit).saved.map (fun k => k.pc)).getD 0 then k.pc else frameWord u t a 0x0E0)
        ∧ (∀ g i, o = .slice t g i → p.scope ≠ 3 → p.scope ≠ 4 → groupNo p.unit = g →
            (v.ctx o).pc = frameWord u t (a + 0x140 + 0xC0 * i) 0 ∧ (v.ctx o).lc = frameWords u t (a + 0x140 + 0xC0 * i) 4 4)
        ∧ (o.level < 3 → (p.scope = 3 ∨ p.scope = 4 ∨ groupNo p.unit ≠ groupNo o) → (v.ctx o).pc = k.pc ∧ (v.ctx o).lc = k.lc)

/-- `XISSUE` (R110 to R114): where every lane's word is permitted and none of them stalls or faults, the distinct words are issued one after
the other, in the order of their lowest lanes, each for the lanes that hold it; what they wrote arrives as one variable result.
The model's choices in it: log 34 and 148. -/
def Obligations.XissueRuns : Prop := ∀ (h : Head) (a : Reg) (s : State) (c : CtxId),
  Issues s c h { varying := true } → (envAt s c h false).parts ≠ [] →
  let u := entered s c h
  let l := laneWords (envAt s c h false) u a
  let env : DecEnv := ⟨((role? u (envAt s c h false).team (roleOf u c)).map (fun r => r.budget)).getD 0, false⟩
  let r := runWords l env (u.ctx c).xk ((distinct (l.map (fun p => p.2))).drop (u.ctx c).xk) ⟨u, [], none, none⟩
  (∀ p ∈ l, (permitted env p.2).isSome = true) → r.stall = none → r.trap = none →
  meetsPending u ((distinct r.written).map (fun w => (w.1, w.2, 0))) = false →
  ∃ t, exec (.xissue h a) s = .next t ∧ t.took = .issued ∧ t.mem = r.state.mem ∧ t.galley = r.state.galley
    ∧ (∀ o ∈ (envAt s c h false).unit, r.state.hasCtx o = true → (t.ctx o).pc = (r.state.ctx o).pc + 1 ∧ (t.ctx o).xk = 0)
    ∧ (∀ w ∈ r.written, r.state.hasCtx w.1 = true → (t.ctx w.1).through w.2 = (r.state.ctx w.1).cell w.2)
    ∧ (r.written ≠ [] → ∃ n id, r.state.cycle < n ∧ (n, .resultArrival c id) ∈ t.timers)

/-! Engines and barriers -/

/-- The checks of an engine instruction on its addresses (R176): ALIGN on the first address that is no multiple of its unit, a barrier
address being the last of them, with 16; then BOUNDS on the first range outside its space, the barrier object being the last; none of both
exactly when every address and range is in order. The model's choice in it: log 50. -/
def Obligations.EngineChecks : Prop := ∀ (s : State) (t : TeamId) (al : List (Nat × Nat)) (rs : List (EP × Nat)) (bar : Option Nat),
  (checkRanges s t al rs bar = none ↔ (∀ x ∈ al, x.1 % x.2 = 0) ∧ (∀ x ∈ rs, inSpace s t x.1 x.2 = true)
    ∧ ∀ b, bar = some b → b % 16 = 0 ∧ inSpace s t ⟨.sh, b⟩ 16 = true)
  ∧ (∀ pre x post, al ++ (bar.map (fun b => (b, 16))).toList = pre ++ x :: post → (∀ y ∈ pre, y.1 % y.2 = 0) → x.1 % x.2 ≠ 0 →
      ∃ f, checkRanges s t al rs bar = some f ∧ f.cause = .align ∧ f.addr = BitVec.ofNat 32 x.1)
  ∧ ((∀ x ∈ al, x.1 % x.2 = 0) → (∀ b, bar = some b → b % 16 = 0) → ∀ pre x post,
      rs ++ (bar.map (fun b => (EP.mk .sh b, 16))).toList = pre ++ x :: post → (∀ y ∈ pre, inSpace s t y.1 y.2 = true) →
      inSpace s t x.1 x.2 = false → ∃ f, checkRanges s t al rs bar = some f ∧ f.cause = .bounds ∧ f.addr = BitVec.ofNat 32 x.1.addr)

/-- Engine instructions (R175 to R182): with their operands in order, the channel the team's and with a free place, and the counter
below its end, they queue their operation; `w` is what their one participant read. The model's choices in it: log 48 and 49. -/
def Obligations.EnginesQueue : Prop := ∀ (h : Head) (ch : BitVec 4) (k : BitVec 3) (op : AtomOp) (w64 : Bool) (dsp ssp : EngSpace)
    (d a b : Reg) (done : Done) (s : State) (c : CtxId) (vals : List (List Nat)) (v : State),
  Issues s c h engineHow → (envAt s c h false).parts ≠ [] →
  let t := (envAt s c h false).team
  let w := vals.headD []
  let core := ((v.team? t).map (fun x => x.core)).getD 0
  let dst : EP := ⟨dsp, w.getD 0 0⟩
  let src : EP := ⟨ssp, w.getD 1 0⟩
  let len := w.getD 2 0
  let free := ownsChan v t ch.toNat = true ∧ countFull v c .copy = false ∧ ((chanOf v core ch.toNat).map (fun x => x.ops.length)).getD 0 < 8
  (columns (envAt s c h false) (entered s c h) ([.reg d (spaceWords dsp), .reg a (spaceWords ssp), .reg b 1] ++ doneSrc done) = .ok (vals, v) →
    free →
    (checkRanges v t (localAlign false dst ++ localAlign false src ++ [(len, 4)]) [(dst, len), (src, len)] w[3]? = none →
      Queues (.bcopy h ch dsp ssp d a b done) s c h v (.copy dst src len) .copy (some ch.toNat) w[3]? (doneHandle done))
    ∧ (checkRanges v t (localAlign true dst ++ localAlign true src ++ [(len, 4)]) [(dst, len), (src, len)] w[3]? = none →
      engineQuota v (envAt s c h false) op.code 1 dst = none →
      Queues (.bred h op ch dsp ssp d a b done) s c h v (.red op dst src len) .copy (some ch.toNat) w[3]? (doneHandle done)))
  ∧ (columns (envAt s c h false) (entered s c h) ([.reg d (spaceWords dsp), .reg a 1, .reg b 1] ++ doneSrc done) = .ok (vals, v) →
    free → checkRanges v t (localAlign false dst ++ [(len, 4)]) [(dst, len)] w[3]? = none →
      Queues (.bfill h ch dsp d a b done) s c h v (.fill dst (BitVec.ofNat 32 (w.getD 1 0)) len) .copy (some ch.toNat) w[3]?
        (doneHandle done))
  ∧ (columns (envAt s c h false) (entered s c h) ([.reg d (spaceWords dsp), .reg a (spaceWords ssp), .reg b 2] ++ doneSrc done) = .ok (vals, v) →
    let size := 4 * 2 ^ k.toNat
    let idx := len % 2 ^ 32
    let n := len / 2 ^ 32
    n ≤ 65536 → countFull v c .gather = false →
    (checkRanges v t [(dst.addr, size), (src.addr, size), (idx, 4)] [(dst, n * size), (src, 0), (⟨.sh, idx⟩, 4 * n)] w[3]? = none →
      Queues (.bgath h k dsp ssp d a b done) s c h v (.gath size dst src idx n) .gather none w[3]? (doneHandle done))
    ∧ (checkRanges v t [(dst.addr, size), (src.addr, size), (idx, 4)] [(dst, 0), (src, n * size), (⟨.sh, idx⟩, 4 * n)] w[3]? = none →
      Queues (.bscat h k dsp ssp d a b done) s c h v (.scat size dst src idx n) .gather none w[3]? (doneHandle done)))
  ∧ (columns (envAt s c h false) (entered s c h) ([.reg d 1, .reg a (spaceWords dsp), .reg b ((if w64 then 8 else 4) / 4)] ++ doneSrc done)
      = .ok (vals, v) →
    let n := if w64 then 8 else 4
    let slot := w.getD 0 0
    let dst : EP := ⟨dsp, w.getD 1 0⟩
    checkRanges v t [(slot, n), (dst.addr, n)] [(⟨.sh, slot⟩, n), (dst, n)] w[3]? = none →
    ¬(dsp = .mem ∧ dst.addr.testBit 56 = true ∧ ¬(w64 = true ∧ (op = .add ∨ op = .exch ∨ op = .cas))) →
    engineQuota v (envAt s c h false) op.code 2 dst = none → countFull v c .copy = false →
    Queues (.batom h op w64 dsp d a b done) s c h v (.atom op w64 slot dst (w.getD 2 0)
      (match resolve v t .sh slot n with
        | some p => leNat (readBytes v (unitTeams v t) p n)
        | none => 0)) .copy none w[3]? (doneHandle done))

/-- Waiting for engines (R184 to R187): `CWAIT` ends once no participant counts more than n operations, `CHWAIT` once the pointer of the
channel has reached the operand, `HWAIT` once every handle is complete; `HTEST` answers whether it is; `HCANCEL` cancels what its
handles name. The model's choice in it: log 49. -/
def Obligations.EngineWaits : Prop := ∀ (h : Head) (cls : OpClass) (n : BitVec 6) (ch a : BitVec 4) (x : Src) (d : BitVec 3)
    (s : State) (c : CtxId),
  Issues s c h engineHow → (envAt s c h false).parts ≠ [] →
  let u := entered s c h
  let e := envAt s c h false
  ((∀ p ∈ e.parts, countOf u p.1 cls ≤ n.toNat) → IssuesTo (.cwait h cls n) s c h false true u)
  ∧ (∀ vals v, columns e u [.src x] = .ok (vals, v) → ownsChan u e.team ch.toNat = true →
      (∀ w ∈ vals, w.headD 0 ≤ (((u.team? e.team).bind (fun y => chanOf u y.core ch.toNat)).map (fun k => k.cwp.toNat)).getD 0) →
      IssuesTo (.chwait h ch x) s c h false true v)
  ∧ ((∀ p ∈ e.parts, ((u.ctx p.1).h.getD a.toNat .empty).done = true) → IssuesTo (.hwait h a) s c h false true u)
  ∧ ((∀ p ∈ e.parts, (u.ctx p.1).h.getD a.toNat .empty ≠ .empty) →
      Results (.htest h d a) s c h .fixed u (e.parts.map (fun p => (p, [(.p d, 1, (((u.ctx p.1).h.getD a.toNat .empty).done).toNat)])))
      ∧ IssuesTo (.hcancel h a) s c h false true ((handlesOf e u a).foldl (fun s h => match h with
        | .pending id => cancelOp s id
        | _ => s) u))
  ∧ ∀ id o, u.op? id = some o → o.finished = false →
      (∀ dst src len, o.kind = .copy dst src len → o.begun = true → (cancelOp u id).ops = u.ops.map (fun y =>
        if y.id = id then { y with cancel := true } else y))
      ∧ (∀ dst val len, o.kind = .fill dst val len → o.begun = true → (cancelOp u id).ops = u.ops.map (fun y =>
        if y.id = id then { y with cancel := true } else y))
      ∧ (o.begun = false → match o.kind with
        | .copy .. | .fill .. | .red .. | .atom .. | .gath .. | .scat .. =>
          (cancelOp u id).ops = u.ops.map (fun y => if y.id = id then { y with finished := true, code := 1, flush := o.flushedAt u } else y)
        | _ => cancelOp u id = u)

/-- A barrier object (R188): what is written to one is read back, and its bytes are the only ones written. Barrier instructions of one
context (R189): `BARI` sets an object, `BARX` books bytes, `BARA` arrives; each then lets the object advance, but for `BARI`. `BARW` goes
on when the generation is another one than the operand, else waits for the end of a phase. `BAR` (R190): a unit whose lanes arrive makes
all its arrivals and waits until the phases it arrived for have ended; once they have, it goes on. The model's choice in it: log 13. -/
def Obligations.BarrierResults : Prop :=
  (∀ (s : State) (t : TeamId) (a : Nat) (b : Bar),
  (resolve s t .sh a 16).isSome = true → b.pend < 2 ^ 56 → b.expect < 2 ^ 16 → b.arrived < 2 ^ 16 → b.gen < 2 ^ 16 →
  ObjectSet s (setBar s t a b) t a b ∧ ObjectSet s (advanceBar (setBar s t a b) t a) t a (advanced b (exitedOf s t)))
  ∧ (∀ (h : Head) (r : Reg) (x : Src) (s : State) (c : CtxId) (v : State) (a n : Nat),
  Issues s c h engineHow → (envAt s c h false).parts ≠ [] →
  let t := (envAt s c h false).team
  let k := getBar v t a
  (OnObject true s c h [.reg r 1, .src x] v a n →
    (1 ≤ n → n ≤ 65535 → ∃ q, IssuesTo (.bari h r x) s c h false true q ∧ ObjectSet v q t a ⟨0, false, n, 0, 0⟩)
    ∧ (k.signedPend + n ≤ 2 ^ 55 - 1 → ∃ q, IssuesTo (.barx h r x) s c h false true q
        ∧ ObjectSet v q t a (advanced { k with pend := (k.pend + n) % 2 ^ 56 } (exitedOf v t))))
  ∧ (OnObject false s c h [.reg r 1, .src x] v a n → (∀ o b, ((entered s c h).ctx c).wait ≠ some (.barrier o b)) →
        (k.gen ≠ n % 2 ^ 16 → IssuesTo (.barw h r x) s c h false true v)
        ∧ (k.gen = n % 2 ^ 16 → ∃ q, exec (.barw h r x) s = .next q ∧ q.took = .stalled
            ∧ ∀ o, q.ctx o = if o ∈ (envAt s c h false).unit ∧ v.hasCtx o = true then
              { v.ctx o with wait := some (.barrier [(BitVec.ofNat 32 a, BitVec.ofNat 16 n)] false) } else v.ctx o))
  ∧ (OnObject true s c h [.reg r 1] v a n → k.arrived < 65535 → ∃ q, IssuesTo (.bara h r) s c h false true q
      ∧ ObjectSet v q t a (advanced { k with arrived := k.arrived + 1 } (exitedOf v t)))
  ∧ (((entered s c h).ctx c).wait = some (.barrier [] false) → IssuesTo (.barw h r x) s c h false true (entered s c h)))
  ∧ (∀ (h : Head) (r : Reg) (x : Src) (s : State) (c : CtxId),
  Issues s c h engineHow → (envAt s c h false).parts ≠ [] →
  let u := entered s c h
  let e := envAt s c h false
  ((∀ y ∈ e.unit, (u.ctx y).wait = some (.barrier [] true)) → e.unit ≠ [] → IssuesTo (.bar h r x) s c h false true u)
  ∧ ∀ vals v, (∀ y ∈ e.unit, ∀ o, (u.ctx y).wait ≠ some (.barrier o true)) → acquiring u e = false →
    columns e u [.reg r 1, .src x] = .ok (vals, v) →
    let l := arrivals e v vals
    let objs := distinct (l.map (fun y => y.obj))
    (∀ w ∈ e.parts.zip vals, (w.2.getD 0 0) % 16 = 0 ∧ (resolve v e.team .sh (w.2.getD 0 0) 16).isSome = true) →
    (∀ o ∈ objs, arrivalFault v e.team l o = none ∧ objectHeld v e.team o = false) →
    galleyFits v e.team (objs.flatMap (objectBytes v e.team)) = true →
    let q := arrive (v.modCtxs e.unit (fun y => { y with wait := some (.barrier [] true) })) e.team l
    (released q e.unit = true → IssuesTo (.bar h r x) s c h false true q)
    ∧ (released q e.unit = false → exec (.bar h r x) s = .next { q with took := .stalled })
    ∧ ∀ o, objs = [o] → o < 2 ^ 32 → getBar q e.team o = advanced { getBar v e.team o with
        lane := true
        expect := if (getBar v e.team o).arrived = 0 then (l.head?.map (fun y => y.n)).getD 0 else (getBar v e.team o).expect
        arrived := (getBar v e.team o).arrived + l.length } (exitedOf v e.team))

/-! Matrix instructions -/

/-- Ranges of the forme (R207 to R210): `OBRES` takes the lowest free record and the lowest run of granules, or answers 0xFFFFFFFF;
`OBREL` frees a range that no accepted operation reads or fills; `OBLD` and `OBSC` accept a load of the range's element or scale
bytes from `sh`. The model's choices in it: log 11 and 56. -/
def Obligations.RangeInstructions : Prop := ∀ (h : Head) (f : Fmt) (sp : Sparsity) (blk : BlkLen) (scl : ScaleKind) (d a b : Reg)
    (base : Option Reg) (off : Src) (s : State) (c : CtxId) (vals : List (List Nat)) (v : State),
  Issues s c h engineHow → (envAt s c h false).parts ≠ [] →
  let e := envAt s c h false
  let core := coreOf v e.team
  let w := vals.headD []
  (∀ y, columns e (entered s c h) [.reg a 1, .reg b 1] = .ok (vals, v) → v.core? core = some y →
    let size := w.getD 0 0
    let so := w.getD 1 0 % 2 ^ 15 * 16
    let mo := w.getD 1 0 / 2 ^ 16 % 2 ^ 15 * 16
    let used := y.recs.flatMap (fun r => if r.valid then r.granules else [])
      ++ (y.granHold.filter (fun g => g.2.1 ≠ e.team)).map (fun g => g.1)
    size % 1024 = 0 → size ≠ 0 → size ≤ 262144 → bit (w.getD 1 0) 31 = false → bit (w.getD 1 0) 15 = false →
    (if scl = .none then so = 0 else so ≠ 0 ∧ so < size) → (if sp = .dense then mo = 0 else mo ≠ 0 ∧ mo < size) →
    (scl ≠ .none → sp ≠ .dense → mo < so) →
    (∀ k st, y.recs.findIdx? (fun r => r.freeTo e.team) = some k →
      st + size / 1024 ≤ 256 → (∀ i < size / 1024, st + i ∉ used) → (∀ q < st, ∃ i < size / 1024, q + i ∈ used) →
      ∃ q, Results (.obres h f sp blk scl d a b base) s c h .fixed q [((c, 0), [(d, 1, k)])]
        ∧ (∀ z, (q.core? core).bind (fun y => y.recs[k]?) = some z → z.valid = true ∧ z.start = st ∧ z.size = size / 1024 ∧ z.fmt = f
          ∧ z.spars = sp ∧ z.blk = blk ∧ z.scl = scl ∧ z.soff = so ∧ z.moff = mo ∧ z.owner = some e.team)
        ∧ { q with cores := v.cores, nonce := v.nonce } = v)
    ∧ ((y.recs.findIdx? (fun r => r.freeTo e.team) = none ∨ ∀ st, st + size / 1024 ≤ 256 → ∃ i < size / 1024, st + i ∈ used) →
      Results (.obres h f sp blk scl d a b base) s c h .fixed v [((c, 0), [(d, 1, 0xFFFFFFFF)])]))
  ∧ (∀ r, columns e (entered s c h) [.reg a 1] = .ok (vals, v) → rangeOf v e.team (w.getD 0 0) = some r →
    (∀ o ∈ queued v core, w.getD 0 0 ∉ opReads o ∧ w.getD 0 0 ∉ opFills o) →
    IssuesTo (.obrel h a) s c h false true (v.modCore core (fun y => { y with
      recs := y.recs.set (w.getD 0 0) { r with valid := false, freed := some (epochOf v e.team) }
      granHold := y.granHold ++ r.granules.map (fun g => (g, e.team, epochOf v e.team)) })))
  ∧ ∀ r p lo hi, columns e (entered s c h) [.reg d 1, .reg a 1, .src off] = .ok (vals, v) → rangeOf v e.team (w.getD 0 0) = some r →
    let addr := (w.getD 1 0 + w.getD 2 0) % 2 ^ 32
    addr % 16 = 0 → resolve v e.team .sh addr (hi - lo) = some p → queueFull v core = false →
    let cells := cellsFrom p (hi - lo)
    (∀ a ∈ cells, mustWait v (unitTeams v e.team) a 1 = false) → badAt v (unitTeams v e.team) cells = none →
    let t := accept v (newOp v e (.formeLoad (w.getD 0 0) lo (cells.map (readByte v (unitTeams v e.team)))) none) none
    (lo = 0 → hi = (if r.scl = .none then 1024 * r.size else r.soff) → IssuesTo (.obld h d a off) s c h false true t)
    ∧ (r.scl ≠ .none → lo = r.soff → hi = 1024 * r.size → IssuesTo (.obsc h d a off) s c h false true t)

/-- Products (R212, R213, R215): with every check passed and a place in the queue, `MMA`, `MMAS` and `MMAG` accept a product of the rows
and columns of the size word; `MMAS` takes the masks of its rows, `MMAG` the rows that its index vector names.
The model's choice in it: log 56. -/
def Obligations.ProductsAccepted : Prop := ∀ (h : Head) (at_ bt : Fmt) (pair : Bool) (d a b x : Reg) (s : State) (c : CtxId)
    (vals : List (List Nat)) (v : State) (ra rb : Rec),
  Issues s c h engineHow → (envAt s c h false).parts ≠ [] →
  let e := envAt s c h false
  let w := vals.headD []
  let sw := w.getD 3 0
  let core := coreOf v e.team
  rangeOf v e.team (w.getD 1 0) = some ra → rangeOf v e.team (w.getD 2 0) = some rb →
  queueFull v core = false → countFull v c .matrix = false →
  basePending v e (some ra) = false → basePending v e (some rb) = false →
  let product (k : Nat) (masks : Option (List (List Nat))) (rows : Option (List (List Byte))) (ready : Nat) : State :=
    accept v { newOp v e (.product (w.getD 0 0) (w.getD 1 0) (w.getD 2 0) (sw % 256) (sw / 2 ^ 16 % 256) k pair
      (areaOf ra k ((baseOf v e ra).getD 0)) (areaOf rb k ((baseOf v e rb).getD 0)) masks rows) (some .matrix) with started := ready } none
  let check (kind : Prod) (k : Nat) : Prop :=
    productFault v e kind at_ bt pair (w.getD 0 0) (w.getD 1 0) (w.getD 2 0) sw (w.getD 6 0) k = none
  (columns e (entered s c h) [.reg d 1, .reg a 1, .reg b 1, .reg x 1] = .ok (vals, v) →
    w.length = 4 →
    (check .mma (denseK (layout at_).width) → IssuesTo (.mma h at_ bt pair d a b x) s c h false true
      (product (denseK (layout at_).width) none none v.cycle))
    ∧ (check .mmas (2 * denseK (layout at_).width) → (∀ o ∈ queued v core, w.getD 1 0 ∉ opFills o) →
      (∀ m ∈ masksOf v core ra (sw % 256) (2 * denseK (layout at_).width), ∀ g ∈ m, maskOk ra g = true) →
      IssuesTo (.mmas h at_ bt pair d a b x) s c h false true (product (2 * denseK (layout at_).width)
        (some (masksOf v core ra (sw % 256) (2 * denseK (layout at_).width))) none v.cycle)))
  ∧ ∀ places, columns e (entered s c h) [.reg d 1, .reg a 1, .reg b 1, .reg x 1, .reg (x.up 1) 1, .reg (x.up 2) 1, .reg (x.up 3) 1]
      = .ok (vals, v) →
    let k := denseK (layout at_).width
    let n := ra.rowBytes k + ra.scaleBytes k
    w.getD 4 0 % 4 = 0 → w.getD 5 0 % 16 = 0 → w.getD 6 0 % 16 = 0 → check .mmag k →
    gatherRows v e.team (sw % 256) (w.getD 4 0) (w.getD 5 0) (w.getD 6 0) n = .ok places →
    (∀ p ∈ places, ∀ a ∈ p, mustWait v (unitTeams v e.team) a 1 = false) → badAt v (unitTeams v e.team) places.flatten = none →
    IssuesTo (.mmag h at_ bt pair d a b x) s c h false true (product k none
      (some (places.map (fun p => p.map (readByte v (unitTeams v e.team))))) (v.cycle + (sw % 256 * w.getD 6 0 + 511) / 512))

/-- Accumulator tiles (R218 to R224): `ACCA` asks for its tiles once and, when they are granted, writes the lowest and the mask of all;
`ACCF` frees a tile, `ACCZ` clears one, `ACCLD` and `ACCST` queue a load or a drain, `ACCRD` and `ACCWR` move a row of fragments. The
matrix queue (R211, R220): an operation accepted while none of its pair is queued is applied at once where it needs no engine: `ACCZ`
leaves +0 in every element, with every row and column valid; `ACCWR` the values of its fragments.
The model's choices in it: log 54, 60 and 62. -/
def Obligations.TileInstructions : Prop :=
  (∀ (h : Head) (f : Fmt) (rnd : Rnd) (sat sr addOn : Bool) (sp : EngSpace) (d a b : Reg)
    (r : BitVec 8) (done : Option (BitVec 4)) (s : State) (c : CtxId),
  Issues s c h engineHow → (envAt s c h false).parts ≠ [] →
  let e := envAt s c h false
  let u := entered s c h
  (∀ y n ks, u.core? (coreOf u e.team) = some y → y.alloc.find? (fun r => r.1 = c) = some (c, n, some ks) →
    (∀ m, d ≠ .p m) → (∀ m, d ≠ .v m) → ∀ q, pushOuts e u [((c, 0), [(d, 2, ks.headD 0 + 2 ^ 32 * tileMask ks)])] = .ok q →
      Clear q (outCells e u [((c, 0), [(d, 2, ks.headD 0 + 2 ^ 32 * tileMask ks)])]) →
      ∃ t, exec (.acca h d a) s = .next t ∧ t.took = .issued
        ∧ (∀ o l, u.hasCtx o = true → (t.ctx o).through l =
            (lastWord (writesOf o (outCells e u [((c, 0), [(d, 2, ks.headD 0 + 2 ^ 32 * tileMask ks)])])) l).getD ((q.ctx o).through l))
        ∧ (t.core? (coreOf u e.team)).map (fun y => y.alloc) = (q.core? (coreOf u e.team)).map (fun y => y.alloc.filter (fun r => r.1 ≠ c)))
  ∧ ∀ vals v, let w := vals.headD []
    let core := coreOf v e.team
    (columns e u [.reg a 1] = .ok (vals, v) →
      ((∀ y, u.core? (coreOf u e.team) = some y → ∀ r ∈ y.alloc, r.1 ≠ c) → 1 ≤ w.getD 0 0 → w.getD 0 0 ≤ 32 →
        holding v e.team + w.getD 0 0 ≤ 32 →
        ∃ t, exec (.acca h d a) s = .next t ∧ t.took = .stalled
          ∧ (t.core? (coreOf u e.team)).map (fun y => y.alloc) = (v.core? (coreOf u e.team)).map (fun y => y.alloc ++ [(c, w.getD 0 0, none)]))
      ∧ ∀ k, ownedTile v e.team (w.getD 0 0) = some k →
        (tileBusy v core (w.getD 0 0) = false → IssuesTo (.accf h a) s c h false true
          (allocSoon (modTile v core (w.getD 0 0) (fun x => { x with freed := some (epochOf v e.team) })) core))
        ∧ (queueFull v core = false → IssuesTo (.accz h a) s c h false true (accept v (newOp v e (.zero (w.getD 0 0)) none) none)))
    ∧ (∀ k, columns e u [.reg d 1, .reg a (spaceWords sp), .reg b 1] = .ok (vals, v) → ownedTile v e.team (w.getD 0 0) = some k →
      drainFault v e.team f false ⟨sp, w.getD 1 0⟩ (w.getD 2 0) = none → queueFull v core = false → countFull v c .matrix = false →
      IssuesTo (.accld h f sp d a b done) s c h false true
        (accept v (newOp v e (.load (w.getD 0 0) f ⟨sp, w.getD 1 0⟩ (w.getD 2 0)) (some .matrix)) done))
    ∧ (∀ k, columns e u [.reg d (spaceWords sp), .reg a 1, .reg b 1] = .ok (vals, v) → ownedTile v e.team (w.getD 1 0) = some k →
      drainFault v e.team f addOn ⟨sp, w.getD 0 0⟩ (w.getD 2 0) = none → queueFull v core = false → countFull v c .matrix = false →
      (addOn = true → engineQuota v e (addCodeOf f) 3 ⟨sp, w.getD 0 0⟩ = none) →
      ∃ t, IssuesTo (.accst h addOn f rnd sat sr sp d a b done) s c h false true t
        ∧ let q := accept v { newOp v e (.store (w.getD 1 0) f addOn rnd sat (if sr then some (drainLane v e) else none) ⟨sp, w.getD 0 0⟩
            (w.getD 2 0)) (some .matrix) with key := if addOn then some (engineKey v e) else none } done
          { t with ctxs := q.ctxs, teams := q.teams } = q)
    ∧ (∀ k, columns e u [.reg a 1, .reg b 1] = .ok (vals, v) → ownedTile v e.team (w.getD 0 0) = some k →
      (∀ y ∈ fragRows v e (w.getD 1 0), y.2 ≤ 63) → settledBelow v c = true → tileBusy v core (w.getD 0 0) = false →
      let el (n : Nat) : Nat := convert f .rne false (value .f32 (k.at_ (n / 64) (n % 64)))
      let ws := (fragLanes v e (fragRows v e (w.getD 1 0))).flatMap (fun (p, n) =>
        if f = .f32 then [(p.1, Loc.v p.2 r.toNat, BitVec.ofNat 32 (el n)), (p.1, Loc.v p.2 (r.toNat + 1), BitVec.ofNat 32 (el (n + 1)))]
        else [(p.1, Loc.v p.2 r.toNat, BitVec.ofNat 32 (el n + 65536 * el (n + 1)))])
      Clear v ws → ∃ t, exec (.accrd h f r a b) s = .next t ∧ WritesNow v t e.unit ws)
    ∧ (∀ k, columns e u [.reg d 1, .reg b 1] = .ok (vals, v) → ownedTile v e.team (w.getD 0 0) = some k →
      (∀ y ∈ fragRows v e (w.getD 1 0), y.2 ≤ 63) → settledBelow v c = true → queueFull v core = false →
      let lane (p : CtxId × Nat) (n : Nat) : Nat := (((v.ctx p.1).flush).cell (.v p.2 n)).toNat
      let f32 (x : Nat) : Word := BitVec.ofNat 32 (convert .f32 .rne false (value f x))
      let two (p : CtxId × Nat) : Nat × Nat :=
        if f = .f32 then (lane p r.toNat, lane p (r.toNat + 1)) else (lane p r.toNat % 65536, lane p r.toNat / 65536)
      IssuesTo (.accwr h f d r b) s c h false true (accept v (newOp v e (.put (w.getD 0 0)
        ((fragLanes v e (fragRows v e (w.getD 1 0))).flatMap (fun (p, n) => [(n, f32 (two p).1), (n + 1, f32 (two p).2)]))) none) none)))
  ∧ (∀ (s : State) (e : Env) (k : Nat) (x : Tile) (l : List (Nat × Word)),
  let core := coreOf s e.team
  tileOf s core k = some x → (core = (pairCores (pairOf core)).1 ∨ core = (pairCores (pairOf core)).2) →
  s.op? s.opNum = none → queuedPair s core = [] → (∀ o ∈ s.ops, o.id < s.opNum) → (∀ y, s.core? core = some y → y.mq = []) →
  tileOf (accept s (newOp s e (.zero k) none) none) core k = some (x.hold [] 64 64)
  ∧ tileOf (accept s (newOp s e (.put k l) none) none) core k = some { x with elems := x.elems.writes l })

/-! Work, seals, collectives, system -/

/-- Role queues (R193): elements are popped in the order in which they were pushed; a pop of more elements than there are waits; a push
that nothing bars stands at the back, all its elements together, under its role, and waits past its role's allowance or the capacity; an
access that can never complete, and a push of a role outside PROD, raise BOUNDS. `QTRY`, `QCNT` and `QCFG` (R191, R192, R195, R196): a try
moves one element, or answers that it could not; a count is one sample for every participant; a valid descriptor makes the queue that it
describes, empty. The model's choices in it: log 35, 38, 155, 156 and 157. -/
def Obligations.QueueInstructions : Prop :=
  (∀ (s : State) (t : TeamId) (q r k : Nat) (x : QueueSt) (vs : List Word),
  Machine.queueOf s t q = some x →
  (k ≤ x.limit → k ≤ x.elems.length → popBar s t q k x = none → ∃ u, popElems s t q k = .ok ((x.elems.take k).map (fun e => e.2), u)
    ∧ Machine.queueOf u t q = some { x with elems := x.elems.drop k, head := x.head + k })
  ∧ (x.elems.length ≤ x.cap → popBar s t q k x = none)
  ∧ (∀ b, k ≤ x.limit → k ≤ x.elems.length → popBar s t q k x = some b → popElems s t q k = .error b)
  ∧ (k ≤ x.limit → x.elems.length < k → popElems s t q k = .error (.stall (.queuePop q k)))
  ∧ (x.limit < k → ∃ f, popElems s t q k = .error (.trap f) ∧ f.cause = .bounds)
  ∧ (x.prod.getLsbD r = false ∨ x.allow < vs.length ∨ x.limit < vs.length →
      ∃ f, pushElems s t r q vs = .error (.trap f) ∧ f.cause = .bounds)
  ∧ (x.prod.getLsbD r = true → vs.length ≤ x.allow → vs.length ≤ x.limit → x.allow < x.outOf r + vs.length →
      pushElems s t r q vs = .error (.stall (.queuePush q vs.length)))
  ∧ (pushBar s t r q vs.length x = none → ∃ u, pushElems s t r q vs = .ok u
    ∧ Machine.queueOf u t q = some { x with elems := x.elems ++ vs.map (fun v => (r, v)) })
  ∧ (x.spill = false → x.prod.getLsbD r = true → vs.length ≤ x.allow → vs.length ≤ x.cap →
      x.outOf r + vs.length ≤ x.allow → x.cap < x.elems.length + vs.length →
      pushElems s t r q vs = .error (.stall (.queuePush q vs.length))))
  ∧ (∀ (h : Head) (d a b x : Reg) (q : BitVec 5) (push : Option Reg) (p : BitVec 3) (s : State) (c : CtxId),
  let e := envAt s c h false
  let u := entered s c h
  (∀ vals v outs w, Issues s c h loadHow → OperandsRead e u ((push.map (fun r => Operand.reg r 1)).toList) vals v →
    tryAll e q.toNat d p push.isSome v (e.parts.zip vals) = .ok (outs, w) → Results (.qtry h d q push p) s c h .varies w outs)
  ∧ (∀ y, Issues s c h loadHow → Machine.queueOf u e.team q.toNat = some y →
    Results (.qcnt h d q) s c h .varies u (e.parts.map (fun z => (z, [(d, 1, y.elems.length)]))))
  ∧ (∀ y, Machine.queueOf u e.team q.toNat = some y → 1 ≤ y.limit →
    (y.elems = [] → tryPop u e.team q.toNat = .ok (none, u))
    ∧ ∀ z r, y.elems = z :: r → popBar u e.team q.toNat 1 y = none → ∃ t, tryPop u e.team q.toNat = .ok (some z.2, t)
        ∧ Machine.queueOf t e.team q.toNat = some { y with elems := r, head := y.head + 1 })
  ∧ ∀ vals v, Issues s c h engineHow → e.parts ≠ [] → columns e u [.reg a 1, .reg b 2, .reg x 1] = .ok (vals, v) →
    let w := vals.headD []
    QDesc.bad v e.team q.toNat (w.getD 0 0) (QDesc.of (w.getD 0 0) (w.getD 1 0) (w.getD 2 0)) = false →
    q.toNat < ((v.team? e.team).map (fun t => t.queues.length)).getD 0 →
    ∃ t, IssuesTo (.qcfg h q a b x) s c h false true t
      ∧ Machine.queueOf t e.team q.toNat = some (QDesc.queue (QDesc.of (w.getD 0 0) (w.getD 1 0) (w.getD 2 0)))
      ∧ t.mem = v.mem ∧ t.galley = v.galley)

/-- Seal points and draws (R197 to R200, R282): a role that arrives at a seal point waits until every role with live lanes stands at one; the
last arrival closes it, in a launch without proof or audit mode, for all: every role goes on past it, and every team begins its
next epoch with a pending checkpoint. `TILE` at L scope draws for its lanes, and goes on once its die's spool has served them (R309, R310).
The model's choices in it: log 43 and 63. -/
def Obligations.SealPoints : Prop := ∀ (h : Head) (tile nr : Bool) (d : Reg) (pd : BitVec 3) (s : State) (c : CtxId),
  let e := envAt s c h false
  let u := entered s c h
  let role := roleOf u c
  let i := if tile then Instr.tile h nr d pd else .seal h
  let a : Sealer := ⟨role, tile, if tile then nr else false, if tile then d else .zero, if tile then pd else 7, h.hints.la.toNat, u.treeCycle⟩
  let q := u.modTeam e.team (fun x => { x with sealers := x.sealers ++ [a] })
  let ts := sealTeams q e.team
  (h.scope = .T → Issues s c h (sealHow tile) → e.parts ≠ [] →
    (tile = true → meetsPending u (cellsOf u .T c 0 3 d 0 ++ cellsOf u .T c 0 1 (.p pd) 0) = false) →
    ((u.team? e.team).map (fun x => x.sealers.any (fun y => y.role == role))).getD false = false →
    (allStand q ts = false → ∃ t, exec i s = .next t ∧ t.took = .stalled
      ∧ { t with ctxs := s.ctxs, took := s.took } = { q with ctxs := s.ctxs, took := s.took }
      ∧ ∀ o, t.ctx o = if o ∈ e.unit ∧ u.hasCtx o = true then { u.ctx o with wait := some .seal } else u.ctx o)
    ∧ (allStand q ts = true → (∀ y ∈ sealersOf q ts, y.2.tile = tile) →
      (∀ y ∈ ts, ∀ z, q.team? y = some z → ∀ k ∈ z.queues, ∀ w, k = some w → w.elems = []) → mayClose q ts = true →
      (tile = true → (keptDraw (sealDraw q ts) (primaryOf ts)).isSome = true) → (∀ y ∈ ts, ∃ l, q.launch? y.launch = some l ∧ l.proof = false ∧ l.audit = false) → e.team ∈ ts →
      ∃ t, exec i s = .next t ∧ t.took = .issued ∧ t.mem = u.mem ∧ t.galley = u.galley
        ∧ (∀ y ∈ sealersOf q ts, u.hasCtx (.team y.1 y.2.role) = true → (t.ctx (.team y.1 y.2.role)).wait = none
          ∧ (t.ctx (.team y.1 y.2.role)).pc = (u.ctx (.team y.1 y.2.role)).pc
            + BitVec.ofNat 32 ((sealersOf q ts).filter (fun z => z.1 = y.1 ∧ z.2.role = y.2.role)).length)
        ∧ ∀ y ∈ ts, ∀ z, q.team? y = some z → ∃ w, t.team? y = some w ∧ w.epoch = z.epoch + 1 ∧ w.sealers = []
            ∧ ∃ k r, w.ckpts = k :: r ∧ k.epoch = z.epoch + 1 ∧ k.valid = false ∧ k.c = u.tick))
  ∧ (h.scope = .L → Issues s c h { sealHow true with effect := true } →
    let die := dieOf (coreOf u e.team)
    let point := spoolPoint die
    let ks := laneDraws u e
    let open_ (v : State) := ks.filter (fun k => (replayed v e.team k.2 point 0 4 0).isNone)
    let ahead := ((drawsOf u e.team.launch).filter (fun q => q.die = die && q.unit ≠ e.c)).flatMap (fun q =>
      (q.lanes.filter (fun k => (replayed u e.team k.2 point 0 4 0).isNone)).map (fun _ => point))
    (open_ u ≠ [] → isShadow e.team = false ∧ effectBar u e.team (open_ u).length (ahead ++ (open_ u).map (fun _ => point)) 4 = none) →
    let t := if open_ u = [] then u else serveSpool (queueLanes u e ks) e.team.launch die
    open_ t = [] →
    let r := ks.foldl (fun s _ => sign s e.team (sigEffect 0 0 4 3 0)) (leaveSpool t e.team.launch e.c)
    Results (.tile h nr d pd) s c h .varies (countEffect (if e.parts = [] then u else r) e.unit) (ks.map (fun (p, k) =>
      let v := drawnOf r e.team k
      if v = 0 then (p, [(.p pd, 1, 0)])
      else (p, ((List.range 3).zip (coordOf r e.team.launch (v - 1))).map (fun (i, x) => (d.up i, 1, x)) ++ [(.p pd, 1, 1)]))))

/-- Package barriers (R201): `ARRIVE` arrives and goes on, `SYNC` arrives and waits for the release, `WAIT` goes on where its context has not
arrived in the open phase; a phase that has its arrivals is released 120 cycles of the tree later (R319).
The model's choice in it: log 13. -/
def Obligations.PackageBarriers : Prop := ∀ (h : Head) (a : Src) (s : State) (c : CtxId) (vals : List (List Nat)) (v : State) (b : PBar),
  Issues s c h { anchored := true, noHandler := true } → (envAt s c h false).parts ≠ [] →
  let e := envAt s c h false
  let u := entered s c h
  let who := (e.team, roleOf u c)
  let id := (vals.headD []).getD 0 0
  ((∀ i n, (u.ctx c).wait ≠ some (.pbar i (n + 1))) → columns e u [.src a] = .ok (vals, v) → Machine.pbarOf v e.team.launch id = some b →
    (b.arrived.contains who = false → IssuesTo (.pbar h .wait a) s c h false true v)
    ∧ (b.arrived.contains who = false → b.releasing = false →
      IssuesTo (.pbar h .arrive a) s c h false true (arrivePbar v id who)
      ∧ (∃ t, exec (.pbar h .sync a) s = .next t ∧ t.took = .stalled ∧ t.pbars = (arrivePbar v id who).pbars
        ∧ ∀ o ∈ e.unit, v.hasCtx o = true → (t.ctx o).wait = some (.pbar id (b.phase + 1)))
      ∧ (PBar.full { b with arrived := b.arrived ++ [who] } = true →
        ∃ k, Machine.pbarOf (arrivePbar v id who) e.team.launch id = some k ∧ k.releasing = true ∧ k.due = v.treeCycle + 120)))
  ∧ ∀ i n, (u.ctx c).wait = some (.pbar i (n + 1)) →
    ((Machine.pbarOf u e.team.launch i).map (fun b => b.arrived.contains who)).getD false = false →
    ∀ k, IssuesTo (.pbar h k a) s c h false true u

/-- Collectives and views (R322, R323, R326, R329): `COLL` with every check passed takes the next sequence of its domain and a pending handle;
its operation is queued, and the collective stands last in the domain's list, with that sequence and its description, unless it ends at
once (a broadcast whose root is not in the view, R327) or a flit of its sequence that came before it was accepted ends it. `VIEW` reads
number, size and own rank of one sample. The model's choices in it: log 75 and 143. -/
def Obligations.CollectiveInstructions : Prop := ∀ (h : Head) (op : CollOp) (red : CollRed) (ty : CollTy) (policy : CollPolicy) (n : BitVec 4)
    (d a b x : Reg) (s : State) (c : CtxId) (vals : List (List Nat)) (v : State),
  let e := envAt s c h false
  let u := entered s c h
  let w := vals.headD []
  (∀ j dom, Issues s c h { anchored := true, noHandler := true } → e.parts ≠ [] →
    columns e u [.reg a 2, .reg (a.up 2) 2, .reg b 1, .reg x 1] = .ok (vals, v) → w.getD 0 0 % 16 = 0 → w.getD 1 0 % 16 = 0 →
    collJob v op red ty policy (w.getD 0 0) (w.getD 1 0) (w.getD 2 0) (w.getD 3 0) = some j → countFull v c .coll = false →
    replayed v e.team (engineKey v e) collPoint 0 5 j.src.addr = none → isShadow e.team = false →
    effectBar v e.team 1 [collPoint] 5 = none → v.domain? j.dom = some dom →
    ∃ t, IssuesTo (.coll h op red ty policy n a b x) s c h false true t
      ∧ (∃ y, t.domain? j.dom = some y ∧ y.nextSeq = dom.nextSeq + 1
        ∧ ((op ≠ .bcast ∨ dom.members.contains j.root = true) → (∀ f ∈ dom.early, f.1 ≠ dom.nextSeq) →
          ∃ k o, y.colls = dom.colls ++ [k] ∧ t.ops = v.ops ++ [o] ∧ k.seq = dom.nextSeq ∧ k.op = v.opNum ∧ k.desc = j.desc
            ∧ k.started = false ∧ o.id = v.opNum ∧ o.finished = false
            ∧ o.kind = .coll op red ty policy j.dom j.root (w.getD 2 0) j.src j.dst))
      ∧ (v.hasCtx c = true → (t.ctx c).h = (v.ctx c).h.set n.toNat (.pending v.opNum))
      ∧ t.mem = v.mem ∧ ((∀ k ∈ dom.colls, k.seq < dom.nextSeq) → t.galley = v.galley))
  ∧ ∀ y, Issues s c h { anchored := namesQueue [d] [.reg a 1], varying := true, noHandler := true } → e.parts ≠ [] → columns e u [.reg a 1] = .ok (vals, v) →
    w.getD 0 0 < 16 → v.domain? (w.getD 0 0) = some y →
    Results (.view h d a) s c h .varies v (e.parts.map (fun p => (p, [(d, 1, y.view),
      (d.up 1, 1, if y.state = .excluded then 0 else y.members.length), (d.up 2, 1, y.own)])))

/-- System instructions of a grid (R119, R120): `SNAP` fires its trigger where the launch permits it; `SYSCALL` waits for its service.
System instructions of compositor code (R121, R122, R373): `CSRR` reads a control register, `CSRW` writes one, `TLBI` invalidates and goes
on once every die has acknowledged. Code of a grid raises ILLOP. The model's choices in it: log 8, 13 and 97. -/
def Obligations.SystemInstructions : Prop :=
  (∀ (h : Head) (a : Reg) (n : Word) (s : State) (c : CtxId) (vals : List (List Nat)) (v : State),
  Issues s c h { anchored := true } → (envAt s c h false).parts ≠ [] →
  let e := envAt s c h false
  let u := entered s c h
  (columns e u [.reg a 1] = .ok (vals, v) →
    (∀ l, launchOf v c = some l → l.snap = true → IssuesTo (.snap h a) s c h false true
      (fireTrigger v 1 (BitVec.ofNat 32 ((vals.headD []).headD 0)) l.ctx (u.ctx c).pc))
    ∧ ((∀ l, launchOf v c = some l → l.snap = false) → IssuesTo (.snap h a) s c h false true v))
  ∧ ((∀ k l, (u.ctx c).wait ≠ some (.service k l)) → meetsPending u [(c, .sc 0, 0), (c, .sc 1, 0)] = false →
    ∃ t, exec (.syscall h n) s = .next t ∧ t.took = .stalled
      ∧ (∀ o, t.ctx o = if o ∈ e.unit ∧ u.hasCtx o = true then { u.ctx o with wait := some (.service n ((List.range 4).map (fun i => (u.ctx c).cell (.sc i)))) } else u.ctx o)
      ∧ ∃ k, u.cycle < k ∧ (k, Instr.syscallAnswer e.team (roleOf u c)) ∈ t.timers))
  ∧ (∀ (h : Head) (d a b : Reg) (n : Word) (s : State) (c : CtxId),
  (envAt s c h false).parts ≠ [] →
  let e := envAt s c h false
  let u := entered s c h
  (firmwareDie c = none →
    Issues s c h { anchored := true } → Faults (.csrr h d n) s c h u { cause := .illop } ∧ Faults (.csrw h n a) s c h u { cause := .illop }
      ∧ Faults (.tlbi h a b) s c h u { cause := .illop })
  ∧ ∀ k, firmwareDie c = some k →
    (∀ w t, Issues s c h {} → meetsPending u (cellsOf u .W c 0 1 d 0) = false → readCsr u k n.toNat = some (w, t) →
      Results (.csrr h d n) s c h .fixed t (e.parts.map (fun p => (p, [(d, 1, w.toNat)]))))
    ∧ (∀ vals v t, Issues s c h { anchored := true } → columns e u [.reg a 1] = .ok (vals, v) →
      writeCsr v k n.toNat (BitVec.ofNat 32 ((vals.headD []).headD 0)) = .ok t → IssuesTo (.csrw h n a) s c h false true t)
    ∧ (∀ id, Issues s c h { anchored := true } → (u.ctx c).wait = some (.tlbi id) → (∀ t ∈ u.tlbis, t.1 ≠ id) →
      IssuesTo (.tlbi h a b) s c h false true u)
    ∧ (∀ vals v, Issues s c h { anchored := true } → (∀ id, (u.ctx c).wait ≠ some (.tlbi id)) →
      columns e u [.reg a 2, .reg b 1] = .ok (vals, v) → diesUp v ≠ [] →
      let t0 := invalidate v ((vals.headD []).getD 1 0) ((vals.headD []).getD 0 0)
      ∃ t, exec (.tlbi h a b) s = .next t ∧ t.took = .stalled ∧ t.tlbis = t0.tlbis ++ [(t0.opNum, k, diesUp t0)]
        ∧ ∀ o ∈ e.unit, v.hasCtx o = true → (t.ctx o).wait = some (.tlbi t0.opNum)))

/-! Steps that no instruction word brings -/

/-- Results, channels and deliveries (R50, R177 to R179): a variable result arrives; a channel begins its next operation with its pointer at 0; a
block of a copy moves the bytes of its source, up to the next multiple of 256 of the destination; a completion counts down the
counters of its class and completes the handles that refer to it. These events complete, whatever the state; a delivery does but at a place
that does not exist. The model's choice in it: log 8. -/
def Obligations.EngineEvents : Prop := ∀ (s : State) (c : CtxId) (id die core ch : Nat),
  let n := Config.coresPerDie * die + core
  ((∃ t, exec (.channelOperationBegin die core ch) s = .next t) ∧ (∃ t, exec (.operationCompletion id) s = .next t)
    ∧ (exec (.delivery id) s = .fault .noSuchAddress ∨ ∃ t, exec (.delivery id) s = .next t))
  ∧ (∃ t, exec (.resultArrival c id) s = .next t ∧ t.mem = s.mem ∧ t.galley = s.galley ∧ ∀ u, t.ctx u =
    { s.ctx u with vars := (s.ctx u).vars.map (fun r => if r.id = id then { r with arrived := true } else r) })
  ∧ (∀ k o, chanOf s n ch = some k → k.running = false → k.ops.head? = some id → s.op? id = some o →
    ∃ t, exec (.channelOperationBegin die core ch) s = .next t ∧ chanOf t n ch = some { k with running := true, cwp := 0 }
      ∧ t.op? id = some { o with begun := true } ∧ ∃ d, s.cycle < d ∧ (d, Instr.delivery id) ∈ t.timers)
  ∧ (∀ o dst src len (l m : List Nat), s.op? id = some o → o.kind = .copy dst src len → o.finished = false → o.suspended = false → o.cancel = false →
    o.barrier = none → atFront s o = true → o.done < len → s.team? o.team ≠ none →
    let k := blockLen o dst len
    places s o src o.done k .read = .ok l → places s o dst o.done k .write = .ok m → l.length = m.length → m.Nodup →
    placesWait s o (l ++ m) = false → badAt s (unitTeams s o.team) l = none → engineFits s o (m.zip (gatherBytes s o l)) = true →
    ∃ t p, exec (.delivery id) s = .next t ∧ t.mem = s.mem ∧ t.op? id = some p ∧ p.done = o.done + k
      ∧ p.finished = decide (len ≤ o.done + k)
      ∧ ∀ (i a b : Nat), m[i]? = some a → l[i]? = some b → readByte t (unitTeams s o.team) a = readByte s (unitTeams s o.team) b)
  ∧ ∀ o, s.op? id = some o → o.finished = true → olderOps s o = [] → o.flush ≤ s.tick → (o.owed = 0 ∨ engineFits s o [] = true) →
    ∃ t, exec (.operationCompletion id) s = .next t ∧ t.op? id = none ∧ ((∀ v ∈ s.saved, v.id ≠ o.team) → t.mem = s.mem)
      ∧ (∀ u, u.team? = some o.team → (t.ctx u).h = completeHandles id o.status (s.ctx u).h)
      ∧ ∀ k u, o.cls = some k → u ∈ o.units → s.hasCtx u = true → (t.ctx u).counts = (s.ctx u).counts.upd k (fun n => n - 1)

/-- Matrix events (R209, R214, R216, R219, R220, R228): a load fills its range; a product that starts is charged, on both cores where it is a
pair's, and retires 82 cycles later, on a seam pair up to 30 cycles after that; at retirement its tile takes every sum, VM and VN; tiles are
granted in arrival order: the oldest request that waits takes the lowest free ones, and a younger one waits while an older one does. The sum of a
product (R84 to R86): an element takes the four chunks of K one after the other, each the exact sum of its products, rounded once
as it is added; a masked operand contributes its stored positions alone. Every one of these events completes, whatever the state.
The model's choices in it: log 8, 56 and 60. -/
def Obligations.MatrixEvents : Prop :=
  (∀ (s : State) (id die core : Nat), (∃ t, exec (.formeLoadFinish id) s = .next t) ∧ (∃ t, exec (.productStart id) s = .next t)
    ∧ (∃ t, exec (.productRetire id) s = .next t) ∧ ∃ t, exec (.accaGrant die core) s = .next t)
  ∧ (∀ (s : State) (id die core : Nat),
  (∀ o r lo (d : List Byte) (x : Core) (z : Rec), s.op? id = some o → o.kind = .formeLoad r lo d → s.core? o.core = some x → x.recs[r]? = some z →
    ∃ t, exec (.formeLoadFinish id) s = .next t ∧ t.mem = s.mem
      ∧ ∀ (i : Nat) (b : Byte), d[i]? = some b → formeByte t o.core (1024 * z.start + lo + i) = b.toNat)
  ∧ (∀ o k a b m n l pair pa pb masks rows x, s.op? id = some o → o.kind = .product k a b m n l pair pa pb masks rows →
    firstOf s (startable s o.core) = some o → affordable s o = true → s.core? o.core = some x →
    let twin := (pairCores (pairOf o.core)).2
    (pair = true → twin ≠ o.core) →
    ∃ t y d, exec (.productStart id) s = .next t ∧ t.op? id = some { o with begun := true, started := s.cycle }
      ∧ t.core? o.core = some y ∧ y.bucket = x.bucket - (charges s o).1 ∧ (d, Instr.productRetire id) ∈ t.timers
      ∧ (pair = false ∨ pairOf o.core % 80 < 72 → d = s.cycle + 82) ∧ s.cycle + 82 ≤ d ∧ d ≤ s.cycle + 112
      ∧ (pair = true → ∀ z, s.core? twin = some z → ∃ w, t.core? twin = some w ∧ w.bucket = z.bucket - (charges s o).2))
  ∧ (∀ o k a b m n l pa pb masks rows x, s.op? id = some o → o.kind = .product k a b m n l false pa pb masks rows → o.begun = true →
    o.finished = false → m ≤ 64 → tileOf s o.core k = some x → (∀ p ∈ queuedPair s o.core, p.id = id) →
    ∃ t, exec (.productRetire id) s = .next t ∧ t.mem = s.mem ∧ tileOf t o.core k = some (x.hold (productTile x
      ((List.range m).map (fun i => (rowA s o pa l masks rows i).2)) ((List.range n).map (fun j => (colB s o pb l j).2)) l) m n))
  ∧ ∀ (x : Core) (who : CtxId) (t : TeamId) (n : Nat) (old young : List (CtxId × Nat × Option (List Nat))),
    s.core? (Config.coresPerDie * die + core) = some x → x.alloc = old ++ (who, n, none) :: young → who.team? = some t →
    (∀ a ∈ old, a.1 ≠ who ∧ a.2.2.isSome = true) → (∀ a ∈ young, a.1 ≠ who ∧ a.2.2 = none
      ∧ ∀ q, a.1.team? = some q → q ≠ t ∧ ∀ k ∈ x.tiles, k.ownedBy q = false) →
    let freeFor := fun q => (List.range x.tiles.length).filter (fun i => ((x.tiles[i]?).map (fun (k : Tile) => k.freeTo q)).getD false)
    let free := freeFor t
    (free.length < n → exec (.accaGrant die core) s = .next s)
    ∧ (n ≤ free.length →
      (∀ a, young.head? = some a → ∃ q, a.1.team? = some q ∧ ((freeFor q).filter (fun i => !(free.take n).contains i)).length < a.2.1) →
      ∃ u y, exec (.accaGrant die core) s = .next u ∧ u.core? (Config.coresPerDie * die + core) = some y
        ∧ y.alloc = old ++ (who, n, some (free.take n)) :: young
        ∧ (∀ (i : Nat), i ∈ free.take n → ∃ z, y.tiles[i]? = some z ∧ z.owner = some t ∧ z.freed = none ∧ z.vm = 64 ∧ z.vn = 64)
        ∧ ∀ (i : Nat), i ∉ free.take n → y.tiles[i]? = x.tiles[i]?))
  ∧ (∀ (acc k lo len m n : Nat) (a : List (Nat × Val)) (b : List Val) (as : List (List (Nat × Val)))
    (bs : List (List Val)) (old : Tile),
  element4 acc a b k = accumulate (accumulate (accumulate (accumulate acc (chunk a b 0 (k / 4))) (chunk a b (k / 4) (k / 4)))
      (chunk a b (2 * (k / 4)) (k / 4))) (chunk a b (3 * (k / 4)) (k / 4))
  ∧ chunk a b lo len = chunkSum ((a.filter (fun x => decide (lo ≤ x.1 ∧ x.1 < lo + len))).map (fun x => x.2.mul (b.getD x.1 .nan)))
  ∧ (as.length = m → bs.length = n → n ≤ 64 → ∀ (i j : Nat) (x : List (Nat × Val)) (y : List Val), as[i]? = some x → bs[j]? = some y →
    get? (64 * i + j) (productTile old as bs k) = some (BitVec.ofNat 32 (element4 (old.at_ i j) x y k))))

/-- Held writes (R237, R243, R281, R284): the galley of a core writes to memory what its window has passed, in the order in which it was
held, but for a write that an older one to the same byte keeps back, and none to host memory while the link trains (R387, R394); a
checkpoint becomes valid when its window has passed. Errors (R277,
R298, R337, R338): where the cores that the map names hold no team, a strike report counts for its cell and changes nothing else; an abort
is reported at the memory's die, its word stays uncorrectable, and it acts as a request that timed out does; the first one of an address
in an epoch of a restartable unit is noted at its team; while a die is halted for debug its requests do not time out, nor those to host
memory while the link trains. Every one of these events completes, whatever the state.
The model's choices in it: log 6, 82, 126, 129 and 163. -/
def Obligations.HeldWrites : Prop :=
  (∀ (s : State) (i : TeamId) (a b : Nat), (∃ t, exec (.checkpointValid i) s = .next t) ∧ (∃ t, exec (.galleyRelease a b) s = .next t)
    ∧ (∃ t, exec (.strikeReport a b) s = .next t) ∧ (∃ t, exec (.abortCompletion i a) s = .next t) ∧ ∃ t, exec (.requestTimeout i a) s = .next t)
  ∧ (∀ (s : State) (die core : Nat) (i : TeamId),
  let n := Config.coresPerDie * die + core
  let due := fun h : Held => h.core = n ∧ h.sealed = false ∧ h.p + Config.galleyWindow ≤ s.tick
    ∧ ¬(s.pages.train = true ∧ ∃ b ∈ h.bytes, 2 ^ 56 ≤ b.1 ∧ b.1 < 2 ^ 57)
  let meets := fun g h : Held => ∃ b ∈ g.bytes, ∃ e ∈ h.bytes, e.1 = b.1
  (s.mem.wf = true → ∃ t, exec (.galleyRelease die core) s = .next t ∧ t.ctxs = s.ctxs ∧ t.teams = s.teams
    ∧ (∀ h ∈ t.galley, h ∈ s.galley) ∧ (∀ h ∈ s.galley, ¬due h → h ∈ t.galley)
    ∧ (∀ (h : Held) (l m : List Held), s.galley = l ++ h :: m → (∃ g ∈ l, ¬due g ∧ meets g h) → h ∈ t.galley)
    ∧ (∀ a, (∀ h ∈ s.galley, due h → ∀ b ∈ h.bytes, b.1 ≠ a) → t.mem.read a = s.mem.read a)
    ∧ ((∀ g ∈ s.galley, ∀ h ∈ s.galley, ¬due g → due h → ¬meets g h) → t.galley = s.galley.filter (fun h => !decide (due h))
      ∧ ∀ (h : Held) (b : Nat × Byte) (l m : List Held), s.galley = l ++ h :: m → due h → b ∈ h.bytes → (h.bytes.map (fun e => e.1)).Nodup →
        (∀ g ∈ m, due g → ∀ e ∈ g.bytes, e.1 ≠ b.1) → t.mem.read b.1 = b.2))
  ∧ ∀ x k r, s.team? i = some x → x.ckpts = k :: r → k.valid = false →
    (s.tick ≤ k.c + Config.galleyWindow → exec (.checkpointValid i) s = .next s)
    ∧ (k.c + Config.galleyWindow < s.tick → ∃ t y, exec (.checkpointValid i) s = .next t ∧ t.mem = s.mem ∧ t.team? i = some y
      ∧ y.ckpts = [{ k with valid := true }]))
  ∧ (∀ (s : State) (i : TeamId) (die cell pa : Nat),
  let cnt (s : State) (n : Nat) : Nat := (get? n s.counters).getD 0
  let size := Config.checkBytes pa + 1
  ((∀ k < 8, strikeCode s die cell k / 2 ^ 12 = 1 →
      residents s (160 * (strikeCode s die cell k / 2 ^ 10 % 4) + strikeCode s die cell k % 2 ^ 10) = []) →
    ∃ t, exec (.strikeReport die cell) s = .next t ∧ { t with counters := s.counters } = s
      ∧ cnt t (0x1000 + 5120 * die + cell) = min (2 ^ 64 - 1) (cnt s (0x1000 + 5120 * die + cell) + 1))
  ∧ (∃ t, exec (.abortCompletion i pa) s = .next (abortUnit t i pa)
    ∧ t.out = s.out ++ [.errorIrq (memoryDie pa)] ∧ (pa / size * size, size) ∈ t.bad
    ∧ { t with out := s.out, counters := s.counters, nonce := s.nonce, bad := s.bad } = s)
  ∧ (haltedDie s (((s.team? i).map (fun x => x.die)).getD 0) = true ∨ (s.pages.train = true ∧ 2 ^ 56 ≤ pa ∧ pa < 2 ^ 57) →
    exec (.requestTimeout i pa) s = .next (s.at_ (s.cycle + 1) (.requestTimeout i pa)))
  ∧ ∀ x, s.team? i = some x → x.present = true → x.aborts.contains (x.epoch, pa) = false → unitNr s i = false → twinsOf s i = [] →
    i ≠ compTeam → haltedDie s x.die = false → (s.pages.train = false ∨ pa < 2 ^ 56 ∨ 2 ^ 57 ≤ pa) →
    ∃ t y, exec (.requestTimeout i pa) s = .next t ∧ t.team? i = some y ∧ (x.epoch, pa) ∈ y.aborts
      ∧ ∀ k, target? x s.tick = some k → y.epoch = k.epoch
        ∧ y.inc = if k.tileinc = 0xFFFFFFFF then k.tileinc else k.tileinc + 1)

/-- Teams coming and going (R105, R225, R258 to R263, R307): an ended team gives up its tiles and contexts; a saved team comes back to its
core with its window of `sh`; a slice that ends refills the waiting budget; a spent budget takes the running teams off their cores,
until the host resumes them. Every one of these events completes, whatever the state.
The model's choices in it: log 81, 89, 141 and 142. -/
def Obligations.TeamEvents : Prop := ∀ (s : State) (i : TeamId) (n g k : Nat),
  ((∃ t, exec (.teamEnd i) s = .next t) ∧ (∃ t, exec (.teamRestore i) s = .next t) ∧ (∃ t, exec (.teamReschedule i) s = .next t)
    ∧ (∃ t, exec (.timeSliceEnd n) s = .next t) ∧ (∃ t, exec (.waitbudget n) s = .next t) ∧ ∃ t, exec (.singleStep i g k) s = .next t)
  ∧ (∀ x, s.team? i = some x →
    (teamDone s i x = false → (teamOver s i x && teamFlushes s i x) = false → exec (.teamEnd i) s = .next s)
    ∧ (teamDone s i x = false → teamOver s i x = true → teamFlushes s i x = true → ∃ t, exec (.teamEnd i) s = .next t ∧ t.mem = s.mem
      ∧ t.ctxs = s.ctxs ∧ t.teams = s.teams ∧ (isShadow i = false → ∀ h ∈ s.pvCache, h.team = i → ∀ b ∈ h.bytes,
        (∃ g ∈ t.pvCache, g.team = i ∧ b ∈ g.bytes) ∨ ∃ g ∈ t.galley, g.team = i ∧ g.core = x.core ∧ s.tick ≤ g.p ∧ b ∈ g.bytes))
    ∧ (teamDone s i x = true → ∃ t y, exec (.teamEnd i) s = .next t ∧ t.team? i = some y ∧ y.state = .ended
      ∧ (∀ c, c.team? = some i → t.hasCtx c = false)
      ∧ ∀ z, t.core? x.core = some z → ∀ k ∈ z.tiles, k.owner ≠ some i))
  ∧ (∀ v k x, savedUnit s i = [v] → places? s i = some [(v, k)] → s.team? v.id = some x → x.late = [] →
    ∀ e, e = Instr.teamRestore i ∨ e = Instr.teamReschedule i → ∃ t y, exec e s = .next t ∧ t.team? v.id = some y
      ∧ y.core = k ∧ y.state = v.state ∧ (∀ w ∈ t.saved, w.id ≠ v.id)
      ∧ ∀ a b, s.mem.wf = true → (v.sh.map (fun e => e.1)).Nodup → (∀ e ∈ v.sh, e.1 < v.reach) → v.reach ≤ Config.shBytes →
        (a, b) ∈ v.sh → t.mem.read (shAddr k (y.shBase + a)) = b)
  ∧ (∀ x, s.context? n = some x →
    (∃ t y, exec (.timeSliceEnd n) s = .next t ∧ t.context? n = some y ∧ y.used = 0 ∧ y.usedFrac = 0
      ∧ y.sliceEnd = s.tick + 1000 * (if x.slice = 0 then 20000 else x.slice))
    ∧ (spent s x = false → exec (.waitbudget n) s = .next s)
    ∧ (spent s x = true → ∃ t, exec (.waitbudget n) s = .next t
      ∧ (∀ u y, s.team? u = some y → y.ctx = n → y.state = .running → ∃ z, t.team? u = some z ∧ z.leaving = true ∧ z.toHold = true)
      ∧ ∀ v ∈ t.saved, ∀ y, s.team? v.id = some y → y.ctx = n → v.held = true))
  ∧ (∀ x, s.team? i = some x → x.state = .stopped .debug → (s.ctx (.slice i g k)).live = true →
    ∃ t, exec (.singleStep i g k) s = .next t ∧ t.team? i = some { x with stepping := some (g, k, 0) } ∧ t.ctxs = s.ctxs)

/-- Waits that end, and translation (R96, R118, R121, R189, R201, R264, R268, R319, R364, R365): each event ends its own wait, and leaves the
other contexts as they are; the phase that opens at a package barrier ends the naps of the grid's teams.
Every one of these events completes, whatever the state. The model's choices in it: log 8 and 46. -/
def Obligations.WaitEvents : Prop := ∀ (s : State) (c : CtxId) (i : TeamId) (die n va role : Nat),
  ((∃ t, exec (.napExpiry c) s = .next t) ∧ (∃ t, exec (.pbarRelease n) s = .next t) ∧ (∃ t, exec (.wScopeExecution n role) s = .next t)
    ∧ (∃ t, exec (.translationWalk die n va) s = .next t) ∧ (∃ t, exec (.tlbiAck die) s = .next t)
    ∧ (∃ t, exec (.syscallAnswer i role) s = .next t) ∧ ∃ t, exec (.faultRingEntryFree n) s = .next t)
  ∧ (∀ u, (s.ctx c).wait = some (.nap u) → u ≤ s.tick → s.hasCtx c = true → c ∈ unitOf s c →
    ∃ t, exec (.napExpiry c) s = .next t ∧ (t.ctx c).wait = some (.nap 0) ∧ { t with ctxs := s.ctxs } = s
      ∧ ∀ o, (o ∉ unitOf s c ∨ ∀ u, (s.ctx o).wait ≠ some (.nap u)) → t.ctx o = s.ctx o)
  ∧ (∀ b, get? n s.pbars = some b → b.releasing = true → b.due ≤ s.treeCycle →
    ∃ t, exec (.pbarRelease n) s = .next t ∧ t.mem = s.mem
      ∧ get? n t.pbars = some { b with phase := b.phase + 1, arrived := [], releasing := false }
      ∧ (∀ m, m ≠ n → get? m t.pbars = get? m s.pbars)
      ∧ ∀ o, ((∀ u, (s.ctx o).wait ≠ some (.nap u)) ∨ ∀ k ∈ gridTeams s b.launch, o.team? ≠ some k) → t.ctx o = s.ctx o)
  ∧ (∀ l, s.launch? n = some l → (∃ a ∈ l.arrived, a.1 = role ∧ a.2 ≤ s.treeCycle) →
    ∃ t, exec (.wScopeExecution n role) s = .next t ∧ t.ctxs = s.ctxs ∧ t.launch? n = some { l with
      arrived := l.arrived.filter (fun a => a.1 ≠ role), ready := l.ready ++ [role] })
  ∧ (∀ d l, s.die? die = some d → d.merge.contains (n, va) = true → walkWaits s n va = false → walk s n va = .ok l →
    ∃ t e, exec (.translationWalk die n va) s = .next t ∧ t.die? die = some e ∧ e.merge.contains (n, va) = false
      ∧ (n, va / 2 ^ l.shift, l.shift, l.bits) ∈ e.tlb ∧ t.mem = s.mem
      ∧ ∀ o, (∀ a ps, (s.ctx o).wait ≠ some (.walk a ps)) → t.ctx o = s.ctx o)
  ∧ (∀ id k ds, s.tlbis = [(id, k, ds)] → die ∈ ds →
    ∃ t, exec (.tlbiAck die) s = .next t ∧ t.ctxs = s.ctxs
      ∧ t.tlbis = if ds.filter (fun d => d ≠ die) = [] then [] else [(id, k, ds.filter (fun d => d ≠ die))])
  ∧ (∀ k ws, (s.ctx (.team i role)).wait = some (.service k ws) → s.hasCtx (.team i role) = true → (s.ctx (.team i role)).stop = none →
    onCore s i = true → s.pldm.activating = false →
    ∃ t, exec (.syscallAnswer i role) s = .next t ∧ (t.ctx (.team i role)).wait = none
      ∧ (t.ctx (.team i role)).pc = (s.ctx (.team i role)).pc + 1
      ∧ (k = 0 → (t.ctx (.team i role)).cell (.sc 0) = 0)
      ∧ (k = 1 → (t.ctx (.team i role)).cell (.sc 0) = BitVec.ofNat 32 s.tick
        ∧ (t.ctx (.team i role)).cell (.sc 1) = BitVec.ofNat 32 (s.tick / 2 ^ 32))
      ∧ (2 < k.toNat → (t.ctx (.team i role)).cell (.sc 0) = 0xFFFFFFFF)
      ∧ ∀ o, o ≠ .team i role → t.ctx o = s.ctx o)
  ∧ ∀ x, s.context? n = some x → x.frFree < x.frProd → x.frHeld = [] →
    ∃ t, exec (.faultRingEntryFree n) s = .next t ∧ t.context? n = some { x with frFree := x.frFree + 1 } ∧ t.mem = s.mem
      ∧ t.ctxs = s.ctxs

/-- Queues of the host and their packets (R243, R303, R304, R306, R307, R349, R351, R353, R356, R357, R358, R371): doorbells keep their maximum,
and are dropped in the recovery profile; a packet is consumed in ring order, its V cleared, the read index stored and its record kept;
barrier-AND completes when its signals are satisfied, and with status 4 when one has failed, a signal that a held write covers being
judged later; a launch at the head is placed when its cores are there; a grid that has ended completes once. The compositor's writes are
held as every agent's are. Every one of these events completes, whatever the
state. The model's choices in it: log 8, 46, 85, 86, 88 and 159. -/
def Obligations.QueueEvents : Prop := ∀ (s : State) (q : Nat) (x : HQueue) (p : Packet),
  ((∃ t, exec (.packetConsume q) s = .next t) ∧ (∃ t, exec (.barrierAndSample q) s = .next t) ∧ (∃ t, exec (.placement q) s = .next t)
    ∧ (∃ t, exec (.gridEnd q) s = .next t) ∧ ∀ n v, ∃ t, exec (.notify q n v) s = .next t)
  ∧ (s.queue? q = some x →
  (inRecovery s = true → ∀ n v, exec (.notify q n v) s = .next s)
  ∧ (inRecovery s = false → ∀ v : DWord, exec (.notify q 8 v) s = .next (s.modQueue q (fun x =>
      if x.state = 1 ∧ x.notify < v.toNat then { x with notify := v.toNat } else { x with stale := min 0xFFFF (x.stale + 1) }))
    ∧ ∀ n, n ≠ 8 → exec (.notify q n v) s = .next (s.modQueue q (fun x => { x with drops := min 0xFFFF (x.drops + 1) })))
  ∧ (∀ bs, slotAt s x = some bs → field bs 0 4 / 2 % 8 = 0 →
    let w : Packet := ⟨s.opNum, none, launchBytes s x.ctx bs, x.rd⟩
    w.ok = true → w.type = 0 → descOk w.desc = true → tableOk w.table (bit w.head 9) = true →
    let kept := putRecord (putRecord s x w 0 (w.bytes.take 320)) x w 0x148 (le4 q ++ le4 x.rd)
    ∃ t y, exec (.packetConsume q) s = .next t ∧ t.queue? q = some y ∧ y.rd = x.rd + 1 ∧ y.ready = [w] ∧ y.served = s.turn
      ∧ t.mem = kept.mem
      ∧ t.galley = (vaPut (vaPut kept x.ctx (x.ring + 64 * (x.rd % x.slots)) (le4 0)) x.ctx x.rdAddr (leBytes 8 (x.rd + 1))).galley)
  ∧ (∀ d left bad, x.ready = [p] → p.type = 2 → x.deps = some d → s.bad = [] → p.recK = none →
    let waits := d.filter (fun a => vaHeld s x.ctx a 8)
    sample s x.ctx (d.filter (fun a => !waits.contains a)) = (bad, left) →
    (bad = true ∨ (waits = [] ∧ left = []) → ∃ t, exec (.barrierAndSample q) s = .next t
      ∧ t.queue? q = some { x with ready := [], deps := none } ∧ t.mem = s.mem
      ∧ t.galley = (completeSignal s x.ctx (field p.bytes 0x30 8) (if bad then 4 else 0)).galley
      ∧ t.signals = (completeSignal s x.ctx (field p.bytes 0x30 8) (if bad then 4 else 0)).signals)
    ∧ (bad = false → ¬(waits = [] ∧ left = []) → ∃ t, exec (.barrierAndSample q) s = .next t ∧ t.mem = s.mem ∧ t.galley = s.galley
      ∧ ∃ n, s.tick < n ∧ n ≤ s.tick + 2000
        ∧ t.queue? q = some { x with deps := some (d.filter (fun a => waits.contains a || left.contains a)), sampleAt := n }))
  ∧ (∀ (v old : Nat) (bs : List Byte) (l : List Nat) (code : Nat), vaHeld s x.ctx v 8 = false →
    s.signals.any (fun e => e.1 = x.ctx && e.2.1 = v) = false → vaRead s x.ctx v 8 = .ok bs → leNat bs = old →
    vaPlaces s x.ctx v 8 .write = .ok l →
    completeSignal s x.ctx v code = compHold s (l.zip (leBytes 8 (if code = 0 then (old + (2 ^ 64 - 1)) % 2 ^ 64 else 2 ^ 63 + code))))
  ∧ (x.ready = [p] → p.type = 0 →
    (placementOf s x p = none → exec (.placement q) s = .next s)
    ∧ ∀ us vs, placementOf s x p = some (us, vs) → p.recK = none → ∃ t l, exec (.placement q) s = .next t
      ∧ t.launches = s.launches ++ [l] ∧ l.num = s.launchCtr ∧ l.queue = q ∧ l.ctx = x.ctx ∧ l.n = us.flatten.length
      ∧ l.signal = field p.bytes 0x30 8 ∧ l.codeBase = field p.desc 0 8 ∧ l.status = 0
      ∧ (s.mem.wf = true → ((get? p.rec_ s.retained).getD (List.replicate 512 0)).length = 512 →
        ∀ a, a < recordAddr p.rec_ ∨ recordAddr p.rec_ + 512 ≤ a → t.mem.read a = s.mem.read a)
      ∧ t.queue? q = some { x with ready := [], deps := none, placed := s.turn })
  ∧ ∀ n l, s.launch? n = some l →
    (gridDone s n = false → exec (.gridEnd n) s = .next s)
    ∧ (gridDone s n = true → l.recK = none → ∃ t, exec (.gridEnd n) s = .next t ∧ t.launch? n = none ∧ t.mem = s.mem
      ∧ t.galley = (completeSignal s l.ctx l.signal l.status).galley ∧ t.signals = (completeSignal s l.ctx l.signal l.status).signals))

/-- The host's accesses (R298, R346, R347): region 1 reads and writes device memory at the aperture's place, reads outside it give 0 and
writes do nothing, and data that cannot be corrected is an abort; a link atomic returns the old value and leaves the new one; any other
atomic, one that is not aligned, and one to region 0 completes as unsupported. Both events complete, whatever the state.
The model's choices in it: log 100, 101 and 163. -/
def Obligations.HostAccesses : Prop := ∀ (s : State) (off : Nat) (bs : List Byte) (n p : Nat) (op : AtomOp) (v w a : DWord),
  ((∀ x, ∃ t, exec (.hostApertureAccess off x) s = .next t) ∧ ∃ t, exec (.linkAtomic a op v w) s = .next t)
  ∧ (off < 2 ^ 40 → s.mem.wf = true →
    (aperture s off n = some p → badAt s [] ((List.range n).map (p + ·)) = none →
      ∃ t, exec (.hostApertureAccess off (.read n)) s = .next t ∧ t.out = s.out ++ [.hostRead (s.mem.bytes p n)]
        ∧ { t with out := s.out } = s)
    ∧ (aperture s off n = some p → ∀ x, badAt s [] ((List.range n).map (p + ·)) = some x →
      ∃ t, exec (.hostApertureAccess off (.read n)) s = .next t ∧ t.out = s.out ++ [.errorIrq (memoryDie x), .hostAbort x] ∧ t.mem = s.mem)
    ∧ (aperture s off n = none → ∃ t, exec (.hostApertureAccess off (.read n)) s = .next t
      ∧ t.out = s.out ++ [.hostRead (List.replicate n 0)] ∧ { t with out := s.out } = s)
    ∧ (aperture s off bs.length = some p → ∃ t, exec (.hostApertureAccess off (.write bs)) s = .next t ∧ t.mem.bytes p bs.length = bs
      ∧ (∀ b, b < p ∨ p + bs.length ≤ b → t.mem.read b = s.mem.read b) ∧ { t with mem := s.mem, bad := s.bad } = s)
    ∧ (aperture s off bs.length = none → exec (.hostApertureAccess off (.write bs)) s = .next s))
  ∧ (linkOp op = true → a.toNat % 8 = 0 → s.mem.wf = true → (2 ^ 56 ≤ a.toNat ∧ a.toNat < 2 ^ 57 ∧ p = a.toNat ∨ a.toNat < 2 ^ 56 ∧ aperture s a.toNat 8 = some p) →
    badAt s [] ((List.range 8).map (p + ·)) = none →
    let old := leNat (s.mem.bytes p 8)
    ∃ t, exec (.linkAtomic a op v w) s = .next t ∧ t.out = s.out ++ [.hostRead (s.mem.bytes p 8)]
      ∧ leNat (t.mem.bytes p 8) = (if op = .cas then (if old = w.toNat then v.toNat else old)
          else if op = .exch then v.toNat else (old + v.toNat) % 2 ^ 64)
      ∧ (∀ b, b < p ∨ p + 8 ≤ b → t.mem.read b = s.mem.read b))
  ∧ (linkOp op = false ∨ a.toNat % 8 ≠ 0 → ∃ t, exec (.linkAtomic a op v w) s = .next t ∧ t.out = s.out ++ [.hostUnsupported]
    ∧ { t with out := s.out } = s)
  ∧ (2 ^ 40 ≤ off ∨ linkOp op = false ∨ off % 8 ≠ 0 → ∃ t, exec (.hostApertureAccess off (.atomic op v w)) s = .next t
    ∧ t.out = s.out ++ [.hostUnsupported] ∧ { t with out := s.out } = s)

/-- Mailbox commands of contexts, queues and teams (R350, R360, R362, R363, R371, R396): a command runs once and answers; one that the
profile does not allow answers ERR 4, a code that is not listed ERR 2, in either profile; while a write to memory that it reads or writes
is held, it waits (R243). Mailbox commands of the package (R320, R336, R346, R368, R371,
R372, R384): the aperture, domains, the summary, the attestation report, images in the recovery profile, reset. Every one of these events
completes, whatever the state. The model's choices in it: log 88, 91, 92, 93, 94, 104 and 105. -/
def Obligations.MailboxCommands : Prop :=
  (∀ (s : State) (code seq : BitVec 16), (∃ t, exec (.createCtx seq) s = .next t) ∧ (∃ t, exec (.destroyCtx seq) s = .next t)
    ∧ (∃ t, exec (.createQueue seq) s = .next t) ∧ (∃ t, exec (.destroyQueue seq) s = .next t)
    ∧ (∃ t, exec (.resume seq) s = .next t) ∧ (∃ t, exec (.kill seq) s = .next t) ∧ (∃ t, exec (.setap seq) s = .next t)
    ∧ (∃ t, exec (.domainCreate seq) s = .next t) ∧ (∃ t, exec (.domainRejoin seq) s = .next t)
    ∧ (∃ t, exec (.resync seq) s = .next t) ∧ (∃ t, exec (.attest seq) s = .next t) ∧ (∃ t, exec (.imageWrite seq) s = .next t)
    ∧ (∃ t, exec (.imageCommit seq) s = .next t) ∧ (∃ t, exec (.reset seq) s = .next t)
    ∧ (∃ t, exec (.otherCommandCode seq code) s = .next t))
  ∧ (∀ (s : State) (code seq : BitVec 16),
  (runs s code seq = false → exec (commandStep code seq) s = .next s)
  ∧ (runs s code seq = true → allowed s code = false → listedCode code = true →
    Commands (commandStep code seq) s 4 [] (fun t => { t with mailbox := s.mailbox } = s))
  ∧ (runs s code seq = true → listedCode code = false →
    Commands (.otherCommandCode seq code) s 2 [] (fun t => { t with mailbox := s.mailbox } = s))
  ∧ (inRecovery s = false →
    (runs s 1 seq = true → mustWait s [compTeam] (arg s 0) 256 = true → exec (.createCtx seq) s = .next (s.at_ (s.cycle + 1) (.createCtx seq)))
    ∧ (runs s 1 seq = true → arg s 0 % 8 = 0 → arg s 0 + 256 ≤ Config.dramBytes → mustWait s [compTeam] (arg s 0) 256 = false →
      badAt s [compTeam] ((List.range 256).map (arg s 0 + ·)) = none →
      let d := compBytes s (arg s 0) 256
      descFirst d = true → (∀ x ∈ s.contexts, ∀ p ∈ x.part, p ∉ partOf d) → ∀ n, lowestFree 64 (fun n => (s.context? n).isSome) = some n →
      Commands (.createCtx seq) s 0 [n] (fun t => t.mem = s.mem ∧ ∃ x, t.context? n = some x ∧ x.root = field d 0 8
        ∧ x.frBase = field d 8 8 ∧ x.frLog = field d 0x10 4 ∧ x.slice = field d 0x14 4 ∧ x.waitb = field d 0x18 4 ∧ x.part = partOf d))
    ∧ (runs s 2 seq = true → (s.context? (arg s 0)).isSome = true →
      Commands (.destroyCtx seq) s 0 [] (fun t => t.context? (arg s 0) = none
        ∧ ∀ k x, s.queue? k = some x → x.ctx = arg s 0 → x.state = 1 → ∃ y, t.queue? k = some y ∧ y.state = 3 ∧ y.ready = []))
    ∧ (runs s 3 seq = true → (s.context? (arg s 0)).isSome = true → arg s 1 < 4 → arg s 2 < 4 → 3 ≤ arg s 3 → arg s 3 ≤ 16 →
      arg s 4 % 4096 = 0 → arg s 4 < 2 ^ 57 → arg s 5 % 8 = 0 → arg s 5 < 2 ^ 57 →
      ∀ n, lowestFree 1024 (fun n => ((s.queue? n).map (fun q => q.state == 1 || q.state == 2)).getD false) = some n →
      Commands (.createQueue seq) s 0 [n] (fun t => t.mem = s.mem ∧ ∃ q, t.queue? n = some q ∧ q.ctx = arg s 0 ∧ q.home = arg s 1
        ∧ q.prio = arg s 2 ∧ q.slots = 2 ^ arg s 3 ∧ q.ring = arg s 4 ∧ q.rdAddr = arg s 5 ∧ q.rd = 0 ∧ q.notify = 0 ∧ q.state = 1))
    ∧ (∀ q, runs s 4 seq = true → s.queue? (arg s 0) = some q → q.state = 1 →
      Commands (.destroyQueue seq) s 0 [] (fun t => ∃ y, t.queue? (arg s 0) = some y ∧ y.state = 3 ∧ y.ready = []))
    ∧ (∀ i x y, runs s 5 seq = true → namedTeam s = some i → s.context? (arg s 0) = some x → s.team? i = some y →
      mustWait s [compTeam] x.desc 256 = false → badAt s [compTeam] ((List.range 256).map (x.desc + ·)) = none →
      let e := compBytes s x.desc 256
      descAgain e = true →
      Commands (.resume seq) s 0 [] (fun t => (∃ z, t.context? (arg s 0) = some z ∧ z.slice = field e 0x14 4 ∧ z.waitb = field e 0x18 4)
        ∧ ∃ z, t.team? i = some z ∧ z.toHold = false ∧ (∀ w, y.state = .stopped w → z.state = .running)))
    ∧ (∀ i, runs s 6 seq = true → namedTeam s = some i →
      Commands (.kill seq) s 0 [] (fun t => ∃ z, t.team? i = some z ∧ z.state = .ended))))
  ∧ (∀ (s : State) (seq : BitVec 16),
  (inRecovery s = false →
    (runs s 7 seq = true → (arg s 0 < 2 → Commands (.setap seq) s 0 [] (fun t => t.apbase = 2 ^ 38 * arg s 0 ∧ t.mem = s.mem))
      ∧ (2 ≤ arg s 0 → Commands (.setap seq) s 2 [] (fun t => t.apbase = s.apbase)))
    ∧ (runs s 8 seq = true → arg s 0 < 16 → s.domain? (arg s 0) = none → 2 ≤ arg s 1 → arg s 1 ≤ 1024 → arg s 2 < arg s 1 →
      arg s 3 ≤ 60000 → Commands (.domainCreate seq) s 0 [] (fun t => ∃ d, t.domain? (arg s 0) = some d ∧ d.ranks = arg s 1
        ∧ d.own = arg s 2 ∧ d.members = List.range (arg s 1) ∧ d.hold = 1000000 * (if arg s 3 = 0 then 10000 else arg s 3)))
    ∧ (∀ d, runs s 9 seq = true → s.domain? (arg s 0) = some d →
      (d.state = .excluded → Commands (.domainRejoin seq) s 0 [] (fun t => ∃ e, t.domain? (arg s 0) = some e ∧ e.state = .joining
        ∧ t.out = s.out ++ d.others.map (fun r => .membership d.num r (.joinReq d.num d.own))))
      ∧ (d.state ≠ .excluded → Commands (.domainRejoin seq) s 2 [] (fun t => t.domains = s.domains))))
  ∧ (runs s 10 seq = true → s.mem.wf = true → hostOk (arg s 0) 65536 = true → mustWait s [compTeam] (hostPlace (arg s 0)) 65536 = false →
    let bs := (summary ((List.range 256).foldl (fun s i => noteCorrected s (0x200 + i)) s)).take 65536
    Commands (.resync seq) s 0 [bs.length, (unlockOf s.bootCount).toNat] (fun t =>
      t.mem.bytes (hostPlace (arg s 0)) bs.length = bs ∧ t.contexts = s.contexts))
  ∧ (∀ n, unlockOf (n + 1) ≠ unlockOf n)
  ∧ (runs s 11 seq = true → s.mem.wf = true → hostOk (arg s 0) 32 = true → hostOk (arg s 1) 65536 = true →
    mustWait s [compTeam] (hostPlace (arg s 0)) 32 = false → mustWait s [compTeam] (hostPlace (arg s 1)) 65536 = false →
    let log := s.measurements.flatten
    let body := sized 57 (Config.devicePub 0) ++ compBytes s (hostPlace (arg s 0)) 32 ++ shake256 log 64 ++ log
    let report := body ++ sized 114 (Config.ed448Sign 0 body)
    Commands (.attest seq) s 0 [report.length] (fun t => t.mem.bytes (hostPlace (arg s 1)) report.length = report))
  ∧ (inRecovery s = true →
    (runs s 16 seq = true → s.mem.wf = true → arg s 0 < 2 → arg s 3 ≤ 4096 → arg s 1 + arg s 3 ≤ 2 ^ 24 → hostOk (arg s 2) (arg s 3) = true →
      mustWait s [compTeam] (hostPlace (arg s 2)) (arg s 3) = false →
      Commands (.imageWrite seq) s 0 [] (fun t => t.mem.bytes (flashAddr (2 ^ 24 * arg s 0 + arg s 1)) (arg s 3)
        = compBytes s (hostPlace (arg s 2)) (arg s 3)))
    ∧ (runs s 17 seq = true → arg s 0 < 2 →
      Commands (.imageCommit seq) s 0 [slotReason s (arg s 0)] (fun t => t.mem = s.mem
        ∧ t.mram.bootSel = if slotReason s (arg s 0) = 0 then arg s 0 else s.mram.bootSel))
    ∧ (runs s 18 seq = true → ∃ t, exec (.reset seq) s = .next t ∧ t.boot = .osc ∧ t.contexts = [] ∧ t.queues = [] ∧ t.teams = []
      ∧ t.launches = [] ∧ t.pages.unlocked = [] ∧ t.mram.counters = s.counters ∧ t.counters = s.counters)))

/-- The compositor's access port (R374): an invalid command fails with cause 1; a command that passes every check does its one access, and
reads and atomics return the old value; a timeout (R337) and data that cannot be corrected (R298) fail with an abort. Queue registers of the
compositor (R373, R375): NOTIFY and its latch, RDIDX, a launch record
dispatched, completions in order (R379). Every one of these events completes, whatever the state.
The model's choices in it: log 99 and 163. -/
def Obligations.CompositorRegisters : Prop :=
  (∀ (s : State) (die : Nat) (v : Word), (∃ t, exec (.accessRead die v) s = .next t) ∧ (∃ t, exec (.accessWrite die v) s = .next t)
    ∧ (∃ t, exec (.accessAdd die v) s = .next t) ∧ (∃ t, exec (.accessExch die v) s = .next t)
    ∧ (∃ t, exec (.accessCas die v) s = .next t) ∧ (∃ t, exec (.accessCopy die v) s = .next t)
    ∧ (∃ t, exec (.accessInvalid die v) s = .next t) ∧ (∃ t, exec (.qnotl die) s = .next t)
    ∧ (∃ t, exec (.qrdl die v) s = .next t) ∧ (∃ t, exec (.dispatch die v) s = .next t) ∧ (∃ t, exec (.done die) s = .next t))
  ∧ (∀ (s : State) (die : Nat) (c : Word) (src dst : List Nat),
  (s.die? die).isSome = true →
  let r := acc s die
  let k := PortCmd.of c
  let v := r.dat.toNat % 2 ^ (8 * k.bytes)
  let old := leNat (src.map s.mem.read)
  (k.invalid r = true → ∃ t, exec (.accessInvalid die c) s = .next t ∧ (acc t die).err = true ∧ (acc t die).cause = 1 ∧ t.mem = s.mem)
  ∧ (k.op = 0 → portCheck s r k = none → portPlaces s r k = .ok (src, dst) →
    r.timedOut = true ∨ ((src ++ dst).any (fun a => mustWait s [] a 1) = false ∧ badAt s [] src ≠ none) →
    ∃ t, exec (.accessRead die c) s = .next t ∧ (acc t die).err = true ∧ (acc t die).cause = 0x0F ∧ (acc t die).dat = 0 ∧ t.mem = s.mem)
  ∧ (portCheck s r k = none → portPlaces s r k = .ok (src, dst) → r.timedOut = false →
    (src ++ dst).any (fun a => mustWait s [] a 1) = false → badAt s [] src = none →
    (k.op = 0 → ∃ t, exec (.accessRead die c) s = .next t ∧ (acc t die).err = false ∧ t.mem = s.mem
      ∧ (acc t die).dat = takeData r.dat k.wide old)
    ∧ (k.op = 1 → ∃ t, exec (.accessWrite die c) s = .next t ∧ (acc t die).err = false ∧ (acc t die).dat = r.dat
      ∧ t.mem = s.mem.writes (dst.zip (leBytes k.bytes v)))
    ∧ (k.op = 2 → ∃ t, exec (.accessAdd die c) s = .next t ∧ (acc t die).err = false ∧ (acc t die).dat = takeData r.dat k.wide old
      ∧ t.mem = s.mem.writes (dst.zip (leBytes k.bytes ((old + v) % 2 ^ (8 * k.bytes)))))
    ∧ (k.op = 3 → ∃ t, exec (.accessExch die c) s = .next t ∧ (acc t die).err = false ∧ (acc t die).dat = takeData r.dat k.wide old
      ∧ t.mem = s.mem.writes (dst.zip (leBytes k.bytes v)))
    ∧ (k.op = 4 → ∃ t, exec (.accessCas die c) s = .next t ∧ (acc t die).err = false ∧ (acc t die).dat = takeData r.dat k.wide old
      ∧ t.mem = if old = r.dst.toNat % 2 ^ (8 * k.bytes) then s.mem.writes (dst.zip (leBytes k.bytes v)) else s.mem)
    ∧ (k.op = 5 → s.mem.wf = true → (∀ a ∈ src, a ∉ dst) → src.length = dst.length → dst.Nodup →
      ∃ t, exec (.accessCopy die c) s = .next t ∧ (acc t die).err = false ∧ dst.map t.mem.read = src.map s.mem.read)))
  ∧ (∀ (s : State) (die : Nat) (v : Word),
  (s.die? die).isSome = true →
  (∃ t, exec (.qnotl die) s = .next t ∧ (acc t die).qnoth = BitVec.ofNat 32 (notifyOf s die / 2 ^ 32) ∧ t.queues = s.queues)
  ∧ (∀ q, s.queue? (acc s die).qsel = some q → ∃ t, exec (.qrdl die v) s = .next t
    ∧ t.queue? (acc s die).qsel = some { q with rd := (acc s die).qrdh.toNat * 2 ^ 32 + v.toNat } ∧ t.mem = s.mem)
  ∧ (s.queue? (acc s die).qsel = none → (acc s die).qsel < 1024 → ∃ t q, exec (.qrdl die v) s = .next t
    ∧ t.queue? (acc s die).qsel = some q ∧ q.state = 0 ∧ q.rd = (acc s die).qrdh.toNat * 2 ^ 32 + v.toNat ∧ t.mem = s.mem)
  ∧ (∀ w l, (acc s die).dones = w :: l → ∃ t, exec (.done die) s = .next t ∧ (acc t die).dones = l)
  ∧ ((acc s die).dones = [] → exec (.done die) s = .next s)
  ∧ (256 ≤ v.toNat → ∃ t, exec (.dispatch die v) s = .next t ∧ (acc t die).err = true ∧ (acc t die).cause = 1 ∧ t.queues = s.queues)
  ∧ (v.toNat < 256 → (∀ q, s.queue? (acc s die).qsel = some q → q.state ≠ 1 ∨ q.home ≠ die) →
    ∃ t, exec (.dispatch die v) s = .next t ∧ (acc t die).dones = (acc s die).dones ++ [BitVec.ofNat 32 (v.toNat + 256)] ∧ t.queues = s.queues)
  ∧ ∀ q, v.toNat < 256 → s.queue? (acc s die).qsel = some q → q.state = 1 → q.home = die → q.ready = [] →
    (dispatchHeld s die v = true → exec (.dispatch die v) s = .next (s.at_ (s.cycle + 1) (.dispatch die v)))
    ∧ (dispatchHeld s die v = false →
    let p := recordPacket s q (acc s die).rec_.toNat v.toNat
    p.ok = true → p.type = 0 → descOk p.desc = true → tableOk p.table (bit p.head 9) = true →
    ∃ t, exec (.dispatch die v) s = .next t ∧ t.queue? (acc s die).qsel = some { q with ready := [p] } ∧ (acc t die).dones = (acc s die).dones))

/-- Control pages (R371, R380 to R382, R387, R390 to R394): a register is written by its fields; an unlock value opens one function, another one
shuts it and counts; reads of FLERRS clear it and of LCDATAL latch the high word; the governor keeps its ceiling and acts at the
boundaries of 10 µs; a retry is counted, and the sixteenth in a row on one flit retrains the link; a snapshot is held until it is let go.
In the recovery profile the host's writes of these pages are dropped. Every one of these events completes, whatever the state.
The model's choices in it: log 101, 105, 112, 140, 144 and 165. -/
def Obligations.ControlPages : Prop := ∀ (s : State) (f : Nat) (v : Word) (x : DWord) (watts rate : BitVec 16),
  ((∀ e off, ∃ t, exec (.registerWrite f e off v) s = .next t)
    ∧ (∃ t, exec (.held v) s = .next t) ∧ (∃ t, exec (.dbgtrig v) s = .next t) ∧ (∃ t, exec (.exunlk f x) s = .next t)
    ∧ (∃ t, exec (.governorUpdate watts rate) s = .next t) ∧ (∃ t, exec .budgetRefill s = .next t)
    ∧ (∃ t, exec .snapshotLatch s = .next t) ∧ (∃ t, exec .flerrs s = .next t) ∧ (∃ t, exec .lcdatal s = .next t)
    ∧ (∃ t, exec .counterSave s = .next t) ∧ (∃ t, exec .linkRetry s = .next t))
  ∧ (inRecovery s = true → (∀ e off, exec (.registerWrite f e off v) s = .next s) ∧ exec (.exunlk f x) s = .next s ∧ exec (.held v) s = .next s
    ∧ exec (.dbgtrig v) s = .next s)
  ∧ (inRecovery s = false →
  (∃ t, exec (.registerWrite 10 false 0 v) s = .next t ∧ t.pages.govlim = max 1000 (min (ceiling s) (v.toNat % 65536)))
  ∧ (∃ t, exec (.registerWrite 12 false 0 v) s = .next t ∧ t.pages.lcsel = v.toNat % 65536)
  ∧ (∃ t, exec (.registerWrite 13 false 0 v) s = .next t ∧ t.pages.smsel = v.toNat % 32768)
  ∧ (∀ e off, readOnly f e off = true → f ≤ 13 → off % 4 = 0 → exec (.registerWrite f e off v) s = .next s)
  ∧ (f ≤ 13 → x = unlockOf s.bootCount →
    ∃ t, exec (.exunlk f x) s = .next t ∧ f ∈ t.pages.unlocked ∧ t.pages.unlkfail = s.pages.unlkfail)
  ∧ (f ≤ 13 → x ≠ unlockOf s.bootCount →
    ∃ t, exec (.exunlk f x) s = .next t ∧ f ∉ t.pages.unlocked ∧ t.pages.unlkfail = min 0xFFFF (s.pages.unlkfail + 1))
  ∧ (∃ t, exec .flerrs s = .next t ∧ t.pages.flerrs = 0 ∧ t.out = s.out ++ [.hostRead (le4 s.pages.flerrs.toNat)])
  ∧ (let n := counterOf (noteCorrected s s.pages.lcsel)
    ∃ t, exec .lcdatal s = .next t ∧ t.pages.lcdatah = BitVec.ofNat 32 (n / 2 ^ 32) ∧ t.out = s.out ++ [.hostRead (le4 (n % 2 ^ 32))]
      ∧ (s.pages.lcsel < 0x200 ∨ 0x300 ≤ s.pages.lcsel → n = (get? s.pages.lcsel s.counters).getD 0))
  ∧ (exec (.held v) s = .next (if v.getLsbD 0 then { s with pages := { s.pages with held := false } } else s))
  ∧ (v.getLsbD 0 = true → s.pages.dbgen = true → s.pages.held = false → ∃ t k, exec (.dbgtrig v) s = .next t ∧ t.pages.triggers = s.pages.triggers ++ [k]
    ∧ k.src = 2 ∧ k.cycle = s.treeCycle)
  ∧ (v.getLsbD 0 = false ∨ s.pages.dbgen = false → exec (.dbgtrig v) s = .next s))
  ∧ (let again := sameFlit s
    ∃ t, exec .linkRetry s = .next t ∧ t.pages.flerrs = s.pages.flerrs + 1
    ∧ (again = true → 15 ≤ s.pages.retries → s.pages.linkup = true → t.pages.train = true ∧ t.pages.linkup = false)
    ∧ (again = false ∨ s.pages.retries < 15 ∨ s.pages.linkup = false → t.pages.train = s.pages.train ∧ t.pages.linkup = s.pages.linkup
      ∧ t.pages.retries = if again then s.pages.retries + 1 else 1))
  ∧ (∀ k, s.pages.triggers = [k] → k.cycle + Config.barrierRelease ≤ s.treeCycle →
    ∃ t, exec .snapshotLatch s = .next t ∧ t.pages.triggers = []
      ∧ (s.pages.held = false → t.pages.held = true ∧ t.pages.src = k.src ∧ t.pages.sntag = k.tag ∧ t.pages.snctx = k.ctx
        ∧ t.pages.snpc = k.pc ∧ t.pages.snref = k.tick ∧ t.pages.snap = s.cores.map (fun c => (c.num, latchCore s c))
        ∧ .snapshot (s.effects.map Effect.bits) (s.cores.map (fun c => (c.num, c.recs.map (Rec.word s c.num)))) ∈ t.out)
      ∧ (s.pages.held = true → t.pages.sntag = s.pages.sntag ∧ t.pages.dropped = min 0xFFFF (s.pages.dropped + 1)))
  ∧ (s.tick < s.pages.govAt → exec (.governorUpdate watts rate) s = .next s)
  ∧ (s.pages.govAt ≤ s.tick → ∃ t, exec (.governorUpdate watts rate) s = .next t ∧ t.pages.govpwr = watts.toNat
    ∧ s.tick < t.pages.govAt ∧ t.pages.govAt ≤ s.tick + 10000 ∧ t.pages.govAt % 10000 = 0
    ∧ t.stretched = decide (s.pages.govlim < watts.toNat)
    ∧ t.pages.govrate = if s.pages.fixed then s.pages.govfix else rate.toNat)
  ∧ (∃ t, exec .budgetRefill s = .next t ∧ (s.cycle + 1024, Instr.budgetRefill) ∈ t.timers
    ∧ ∀ c x, s.core? c = some x → ∃ y, t.core? c = some y ∧ y.bucket = min 65535 (x.bucket + s.pages.govrate))
  ∧ (s.pages.savedAt + 10 ^ 9 ≤ s.tick → ∃ t, exec .counterSave s = .next t ∧ t.mram.counters = t.counters ∧ t.pages.savedAt = s.tick)
  ∧ (s.tick < s.pages.savedAt + 10 ^ 9 → exec .counterSave s = .next s)

/-- Resets and power-up (R367, R368, R371, R383, R384, R386, R387, R393): the package comes out of cold reset, authenticates its images and
trains its link, each lane with the preset of the fewest errors, the lowest of several; a step that has passed its limit, or a link that
finds no lanes, leads to the recovery profile; a die released from reset waits for its power and clocks, and then trains its DRAM; a
reset of the package keeps flash, MRAM, with the counters saved to it, and the host's memory; a loss of power loses what was not saved. Every one
of these events completes, whatever the
state. The model's choices in it: log 8, 93, 102, 104 and 107. -/
def Obligations.PowerUp : Prop := ∀ (s : State) (v : Word) (die : Nat) (lanes : List LaneTrain) (zeroAt : Nat)
    (errors : List (List (BitVec 16))),
  let m := linkLanes s.pages.narrow (passing lanes)
  ((∃ t, exec .powerGood s = .next t) ∧ (∃ t, exec .oscclk s = .next t) ∧ (∃ t, exec (.linkUp lanes zeroAt errors) s = .next t)
    ∧ (∃ t, exec .train s = .next t) ∧ (∃ t, exec .linkRetrain s = .next t) ∧ (∃ t, exec .stepLimitExpiry s = .next t)
    ∧ (∃ t, exec (.rstcmd v) s = .next t) ∧ (∃ t, exec .powerLoss s = .next t) ∧ (∃ t, exec (.dierstSet die) s = .next t)
    ∧ (∃ t, exec (.dierstClear die) s = .next t))
  ∧ (s.boot = .cold → ∃ t, exec .powerGood s = .next t ∧ t.boot = .osc ∧ t.limit = some (s.tick + 5000000)
    ∧ ∃ c, s.cycle < c ∧ (c, Instr.oscclk) ∈ t.timers)
  ∧ (s.boot = .osc → ∃ t, exec .oscclk s = .next t ∧ t.tick = 0 ∧ t.boot = .link ∧ t.pages.osclk = true ∧ t.pages.train = true
    ∧ t.pages.stage = 1 ∧ t.mem = s.mem
    ∧ (slotReason s s.mram.bootSel = 0 → t.pages.slot = s.mram.bootSel + 1 ∧ t.pages.recoveryProfile = false)
    ∧ (slotReason s s.mram.bootSel ≠ 0 → slotReason s (1 - s.mram.bootSel) ≠ 0 → t.pages.slot = 0 ∧ t.pages.recoveryProfile = true))
  ∧ (∀ n, (passing lanes).getLsbD n = true ↔ n < 32 ∧ ∃ l, lanes[n]? = some l ∧ l.found = true ∧ l.skew.toNat ≤ 64 ∧ l.good = true)
  ∧ (∀ (e : List (BitVec 16)) (i : Nat), e.length = 11 → i < 11 → bestPreset e < 11 ∧ e.getD (bestPreset e) 0 ≤ e.getD i 0
    ∧ (i < bestPreset e → e.getD (bestPreset e) 0 < e.getD i 0))
  ∧ (s.pages.train = true → m ≠ 0 → ∃ t, exec (.linkUp lanes zeroAt errors) s = .next t
    ∧ t.pages.linkup = true ∧ t.pages.train = false ∧ t.pages.fllmap = m ∧ t.pages.flrev = decide (zeroAt = 31)
    ∧ t.pages.width = (if m = 0xFFFFFFFF then 32 else 16)
    ∧ t.pages.fleq = lanes.mapIdx (fun i l => (l.margin, BitVec.ofNat 4 (bestPreset (errors.getD i []))))
    ∧ (s.boot = .link → s.pages.recoveryProfile = true → t.boot = .recovery ∧ t.pages.stage = 15)
    ∧ (s.boot = .link → s.pages.recoveryProfile = false → t.boot = .dies))
  ∧ (s.pages.train = true → m = 0 → ∃ t, exec (.linkUp lanes zeroAt errors) s = .next t ∧ t.pages.train = false
    ∧ (s.boot = .link → t.boot = .recovery ∧ t.pages.failstep = 4 ∧ t.pages.stage = 15))
  ∧ (∃ t, exec .train s = .next t ∧ t.pages.train = true ∧ t.pages.linkup = false ∧ t.mem = s.mem)
  ∧ (s.pages.linkup = true → ∃ t, exec .linkRetrain s = .next t ∧ t.pages.train = true ∧ t.pages.linkup = false)
  ∧ (∀ n, s.limit = some n → n ≤ s.tick → ∃ t, exec .stepLimitExpiry s = .next t ∧ t.boot = .recovery
    ∧ t.pages.failstep = (if s.boot = .osc then 2 else 4))
  ∧ (∀ d, pastLimit s s.limit = false → s.dies.find? (lateDie s) = some d → ∃ t, exec .stepLimitExpiry s = .next t ∧ t.boot = .recovery
    ∧ t.pages.failstep = d.phase)
  ∧ (pastLimit s s.limit = false → s.dies.find? (lateDie s) = none → s.pages.train = true → s.pages.trainAt + 20000000 ≤ s.tick →
    ∃ t, exec .stepLimitExpiry s = .next t ∧ t.pages.train = false ∧ (s.boot = .link → t.boot = .recovery ∧ t.pages.failstep = 4))
  ∧ (pastLimit s s.limit = false → s.dies.find? (lateDie s) = none → (s.pages.train = false ∨ s.tick < s.pages.trainAt + 20000000) →
    exec .stepLimitExpiry s = .next s)
  ∧ (v = 0xA5A5 → inRecovery s = false → ∃ t, exec (.rstcmd v) s = .next t ∧ t.boot = .osc ∧ t.teams = [] ∧ t.contexts = []
    ∧ t.counters = s.counters ∧ t.mram = { s.mram with counters := s.counters }
    ∧ ∀ a, 2 ^ 62 ≤ a ∨ (2 ^ 56 ≤ a ∧ a < 2 ^ 57) → t.mem.read a = s.mem.read a)
  ∧ (v ≠ 0xA5A5 ∨ inRecovery s = true → exec (.rstcmd v) s = .next s)
  ∧ (∃ t, exec .powerLoss s = .next t ∧ t.boot = .cold ∧ t.counters = s.mram.counters ∧ t.mram = s.mram
    ∧ ∀ a, 2 ^ 62 ≤ a ∨ (2 ^ 56 ≤ a ∧ a < 2 ^ 57) → t.mem.read a = s.mem.read a)
  ∧ (∃ t, exec (.dierstSet die) s = .next t ∧ (die < 4 → t.pages.dierst.getLsbD die = true ∧ (t.pages.dieok.getLsbD die = true →
      s.pages.dierst.getLsbD die = true)))
  ∧ (∀ d, s.die? die = some d →
    (s.pages.dierst.getLsbD die = true → ∃ t e c, exec (.dierstClear die) s = .next t ∧ t.pages.dierst.getLsbD die = false
      ∧ t.die? die = some e ∧ e.phase = 5 ∧ e.phaseBy = some (s.tick + 2000000) ∧ s.cycle < c ∧ (c, Instr.dierstClear die) ∈ t.timers)
    ∧ (s.pages.dierst.getLsbD die = false → d.phase ≠ 5 → exec (.dierstClear die) s = .next s)
    ∧ (s.pages.dierst.getLsbD die = false → d.phase = 5 → die < 4 → ∃ t e, exec (.dierstClear die) s = .next t
      ∧ t.pages.dieok.getLsbD die = true ∧ t.die? die = some e
      ∧ ((∀ x ∈ s.dies, x.phase = 5 → x.num = die ∨ s.pages.dieok.getLsbD x.num = true) → d.dram.go = false →
        e.phase = 6 ∧ e.dram.go = true ∧ e.dram.step = 0 ∧ e.limit = some (s.tick + 20000000))))

/-- The steps of DRAM and photonics (R385, R388, R389): a step that runs takes its result from outside or computes it, and ends with DONE
or with ERR and CODE; on a die that is brought up the next one follows, and after the last one, once every die that is brought up has
come so far, the photonics, or the scrub of the SRAM, for which it has 1 ms; a ring lost in service has 1 ms to lock again. The connection
table (R316, R317): VALID set tunes a circuit whose wavelengths are free at both ends, and is an error for a bad request; a circuit
carries when it is tuned, its entry is free when it is torn down, and a new one may be set before that; WAVES and DEST are written while
VALID is 0, and a write that clears VALID and changes the entry is ignored. Every one of these events completes, whatever the state.
The model's choices in it: log 8, 95, 102, 107 and 109. -/
def Obligations.BringUp : Prop :=
  (∀ (s : State) (k n : Nat) (lanes : List LaneFault) (meas : List DelayMeas) (temp : BitVec 16) (strong : Bool)
    (heats : List (Nat × BitVec 12)) (rings : List Nat) (v : Word),
    (∃ t, exec (.bondLaneRepair k lanes) s = .next t) ∧ (∃ t, exec (.timingCalibration k meas) s = .next t)
    ∧ (∃ t, exec (.refreshSetup k) s = .next t) ∧ (∃ t, exec (.scrub k) s = .next t)
    ∧ (∃ t, exec (.refreshRejudge k temp) s = .next t) ∧ (∃ t, exec (.light k strong) s = .next t)
    ∧ (∃ t, exec (.tune k heats) s = .next t) ∧ (∃ t, exec (.lock k rings) s = .next t)
    ∧ (∃ t, exec (.defaultCircuits k) s = .next t) ∧ (∃ t, exec (.dramStepEnd k) s = .next t)
    ∧ (∃ t, exec (.photonicStepEnd k) s = .next t) ∧ (∃ t, exec (.ringLockLoss k n) s = .next t)
    ∧ (∃ t, exec (.ringRemoval k n) s = .next t) ∧ (∃ t, exec (.connValidSet k n v) s = .next t)
    ∧ (∃ t, exec (.connValidClear k n v) s = .next t) ∧ (∃ t, exec (.circuitTuned k n) s = .next t)
    ∧ (∃ t, exec (.tearDownDone k n) s = .next t))
  ∧ (∀ (s : State) (k : Nat) (d : Die) (lanes : List LaneFault) (meas : List DelayMeas) (temp : BitVec 16)
    (strong : Bool) (heats : List (Nat × BitVec 12)) (rings : List Nat) (ring : Nat),
  s.die? k = some d →
  let ends (i : Instr) (p : Die → Prop) : Prop := ∃ t e c, exec i s = .next t ∧ t.die? k = some e ∧ p e ∧ s.cycle < c
    ∧ ((c, Instr.dramStepEnd k) ∈ t.timers ∨ (c, Instr.photonicStepEnd k) ∈ t.timers)
  (dramRuns s k 0 = true → lanes = [] → ends (.bondLaneRepair k lanes) (fun e => e.dram.result = d.dram.result ∧ e.dram.mapped = true))
  ∧ (dramRuns s k 0 = true → ∀ x, lanes = [x] → x.channel < 64 → x.layer < 16 → x.lane < 152 → x.lane ∉ spareMap s k x.channel x.layer →
    (0xFF ∈ spareMap s k x.channel x.layer → ∃ t i, exec (.bondLaneRepair k lanes) s = .next t
      ∧ t.mram.fieldMap = s.mram.fieldMap ++ [(64 * k + x.channel, x.layer, i, x.lane)])
    ∧ (0xFF ∉ spareMap s k x.channel x.layer → ends (.bondLaneRepair k lanes) (fun e => e.dram.result = 1
      ∧ e.dram.fail.getLsbD x.channel = true)))
  ∧ (dramRuns s k 1 = true → ends (.timingCalibration k meas) (fun e =>
    e.dram.result = (if (∀ m ∈ meas, m.rdLo.toNat + 15 ≤ m.rdHi.toNat ∧ m.wrLo.toNat + 15 ≤ m.wrHi.toNat)
        ∧ (∀ i ∈ List.range 64, ∀ l ∈ List.range 16, ∃ m ∈ meas, m.channel = i ∧ m.layer = l) then 0 else 2)
      ∧ ∀ m, meas = [m] → getDelay m.channel m.layer e.dram.dly =
        BitVec.ofNat 32 ((m.rdLo.toNat + m.rdHi.toNat) / 2 * 256 + (m.wrLo.toNat + m.wrHi.toNat) / 2)))
  ∧ (dramRuns s k 2 = true → ends (.refreshSetup k) (fun e => e.dram.result = 0
    ∧ e.dram.refi = if d.temp.toInt ≤ 85 * 16 then 3900 else 1950))
  ∧ (dramRuns s k 3 = true → ends (.scrub k) (fun e => e.dram.result = 0)
    ∧ ∃ t, exec (.scrub k) s = .next t ∧ ∀ a, t.mem.read a = if a < Config.dramBytes ∧ Config.dramDie a % 4 = k then 0 else s.mem.read a)
  ∧ (∃ t e, exec (.refreshRejudge k temp) s = .next t ∧ t.die? k = some e ∧ e.temp = temp
    ∧ (d.dram.done.getLsbD 2 = true → e.dram.refi = if temp.toInt ≤ 85 * 16 then 3900 else 1950))
  ∧ (photRuns s k 0 = true → ends (.light k strong) (fun e => e.phot.lit = true ∧ e.phot.result = if strong then 0 else 1))
  ∧ (photRuns s k 1 = true → ends (.tune k heats) (fun e =>
    e.phot.result = (if ∀ r ∈ List.range 128, (get? r heats).isSome = true then 0 else 2)
      ∧ ∀ r h, heats = [(r, h)] → (ringOf e.phot r).2 = h.toNat))
  ∧ (photRuns s k 2 = true → ends (.lock k rings) (fun e => (∀ r ∈ rings, r ∉ d.phot.removed → (ringOf e.phot r).1 = true)
    ∧ (∀ r ∈ d.phot.removed, (ringOf e.phot r).1 = (ringOf d.phot r).1)
    ∧ e.phot.result = if lockedRings e.phot < 128 then 3 else 0))
  ∧ (photRuns s k 3 = true → (∀ e ∈ s.dies, e.phot.done.getLsbD 2 = true) →
    ends (.defaultCircuits k) (fun e => e.phot.defaults = true ∧ e.phot.result = 0))
  ∧ (d.dram.go = true → d.phase ≠ 6 → ∃ t e, exec (.dramStepEnd k) s = .next t ∧ t.die? k = some e ∧ e.dram.go = false
    ∧ e.dram.err = decide (d.dram.result ≠ 0) ∧ e.dram.code = d.dram.result
    ∧ e.dram.done = if d.dram.result = 0 then d.dram.done ||| (1#4 <<< d.dram.step) else d.dram.done)
  ∧ (d.dram.go = true → d.phase = 6 → d.dram.result ≠ 0 → ∃ t, exec (.dramStepEnd k) s = .next t ∧ t.boot = .recovery ∧ t.pages.failstep = 6)
  ∧ (d.dram.go = true → d.phase = 6 → d.dram.result = 0 →
    let done := d.dram.done ||| (1#4 <<< d.dram.step)
    (d.dram.step < 3 → stepReady done (d.dram.step + 1) = true → ∃ t e, exec (.dramStepEnd k) s = .next t ∧ t.die? k = some e ∧ e.phase = 6
      ∧ e.dram.go = true ∧ e.dram.step = d.dram.step + 1 ∧ e.dram.done = done ∧ e.limit = some (s.tick + dramLimit (d.dram.step + 1)))
    ∧ (d.dram.step = 3 → done = 0xF → k < 4 → d.phot.go = false →
      (∀ x ∈ s.dies, x.phase = 6 → x.num = k ∨ s.pages.dramok.getLsbD x.num = true) → ∃ t e, exec (.dramStepEnd k) s = .next t
        ∧ t.die? k = some e ∧ t.pages.dramok.getLsbD k = true ∧ e.dram.go = false ∧ e.phase = 7 ∧ e.phot.go = true ∧ e.phot.step = 0))
  ∧ (d.phot.go = true → d.phase ≠ 7 → ∃ t e, exec (.photonicStepEnd k) s = .next t ∧ t.die? k = some e ∧ e.phot.go = false
    ∧ e.phot.err = decide (d.phot.result ≠ 0) ∧ e.phot.code = d.phot.result
    ∧ e.phot.done = if d.phot.result = 0 then d.phot.done ||| (1#4 <<< d.phot.step) else d.phot.done)
  ∧ (d.phot.go = true → d.phase = 7 → d.phot.result ≠ 0 → ∃ t, exec (.photonicStepEnd k) s = .next t ∧ t.boot = .recovery
    ∧ t.pages.failstep = 7)
  ∧ (d.phot.go = true → d.phase = 7 → d.phot.result = 0 →
    let done := d.phot.done ||| (1#4 <<< d.phot.step)
    (d.phot.step < 3 → stepReady done (d.phot.step + 1) = true → ∃ t e, exec (.photonicStepEnd k) s = .next t ∧ t.die? k = some e ∧ e.phase = 7
      ∧ e.phot.go = true ∧ e.phot.step = d.phot.step + 1 ∧ e.phot.done = done ∧ e.limit = some (s.tick + photLimit (d.phot.step + 1)))
    ∧ (d.phot.step = 3 → done = 0xF → k < 4 → (∀ x ∈ s.dies, x.phase ≠ 6) →
      (∀ x ∈ s.dies, x.phase = 7 → x.num = k ∨ s.pages.phok.getLsbD x.num = true) → ∃ t e c, exec (.photonicStepEnd k) s = .next t
        ∧ t.die? k = some e ∧ t.pages.phok.getLsbD k = true ∧ e.phot.go = false ∧ e.phase = 8 ∧ e.phaseBy = some (s.tick + 1000000)
        ∧ s.cycle < c ∧ (c, Instr.scrub k) ∈ t.timers))
  ∧ (s.pages.phok.getLsbD k = true → (ringOf d.phot ring).1 = true → ∃ t e, exec (.ringLockLoss k ring) s = .next t ∧ t.die? k = some e
    ∧ (ringOf e.phot ring).1 = false ∧ get? ring e.phot.lost = some (s.tick + 1000000))
  ∧ ∀ n, get? ring d.phot.lost = some n →
    (s.tick < n → exec (.ringRemoval k ring) s = .next s)
    ∧ (n ≤ s.tick → ∃ t e, exec (.ringRemoval k ring) s = .next t ∧ t.die? k = some e ∧ ring ∈ e.phot.removed
      ∧ get? ring e.phot.lost = none))
  ∧ (∀ (s : State) (k n : Nat) (d : Die) (v : Word) (w dst f : Nat),
  s.die? k = some d →
  let e := connOf d.phot n
  (e.1 = false →
    (connWaves v = 0 ∨ 16 < connWaves v ∨ connDest v = k → ∃ t x, exec (.connValidSet k n v) s = .next t ∧ t.die? k = some x
      ∧ connOf x.phot n = (true, 3, connWaves v, connDest v, 0) ∧ x.phot.draining = d.phot.draining)
    ∧ (connWaves v ≠ 0 → connWaves v ≤ 16 → connDest v ≠ k → waveChoices s k (connDest v) (connWaves v) ≠ [] →
      ∃ t x g c, exec (.connValidSet k n v) s = .next t ∧ t.die? k = some x ∧ g ∈ waveChoices s k (connDest v) (connWaves v)
        ∧ connOf x.phot n = (true, 1, connWaves v, connDest v, g) ∧ x.phot.draining = d.phot.draining ∧ s.cycle < c ∧ (c, Instr.circuitTuned k n) ∈ t.timers))
  ∧ (e.1 = false → ∃ t x, exec (.connValidClear k n v) s = .next t ∧ t.die? k = some x
    ∧ connOf x.phot n = (false, e.2.1, connWaves v, connDest v, e.2.2.2.2))
  ∧ (e.1 = true → exec (.connValidSet k n v) s = .next s)
  ∧ (e.1 = true → connWaves v ≠ e.2.2.1 ∨ connDest v ≠ e.2.2.2.1 → exec (.connValidClear k n v) s = .next s)
  ∧ (e = (true, 1, w, dst, f) → ∃ t x, exec (.circuitTuned k n) s = .next t ∧ t.die? k = some x ∧ connOf x.phot n = (true, 2, w, dst, f))
  ∧ (e.1 = true → connWaves v = e.2.2.1 → connDest v = e.2.2.2.1 → e.2.1 = 1 ∨ e.2.1 = 2 → ∃ t x c, exec (.connValidClear k n v) s = .next t ∧ t.die? k = some x
    ∧ connOf x.phot n = (false, e.2) ∧ x.phot.draining = d.phot.draining ++ [(n, e.2.2.1, e.2.2.2.1, e.2.2.2.2)]
    ∧ s.cycle < c ∧ (c, Instr.tearDownDone k n) ∈ t.timers)
  ∧ (e.1 = true → connWaves v = e.2.2.1 → connDest v = e.2.2.2.1 → e.2.1 = 3 → ∃ t x, exec (.connValidClear k n v) s = .next t ∧ t.die? k = some x
    ∧ (connOf x.phot n).1 = false ∧ (connOf x.phot n).2.1 = 0)
  ∧ ((∀ c ∈ d.phot.draining, c.1 ≠ n) → ∃ t, exec (.tearDownDone k n) s = .next t ∧ t.die? k = some d)
  ∧ ∀ pre c post, d.phot.draining = pre ++ c :: post → c.1 = n → (∀ y ∈ pre, y.1 ≠ n) →
    ∃ t x, exec (.tearDownDone k n) s = .next t ∧ t.die? k = some x ∧ x.phot.draining = pre ++ post
      ∧ (e.1 = true ∨ (∃ y ∈ post, y.1 = n) → x.phot.conn = d.phot.conn)
      ∧ (e.1 = false → (∀ y ∈ post, y.1 ≠ n) → connOf x.phot n = (false, 0, e.2.2.1, e.2.2.2.1, 0)))

/-- Firmware update (R367, R369, R370, R390): each command of the update needs its state, is refused in any other one, answers, and leads to
the next one; an image is staged into the slot that does not run, verified as at reset, and preferred from its activation on: a
configuration block takes effect at the next reset, compositor firmware at once, once the command that runs has ended. Every one of these events
completes, whatever the state. The model's choices in it: log 93, 103, 104, 110 and 111. -/
def Obligations.FirmwareUpdate : Prop := ∀ (s : State) (comp : BitVec 16) (size off : Nat) (data : List Byte) (ok : Bool),
  let kept (t : State) : Prop := t.pldm = s.pldm ∧ t.mem = s.mem
  ((∃ t, exec .querydeviceidentifiers s = .next t) ∧ (∃ t, exec .getfirmwareparameters s = .next t)
    ∧ (∃ t, exec .getstatus s = .next t) ∧ (∃ t, exec .requestupdate s = .next t)
    ∧ (∃ t, exec (.passcomponenttable comp) s = .next t) ∧ (∃ t, exec (.updatecomponent comp size) s = .next t)
    ∧ (∃ t, exec (.requestfirmwaredata off data) s = .next t) ∧ (∃ t, exec (.transfercomplete ok) s = .next t)
    ∧ (∃ t, exec .verifycomplete s = .next t) ∧ (∃ t, exec .applycomplete s = .next t)
    ∧ (∃ t, exec .activatefirmware s = .next t) ∧ (∃ t, exec .activationTimeout s = .next t)
    ∧ (∃ t, exec .cancelupdatecomponent s = .next t) ∧ (∃ t, exec .cancelupdate s = .next t))
  ∧ PldmAnswers s .querydeviceidentifiers 0x01 pldmOk [] kept
  ∧ PldmAnswers s .getfirmwareparameters 0x02 pldmOk [imageNat s (runSlot s) 1 0xC 4, imageNat s (s.pages.cfgSlot - 1) 2 0xC 4] kept
  ∧ PldmAnswers s .getstatus 0x1B pldmOk [UpdSt.num (if s.pldm.activating then .activate else s.pldm.state)] kept
  ∧ (s.pldm.state = .idle → PldmAnswers s .requestupdate 0x10 pldmOk [] (fun t => t.pldm.state = .learn ∧ t.pldm.staged = []))
  ∧ (s.pldm.state ≠ .idle → PldmAnswers s .requestupdate 0x10 pldmWrongState [] kept)
  ∧ (s.pldm.state = .learn ∨ s.pldm.state = .ready → comp = 1 ∨ comp = 2 →
    PldmAnswers s (.passcomponenttable comp) 0x13 pldmOk [] (fun t => t.pldm.state = .ready))
  ∧ (¬((s.pldm.state = .learn ∨ s.pldm.state = .ready) ∧ (comp = 1 ∨ comp = 2)) →
    PldmAnswers s (.passcomponenttable comp) 0x13 pldmWrongState [] kept)
  ∧ (¬(s.pldm.state = .ready ∧ (comp = 1 ∨ comp = 2) ∧ size ≤ 2 ^ 23) →
    PldmAnswers s (.updatecomponent comp size) 0x14 pldmWrongState [] kept)
  ∧ (s.pldm.state = .ready → comp = 1 ∨ comp = 2 → size ≤ 2 ^ 23 →
    PldmAnswers s (.updatecomponent comp size) 0x14 pldmOk [] (fun t => t.pldm.state = .download ∧ t.pldm.comp = comp.toNat ∧ t.pldm.size = size))
  ∧ (s.pldm.state = .download → s.mem.wf = true → data.length ≤ 1024 → off + data.length ≤ s.pldm.size →
    PldmAnswers s (.requestfirmwaredata off data) 0x15 pldmOk [] (fun t =>
      t.mem.bytes (imageAt (stagedSlot s) s.pldm.comp + off) data.length = data))
  ∧ (¬(s.pldm.state = .download ∧ data.length ≤ 1024 ∧ off + data.length ≤ s.pldm.size) →
    PldmAnswers s (.requestfirmwaredata off data) 0x15 pldmWrongState [] kept)
  ∧ (s.pldm.state ≠ .download → PldmAnswers s (.transfercomplete ok) 0x16 pldmWrongState [] kept)
  ∧ (s.pldm.state ≠ .verify → PldmAnswers s .verifycomplete 0x17 pldmWrongState [] kept)
  ∧ (s.pldm.state ≠ .apply → PldmAnswers s .applycomplete 0x18 pldmWrongState [] kept)
  ∧ (s.pldm.state ≠ .ready ∨ s.pldm.staged = [] ∨ s.pldm.activating = true → PldmAnswers s .activatefirmware 0x1A pldmWrongState [] kept)
  ∧ (s.pldm.state ≠ .download → s.pldm.state ≠ .verify → s.pldm.state ≠ .apply →
    PldmAnswers s .cancelupdatecomponent 0x1C pldmWrongState [] kept)
  ∧ (s.pldm.state = .idle → PldmAnswers s .cancelupdate 0x1D pldmWrongState [] kept)
  ∧ (s.pldm.state = .download → PldmAnswers s (.transfercomplete ok) 0x16 pldmOk [] (fun t => t.pldm.state = if ok then .verify else .ready))
  ∧ (let r := reasonUnder s (stagedSlot s) s.pldm.comp (if 2 ∈ s.pldm.staged then stagedSlot s else s.pages.cfgSlot - 1)
    s.pldm.state = .verify → PldmAnswers s .verifycomplete 0x17 pldmOk [r] (fun t => t.pldm.state = if r = 0 then .apply else .ready))
  ∧ (s.pldm.state = .apply → PldmAnswers s .applycomplete 0x18 pldmOk [] (fun t => t.pldm.state = .ready ∧ s.pldm.comp ∈ t.pldm.staged))
  ∧ (s.pldm.state = .ready → s.pldm.staged ≠ [] → s.pldm.activating = false →
    (1 ∉ s.pldm.staged → ∃ t, exec .activatefirmware s = .next t ∧ t.mram.bootSel = stagedSlot s ∧ t.pldm.state = .idle ∧ t.pages = s.pages
      ∧ .pldm 0x1A pldmOk [] ∈ t.out)
    ∧ (1 ∈ s.pldm.staged → (commandEnded s).boot = s.boot →
      ((commandEnded s).mailbox.busy = true → exec .activatefirmware s = .next (s.at_ (s.cycle + 1) .activatefirmware))
      ∧ ((commandEnded s).mailbox.busy = false → ∃ t, exec .activatefirmware s = .next t ∧ t.mram.bootSel = stagedSlot s ∧ t.pldm.state = .idle
        ∧ t.pages.slot = stagedSlot s + 1 ∧ t.pages.cfgSlot = (commandEnded s).pages.cfgSlot ∧ t.mailbox = (commandEnded s).mailbox
        ∧ .pldm 0x1A pldmOk [] ∈ t.out)))
  ∧ (s.pldm.activating = true → s.pldm.until_ ≤ s.tick → ∃ t, exec .activationTimeout s = .next t ∧ t.pldm.activating = false
    ∧ t.mram.bootSel = stagedSlot s ∧ t.pages.slot = stagedSlot s + 1)
  ∧ (s.pldm.state = .download ∨ s.pldm.state = .verify ∨ s.pldm.state = .apply →
    PldmAnswers s .cancelupdatecomponent 0x1C pldmOk [] (fun t => t.pldm.state = .ready))
  ∧ (s.pldm.state ≠ .idle → PldmAnswers s .cancelupdate 0x1D pldmOk [] (fun t => t.pldm.state = .idle ∧ t.pldm.staged = []))

/-- Membership of a domain (R330 to R333, R336): heartbeats go out every 10 µs and end suspicion; a member that is overdue is suspected, and
the coordinator proposes the view less the suspected; a proposal with the highest number is acked, committed by its proposer once every
member has acked it, and installed; without a quorum nothing is proposed, and the domain is marked; messages without an answer are sent
again; an engine that stands takes no message (R338). Joining a domain (R336): a request goes to the coordinator, which offers the next
view to its members and to the joiner; each answers once its collectives that have started are complete, and the last answer commits the
view. Every one of these events completes, whatever the state. The model's choices in it: log 74, 75 and 76. -/
def Obligations.Membership : Prop :=
  (∀ (s : State) (n v rank : Nat) (m : List Nat) (seq : Word) (hold : Bool),
    (∃ t, exec (.heartbeatSend n) s = .next t) ∧ (∃ t, exec (.heartbeat n rank v hold) s = .next t)
    ∧ (∃ t, exec (.suspicion n rank) s = .next t) ∧ (∃ t, exec (.propose n v m rank) s = .next t)
    ∧ (∃ t, exec (.ack n v rank seq) s = .next t) ∧ (∃ t, exec (.viewCommit n v m seq) s = .next t)
    ∧ (∃ t, exec (.proposeTimeout n) s = .next t) ∧ (∃ t, exec (.commitTimeout n) s = .next t)
    ∧ (∃ t, exec (.messageResend n) s = .next t) ∧ (∃ t, exec (.joinReq n rank) s = .next t)
    ∧ (∃ t, exec (.joinOffer n v m rank) s = .next t) ∧ (∃ t, exec (.joinAck n v rank) s = .next t))
  ∧ (∀ (s : State) (n v rank : Nat) (m : List Nat) (seq : Word) (hold : Bool) (d : Domain),
  s.domain? n = some d →
  let keeps (t : State) : Prop := t.mem = s.mem ∧ t.ctxs = s.ctxs
  (d.state ≠ .excluded → d.state ≠ .joining → ∃ t e, exec (.heartbeatSend n) s = .next t ∧ t.domain? n = some e ∧ e.beat = s.tick + 10000
    ∧ t.out = s.out ++ d.others.map (fun r => .membership n r (.heartbeat n d.own d.view (ownHold s d))) ∧ keeps t)
  ∧ (d.state = .excluded ∨ d.state = .joining → ∃ t, exec (.heartbeatSend n) s = .next t ∧ t.out = s.out ∧ keeps t)
  ∧ (collStopped s = true → exec (.heartbeat n rank v hold) s = .next s ∧ exec (.propose n v m rank) s = .next s
    ∧ exec (.ack n v rank seq) s = .next s ∧ exec (.viewCommit n v m seq) s = .next s)
  ∧ (collStopped s = false → rank ∈ d.members → rank ∉ d.dropped → ∃ t e, exec (.heartbeat n rank v hold) s = .next t ∧ t.domain? n = some e
    ∧ get? rank e.heard = some (s.tick, hold) ∧ rank ∉ e.suspected ∧ (v = d.view → rank ∉ e.commitTo))
  ∧ (overdue s d rank = false → mustPropose d = false → exec (.suspicion n rank) s = .next s)
  ∧ (overdue s d rank = true → rank ∈ d.others → ∃ t e, exec (.suspicion n rank) s = .next t ∧ t.domain? n = some e
    ∧ rank ∈ e.suspected ∧ keeps t)
  ∧ (let left := d.members.filter (fun r => !(d.suspected ++ d.others.filter (overdue s d)).contains r)
    overdue s d rank = true →
    (2 * left.length ≤ d.members.length → ∃ t e, exec (.suspicion n rank) s = .next t ∧ t.domain? n = some e ∧ e.noQuorum = true
      ∧ e.state = d.state ∧ e.proposal = d.proposal ∧ e.view = d.view ∧ t.out = s.out ∧ keeps t)
    ∧ (d.members.length < 2 * left.length → d.state = .normal → left.head? = some d.own → left ≠ [d.own] →
      let v := max d.view d.ackedNum + 1
      ∃ t e, exec (.suspicion n rank) s = .next t ∧ t.domain? n = some e ∧ e.state = .leading ∧ e.proposal = some (v, left)
        ∧ e.deadline = some (s.tick + 2000000) ∧ keeps t
        ∧ t.out = s.out ++ (left.filter (fun r => r ≠ d.own)).map (fun r => .membership n r (.propose n v left d.own))))
  ∧ (collStopped s = false → rank ∈ d.members → d.state = .normal → d.own ∈ m → d.ackedNum < v → d.view < v →
    ∃ t e, exec (.propose n v m rank) s = .next t ∧ t.domain? n = some e ∧ e.state = .acked ∧ e.ackedNum = v ∧ e.ackedFrom = rank
      ∧ e.deadline = some (s.tick + 2000000) ∧ e.frozen = true ∧ (∀ r ∈ d.members, r ∉ m → r ∈ e.dropped)
      ∧ t.out = s.out ++ [.membership n rank (.ack n v d.own d.seqField)] ∧ keeps t)
  ∧ (rank ∈ d.members → d.state = .normal → v ≤ d.view → v < d.ackedNum → exec (.propose n v m rank) s = .next s)
  ∧ (collStopped s = false → d.state = .leading → d.proposal = some (v, m) → rank ∈ m → ∃ t e, exec (.ack n v rank seq) s = .next t ∧ t.domain? n = some e
    ∧ ((∃ r ∈ m, r ≠ d.own ∧ r ≠ rank ∧ get? r d.acks = none) → e.state = .leading ∧ get? rank e.acks = some seq ∧ keeps t)
    ∧ ((∀ r ∈ m, r = d.own ∨ r = rank ∨ (get? r d.acks).isSome = true) → d.colls = [] → e.view = v ∧ e.members = m ∧ e.state = .normal
      ∧ ∀ r ∈ m, r ≠ d.own → ∃ w, .membership n r (.viewCommit n v m w) ∈ t.out))
  ∧ (v ≤ d.view ∨ d.state = .excluded → exec (.viewCommit n v m seq) s = .next s)
  ∧ (collStopped s = false → d.view < v → d.state ≠ .excluded → d.own ∈ m → d.colls = [] → ∃ t e, exec (.viewCommit n v m seq) s = .next t ∧ t.domain? n = some e
    ∧ e.view = v ∧ e.members = m ∧ e.state = .normal ∧ e.frozen = false ∧ e.proposal = none ∧ (∀ r ∈ e.suspected, r ∈ m)
    ∧ (d.state = .joining → e.nextSeq = seq.toNat))
  ∧ (collStopped s = false → d.view < v → d.state ≠ .excluded → d.own ∉ m → d.colls = [] → ∃ t e, exec (.viewCommit n v m seq) s = .next t
    ∧ t.domain? n = some e ∧ e.state = .excluded)
  ∧ (∀ c, d.state = .leading → d.proposal = some (v, m) → d.deadline = some c → c ≤ s.tick → ∃ t e, exec (.proposeTimeout n) s = .next t
    ∧ t.domain? n = some e ∧ ∀ r ∈ m, r ≠ d.own → get? r d.acks = none → stillHolds s d r = false → r ∈ e.suspected ∨ e.view = max d.view d.ackedNum + 1)
  ∧ (∀ c, d.deadline = some c → s.tick < c → exec (.commitTimeout n) s = .next s ∧ (d.state = .leading → exec (.proposeTimeout n) s = .next s))
  ∧ (∀ c, d.state = .joining → d.deadline = some c → c ≤ s.tick → ∃ t e, exec (.commitTimeout n) s = .next t ∧ t.domain? n = some e
    ∧ e.offer = d.offer ∧ e.deadline = some (s.tick + 2000000) ∧ t.out = s.out ++ d.others.map (fun r => .membership n r (.joinReq n d.own)))
  ∧ (∃ t e, exec (.messageResend n) s = .next t ∧ t.domain? n = some e ∧ e.again = s.tick + 100000
    ∧ t.out = s.out ++ (unanswered d).map (fun x => .membership n x.1 x.2) ∧ keeps t))
  ∧ (∀ (s : State) (n v rank c : Nat) (m : List Nat) (d : Domain),
  s.domain? n = some d → collStopped s = false →
  (rank ∉ d.members → d.state ≠ .excluded → d.state ≠ .joining → rank < d.ranks → d.coordinator ≠ some d.own → ∀ k, d.coordinator = some k →
    ∃ t e, exec (.joinReq n rank) s = .next t ∧ t.out = s.out ++ [.membership n k (.joinReq n rank)] ∧ t.domain? n = some e
      ∧ e = { d with commitTo := d.commitTo.filter (fun r => r ≠ rank) })
  ∧ (rank ∉ d.members → d.state = .normal → rank < d.ranks → d.coordinator = some d.own → d.offer = none → d.suspected = [] →
    d.quiet = false →
    let w := max d.view d.ackedNum + 1
    let l := d.members.filter (fun r => r < rank) ++ [rank] ++ d.members.filter (fun r => rank < r)
    ∃ t e, exec (.joinReq n rank) s = .next t ∧ t.domain? n = some e ∧ e.offer = some (w, d.own, l)
      ∧ t.out = s.out ++ (l.filter (fun r => r ≠ d.own)).map (fun r => .membership n r (.joinOffer n w l d.own)))
  ∧ (d.view < v → d.own ∈ m → d.state = .joining → ∃ t e, exec (.joinOffer n v m c) s = .next t ∧ t.domain? n = some e
    ∧ e.offer = some (v, c, m) ∧ t.out = s.out ++ [.membership n c (.joinAck n v d.own)])
  ∧ (d.view < v → d.own ∈ m → d.state = .normal → c ∈ d.members → c ≠ d.own → d.offer = none → d.quiet = true →
    ∃ t e, exec (.joinOffer n v m c) s = .next t ∧ t.domain? n = some e ∧ e.offer = some (v, c, m) ∧ d.own ∈ e.joinAcks
      ∧ t.out = s.out ++ [.membership n c (.joinAck n v d.own)])
  ∧ (v ≤ d.view ∨ d.own ∉ m → exec (.joinOffer n v m c) s = .next s)
  ∧ (d.offer = some (v, d.own, m) → rank ∈ m → d.colls = [] → (∀ r ∈ m, r = rank ∨ r ∈ d.joinAcks) →
    ∃ t e, exec (.joinAck n v rank) s = .next t ∧ t.domain? n = some e ∧ e.view = v ∧ e.members = m ∧ e.state = .normal
      ∧ ∀ r ∈ m, r ≠ d.own → ∃ w, .membership n r (.viewCommit n v m w) ∈ t.out)
  ∧ (d.offer = some (v, d.own, m) → rank ∈ m → (∃ r ∈ m, r ≠ rank ∧ r ∉ d.joinAcks) →
    ∃ t e, exec (.joinAck n v rank) s = .next t ∧ t.domain? n = some e ∧ e.view = d.view ∧ rank ∈ e.joinAcks ∧ t.out = s.out))

/-- Flits of collectives (R321, R326, R327, R328, R332, R338, R341, R343): flits of the current view are taken and acknowledged by their kind,
of another one discarded; an acknowledged flit is not sent again, another one 10 µs after it was sent; a flit of a collective that this
member has yet to accept is kept for it, and every one while the domain's collectives stall; a collective whose members differ ends with
CODE 0x03 at every member: the one that finds it ends its own and tells the others, and what it tells them ends theirs; FIN and CONFIRM
complete one. Every one of these events completes, whatever the state. The model's choices in it: log 70, 71, 72 and 143. -/
def Obligations.CollectiveFlits : Prop := ∀ (s : State) (n : Nat) (tag : BitVec 16) (seq sender pos k : Nat) (f : Flit) (d : Domain) (c : Collective),
  ((∃ t, exec (.collectiveFlit n tag seq sender f) s = .next t) ∧ (∃ t, exec (.flitResend n) s = .next t)
    ∧ (∃ t, exec (.fin n tag seq pos) s = .next t) ∧ ∃ t, exec (.confirm n tag seq) s = .next t)
  ∧ (s.domain? n = some d →
  let acked (sender k : Nat) : OutMsg := .flit n sender (BitVec.ofNat 16 d.view) seq (.ack k)
  (takesFlits d tag = false ∨ collStopped s = true → exec (.collectiveFlit n tag seq sender f) s = .next s
    ∧ exec (.fin n tag seq pos) s = .next s ∧ exec (.confirm n tag seq) s = .next s)
  ∧ (takesFlits d tag = true → collStopped s = false →
    (∃ t e, exec (.collectiveFlit n tag seq sender (.ack k)) s = .next t ∧ t.domain? n = some e ∧ t.out = s.out
      ∧ e.unacked = d.unacked.filter (fun u => u.rank ≠ sender || u.seq ≠ seq || Flit.kind u.flit ≠ k))
    ∧ (d.colls.find? (fun c => c.seq == seq) = none → (∀ k, f ≠ .ack k) →
      ∃ t e, exec (.collectiveFlit n tag seq sender f) s = .next t ∧ t.domain? n = some e ∧ t.out = s.out ++ [acked sender (Flit.kind f)]
        ∧ e = { d with early := if seq < d.nextSeq ∨ (seq, sender, f) ∈ d.early then d.early else d.early ++ [(seq, sender, f)] })
    ∧ (d.colls.find? (fun c => c.seq == seq) = some c → (∀ k, f ≠ .ack k) →
      (∃ t, exec (.collectiveFlit n tag seq sender f) s = .next t ∧ acked sender (Flit.kind f) ∈ t.out)
      ∧ (collStalled s d = true → ∃ t e, exec (.collectiveFlit n tag seq sender f) s = .next t ∧ t.domain? n = some e
        ∧ t.out = s.out ++ [acked sender (Flit.kind f)]
        ∧ e = { d with early := if (seq, sender, f) ∈ d.early then d.early else d.early ++ [(seq, sender, f)] })
      ∧ (collStalled s d = false → (f = .clash ∨ ∃ m, Flit.desc? f = some m ∧ m ≠ c.desc) → ∃ t e,
        exec (.collectiveFlit n tag seq sender f) s = .next t ∧ t.domain? n = some e ∧ t.mem = s.mem
        ∧ e.colls = d.colls.filter (fun x => x.seq ≠ seq) ∧ seq ∈ e.clashed
        ∧ (∀ o, s.op? c.op = some o → ∃ p, t.op? c.op = some p ∧ p.finished = true ∧ p.code = 3)
        ∧ (f ≠ .clash → ∀ r ∈ d.others, .flit n r (BitVec.ofNat 16 d.view) seq .clash ∈ t.out)))
    ∧ (d.colls = [c] → c.seq = seq → collStalled s d = false →
      (∃ t e, exec (.fin n tag seq pos) s = .next t ∧ t.mem = s.mem ∧ t.domain? n = some e ∧ acked (d.at_ pos) 5 ∈ t.out
        ∧ e.colls = [{ c with fins := distinct (c.fins ++ [pos]) }])
      ∧ ∃ t e, exec (.confirm n tag seq) s = .next t ∧ t.mem = s.mem ∧ t.domain? n = some e
        ∧ acked (d.at_ (treeParent ((d.pos d.own).getD 0))) 6 ∈ t.out
        ∧ (c.written = false → e.colls = [c])
        ∧ (c.written = true → e.colls = [] ∧ e.confirmed = some (max seq (d.confirmed.getD 0)))))
  ∧ (∃ t e, exec (.flitResend n) s = .next t ∧ t.domain? n = some e ∧ t.mem = s.mem
    ∧ e = { d with unacked := d.unacked.map (fun u => if u.again ≤ s.tick then { u with again := s.tick + 10000 } else u) }
    ∧ t.out = s.out ++ (d.unacked.filter (fun u => u.again ≤ s.tick)).map (fun u => .flit n u.rank (BitVec.ofNat 16 d.view) u.seq u.flit)))

/-! The step, the encoding, the memory -/

/-- A step runs the instruction that its unit's words decode to (R42, R45, R46, R163, R245, R255, R312): an attempt of a unit is `exec` of the
instruction that its fetched words decode to, with the rest of its fused group where one starts there; words that do not decode raise the
fault of the first check that fails once program order has reached them, as a W-scope instruction in a handler raises ILLOP; a unit that
has run ahead waits with them. A step is an event from outside, those of the host in their order, or an outcome that falls due, or an
event that is due by itself, or an attempt of the unit that is picked, or the passing of a cycle.
The model's choices in it: log 1, 2 and 8. -/
def Obligations.StepRuns : Prop := ∀ (s : State),
  (∀ c w i, let r : State := { s with cur := some c, took := .none }
    fetch r c = .word w → decode (envOf r c) w = .ok i → (c.level = 3 → wordLevel w ≠ 4) → attemptOne s c = exec i r
      ∧ (fuseCount s c (s.ctx c).pc = 0 → attempt s c = exec i r))
  ∧ (∀ c w, let r : State := { s with cur := some c, took := .none }
    fetch r c = .word w →
    (∀ d, decode (envOf r c) w = .error d → ((r.ctx c).tickets = [] → attemptOne s c =
        .next (raise r c (Fields.ofWord w).sc.toNat { cause := d.cause, addr := d.addr, aux := d.aux }))
      ∧ ((r.ctx c).tickets ≠ [] → ∃ t, attemptOne s c = .next t ∧ t.took = .stalled ∧ t.mem = s.mem
        ∧ ∀ o, t.ctx o = if o ∈ unitOf s c ∧ s.hasCtx o = true then { s.ctx o with wait := some .lower } else s.ctx o))
    ∧ (∀ i, decode (envOf r c) w = .ok i → c.level = 3 → wordLevel w = 4 → (r.ctx c).tickets = [] →
      attemptOne s c = .next (raise r c 4 { cause := .illop })))
  ∧ (∀ c t, fuseCount s c (s.ctx c).pc ≠ 0 → attemptOne s c = .next t →
    attempt s c = if t.took = .issued then fuseRest s c (fuseCount s c (s.ctx c).pc) ((s.ctx c).pc + 1) t else .next t)
  ∧ (let u := begin_ s
    (∀ i l, u.inbox = i :: l → hostWaits u i = false → step s = exec i { u with inbox := l })
      ∧ (∀ i l j, u.inbox = i :: l → hostWaits u i = true → l.find? (fun j => !overLink j) = some j →
        step s = exec j { u with inbox := i :: l.erase j })
      ∧ ((∀ i l, u.inbox = i :: l → hostWaits u i = true ∧ ∀ j ∈ l, overLink j = true) →
        (∀ e, u.timers.find? (fun e => decide (e.1 ≤ u.cycle)) = some e → step s = exec e.2 { u with timers := u.timers.erase e })
        ∧ (u.timers.find? (fun e => decide (e.1 ≤ u.cycle)) = none →
          let t := tidy u
          (∀ i, dueEvent t = some i → step s = exec i t)
          ∧ (dueEvent t = none →
            (candidates t = [] → t ≠ u → step s = .next t)
            ∧ (∀ c, picked t (tries t) = some c → step s = (match attempt t c with
              | .next v => .next (after t c v)
              | o => o))
            ∧ (picked t (tries t) = none → candidates t ≠ [] ∨ t = u → step s = .next (passCycle t (candidates t)))))))

/-- The places of the fields (R41), on words of several families, and the words that do not decode (R23, R43, R45, R376): an opcode of the last
class, a reserved SC and a privileged opcode outside compositor code are illegal, a scope that the opcode does not allow is a SCOPE fault,
as any but W is in compositor code; a field that must be zero, a specifier that its kind does not allow and a register that the scope may not
name are each refused with the cause, the specifier and the field that R45 gives. The model's choice in it: log 138. -/
def Obligations.DecodeWords : Prop :=
  let word (op sc mod d a b c : Nat) : Nat :=
    op + sc * 2 ^ 10 + 7 * 2 ^ 13 + mod * 2 ^ 18 + d * 2 ^ 34 + a * 2 ^ 45 + b * 2 ^ 56 + c * 2 ^ 67
  let h (x : Scope) : Head := ⟨x, ⟨false, 7⟩, false, ⟨false, 0, 0⟩⟩
  decodeTableWord 96 (word 0x040 0 64 3 1 2 0) = some (.add (h .L) .i32 true (.v 3) (.v 1) (.reg (.v 2)))
  ∧ decodeTableWord 96 (word 0x103 0 40 2 4 5 6) = some (.ffma (h .L) .f32 .rd (.v 2) (.v 4) (.v 5) (.v 6))
  ∧ decodeTableWord 96 (word 0x207 3 1472 0 0 0 0) = some (.fence (h .T) ⟨.ar, .package⟩)
  ∧ decodeTableWord 96 (word 0x307 3 0 0x142 0x144 0 0) = some (.acca (h .T) (.t 2) (.t 4))
  ∧ decodeTableWord 96 (word 0x346 3 0 0x142 0x144 0 0) = some (.view (h .T) (.t 2) (.t 4))
  ∧ decodeTableWord 96 (word 0x380 4 0 0 0x1C2 0 0) = some (.snap (h .W) (.w 2))
  ∧ (∀ (e : DecEnv) (w : BitVec 96), let f := Fields.ofWord w
    (0x3C0 ≤ f.op.toNat ∨ 5 ≤ f.sc.toNat ∨ (e.firmware = false ∧ 0x382 ≤ f.op.toNat ∧ f.op.toNat ≤ 0x384) →
      decode e w = .error { cause := .illop })
    ∧ (e.firmware = true → f.sc.toNat < 4 → rowOf f ≠ none → decode e w = .error { cause := .scope }))
  ∧ (let refused (n : Nat) (d : DecodeFault) : Prop := decode ⟨128, false⟩ (BitVec.ofNat 96 n) = .error d
    refused (word 0x307 0 0 0x142 0x144 0 0) { cause := .scope }
    ∧ refused (word 0x040 0 64 3 1 2 5) { cause := .illop }
    ∧ refused (word 0x040 0 64 200 1 2 0) { cause := .illreg, addr := 200, aux := 0 }
    ∧ refused (word 0x040 0 64 3 1 200 0) { cause := .illreg, addr := 200, aux := 2 }
    ∧ refused (word 0x040 0 64 0x240 1 2 0) { cause := .illreg, addr := 0x240, aux := 0 }
    ∧ refused (word 0x040 2 64 0x102 0x240 0x104 0) { cause := .scope, addr := 0x240, aux := 1 }
    ∧ refused (word 0x040 0 64 0x140 1 2 0) { cause := .scope, addr := 0x140, aux := 0 })

/-- Every well-formed coded instruction, with its operands at every value that the encoding admits, decodes from its own words (R41 to R47, R53
to R64). -/
def Obligations.EncodeDecode : Prop := ∀ (i : Instr) (f : Fields),
  i.fields = some f → wellFormed i = true → ∃ w, encodeWord i = some w ∧ decode f.wide w = .ok i

/-- A word has one meaning: what decodes to an instruction is the encoding of it, so that no bit of a word that issues is left unread (R43 to
R45). -/
def Obligations.DecodeEncode : Prop := ∀ (e : DecEnv) (w : BitVec 96) (i : Instr), decode e w = .ok i → encodeWord i = some w

/-- The memory keeps its canonical form in every step, of whatever instruction or event: addresses strictly rising, no byte listed that an
unlisted address reads as. The model's choice in it: log 4. -/
def Obligations.MemoryCanonical : Prop := ∀ (s t : State), s.mem.wf = true → step s = .next t → t.mem.wf = true

/-- Reset (R366, R367, R371, R380 to R383): the memory has its canonical form, every die is in reset, the link is down, no step of power-up has
been made, and no context, queue, team or launch is there. The model's choice in it: log 5. -/
def Obligations.ResetState : Prop :=
  State.reset.mem.wf = true ∧ State.reset.boot = .cold ∧ State.reset.pages.dierst = 0xF ∧ State.reset.pages.linkup = false
  ∧ State.reset.pages.osclk = false ∧ State.reset.pages.unlocked = [] ∧ State.reset.contexts = [] ∧ State.reset.queues = []
  ∧ State.reset.teams = [] ∧ State.reset.launches = [] ∧ State.reset.ctxs = [] ∧ State.reset.mailbox.busy = false

end
end

