-- ==== Sys2Proof/Laws/State.lean ====
section
/-! SUPPORT. Every named update of the state, field by field: what it leaves alone. -/

namespace Sys2Proof.Machine

section
variable (s : State) (c : CtxId) (f : Ctx → Ctx)
@[simp] theorem State.modCtx_cycle : (s.modCtx c f).cycle = s.cycle := rfl
@[simp] theorem State.modCtx_tick : (s.modCtx c f).tick = s.tick := rfl
@[simp] theorem State.modCtx_frac : (s.modCtx c f).frac = s.frac := rfl
@[simp] theorem State.modCtx_stretched : (s.modCtx c f).stretched = s.stretched := rfl
@[simp] theorem State.modCtx_turn : (s.modCtx c f).turn = s.turn := rfl
@[simp] theorem State.modCtx_nonce : (s.modCtx c f).nonce = s.nonce := rfl
@[simp] theorem State.modCtx_opNum : (s.modCtx c f).opNum = s.opNum := rfl
@[simp] theorem State.modCtx_inbox : (s.modCtx c f).inbox = s.inbox := rfl
@[simp] theorem State.modCtx_timers : (s.modCtx c f).timers = s.timers := rfl
@[simp] theorem State.modCtx_cur : (s.modCtx c f).cur = s.cur := rfl
@[simp] theorem State.modCtx_took : (s.modCtx c f).took = s.took := rfl
@[simp] theorem State.modCtx_xm : (s.modCtx c f).xm = s.xm := rfl
@[simp] theorem State.modCtx_mem : (s.modCtx c f).mem = s.mem := rfl
@[simp] theorem State.modCtx_teams : (s.modCtx c f).teams = s.teams := rfl
@[simp] theorem State.modCtx_launches : (s.modCtx c f).launches = s.launches := rfl
@[simp] theorem State.modCtx_launchCtr : (s.modCtx c f).launchCtr = s.launchCtr := rfl
@[simp] theorem State.modCtx_cores : (s.modCtx c f).cores = s.cores := rfl
@[simp] theorem State.modCtx_ops : (s.modCtx c f).ops = s.ops := rfl
@[simp] theorem State.modCtx_galley : (s.modCtx c f).galley = s.galley := rfl
@[simp] theorem State.modCtx_effects : (s.modCtx c f).effects = s.effects := rfl
@[simp] theorem State.modCtx_pvCache : (s.modCtx c f).pvCache = s.pvCache := rfl
@[simp] theorem State.modCtx_bad : (s.modCtx c f).bad = s.bad := rfl
@[simp] theorem State.modCtx_dies : (s.modCtx c f).dies = s.dies := rfl
@[simp] theorem State.modCtx_contexts : (s.modCtx c f).contexts = s.contexts := rfl
@[simp] theorem State.modCtx_queues : (s.modCtx c f).queues = s.queues := rfl
@[simp] theorem State.modCtx_pbars : (s.modCtx c f).pbars = s.pbars := rfl
@[simp] theorem State.modCtx_domains : (s.modCtx c f).domains = s.domains := rfl
@[simp] theorem State.modCtx_saved : (s.modCtx c f).saved = s.saved := rfl
@[simp] theorem State.modCtx_retained : (s.modCtx c f).retained = s.retained := rfl
@[simp] theorem State.modCtx_signals : (s.modCtx c f).signals = s.signals := rfl
@[simp] theorem State.modCtx_tlbis : (s.modCtx c f).tlbis = s.tlbis := rfl
@[simp] theorem State.modCtx_mailbox : (s.modCtx c f).mailbox = s.mailbox := rfl
@[simp] theorem State.modCtx_apbase : (s.modCtx c f).apbase = s.apbase := rfl
@[simp] theorem State.modCtx_pages : (s.modCtx c f).pages = s.pages := rfl
@[simp] theorem State.modCtx_mram : (s.modCtx c f).mram = s.mram := rfl
@[simp] theorem State.modCtx_counters : (s.modCtx c f).counters = s.counters := rfl
@[simp] theorem State.modCtx_boot : (s.modCtx c f).boot = s.boot := rfl
@[simp] theorem State.modCtx_bootCount : (s.modCtx c f).bootCount = s.bootCount := rfl
@[simp] theorem State.modCtx_limit : (s.modCtx c f).limit = s.limit := rfl
@[simp] theorem State.modCtx_measurements : (s.modCtx c f).measurements = s.measurements := rfl
@[simp] theorem State.modCtx_pldm : (s.modCtx c f).pldm = s.pldm := rfl
@[simp] theorem State.modCtx_out : (s.modCtx c f).out = s.out := rfl
end

section
variable (s : State) (cs : List CtxId) (f : Ctx → Ctx)
@[simp] theorem State.modCtxs_cycle : (s.modCtxs cs f).cycle = s.cycle := rfl
@[simp] theorem State.modCtxs_tick : (s.modCtxs cs f).tick = s.tick := rfl
@[simp] theorem State.modCtxs_frac : (s.modCtxs cs f).frac = s.frac := rfl
@[simp] theorem State.modCtxs_stretched : (s.modCtxs cs f).stretched = s.stretched := rfl
@[simp] theorem State.modCtxs_turn : (s.modCtxs cs f).turn = s.turn := rfl
@[simp] theorem State.modCtxs_nonce : (s.modCtxs cs f).nonce = s.nonce := rfl
@[simp] theorem State.modCtxs_opNum : (s.modCtxs cs f).opNum = s.opNum := rfl
@[simp] theorem State.modCtxs_inbox : (s.modCtxs cs f).inbox = s.inbox := rfl
@[simp] theorem State.modCtxs_timers : (s.modCtxs cs f).timers = s.timers := rfl
@[simp] theorem State.modCtxs_cur : (s.modCtxs cs f).cur = s.cur := rfl
@[simp] theorem State.modCtxs_took : (s.modCtxs cs f).took = s.took := rfl
@[simp] theorem State.modCtxs_xm : (s.modCtxs cs f).xm = s.xm := rfl
@[simp] theorem State.modCtxs_mem : (s.modCtxs cs f).mem = s.mem := rfl
@[simp] theorem State.modCtxs_teams : (s.modCtxs cs f).teams = s.teams := rfl
@[simp] theorem State.modCtxs_launches : (s.modCtxs cs f).launches = s.launches := rfl
@[simp] theorem State.modCtxs_launchCtr : (s.modCtxs cs f).launchCtr = s.launchCtr := rfl
@[simp] theorem State.modCtxs_cores : (s.modCtxs cs f).cores = s.cores := rfl
@[simp] theorem State.modCtxs_ops : (s.modCtxs cs f).ops = s.ops := rfl
@[simp] theorem State.modCtxs_galley : (s.modCtxs cs f).galley = s.galley := rfl
@[simp] theorem State.modCtxs_effects : (s.modCtxs cs f).effects = s.effects := rfl
@[simp] theorem State.modCtxs_pvCache : (s.modCtxs cs f).pvCache = s.pvCache := rfl
@[simp] theorem State.modCtxs_bad : (s.modCtxs cs f).bad = s.bad := rfl
@[simp] theorem State.modCtxs_dies : (s.modCtxs cs f).dies = s.dies := rfl
@[simp] theorem State.modCtxs_contexts : (s.modCtxs cs f).contexts = s.contexts := rfl
@[simp] theorem State.modCtxs_queues : (s.modCtxs cs f).queues = s.queues := rfl
@[simp] theorem State.modCtxs_pbars : (s.modCtxs cs f).pbars = s.pbars := rfl
@[simp] theorem State.modCtxs_domains : (s.modCtxs cs f).domains = s.domains := rfl
@[simp] theorem State.modCtxs_saved : (s.modCtxs cs f).saved = s.saved := rfl
@[simp] theorem State.modCtxs_retained : (s.modCtxs cs f).retained = s.retained := rfl
@[simp] theorem State.modCtxs_signals : (s.modCtxs cs f).signals = s.signals := rfl
@[simp] theorem State.modCtxs_tlbis : (s.modCtxs cs f).tlbis = s.tlbis := rfl
@[simp] theorem State.modCtxs_mailbox : (s.modCtxs cs f).mailbox = s.mailbox := rfl
@[simp] theorem State.modCtxs_apbase : (s.modCtxs cs f).apbase = s.apbase := rfl
@[simp] theorem State.modCtxs_pages : (s.modCtxs cs f).pages = s.pages := rfl
@[simp] theorem State.modCtxs_mram : (s.modCtxs cs f).mram = s.mram := rfl
@[simp] theorem State.modCtxs_counters : (s.modCtxs cs f).counters = s.counters := rfl
@[simp] theorem State.modCtxs_boot : (s.modCtxs cs f).boot = s.boot := rfl
@[simp] theorem State.modCtxs_bootCount : (s.modCtxs cs f).bootCount = s.bootCount := rfl
@[simp] theorem State.modCtxs_limit : (s.modCtxs cs f).limit = s.limit := rfl
@[simp] theorem State.modCtxs_measurements : (s.modCtxs cs f).measurements = s.measurements := rfl
@[simp] theorem State.modCtxs_pldm : (s.modCtxs cs f).pldm = s.pldm := rfl
@[simp] theorem State.modCtxs_out : (s.modCtxs cs f).out = s.out := rfl
end

section
variable (s : State) (c : CtxId) (x : Ctx)
@[simp] theorem State.setCtx_cycle : (s.setCtx c x).cycle = s.cycle := rfl
@[simp] theorem State.setCtx_tick : (s.setCtx c x).tick = s.tick := rfl
@[simp] theorem State.setCtx_frac : (s.setCtx c x).frac = s.frac := rfl
@[simp] theorem State.setCtx_stretched : (s.setCtx c x).stretched = s.stretched := rfl
@[simp] theorem State.setCtx_turn : (s.setCtx c x).turn = s.turn := rfl
@[simp] theorem State.setCtx_nonce : (s.setCtx c x).nonce = s.nonce := rfl
@[simp] theorem State.setCtx_opNum : (s.setCtx c x).opNum = s.opNum := rfl
@[simp] theorem State.setCtx_inbox : (s.setCtx c x).inbox = s.inbox := rfl
@[simp] theorem State.setCtx_timers : (s.setCtx c x).timers = s.timers := rfl
@[simp] theorem State.setCtx_cur : (s.setCtx c x).cur = s.cur := rfl
@[simp] theorem State.setCtx_took : (s.setCtx c x).took = s.took := rfl
@[simp] theorem State.setCtx_xm : (s.setCtx c x).xm = s.xm := rfl
@[simp] theorem State.setCtx_mem : (s.setCtx c x).mem = s.mem := rfl
@[simp] theorem State.setCtx_teams : (s.setCtx c x).teams = s.teams := rfl
@[simp] theorem State.setCtx_launches : (s.setCtx c x).launches = s.launches := rfl
@[simp] theorem State.setCtx_launchCtr : (s.setCtx c x).launchCtr = s.launchCtr := rfl
@[simp] theorem State.setCtx_cores : (s.setCtx c x).cores = s.cores := rfl
@[simp] theorem State.setCtx_ops : (s.setCtx c x).ops = s.ops := rfl
@[simp] theorem State.setCtx_galley : (s.setCtx c x).galley = s.galley := rfl
@[simp] theorem State.setCtx_effects : (s.setCtx c x).effects = s.effects := rfl
@[simp] theorem State.setCtx_pvCache : (s.setCtx c x).pvCache = s.pvCache := rfl
@[simp] theorem State.setCtx_bad : (s.setCtx c x).bad = s.bad := rfl
@[simp] theorem State.setCtx_dies : (s.setCtx c x).dies = s.dies := rfl
@[simp] theorem State.setCtx_contexts : (s.setCtx c x).contexts = s.contexts := rfl
@[simp] theorem State.setCtx_queues : (s.setCtx c x).queues = s.queues := rfl
@[simp] theorem State.setCtx_pbars : (s.setCtx c x).pbars = s.pbars := rfl
@[simp] theorem State.setCtx_domains : (s.setCtx c x).domains = s.domains := rfl
@[simp] theorem State.setCtx_saved : (s.setCtx c x).saved = s.saved := rfl
@[simp] theorem State.setCtx_retained : (s.setCtx c x).retained = s.retained := rfl
@[simp] theorem State.setCtx_signals : (s.setCtx c x).signals = s.signals := rfl
@[simp] theorem State.setCtx_tlbis : (s.setCtx c x).tlbis = s.tlbis := rfl
@[simp] theorem State.setCtx_mailbox : (s.setCtx c x).mailbox = s.mailbox := rfl
@[simp] theorem State.setCtx_apbase : (s.setCtx c x).apbase = s.apbase := rfl
@[simp] theorem State.setCtx_pages : (s.setCtx c x).pages = s.pages := rfl
@[simp] theorem State.setCtx_mram : (s.setCtx c x).mram = s.mram := rfl
@[simp] theorem State.setCtx_counters : (s.setCtx c x).counters = s.counters := rfl
@[simp] theorem State.setCtx_boot : (s.setCtx c x).boot = s.boot := rfl
@[simp] theorem State.setCtx_bootCount : (s.setCtx c x).bootCount = s.bootCount := rfl
@[simp] theorem State.setCtx_limit : (s.setCtx c x).limit = s.limit := rfl
@[simp] theorem State.setCtx_measurements : (s.setCtx c x).measurements = s.measurements := rfl
@[simp] theorem State.setCtx_pldm : (s.setCtx c x).pldm = s.pldm := rfl
@[simp] theorem State.setCtx_out : (s.setCtx c x).out = s.out := rfl
end

section
variable (s : State) (t : TeamId) (f : Team → Team)
@[simp] theorem State.modTeam_cycle : (s.modTeam t f).cycle = s.cycle := rfl
@[simp] theorem State.modTeam_tick : (s.modTeam t f).tick = s.tick := rfl
@[simp] theorem State.modTeam_frac : (s.modTeam t f).frac = s.frac := rfl
@[simp] theorem State.modTeam_stretched : (s.modTeam t f).stretched = s.stretched := rfl
@[simp] theorem State.modTeam_turn : (s.modTeam t f).turn = s.turn := rfl
@[simp] theorem State.modTeam_nonce : (s.modTeam t f).nonce = s.nonce := rfl
@[simp] theorem State.modTeam_opNum : (s.modTeam t f).opNum = s.opNum := rfl
@[simp] theorem State.modTeam_inbox : (s.modTeam t f).inbox = s.inbox := rfl
@[simp] theorem State.modTeam_timers : (s.modTeam t f).timers = s.timers := rfl
@[simp] theorem State.modTeam_cur : (s.modTeam t f).cur = s.cur := rfl
@[simp] theorem State.modTeam_took : (s.modTeam t f).took = s.took := rfl
@[simp] theorem State.modTeam_xm : (s.modTeam t f).xm = s.xm := rfl
@[simp] theorem State.modTeam_mem : (s.modTeam t f).mem = s.mem := rfl
@[simp] theorem State.modTeam_ctxs : (s.modTeam t f).ctxs = s.ctxs := rfl
@[simp] theorem State.modTeam_launches : (s.modTeam t f).launches = s.launches := rfl
@[simp] theorem State.modTeam_launchCtr : (s.modTeam t f).launchCtr = s.launchCtr := rfl
@[simp] theorem State.modTeam_cores : (s.modTeam t f).cores = s.cores := rfl
@[simp] theorem State.modTeam_ops : (s.modTeam t f).ops = s.ops := rfl
@[simp] theorem State.modTeam_galley : (s.modTeam t f).galley = s.galley := rfl
@[simp] theorem State.modTeam_effects : (s.modTeam t f).effects = s.effects := rfl
@[simp] theorem State.modTeam_pvCache : (s.modTeam t f).pvCache = s.pvCache := rfl
@[simp] theorem State.modTeam_bad : (s.modTeam t f).bad = s.bad := rfl
@[simp] theorem State.modTeam_dies : (s.modTeam t f).dies = s.dies := rfl
@[simp] theorem State.modTeam_contexts : (s.modTeam t f).contexts = s.contexts := rfl
@[simp] theorem State.modTeam_queues : (s.modTeam t f).queues = s.queues := rfl
@[simp] theorem State.modTeam_pbars : (s.modTeam t f).pbars = s.pbars := rfl
@[simp] theorem State.modTeam_domains : (s.modTeam t f).domains = s.domains := rfl
@[simp] theorem State.modTeam_saved : (s.modTeam t f).saved = s.saved := rfl
@[simp] theorem State.modTeam_retained : (s.modTeam t f).retained = s.retained := rfl
@[simp] theorem State.modTeam_signals : (s.modTeam t f).signals = s.signals := rfl
@[simp] theorem State.modTeam_tlbis : (s.modTeam t f).tlbis = s.tlbis := rfl
@[simp] theorem State.modTeam_mailbox : (s.modTeam t f).mailbox = s.mailbox := rfl
@[simp] theorem State.modTeam_apbase : (s.modTeam t f).apbase = s.apbase := rfl
@[simp] theorem State.modTeam_pages : (s.modTeam t f).pages = s.pages := rfl
@[simp] theorem State.modTeam_mram : (s.modTeam t f).mram = s.mram := rfl
@[simp] theorem State.modTeam_counters : (s.modTeam t f).counters = s.counters := rfl
@[simp] theorem State.modTeam_boot : (s.modTeam t f).boot = s.boot := rfl
@[simp] theorem State.modTeam_bootCount : (s.modTeam t f).bootCount = s.bootCount := rfl
@[simp] theorem State.modTeam_limit : (s.modTeam t f).limit = s.limit := rfl
@[simp] theorem State.modTeam_measurements : (s.modTeam t f).measurements = s.measurements := rfl
@[simp] theorem State.modTeam_pldm : (s.modTeam t f).pldm = s.pldm := rfl
@[simp] theorem State.modTeam_out : (s.modTeam t f).out = s.out := rfl
end

section
variable (s : State) (n : Nat) (f : Launch → Launch)
@[simp] theorem State.modLaunch_cycle : (s.modLaunch n f).cycle = s.cycle := rfl
@[simp] theorem State.modLaunch_tick : (s.modLaunch n f).tick = s.tick := rfl
@[simp] theorem State.modLaunch_frac : (s.modLaunch n f).frac = s.frac := rfl
@[simp] theorem State.modLaunch_stretched : (s.modLaunch n f).stretched = s.stretched := rfl
@[simp] theorem State.modLaunch_turn : (s.modLaunch n f).turn = s.turn := rfl
@[simp] theorem State.modLaunch_nonce : (s.modLaunch n f).nonce = s.nonce := rfl
@[simp] theorem State.modLaunch_opNum : (s.modLaunch n f).opNum = s.opNum := rfl
@[simp] theorem State.modLaunch_inbox : (s.modLaunch n f).inbox = s.inbox := rfl
@[simp] theorem State.modLaunch_timers : (s.modLaunch n f).timers = s.timers := rfl
@[simp] theorem State.modLaunch_cur : (s.modLaunch n f).cur = s.cur := rfl
@[simp] theorem State.modLaunch_took : (s.modLaunch n f).took = s.took := rfl
@[simp] theorem State.modLaunch_xm : (s.modLaunch n f).xm = s.xm := rfl
@[simp] theorem State.modLaunch_mem : (s.modLaunch n f).mem = s.mem := rfl
@[simp] theorem State.modLaunch_ctxs : (s.modLaunch n f).ctxs = s.ctxs := rfl
@[simp] theorem State.modLaunch_teams : (s.modLaunch n f).teams = s.teams := rfl
@[simp] theorem State.modLaunch_launchCtr : (s.modLaunch n f).launchCtr = s.launchCtr := rfl
@[simp] theorem State.modLaunch_cores : (s.modLaunch n f).cores = s.cores := rfl
@[simp] theorem State.modLaunch_ops : (s.modLaunch n f).ops = s.ops := rfl
@[simp] theorem State.modLaunch_galley : (s.modLaunch n f).galley = s.galley := rfl
@[simp] theorem State.modLaunch_effects : (s.modLaunch n f).effects = s.effects := rfl
@[simp] theorem State.modLaunch_pvCache : (s.modLaunch n f).pvCache = s.pvCache := rfl
@[simp] theorem State.modLaunch_bad : (s.modLaunch n f).bad = s.bad := rfl
@[simp] theorem State.modLaunch_dies : (s.modLaunch n f).dies = s.dies := rfl
@[simp] theorem State.modLaunch_contexts : (s.modLaunch n f).contexts = s.contexts := rfl
@[simp] theorem State.modLaunch_queues : (s.modLaunch n f).queues = s.queues := rfl
@[simp] theorem State.modLaunch_pbars : (s.modLaunch n f).pbars = s.pbars := rfl
@[simp] theorem State.modLaunch_domains : (s.modLaunch n f).domains = s.domains := rfl
@[simp] theorem State.modLaunch_saved : (s.modLaunch n f).saved = s.saved := rfl
@[simp] theorem State.modLaunch_retained : (s.modLaunch n f).retained = s.retained := rfl
@[simp] theorem State.modLaunch_signals : (s.modLaunch n f).signals = s.signals := rfl
@[simp] theorem State.modLaunch_tlbis : (s.modLaunch n f).tlbis = s.tlbis := rfl
@[simp] theorem State.modLaunch_mailbox : (s.modLaunch n f).mailbox = s.mailbox := rfl
@[simp] theorem State.modLaunch_apbase : (s.modLaunch n f).apbase = s.apbase := rfl
@[simp] theorem State.modLaunch_pages : (s.modLaunch n f).pages = s.pages := rfl
@[simp] theorem State.modLaunch_mram : (s.modLaunch n f).mram = s.mram := rfl
@[simp] theorem State.modLaunch_counters : (s.modLaunch n f).counters = s.counters := rfl
@[simp] theorem State.modLaunch_boot : (s.modLaunch n f).boot = s.boot := rfl
@[simp] theorem State.modLaunch_bootCount : (s.modLaunch n f).bootCount = s.bootCount := rfl
@[simp] theorem State.modLaunch_limit : (s.modLaunch n f).limit = s.limit := rfl
@[simp] theorem State.modLaunch_measurements : (s.modLaunch n f).measurements = s.measurements := rfl
@[simp] theorem State.modLaunch_pldm : (s.modLaunch n f).pldm = s.pldm := rfl
@[simp] theorem State.modLaunch_out : (s.modLaunch n f).out = s.out := rfl
end

section
variable (s : State) (n : Nat) (f : Context → Context)
@[simp] theorem State.modContext_cycle : (s.modContext n f).cycle = s.cycle := rfl
@[simp] theorem State.modContext_tick : (s.modContext n f).tick = s.tick := rfl
@[simp] theorem State.modContext_frac : (s.modContext n f).frac = s.frac := rfl
@[simp] theorem State.modContext_stretched : (s.modContext n f).stretched = s.stretched := rfl
@[simp] theorem State.modContext_turn : (s.modContext n f).turn = s.turn := rfl
@[simp] theorem State.modContext_nonce : (s.modContext n f).nonce = s.nonce := rfl
@[simp] theorem State.modContext_opNum : (s.modContext n f).opNum = s.opNum := rfl
@[simp] theorem State.modContext_inbox : (s.modContext n f).inbox = s.inbox := rfl
@[simp] theorem State.modContext_timers : (s.modContext n f).timers = s.timers := rfl
@[simp] theorem State.modContext_cur : (s.modContext n f).cur = s.cur := rfl
@[simp] theorem State.modContext_took : (s.modContext n f).took = s.took := rfl
@[simp] theorem State.modContext_xm : (s.modContext n f).xm = s.xm := rfl
@[simp] theorem State.modContext_mem : (s.modContext n f).mem = s.mem := rfl
@[simp] theorem State.modContext_ctxs : (s.modContext n f).ctxs = s.ctxs := rfl
@[simp] theorem State.modContext_teams : (s.modContext n f).teams = s.teams := rfl
@[simp] theorem State.modContext_launches : (s.modContext n f).launches = s.launches := rfl
@[simp] theorem State.modContext_launchCtr : (s.modContext n f).launchCtr = s.launchCtr := rfl
@[simp] theorem State.modContext_cores : (s.modContext n f).cores = s.cores := rfl
@[simp] theorem State.modContext_ops : (s.modContext n f).ops = s.ops := rfl
@[simp] theorem State.modContext_galley : (s.modContext n f).galley = s.galley := rfl
@[simp] theorem State.modContext_effects : (s.modContext n f).effects = s.effects := rfl
@[simp] theorem State.modContext_pvCache : (s.modContext n f).pvCache = s.pvCache := rfl
@[simp] theorem State.modContext_bad : (s.modContext n f).bad = s.bad := rfl
@[simp] theorem State.modContext_dies : (s.modContext n f).dies = s.dies := rfl
@[simp] theorem State.modContext_queues : (s.modContext n f).queues = s.queues := rfl
@[simp] theorem State.modContext_pbars : (s.modContext n f).pbars = s.pbars := rfl
@[simp] theorem State.modContext_domains : (s.modContext n f).domains = s.domains := rfl
@[simp] theorem State.modContext_saved : (s.modContext n f).saved = s.saved := rfl
@[simp] theorem State.modContext_retained : (s.modContext n f).retained = s.retained := rfl
@[simp] theorem State.modContext_signals : (s.modContext n f).signals = s.signals := rfl
@[simp] theorem State.modContext_tlbis : (s.modContext n f).tlbis = s.tlbis := rfl
@[simp] theorem State.modContext_mailbox : (s.modContext n f).mailbox = s.mailbox := rfl
@[simp] theorem State.modContext_apbase : (s.modContext n f).apbase = s.apbase := rfl
@[simp] theorem State.modContext_pages : (s.modContext n f).pages = s.pages := rfl
@[simp] theorem State.modContext_mram : (s.modContext n f).mram = s.mram := rfl
@[simp] theorem State.modContext_counters : (s.modContext n f).counters = s.counters := rfl
@[simp] theorem State.modContext_boot : (s.modContext n f).boot = s.boot := rfl
@[simp] theorem State.modContext_bootCount : (s.modContext n f).bootCount = s.bootCount := rfl
@[simp] theorem State.modContext_limit : (s.modContext n f).limit = s.limit := rfl
@[simp] theorem State.modContext_measurements : (s.modContext n f).measurements = s.measurements := rfl
@[simp] theorem State.modContext_pldm : (s.modContext n f).pldm = s.pldm := rfl
@[simp] theorem State.modContext_out : (s.modContext n f).out = s.out := rfl
end

section
variable (s : State) (n : Nat) (f : Core → Core)
@[simp] theorem State.modCore_cycle : (s.modCore n f).cycle = s.cycle := rfl
@[simp] theorem State.modCore_tick : (s.modCore n f).tick = s.tick := rfl
@[simp] theorem State.modCore_frac : (s.modCore n f).frac = s.frac := rfl
@[simp] theorem State.modCore_stretched : (s.modCore n f).stretched = s.stretched := rfl
@[simp] theorem State.modCore_turn : (s.modCore n f).turn = s.turn := rfl
@[simp] theorem State.modCore_nonce : (s.modCore n f).nonce = s.nonce := rfl
@[simp] theorem State.modCore_opNum : (s.modCore n f).opNum = s.opNum := rfl
@[simp] theorem State.modCore_inbox : (s.modCore n f).inbox = s.inbox := rfl
@[simp] theorem State.modCore_timers : (s.modCore n f).timers = s.timers := rfl
@[simp] theorem State.modCore_cur : (s.modCore n f).cur = s.cur := rfl
@[simp] theorem State.modCore_took : (s.modCore n f).took = s.took := rfl
@[simp] theorem State.modCore_xm : (s.modCore n f).xm = s.xm := rfl
@[simp] theorem State.modCore_mem : (s.modCore n f).mem = s.mem := rfl
@[simp] theorem State.modCore_ctxs : (s.modCore n f).ctxs = s.ctxs := rfl
@[simp] theorem State.modCore_teams : (s.modCore n f).teams = s.teams := rfl
@[simp] theorem State.modCore_launches : (s.modCore n f).launches = s.launches := rfl
@[simp] theorem State.modCore_launchCtr : (s.modCore n f).launchCtr = s.launchCtr := rfl
@[simp] theorem State.modCore_ops : (s.modCore n f).ops = s.ops := rfl
@[simp] theorem State.modCore_galley : (s.modCore n f).galley = s.galley := rfl
@[simp] theorem State.modCore_effects : (s.modCore n f).effects = s.effects := rfl
@[simp] theorem State.modCore_pvCache : (s.modCore n f).pvCache = s.pvCache := rfl
@[simp] theorem State.modCore_bad : (s.modCore n f).bad = s.bad := rfl
@[simp] theorem State.modCore_dies : (s.modCore n f).dies = s.dies := rfl
@[simp] theorem State.modCore_contexts : (s.modCore n f).contexts = s.contexts := rfl
@[simp] theorem State.modCore_queues : (s.modCore n f).queues = s.queues := rfl
@[simp] theorem State.modCore_pbars : (s.modCore n f).pbars = s.pbars := rfl
@[simp] theorem State.modCore_domains : (s.modCore n f).domains = s.domains := rfl
@[simp] theorem State.modCore_saved : (s.modCore n f).saved = s.saved := rfl
@[simp] theorem State.modCore_retained : (s.modCore n f).retained = s.retained := rfl
@[simp] theorem State.modCore_signals : (s.modCore n f).signals = s.signals := rfl
@[simp] theorem State.modCore_tlbis : (s.modCore n f).tlbis = s.tlbis := rfl
@[simp] theorem State.modCore_mailbox : (s.modCore n f).mailbox = s.mailbox := rfl
@[simp] theorem State.modCore_apbase : (s.modCore n f).apbase = s.apbase := rfl
@[simp] theorem State.modCore_pages : (s.modCore n f).pages = s.pages := rfl
@[simp] theorem State.modCore_mram : (s.modCore n f).mram = s.mram := rfl
@[simp] theorem State.modCore_counters : (s.modCore n f).counters = s.counters := rfl
@[simp] theorem State.modCore_boot : (s.modCore n f).boot = s.boot := rfl
@[simp] theorem State.modCore_bootCount : (s.modCore n f).bootCount = s.bootCount := rfl
@[simp] theorem State.modCore_limit : (s.modCore n f).limit = s.limit := rfl
@[simp] theorem State.modCore_measurements : (s.modCore n f).measurements = s.measurements := rfl
@[simp] theorem State.modCore_pldm : (s.modCore n f).pldm = s.pldm := rfl
@[simp] theorem State.modCore_out : (s.modCore n f).out = s.out := rfl
end

section
variable (s : State) (n : Nat) (f : Die → Die)
@[simp] theorem State.modDie_cycle : (s.modDie n f).cycle = s.cycle := rfl
@[simp] theorem State.modDie_tick : (s.modDie n f).tick = s.tick := rfl
@[simp] theorem State.modDie_frac : (s.modDie n f).frac = s.frac := rfl
@[simp] theorem State.modDie_stretched : (s.modDie n f).stretched = s.stretched := rfl
@[simp] theorem State.modDie_turn : (s.modDie n f).turn = s.turn := rfl
@[simp] theorem State.modDie_nonce : (s.modDie n f).nonce = s.nonce := rfl
@[simp] theorem State.modDie_opNum : (s.modDie n f).opNum = s.opNum := rfl
@[simp] theorem State.modDie_inbox : (s.modDie n f).inbox = s.inbox := rfl
@[simp] theorem State.modDie_timers : (s.modDie n f).timers = s.timers := rfl
@[simp] theorem State.modDie_cur : (s.modDie n f).cur = s.cur := rfl
@[simp] theorem State.modDie_took : (s.modDie n f).took = s.took := rfl
@[simp] theorem State.modDie_xm : (s.modDie n f).xm = s.xm := rfl
@[simp] theorem State.modDie_mem : (s.modDie n f).mem = s.mem := rfl
@[simp] theorem State.modDie_ctxs : (s.modDie n f).ctxs = s.ctxs := rfl
@[simp] theorem State.modDie_teams : (s.modDie n f).teams = s.teams := rfl
@[simp] theorem State.modDie_launches : (s.modDie n f).launches = s.launches := rfl
@[simp] theorem State.modDie_launchCtr : (s.modDie n f).launchCtr = s.launchCtr := rfl
@[simp] theorem State.modDie_cores : (s.modDie n f).cores = s.cores := rfl
@[simp] theorem State.modDie_ops : (s.modDie n f).ops = s.ops := rfl
@[simp] theorem State.modDie_galley : (s.modDie n f).galley = s.galley := rfl
@[simp] theorem State.modDie_effects : (s.modDie n f).effects = s.effects := rfl
@[simp] theorem State.modDie_pvCache : (s.modDie n f).pvCache = s.pvCache := rfl
@[simp] theorem State.modDie_bad : (s.modDie n f).bad = s.bad := rfl
@[simp] theorem State.modDie_contexts : (s.modDie n f).contexts = s.contexts := rfl
@[simp] theorem State.modDie_queues : (s.modDie n f).queues = s.queues := rfl
@[simp] theorem State.modDie_pbars : (s.modDie n f).pbars = s.pbars := rfl
@[simp] theorem State.modDie_domains : (s.modDie n f).domains = s.domains := rfl
@[simp] theorem State.modDie_saved : (s.modDie n f).saved = s.saved := rfl
@[simp] theorem State.modDie_retained : (s.modDie n f).retained = s.retained := rfl
@[simp] theorem State.modDie_signals : (s.modDie n f).signals = s.signals := rfl
@[simp] theorem State.modDie_tlbis : (s.modDie n f).tlbis = s.tlbis := rfl
@[simp] theorem State.modDie_mailbox : (s.modDie n f).mailbox = s.mailbox := rfl
@[simp] theorem State.modDie_apbase : (s.modDie n f).apbase = s.apbase := rfl
@[simp] theorem State.modDie_pages : (s.modDie n f).pages = s.pages := rfl
@[simp] theorem State.modDie_mram : (s.modDie n f).mram = s.mram := rfl
@[simp] theorem State.modDie_counters : (s.modDie n f).counters = s.counters := rfl
@[simp] theorem State.modDie_boot : (s.modDie n f).boot = s.boot := rfl
@[simp] theorem State.modDie_bootCount : (s.modDie n f).bootCount = s.bootCount := rfl
@[simp] theorem State.modDie_limit : (s.modDie n f).limit = s.limit := rfl
@[simp] theorem State.modDie_measurements : (s.modDie n f).measurements = s.measurements := rfl
@[simp] theorem State.modDie_pldm : (s.modDie n f).pldm = s.pldm := rfl
@[simp] theorem State.modDie_out : (s.modDie n f).out = s.out := rfl
end

section
variable (s : State) (n : Nat) (f : HQueue → HQueue)
@[simp] theorem State.modQueue_cycle : (s.modQueue n f).cycle = s.cycle := rfl
@[simp] theorem State.modQueue_tick : (s.modQueue n f).tick = s.tick := rfl
@[simp] theorem State.modQueue_frac : (s.modQueue n f).frac = s.frac := rfl
@[simp] theorem State.modQueue_stretched : (s.modQueue n f).stretched = s.stretched := rfl
@[simp] theorem State.modQueue_turn : (s.modQueue n f).turn = s.turn := rfl
@[simp] theorem State.modQueue_nonce : (s.modQueue n f).nonce = s.nonce := rfl
@[simp] theorem State.modQueue_opNum : (s.modQueue n f).opNum = s.opNum := rfl
@[simp] theorem State.modQueue_inbox : (s.modQueue n f).inbox = s.inbox := rfl
@[simp] theorem State.modQueue_timers : (s.modQueue n f).timers = s.timers := rfl
@[simp] theorem State.modQueue_cur : (s.modQueue n f).cur = s.cur := rfl
@[simp] theorem State.modQueue_took : (s.modQueue n f).took = s.took := rfl
@[simp] theorem State.modQueue_xm : (s.modQueue n f).xm = s.xm := rfl
@[simp] theorem State.modQueue_mem : (s.modQueue n f).mem = s.mem := rfl
@[simp] theorem State.modQueue_ctxs : (s.modQueue n f).ctxs = s.ctxs := rfl
@[simp] theorem State.modQueue_teams : (s.modQueue n f).teams = s.teams := rfl
@[simp] theorem State.modQueue_launches : (s.modQueue n f).launches = s.launches := rfl
@[simp] theorem State.modQueue_launchCtr : (s.modQueue n f).launchCtr = s.launchCtr := rfl
@[simp] theorem State.modQueue_cores : (s.modQueue n f).cores = s.cores := rfl
@[simp] theorem State.modQueue_ops : (s.modQueue n f).ops = s.ops := rfl
@[simp] theorem State.modQueue_galley : (s.modQueue n f).galley = s.galley := rfl
@[simp] theorem State.modQueue_effects : (s.modQueue n f).effects = s.effects := rfl
@[simp] theorem State.modQueue_pvCache : (s.modQueue n f).pvCache = s.pvCache := rfl
@[simp] theorem State.modQueue_bad : (s.modQueue n f).bad = s.bad := rfl
@[simp] theorem State.modQueue_dies : (s.modQueue n f).dies = s.dies := rfl
@[simp] theorem State.modQueue_contexts : (s.modQueue n f).contexts = s.contexts := rfl
@[simp] theorem State.modQueue_pbars : (s.modQueue n f).pbars = s.pbars := rfl
@[simp] theorem State.modQueue_domains : (s.modQueue n f).domains = s.domains := rfl
@[simp] theorem State.modQueue_saved : (s.modQueue n f).saved = s.saved := rfl
@[simp] theorem State.modQueue_retained : (s.modQueue n f).retained = s.retained := rfl
@[simp] theorem State.modQueue_signals : (s.modQueue n f).signals = s.signals := rfl
@[simp] theorem State.modQueue_tlbis : (s.modQueue n f).tlbis = s.tlbis := rfl
@[simp] theorem State.modQueue_mailbox : (s.modQueue n f).mailbox = s.mailbox := rfl
@[simp] theorem State.modQueue_apbase : (s.modQueue n f).apbase = s.apbase := rfl
@[simp] theorem State.modQueue_pages : (s.modQueue n f).pages = s.pages := rfl
@[simp] theorem State.modQueue_mram : (s.modQueue n f).mram = s.mram := rfl
@[simp] theorem State.modQueue_counters : (s.modQueue n f).counters = s.counters := rfl
@[simp] theorem State.modQueue_boot : (s.modQueue n f).boot = s.boot := rfl
@[simp] theorem State.modQueue_bootCount : (s.modQueue n f).bootCount = s.bootCount := rfl
@[simp] theorem State.modQueue_limit : (s.modQueue n f).limit = s.limit := rfl
@[simp] theorem State.modQueue_measurements : (s.modQueue n f).measurements = s.measurements := rfl
@[simp] theorem State.modQueue_pldm : (s.modQueue n f).pldm = s.pldm := rfl
@[simp] theorem State.modQueue_out : (s.modQueue n f).out = s.out := rfl
end

section
variable (s : State) (n : Nat) (f : Domain → Domain)
@[simp] theorem State.modDomain_cycle : (s.modDomain n f).cycle = s.cycle := rfl
@[simp] theorem State.modDomain_tick : (s.modDomain n f).tick = s.tick := rfl
@[simp] theorem State.modDomain_frac : (s.modDomain n f).frac = s.frac := rfl
@[simp] theorem State.modDomain_stretched : (s.modDomain n f).stretched = s.stretched := rfl
@[simp] theorem State.modDomain_turn : (s.modDomain n f).turn = s.turn := rfl
@[simp] theorem State.modDomain_nonce : (s.modDomain n f).nonce = s.nonce := rfl
@[simp] theorem State.modDomain_opNum : (s.modDomain n f).opNum = s.opNum := rfl
@[simp] theorem State.modDomain_inbox : (s.modDomain n f).inbox = s.inbox := rfl
@[simp] theorem State.modDomain_timers : (s.modDomain n f).timers = s.timers := rfl
@[simp] theorem State.modDomain_cur : (s.modDomain n f).cur = s.cur := rfl
@[simp] theorem State.modDomain_took : (s.modDomain n f).took = s.took := rfl
@[simp] theorem State.modDomain_xm : (s.modDomain n f).xm = s.xm := rfl
@[simp] theorem State.modDomain_mem : (s.modDomain n f).mem = s.mem := rfl
@[simp] theorem State.modDomain_ctxs : (s.modDomain n f).ctxs = s.ctxs := rfl
@[simp] theorem State.modDomain_teams : (s.modDomain n f).teams = s.teams := rfl
@[simp] theorem State.modDomain_launches : (s.modDomain n f).launches = s.launches := rfl
@[simp] theorem State.modDomain_launchCtr : (s.modDomain n f).launchCtr = s.launchCtr := rfl
@[simp] theorem State.modDomain_cores : (s.modDomain n f).cores = s.cores := rfl
@[simp] theorem State.modDomain_ops : (s.modDomain n f).ops = s.ops := rfl
@[simp] theorem State.modDomain_galley : (s.modDomain n f).galley = s.galley := rfl
@[simp] theorem State.modDomain_effects : (s.modDomain n f).effects = s.effects := rfl
@[simp] theorem State.modDomain_pvCache : (s.modDomain n f).pvCache = s.pvCache := rfl
@[simp] theorem State.modDomain_bad : (s.modDomain n f).bad = s.bad := rfl
@[simp] theorem State.modDomain_dies : (s.modDomain n f).dies = s.dies := rfl
@[simp] theorem State.modDomain_contexts : (s.modDomain n f).contexts = s.contexts := rfl
@[simp] theorem State.modDomain_queues : (s.modDomain n f).queues = s.queues := rfl
@[simp] theorem State.modDomain_pbars : (s.modDomain n f).pbars = s.pbars := rfl
@[simp] theorem State.modDomain_saved : (s.modDomain n f).saved = s.saved := rfl
@[simp] theorem State.modDomain_retained : (s.modDomain n f).retained = s.retained := rfl
@[simp] theorem State.modDomain_signals : (s.modDomain n f).signals = s.signals := rfl
@[simp] theorem State.modDomain_tlbis : (s.modDomain n f).tlbis = s.tlbis := rfl
@[simp] theorem State.modDomain_mailbox : (s.modDomain n f).mailbox = s.mailbox := rfl
@[simp] theorem State.modDomain_apbase : (s.modDomain n f).apbase = s.apbase := rfl
@[simp] theorem State.modDomain_pages : (s.modDomain n f).pages = s.pages := rfl
@[simp] theorem State.modDomain_mram : (s.modDomain n f).mram = s.mram := rfl
@[simp] theorem State.modDomain_counters : (s.modDomain n f).counters = s.counters := rfl
@[simp] theorem State.modDomain_boot : (s.modDomain n f).boot = s.boot := rfl
@[simp] theorem State.modDomain_bootCount : (s.modDomain n f).bootCount = s.bootCount := rfl
@[simp] theorem State.modDomain_limit : (s.modDomain n f).limit = s.limit := rfl
@[simp] theorem State.modDomain_measurements : (s.modDomain n f).measurements = s.measurements := rfl
@[simp] theorem State.modDomain_pldm : (s.modDomain n f).pldm = s.pldm := rfl
@[simp] theorem State.modDomain_out : (s.modDomain n f).out = s.out := rfl
end

section
variable (s : State) (n : Nat) (f : Op → Op)
@[simp] theorem State.modOp_cycle : (s.modOp n f).cycle = s.cycle := rfl
@[simp] theorem State.modOp_tick : (s.modOp n f).tick = s.tick := rfl
@[simp] theorem State.modOp_frac : (s.modOp n f).frac = s.frac := rfl
@[simp] theorem State.modOp_stretched : (s.modOp n f).stretched = s.stretched := rfl
@[simp] theorem State.modOp_turn : (s.modOp n f).turn = s.turn := rfl
@[simp] theorem State.modOp_nonce : (s.modOp n f).nonce = s.nonce := rfl
@[simp] theorem State.modOp_opNum : (s.modOp n f).opNum = s.opNum := rfl
@[simp] theorem State.modOp_inbox : (s.modOp n f).inbox = s.inbox := rfl
@[simp] theorem State.modOp_timers : (s.modOp n f).timers = s.timers := rfl
@[simp] theorem State.modOp_cur : (s.modOp n f).cur = s.cur := rfl
@[simp] theorem State.modOp_took : (s.modOp n f).took = s.took := rfl
@[simp] theorem State.modOp_xm : (s.modOp n f).xm = s.xm := rfl
@[simp] theorem State.modOp_mem : (s.modOp n f).mem = s.mem := rfl
@[simp] theorem State.modOp_ctxs : (s.modOp n f).ctxs = s.ctxs := rfl
@[simp] theorem State.modOp_teams : (s.modOp n f).teams = s.teams := rfl
@[simp] theorem State.modOp_launches : (s.modOp n f).launches = s.launches := rfl
@[simp] theorem State.modOp_launchCtr : (s.modOp n f).launchCtr = s.launchCtr := rfl
@[simp] theorem State.modOp_cores : (s.modOp n f).cores = s.cores := rfl
@[simp] theorem State.modOp_galley : (s.modOp n f).galley = s.galley := rfl
@[simp] theorem State.modOp_effects : (s.modOp n f).effects = s.effects := rfl
@[simp] theorem State.modOp_pvCache : (s.modOp n f).pvCache = s.pvCache := rfl
@[simp] theorem State.modOp_bad : (s.modOp n f).bad = s.bad := rfl
@[simp] theorem State.modOp_dies : (s.modOp n f).dies = s.dies := rfl
@[simp] theorem State.modOp_contexts : (s.modOp n f).contexts = s.contexts := rfl
@[simp] theorem State.modOp_queues : (s.modOp n f).queues = s.queues := rfl
@[simp] theorem State.modOp_pbars : (s.modOp n f).pbars = s.pbars := rfl
@[simp] theorem State.modOp_domains : (s.modOp n f).domains = s.domains := rfl
@[simp] theorem State.modOp_saved : (s.modOp n f).saved = s.saved := rfl
@[simp] theorem State.modOp_retained : (s.modOp n f).retained = s.retained := rfl
@[simp] theorem State.modOp_signals : (s.modOp n f).signals = s.signals := rfl
@[simp] theorem State.modOp_tlbis : (s.modOp n f).tlbis = s.tlbis := rfl
@[simp] theorem State.modOp_mailbox : (s.modOp n f).mailbox = s.mailbox := rfl
@[simp] theorem State.modOp_apbase : (s.modOp n f).apbase = s.apbase := rfl
@[simp] theorem State.modOp_pages : (s.modOp n f).pages = s.pages := rfl
@[simp] theorem State.modOp_mram : (s.modOp n f).mram = s.mram := rfl
@[simp] theorem State.modOp_counters : (s.modOp n f).counters = s.counters := rfl
@[simp] theorem State.modOp_boot : (s.modOp n f).boot = s.boot := rfl
@[simp] theorem State.modOp_bootCount : (s.modOp n f).bootCount = s.bootCount := rfl
@[simp] theorem State.modOp_limit : (s.modOp n f).limit = s.limit := rfl
@[simp] theorem State.modOp_measurements : (s.modOp n f).measurements = s.measurements := rfl
@[simp] theorem State.modOp_pldm : (s.modOp n f).pldm = s.pldm := rfl
@[simp] theorem State.modOp_out : (s.modOp n f).out = s.out := rfl
end

section
variable (s : State) (i : Instr)
@[simp] theorem State.later_cycle : (s.later i).cycle = s.cycle := rfl
@[simp] theorem State.later_tick : (s.later i).tick = s.tick := rfl
@[simp] theorem State.later_frac : (s.later i).frac = s.frac := rfl
@[simp] theorem State.later_stretched : (s.later i).stretched = s.stretched := rfl
@[simp] theorem State.later_turn : (s.later i).turn = s.turn := rfl
@[simp] theorem State.later_opNum : (s.later i).opNum = s.opNum := rfl
@[simp] theorem State.later_inbox : (s.later i).inbox = s.inbox := rfl
@[simp] theorem State.later_cur : (s.later i).cur = s.cur := rfl
@[simp] theorem State.later_took : (s.later i).took = s.took := rfl
@[simp] theorem State.later_xm : (s.later i).xm = s.xm := rfl
@[simp] theorem State.later_mem : (s.later i).mem = s.mem := rfl
@[simp] theorem State.later_ctxs : (s.later i).ctxs = s.ctxs := rfl
@[simp] theorem State.later_teams : (s.later i).teams = s.teams := rfl
@[simp] theorem State.later_launches : (s.later i).launches = s.launches := rfl
@[simp] theorem State.later_launchCtr : (s.later i).launchCtr = s.launchCtr := rfl
@[simp] theorem State.later_cores : (s.later i).cores = s.cores := rfl
@[simp] theorem State.later_ops : (s.later i).ops = s.ops := rfl
@[simp] theorem State.later_galley : (s.later i).galley = s.galley := rfl
@[simp] theorem State.later_effects : (s.later i).effects = s.effects := rfl
@[simp] theorem State.later_pvCache : (s.later i).pvCache = s.pvCache := rfl
@[simp] theorem State.later_bad : (s.later i).bad = s.bad := rfl
@[simp] theorem State.later_dies : (s.later i).dies = s.dies := rfl
@[simp] theorem State.later_contexts : (s.later i).contexts = s.contexts := rfl
@[simp] theorem State.later_queues : (s.later i).queues = s.queues := rfl
@[simp] theorem State.later_pbars : (s.later i).pbars = s.pbars := rfl
@[simp] theorem State.later_domains : (s.later i).domains = s.domains := rfl
@[simp] theorem State.later_saved : (s.later i).saved = s.saved := rfl
@[simp] theorem State.later_retained : (s.later i).retained = s.retained := rfl
@[simp] theorem State.later_signals : (s.later i).signals = s.signals := rfl
@[simp] theorem State.later_tlbis : (s.later i).tlbis = s.tlbis := rfl
@[simp] theorem State.later_mailbox : (s.later i).mailbox = s.mailbox := rfl
@[simp] theorem State.later_apbase : (s.later i).apbase = s.apbase := rfl
@[simp] theorem State.later_pages : (s.later i).pages = s.pages := rfl
@[simp] theorem State.later_mram : (s.later i).mram = s.mram := rfl
@[simp] theorem State.later_counters : (s.later i).counters = s.counters := rfl
@[simp] theorem State.later_boot : (s.later i).boot = s.boot := rfl
@[simp] theorem State.later_bootCount : (s.later i).bootCount = s.bootCount := rfl
@[simp] theorem State.later_limit : (s.later i).limit = s.limit := rfl
@[simp] theorem State.later_measurements : (s.later i).measurements = s.measurements := rfl
@[simp] theorem State.later_pldm : (s.later i).pldm = s.pldm := rfl
@[simp] theorem State.later_out : (s.later i).out = s.out := rfl
end

section
variable (s : State) (c : Nat) (i : Instr)
@[simp] theorem State.at__cycle : (s.at_ c i).cycle = s.cycle := rfl
@[simp] theorem State.at__tick : (s.at_ c i).tick = s.tick := rfl
@[simp] theorem State.at__frac : (s.at_ c i).frac = s.frac := rfl
@[simp] theorem State.at__stretched : (s.at_ c i).stretched = s.stretched := rfl
@[simp] theorem State.at__turn : (s.at_ c i).turn = s.turn := rfl
@[simp] theorem State.at__nonce : (s.at_ c i).nonce = s.nonce := rfl
@[simp] theorem State.at__opNum : (s.at_ c i).opNum = s.opNum := rfl
@[simp] theorem State.at__inbox : (s.at_ c i).inbox = s.inbox := rfl
@[simp] theorem State.at__cur : (s.at_ c i).cur = s.cur := rfl
@[simp] theorem State.at__took : (s.at_ c i).took = s.took := rfl
@[simp] theorem State.at__xm : (s.at_ c i).xm = s.xm := rfl
@[simp] theorem State.at__mem : (s.at_ c i).mem = s.mem := rfl
@[simp] theorem State.at__ctxs : (s.at_ c i).ctxs = s.ctxs := rfl
@[simp] theorem State.at__teams : (s.at_ c i).teams = s.teams := rfl
@[simp] theorem State.at__launches : (s.at_ c i).launches = s.launches := rfl
@[simp] theorem State.at__launchCtr : (s.at_ c i).launchCtr = s.launchCtr := rfl
@[simp] theorem State.at__cores : (s.at_ c i).cores = s.cores := rfl
@[simp] theorem State.at__ops : (s.at_ c i).ops = s.ops := rfl
@[simp] theorem State.at__galley : (s.at_ c i).galley = s.galley := rfl
@[simp] theorem State.at__effects : (s.at_ c i).effects = s.effects := rfl
@[simp] theorem State.at__pvCache : (s.at_ c i).pvCache = s.pvCache := rfl
@[simp] theorem State.at__bad : (s.at_ c i).bad = s.bad := rfl
@[simp] theorem State.at__dies : (s.at_ c i).dies = s.dies := rfl
@[simp] theorem State.at__contexts : (s.at_ c i).contexts = s.contexts := rfl
@[simp] theorem State.at__queues : (s.at_ c i).queues = s.queues := rfl
@[simp] theorem State.at__pbars : (s.at_ c i).pbars = s.pbars := rfl
@[simp] theorem State.at__domains : (s.at_ c i).domains = s.domains := rfl
@[simp] theorem State.at__saved : (s.at_ c i).saved = s.saved := rfl
@[simp] theorem State.at__retained : (s.at_ c i).retained = s.retained := rfl
@[simp] theorem State.at__signals : (s.at_ c i).signals = s.signals := rfl
@[simp] theorem State.at__tlbis : (s.at_ c i).tlbis = s.tlbis := rfl
@[simp] theorem State.at__mailbox : (s.at_ c i).mailbox = s.mailbox := rfl
@[simp] theorem State.at__apbase : (s.at_ c i).apbase = s.apbase := rfl
@[simp] theorem State.at__pages : (s.at_ c i).pages = s.pages := rfl
@[simp] theorem State.at__mram : (s.at_ c i).mram = s.mram := rfl
@[simp] theorem State.at__counters : (s.at_ c i).counters = s.counters := rfl
@[simp] theorem State.at__boot : (s.at_ c i).boot = s.boot := rfl
@[simp] theorem State.at__bootCount : (s.at_ c i).bootCount = s.bootCount := rfl
@[simp] theorem State.at__limit : (s.at_ c i).limit = s.limit := rfl
@[simp] theorem State.at__measurements : (s.at_ c i).measurements = s.measurements := rfl
@[simp] theorem State.at__pldm : (s.at_ c i).pldm = s.pldm := rfl
@[simp] theorem State.at__out : (s.at_ c i).out = s.out := rfl
end

section
variable (s : State) (m : OutMsg)
@[simp] theorem State.say_cycle : (s.say m).cycle = s.cycle := rfl
@[simp] theorem State.say_tick : (s.say m).tick = s.tick := rfl
@[simp] theorem State.say_frac : (s.say m).frac = s.frac := rfl
@[simp] theorem State.say_stretched : (s.say m).stretched = s.stretched := rfl
@[simp] theorem State.say_turn : (s.say m).turn = s.turn := rfl
@[simp] theorem State.say_nonce : (s.say m).nonce = s.nonce := rfl
@[simp] theorem State.say_opNum : (s.say m).opNum = s.opNum := rfl
@[simp] theorem State.say_inbox : (s.say m).inbox = s.inbox := rfl
@[simp] theorem State.say_timers : (s.say m).timers = s.timers := rfl
@[simp] theorem State.say_cur : (s.say m).cur = s.cur := rfl
@[simp] theorem State.say_took : (s.say m).took = s.took := rfl
@[simp] theorem State.say_xm : (s.say m).xm = s.xm := rfl
@[simp] theorem State.say_mem : (s.say m).mem = s.mem := rfl
@[simp] theorem State.say_ctxs : (s.say m).ctxs = s.ctxs := rfl
@[simp] theorem State.say_teams : (s.say m).teams = s.teams := rfl
@[simp] theorem State.say_launches : (s.say m).launches = s.launches := rfl
@[simp] theorem State.say_launchCtr : (s.say m).launchCtr = s.launchCtr := rfl
@[simp] theorem State.say_cores : (s.say m).cores = s.cores := rfl
@[simp] theorem State.say_ops : (s.say m).ops = s.ops := rfl
@[simp] theorem State.say_galley : (s.say m).galley = s.galley := rfl
@[simp] theorem State.say_effects : (s.say m).effects = s.effects := rfl
@[simp] theorem State.say_pvCache : (s.say m).pvCache = s.pvCache := rfl
@[simp] theorem State.say_bad : (s.say m).bad = s.bad := rfl
@[simp] theorem State.say_dies : (s.say m).dies = s.dies := rfl
@[simp] theorem State.say_contexts : (s.say m).contexts = s.contexts := rfl
@[simp] theorem State.say_queues : (s.say m).queues = s.queues := rfl
@[simp] theorem State.say_pbars : (s.say m).pbars = s.pbars := rfl
@[simp] theorem State.say_domains : (s.say m).domains = s.domains := rfl
@[simp] theorem State.say_saved : (s.say m).saved = s.saved := rfl
@[simp] theorem State.say_retained : (s.say m).retained = s.retained := rfl
@[simp] theorem State.say_signals : (s.say m).signals = s.signals := rfl
@[simp] theorem State.say_tlbis : (s.say m).tlbis = s.tlbis := rfl
@[simp] theorem State.say_mailbox : (s.say m).mailbox = s.mailbox := rfl
@[simp] theorem State.say_apbase : (s.say m).apbase = s.apbase := rfl
@[simp] theorem State.say_pages : (s.say m).pages = s.pages := rfl
@[simp] theorem State.say_mram : (s.say m).mram = s.mram := rfl
@[simp] theorem State.say_counters : (s.say m).counters = s.counters := rfl
@[simp] theorem State.say_boot : (s.say m).boot = s.boot := rfl
@[simp] theorem State.say_bootCount : (s.say m).bootCount = s.bootCount := rfl
@[simp] theorem State.say_limit : (s.say m).limit = s.limit := rfl
@[simp] theorem State.say_measurements : (s.say m).measurements = s.measurements := rfl
@[simp] theorem State.say_pldm : (s.say m).pldm = s.pldm := rfl
end

section
variable (s : State) (n : Nat)
@[simp] theorem State.passCycles_stretched : (s.passCycles n).stretched = s.stretched := rfl
@[simp] theorem State.passCycles_turn : (s.passCycles n).turn = s.turn := rfl
@[simp] theorem State.passCycles_nonce : (s.passCycles n).nonce = s.nonce := rfl
@[simp] theorem State.passCycles_opNum : (s.passCycles n).opNum = s.opNum := rfl
@[simp] theorem State.passCycles_inbox : (s.passCycles n).inbox = s.inbox := rfl
@[simp] theorem State.passCycles_timers : (s.passCycles n).timers = s.timers := rfl
@[simp] theorem State.passCycles_cur : (s.passCycles n).cur = s.cur := rfl
@[simp] theorem State.passCycles_took : (s.passCycles n).took = s.took := rfl
@[simp] theorem State.passCycles_xm : (s.passCycles n).xm = s.xm := rfl
@[simp] theorem State.passCycles_mem : (s.passCycles n).mem = s.mem := rfl
@[simp] theorem State.passCycles_ctxs : (s.passCycles n).ctxs = s.ctxs := rfl
@[simp] theorem State.passCycles_teams : (s.passCycles n).teams = s.teams := rfl
@[simp] theorem State.passCycles_launches : (s.passCycles n).launches = s.launches := rfl
@[simp] theorem State.passCycles_launchCtr : (s.passCycles n).launchCtr = s.launchCtr := rfl
@[simp] theorem State.passCycles_cores : (s.passCycles n).cores = s.cores := rfl
@[simp] theorem State.passCycles_ops : (s.passCycles n).ops = s.ops := rfl
@[simp] theorem State.passCycles_galley : (s.passCycles n).galley = s.galley := rfl
@[simp] theorem State.passCycles_effects : (s.passCycles n).effects = s.effects := rfl
@[simp] theorem State.passCycles_pvCache : (s.passCycles n).pvCache = s.pvCache := rfl
@[simp] theorem State.passCycles_bad : (s.passCycles n).bad = s.bad := rfl
@[simp] theorem State.passCycles_dies : (s.passCycles n).dies = s.dies := rfl
@[simp] theorem State.passCycles_contexts : (s.passCycles n).contexts = s.contexts := rfl
@[simp] theorem State.passCycles_queues : (s.passCycles n).queues = s.queues := rfl
@[simp] theorem State.passCycles_pbars : (s.passCycles n).pbars = s.pbars := rfl
@[simp] theorem State.passCycles_domains : (s.passCycles n).domains = s.domains := rfl
@[simp] theorem State.passCycles_saved : (s.passCycles n).saved = s.saved := rfl
@[simp] theorem State.passCycles_retained : (s.passCycles n).retained = s.retained := rfl
@[simp] theorem State.passCycles_signals : (s.passCycles n).signals = s.signals := rfl
@[simp] theorem State.passCycles_tlbis : (s.passCycles n).tlbis = s.tlbis := rfl
@[simp] theorem State.passCycles_mailbox : (s.passCycles n).mailbox = s.mailbox := rfl
@[simp] theorem State.passCycles_apbase : (s.passCycles n).apbase = s.apbase := rfl
@[simp] theorem State.passCycles_pages : (s.passCycles n).pages = s.pages := rfl
@[simp] theorem State.passCycles_mram : (s.passCycles n).mram = s.mram := rfl
@[simp] theorem State.passCycles_counters : (s.passCycles n).counters = s.counters := rfl
@[simp] theorem State.passCycles_boot : (s.passCycles n).boot = s.boot := rfl
@[simp] theorem State.passCycles_bootCount : (s.passCycles n).bootCount = s.bootCount := rfl
@[simp] theorem State.passCycles_limit : (s.passCycles n).limit = s.limit := rfl
@[simp] theorem State.passCycles_measurements : (s.passCycles n).measurements = s.measurements := rfl
@[simp] theorem State.passCycles_pldm : (s.passCycles n).pldm = s.pldm := rfl
@[simp] theorem State.passCycles_out : (s.passCycles n).out = s.out := rfl
end

end Sys2Proof.Machine
end

