-- ==== Sys2Proof/Laws/Contexts.lean ====
section
/-! SUPPORT. Lists of pairs, and the contexts of a state after an update. -/

namespace Sys2Proof.Machine

/-! Pairs -/

theorem get?_put {κ α : Type} [DecidableEq κ] (k j : κ) (v : α) (l : List (κ × α)) :
    get? j (put k v l) = if j = k then some v else get? j l := by
  induction l with
  | nil => simp only [put, get?]; grind
  | cons e r ih => simp only [put]; split <;> simp only [get?] <;> grind

/-- A value changed under some keys. -/
theorem get?_map {κ α : Type} [DecidableEq κ] (p : κ → Prop) [DecidablePred p] (f : α → α) (k : κ) (l : List (κ × α)) :
    get? k (l.map (fun e => if p e.1 then (e.1, f e.2) else e)) = (get? k l).map (fun x => if p k then f x else x) := by
  induction l with
  | nil => rfl
  | cons e r ih => simp only [List.map_cons, get?, ih]; grind

theorem mem_distinct {α : Type} [DecidableEq α] (l : List α) (x : α) : x ∈ distinct l ↔ x ∈ l := by
  have h : ∀ (l r : List α), x ∈ l.foldl (fun r x => if r.contains x then r else r ++ [x]) r ↔ x ∈ r ∨ x ∈ l := by
    intro l
    induction l with
    | nil => simp
    | cons y l ih => intro r; simp only [List.foldl_cons, ih]; grind
  simpa [distinct] using h l []

theorem distinct_nodup {α : Type} [DecidableEq α] (l : List α) : (distinct l).Nodup := by
  have h : ∀ (l r : List α), r.Nodup → (l.foldl (fun r x => if r.contains x then r else r ++ [x]) r).Nodup := by
    intro l
    induction l with
    | nil => simp
    | cons y l ih =>
      intro r hr
      simp only [List.foldl_cons]
      apply ih
      split
      · exact hr
      · next h => grind [List.nodup_append]
  exact h l [] List.nodup_nil

/-! Contexts -/

section
variable (s : State) (c o : CtxId) (cs : List CtxId) (f : Ctx → Ctx)

@[simp] theorem State.hasCtx_modCtxs : (s.modCtxs cs f).hasCtx o = s.hasCtx o := by
  simp [State.hasCtx, State.modCtxs, get?_map (fun k => k ∈ cs)]
@[simp] theorem State.hasCtx_modCtx : (s.modCtx c f).hasCtx o = s.hasCtx o := by
  simp [State.hasCtx, State.modCtx, get?_map (fun k => k = c)]

/-- A context after an update of some contexts. -/
theorem State.ctx_modCtxs : (s.modCtxs cs f).ctx o = if o ∈ cs ∧ s.hasCtx o = true then f (s.ctx o) else s.ctx o := by
  simp only [State.ctx, State.hasCtx, State.modCtxs, get?_map (fun k => k ∈ cs)]
  rcases Option.eq_none_or_eq_some (get? o s.ctxs) with h | ⟨x, h⟩ <;> simp [h]
theorem State.ctx_modCtx : (s.modCtx c f).ctx o = if o = c ∧ s.hasCtx o = true then f (s.ctx o) else s.ctx o := by
  simp only [State.ctx, State.hasCtx, State.modCtx, get?_map (fun k => k = c)]
  rcases Option.eq_none_or_eq_some (get? o s.ctxs) with h | ⟨x, h⟩ <;> simp [h]

end

/-- Only the contexts of a state change in an update of contexts. -/
theorem State.modCtxs_rest (s : State) (cs : List CtxId) (f : Ctx → Ctx) : s.modCtxs cs f = { s with ctxs := (s.modCtxs cs f).ctxs } := rfl

/-- A context after the writes of an instruction: those that fall to it, all at once. -/
theorem writeAll_ctx (s : State) (ws : List (CtxId × Loc × Word)) (f : Ctx → List (Loc × Word) → Ctx) (o : CtxId) :
    (writeAll s ws f).ctx o = (if o ∈ ownersOf ws ∧ s.hasCtx o = true then
      f (if logged o then (s.ctx o).note (writesOf o ws) else s.ctx o) (writesOf o ws) else s.ctx o)
    ∧ (writeAll s ws f).hasCtx o = s.hasCtx o := by
  have h : ∀ (l : List CtxId) (s : State), l.Nodup →
      (l.foldl (fun s c => s.modCtx c (fun x => f (if logged c then x.note (writesOf c ws) else x) (writesOf c ws))) s).ctx o
        = (if o ∈ l ∧ s.hasCtx o = true then f (if logged o then (s.ctx o).note (writesOf o ws) else s.ctx o) (writesOf o ws)
            else s.ctx o)
      ∧ (l.foldl (fun s c => s.modCtx c (fun x => f (if logged c then x.note (writesOf c ws) else x) (writesOf c ws))) s).hasCtx o
        = s.hasCtx o := by
    intro l
    induction l with
    | nil => simp
    | cons c l ih =>
      intro s hn
      rw [List.nodup_cons] at hn
      have := ih (s.modCtx c (fun x => f (if logged c then x.note (writesOf c ws) else x) (writesOf c ws))) hn.2
      simp only [List.foldl_cons, this, State.hasCtx_modCtx, State.ctx_modCtx, List.mem_cons]
      grind
  exact h _ s (distinct_nodup _)

/-- The writes of an instruction change contexts only. -/
theorem writeAll_rest (s : State) (ws : List (CtxId × Loc × Word)) (f : Ctx → List (Loc × Word) → Ctx) :
    writeAll s ws f = { s with ctxs := (writeAll s ws f).ctxs } := by
  have h : ∀ (l : List CtxId) (s : State) (g : CtxId → Ctx → Ctx),
      l.foldl (fun s c => s.modCtx c (g c)) s = { s with ctxs := (l.foldl (fun s c => s.modCtx c (g c)) s).ctxs } := by
    intro l
    induction l with
    | nil => intro s g; rfl
    | cons c l ih => intro s g; simp only [List.foldl_cons]; rw [ih]; rfl
  exact h _ s (fun c x => f (if logged c then x.note (writesOf c ws) else x) (writesOf c ws))

end Sys2Proof.Machine
end

