-- ==== Sys2Proof/Laws/Issue.lean ====
section
/-! SUPPORT. The issue of an instruction: what `issue` answers for each answer of the body. -/

namespace Sys2Proof.Machine

variable {s : State} {c : CtxId} {h : Head} {how : How} {body : Env → State → Res}

/-- A unit that may issue runs the body in the state it has entered. -/
theorem issue_entered (H : Issues s c h how) : issue h how body s = ended (issueBody h how c body (entered s c h)) := by
  obtain ⟨h1, h2, h3, h4, h5, h6, -, -, -⟩ := H
  have h5' : (unitOf s c).any (fun u => windowShut ((s.modCtxs (unitOf s c) (fun x => (x.settle s.cycle).collect)).ctx u)) = false := h5
  unfold issue
  simp only [h1, h2, h3, h4, Bool.not_true, Bool.false_eq_true, if_false, h5']
  by_cases hj : joins s c h = true
  · obtain ⟨a, b⟩ := h6 hj
    have hj' : (h.join && h.scope.level == 1
      && !((s.modCtxs (unitOf s c) (fun x => (x.settle s.cycle).collect)).ctx c).joined) = true := hj
    have a' : joinFault (s.modCtxs (unitOf s c) (fun x => (x.settle s.cycle).collect)) (unitOf s c) = false := a
    have b' : joinSwitches (s.modCtxs (unitOf s c) (fun x => (x.settle s.cycle).collect)) (unitOf s c) = false := b
    simp only [hj', if_true, a', b', Bool.false_eq_true, if_false, entered, hj, settled]
  · have hj' : (h.join && h.scope.level == 1
      && !((s.modCtxs (unitOf s c) (fun x => (x.settle s.cycle).collect)).ctx c).joined) = false := Bool.not_eq_true _ ▸ hj
    have : joins s c h = false := by simpa using hj
    simp only [hj', Bool.false_eq_true, if_false, entered, this, settled]

/-- None of the bars of `issueBody` stands in the way. -/
theorem issues_passes (H : Issues s c h how) :
    (how.noHandler && inHandler (entered s c h) c) = false
    ∧ (how.varying && varFull (entered s c h) (unitOf (entered s c h) c)) = false
    ∧ (how.anchored && !((entered s c h).ctx c).tickets.isEmpty) = false := by
  obtain ⟨-, -, -, -, -, -, h7, h8, h9⟩ := H
  refine ⟨?_, ?_, ?_⟩
  · cases hn : how.noHandler <;> simp_all
  · cases hv : how.varying
    · rfl
    · simpa using h8 hv
  · cases ha : how.anchored
    · rfl
    · simp [h9 ha]

/-- The body runs for the participants, if there are any. -/
theorem issueBody_entered (H : Issues s c h how) (hp : (envAt s c h how.raw).parts ≠ [] ∨ how.raw = true) :
    issueBody h how c body (entered s c h) =
      (match body (envAt s c h how.raw) (entered s c h) with
      | .next t => retire t (envAt s c h how.raw) (varIds (entered s c h) (unitOf (entered s c h) c)) true
      | .jump t => retire t (envAt s c h how.raw) (varIds (entered s c h) (unitOf (entered s c h) c)) false
      | .done t => { t with took := .issued }
      | .stall t w => stand (unmade (entered s c h) t) (envAt s c h how.raw) w
      | .hold t => { t with took := .stalled }
      | .trap t f => faultAt (unmade (entered s c h) t) (envAt s c h how.raw) f
      | .raised t => t
      | .gone t => { t with took := .gone }) := by
  obtain ⟨a, b, d⟩ := issues_passes H
  have g : ((envAt s c h how.raw).parts.isEmpty && !how.raw) = false := by
    rcases hp with hp | hp
    · cases hh : (envAt s c h how.raw).parts <;> simp_all
    · simp [hp]
  unfold issueBody
  simp only [a, b, d, Bool.false_eq_true, if_false]
  simp only [envAt] at g
  simp only [g, Bool.false_eq_true, if_false, envAt] <;> rfl

/-- No participant: nothing is done (R44, R125), but for the count of an effect instruction (R288). -/
theorem issueBody_none (H : Issues s c h how) (hp : (envAt s c h false).parts = []) (hr : how.raw = false) :
    issueBody h how c body (entered s c h) =
      retire (guardedOff (entered s c h) how (envAt s c h false).unit) (envAt s c h false) (varIds (entered s c h) (unitOf (entered s c h) c)) true := by
  obtain ⟨a, b, d⟩ := issues_passes H
  unfold issueBody
  simp only [a, b, d, Bool.false_eq_true, if_false]
  simp only [envAt, Bool.false_eq_true, if_false] at hp
  simp [hr, hp, envAt]

theorem retire_took (s : State) (e : Env) (ids : List Nat) (a : Bool) : (retire s e ids a).took = .issued := rfl
theorem ended_retire (s : State) (e : Env) (ids : List Nat) (a : Bool) : ended (retire s e ids a) = .next (retire s e ids a) := by
  simp [ended, retire_took]

/-- An instruction whose body answers a next state issues. -/
theorem issue_next {t : State} (H : Issues s c h how) (hp : (envAt s c h how.raw).parts ≠ [] ∨ how.raw = true)
    (hb : body (envAt s c h how.raw) (entered s c h) = .next t) :
    issue h how body s = .next (retire t (envAt s c h how.raw) (varIds (entered s c h) (unitOf (entered s c h) c)) true) := by
  rw [issue_entered H, issueBody_entered H hp, hb]; exact ended_retire _ _ _ _
/-- An instruction whose body sets the PCs issues. -/
theorem issue_jump {t : State} (H : Issues s c h how) (hp : (envAt s c h how.raw).parts ≠ [] ∨ how.raw = true)
    (hb : body (envAt s c h how.raw) (entered s c h) = .jump t) :
    issue h how body s = .next (retire t (envAt s c h how.raw) (varIds (entered s c h) (unitOf (entered s c h) c)) false) := by
  rw [issue_entered H, issueBody_entered H hp, hb]; exact ended_retire _ _ _ _
theorem issue_done {t : State} (H : Issues s c h how) (hp : (envAt s c h how.raw).parts ≠ [] ∨ how.raw = true)
    (hb : body (envAt s c h how.raw) (entered s c h) = .done t) :
    issue h how body s = .next { t with took := .issued } := by
  rw [issue_entered H, issueBody_entered H hp, hb]; rfl
theorem issue_hold {t : State} (H : Issues s c h how) (hp : (envAt s c h how.raw).parts ≠ [] ∨ how.raw = true)
    (hb : body (envAt s c h how.raw) (entered s c h) = .hold t) :
    issue h how body s = .next { t with took := .stalled } := by
  rw [issue_entered H, issueBody_entered H hp, hb]; rfl
/-- An instruction without participants issues and has no effect. -/
theorem issue_none (H : Issues s c h how) (hp : (envAt s c h false).parts = []) (hr : how.raw = false) :
    issue h how body s =
      .next (retire (guardedOff (entered s c h) how (envAt s c h false).unit) (envAt s c h false) (varIds (entered s c h) (unitOf (entered s c h) c)) true) := by
  rw [issue_entered H, issueBody_none H hp hr]; exact ended_retire _ _ _ _

/-- An instruction whose body answers a next state, with participants, issues to it. -/
theorem issuesTo_next {i : Instr} {t : State} (hi : exec i s = issue h how body s) (H : Issues s c h how) (hr : how.raw = false)
    (hp : (envAt s c h false).parts ≠ []) (hb : body (envAt s c h false) (entered s c h) = .next t) :
    IssuesTo i s c h false true t := by
  have := issue_next (t := t) H (Or.inl (by rw [hr]; exact hp)) (by rw [hr]; exact hb)
  unfold IssuesTo
  rw [hi, this, hr]
/-- One whose body sets the PCs. -/
theorem issuesTo_jump {i : Instr} {t : State} (hi : exec i s = issue h how body s) (H : Issues s c h how)
    (hp : (envAt s c h how.raw).parts ≠ [] ∨ how.raw = true) (hb : body (envAt s c h how.raw) (entered s c h) = .jump t) :
    IssuesTo i s c h how.raw false t := by
  unfold IssuesTo
  rw [hi, issue_jump H hp hb]
/-- One without participants. -/
theorem issuesTo_none {i : Instr} (hi : exec i s = issue h how body s) (H : Issues s c h how) (hr : how.raw = false)
    (hp : (envAt s c h false).parts = []) :
    IssuesTo i s c h false true (guardedOff (entered s c h) how (envAt s c h false).unit) := by
  unfold IssuesTo
  rw [hi, issue_none H hp hr]

end Sys2Proof.Machine
end

