-- ==== Sys2Proof/Laws/Coded.lean ====
section
/-! SUPPORT. Every coded instruction runs through `issue`, with the head that its fields carry. -/

namespace Sys2Proof.Machine

theorem headOf_mk (h : Head) (op mod : Nat) (d a : BitVec 11) (fm : Bool) (x : BitVec 32) : headOf (mk h op mod d a fm x) = some h := by
  obtain ⟨sc, ⟨neg, p⟩, join, ⟨yld, gap, la⟩⟩ := h
  have h1 : scopeOf (BitVec.ofNat 3 sc.code).toNat = some sc := by cases sc <;> rfl
  have h2 : (BitVec.ofBool neg ++ p).getLsbD 3 = neg := by revert neg p; decide
  have h3 : (BitVec.ofBool neg ++ p).extractLsb' 0 3 = p := by revert neg p; decide
  have h4 : (BitVec.ofBool join ++ BitVec.ofNat 15 mod).getLsbD 15 = join := by
    rw [BitVec.getLsbD_append]
    cases join <;> rfl
  simp only [headOf, mk, h1, Option.map_some, Fields.mb, h2, h3, h4]

theorem headOf_fr (h : Head) (op mod : Nat) (d a b c : BitVec 11) : headOf (fr h op mod d a b c) = some h := headOf_mk ..
theorem headOf_fi (h : Head) (op mod : Nat) (d a : BitVec 11) (x : Word) : headOf (fi h op mod d a x) = some h := headOf_mk ..
theorem headOf_fs (h : Head) (op mod : Nat) (d a : BitVec 11) (b : Src) (c : BitVec 11) : headOf (fs h op mod d a b c) = some h := by
  cases b <;> exact headOf_mk ..
theorem headOf_fa (h : Head) (op mod : Nat) (d : BitVec 11) (a : Src) : headOf (fa h op mod d a) = some h := by
  cases a <;> exact headOf_mk ..

/-- Whether an instruction decides slice by slice at S scope (R97). -/
def slicewise : Instr → Bool
  | .bra .. | .br .. | .brx .. | .call .. | .callx .. | .ret .. | .loop .. => true
  | _ => false

theorem exec_issue {i : Instr} {h : Head} (hi : i.fields.bind headOf = some h) :
    ∃ how body, (∀ s, exec i s = issue h how body s) ∧ (how.raw = true → slicewise i = true ∧ h.scope = .S) := by
  cases i with
  | mov k d a =>
    have : h = k := by simpa [Instr.fields, fr, headOf_mk] using hi.symm
    subst this
    by_cases hq : ∃ m n, d = .h m ∧ a = .h n
    · obtain ⟨m, n, rfl, rfl⟩ := hq
      exact ⟨_, _, fun _ => rfl, by simp⟩
    · refine ⟨{ anchored := namesQueue [d] [.reg a 1] }, pureBody .fixed [.reg a 1] (fun v => [(d, 1, v.headD 0)]), fun s => ?_, by simp⟩
      show execMov h d a s = _
      unfold execMov
      split
      · exact absurd ⟨_, _, rfl, rfl⟩ hq
      · rfl
  | reduce k ty op d a po =>
    have : h = k := by simpa [Instr.fields, fr, headOf_mk] using hi.symm
    subst this
    by_cases hs : h.scope = .L
    · exact ⟨_, _, fun s => (if_pos hs : _), by simp⟩
    · exact ⟨_, _, fun s => (if_neg hs : _), by simp [upperHow]⟩
  | ballot k d a c =>
    have : h = k := by cases c <;> simpa [Instr.fields, fr, headOf_mk] using hi.symm
    subst this
    by_cases hs : h.scope = .L
    · exact ⟨_, _, fun s => (if_pos hs : _), by simp⟩
    · exact ⟨_, _, fun s => (if_neg hs : _), by simp [upperHow]⟩
  | tile k nr d pd =>
    have : h = k := by simpa [Instr.fields, fr, headOf_mk] using hi.symm
    subst this
    by_cases hs : h.scope = .T
    · refine ⟨sealHow true, sealPoint true nr d pd, fun s => ?_, by simp [sealHow]⟩
      show execTile h nr d pd s = _
      unfold execTile
      rw [hs]
    · refine ⟨{ sealHow true with effect := true }, tileLanes d pd, fun s => ?_, by simp [sealHow]⟩
      show execTile h nr d pd s = _
      unfold execTile
      split
      · exact absurd ‹_› hs
      · rfl
  | cvt k dst src rnd sat sr d a =>
    have : h = k := by cases dst <;> exact (Option.some.inj ((headOf_mk ..).symm.trans hi)).symm
    subst this
    cases sr <;> exact ⟨_, _, fun _ => rfl, by simp⟩
  | pack k f rnd sat sr d a b =>
    have : h = k := by cases b <;> exact (Option.some.inj ((headOf_mk ..).symm.trans hi)).symm
    subst this
    cases sr <;> exact ⟨_, _, fun _ => rfl, by simp⟩
  | accst k addOn f rnd sat sr sp d a b done =>
    have : h = k := by simpa [Instr.fields, fs, fr, headOf_mk] using hi.symm
    subst this
    exact ⟨_, _, fun _ => rfl, by cases addOn <;> simp [effectHow, engineHow]⟩
  | _ =>
    first
    | (cases hi; done)
    | (simp only [Instr.fields, Option.bind_some, headOf_fs, headOf_fr, headOf_fi, headOf_fa, Option.some.injEq] at hi
       subst hi
       exact ⟨_, _, fun _ => rfl, by
         simp [slicewise, branchHow, memHow, loadHow, redHow, atomHow, engineHow, effectHow, upperHow, sealHow]⟩)
/-- Whoever may issue in the strictest way may issue in any. -/
theorem issues_any {s : State} {c : CtxId} {h : Head} {how : How} (H : Issues s c h ⟨true, true, true, false, false⟩) : Issues s c h how :=
  ⟨H.cur, H.alone, H.present, H.serves, H.open_, H.joins, fun _ => H.handler rfl, fun _ => H.room rfl, fun _ => H.anchor rfl⟩

end Sys2Proof.Machine
end

