-- ==== Sys2Proof/Laws/Results.lean ====
section
/-! SUPPORT. Results of register instructions: what a cell reads once they have landed, and what `store` and the retirement leave. -/

namespace Sys2Proof.Machine

/-! Cells behind the results on their way -/

/-- The writes of a list, one after the other, on a value. -/
theorem foldl_lastWord (ws : List (Loc × Word)) (l : Loc) (b : Word) :
    ws.foldl (fun w e => if e.1 = l then e.2 else w) b = (lastWord ws l).getD b := by
  have h : ∀ (ws : List (Loc × Word)) (o : Option Word) (b : Word), ws.foldl (fun w e => if e.1 = l then e.2 else w) (o.getD b)
      = (ws.foldl (fun w e => if e.1 = l then some e.2 else w) o).getD b := by
    intro ws
    induction ws with
    | nil => simp
    | cons e ws ih =>
      intro o b
      simp only [List.foldl_cons]
      rw [← ih]
      by_cases he : e.1 = l <;> simp [he]
  simpa [lastWord] using h ws none b

theorem lastWord_none {ws : List (Loc × Word)} {l : Loc} (h : ∀ e ∈ ws, e.1 ≠ l) : lastWord ws l = none := by
  have : ∀ (ws : List (Loc × Word)), (∀ e ∈ ws, e.1 ≠ l) → ws.foldl (fun w e => if e.1 = l then some e.2 else w) none = none := by
    intro ws
    induction ws with
    | nil => simp
    | cons e ws ih => intro h; simp only [List.mem_cons, forall_eq_or_imp] at h; simp only [List.foldl_cons, h.1, if_false]; exact ih h.2
  exact this ws h

/-- The value behind the variable results, on a value. -/
def varFold (vs : List VarRes) (l : Loc) (b : Word) : Word :=
  vs.foldl (fun w r => (r.writes.foldl (fun w e => if e.1 = l then e.2 else w) w)) b

theorem through_eq (x : Ctx) (l : Loc) :
    x.through l = varFold x.vars l (x.fixed.foldl (fun w e => if e.loc = l then e.val else w) (x.cell l)) := rfl

theorem varFold_free {vs : List VarRes} {l : Loc} (h : ∀ r ∈ vs, ∀ e ∈ r.writes, e.1 ≠ l) (b : Word) : varFold vs l b = b := by
  induction vs generalizing b with
  | nil => rfl
  | cons r vs ih =>
    have hr : lastWord r.writes l = none := lastWord_none (fun e he => h r (by simp) e he)
    have := ih (fun q hq => h q (by simp [hq])) b
    simpa only [varFold, List.foldl_cons, foldl_lastWord, hr, Option.getD_none] using this

theorem cell_congr {x y : Ctx} (h1 : x.lanes = y.lanes) (h2 : x.sc = y.sc) (h3 : x.p = y.p) (h4 : x.lc = y.lc) (l : Loc) :
    x.cell l = y.cell l := by
  cases l <;> simp only [Ctx.cell, h1, h2, h3, h4]

theorem through_congr {x y : Ctx} (h1 : x.lanes = y.lanes) (h2 : x.sc = y.sc) (h3 : x.p = y.p) (h4 : x.lc = y.lc)
    (h5 : x.fixed = y.fixed) (h6 : x.vars = y.vars) (l : Loc) : x.through l = y.through l := by
  rw [through_eq, through_eq, cell_congr h1 h2 h3 h4, h5, h6]

theorem through_note (x : Ctx) (ws : List (Loc × Word)) (l : Loc) : (x.note ws).through l = x.through l := by
  unfold Ctx.note; split <;> rfl

/-- Fixed results on their way (R48). -/
theorem through_delay {x : Ctx} {ws : List (Loc × Word)} (due : Nat) (h : ∀ r ∈ x.vars, ∀ y ∈ r.writes, ∀ w ∈ ws, y.1 ≠ w.1)
    (l : Loc) : (x.delay due ws).through l = (lastWord ws l).getD (x.through l) := by
  have hc : (x.delay due ws).cell l = x.cell l := cell_congr rfl rfl rfl rfl l
  have hf : (x.delay due ws).fixed.foldl (fun w e => if e.loc = l then e.val else w) (x.cell l)
      = (lastWord ws l).getD (x.fixed.foldl (fun w e => if e.loc = l then e.val else w) (x.cell l)) := by
    simp only [Ctx.delay, List.foldl_append, List.foldl_map, foldl_lastWord]
  have hv : (x.delay due ws).vars = x.vars := rfl
  rw [through_eq, through_eq, hc, hf, hv]
  by_cases hl : ∃ w ∈ ws, w.1 = l
  · obtain ⟨w, hw, rfl⟩ := hl
    have hfree : ∀ r ∈ x.vars, ∀ e ∈ r.writes, e.1 ≠ w.1 := fun r hr e he => h r hr e he w hw
    rw [varFold_free hfree, varFold_free hfree]
  · have hn : lastWord ws l = none := lastWord_none (fun e he hx => hl ⟨e, he, hx⟩)
    simp [hn]

/-- A variable result on its way (R50). -/
theorem through_var (x : Ctx) (r : VarRes) (l : Loc) :
    ({ x with vars := x.vars ++ [r] } : Ctx).through l = (lastWord r.writes l).getD (x.through l) := by
  rw [through_eq, through_eq]
  simp only [varFold, List.foldl_append, List.foldl_cons, List.foldl_nil, foldl_lastWord]
  rfl

theorem yieldTo_free {x : Ctx} {ws : List (Loc × Word)} (h : ∀ r ∈ x.vars, ∀ y ∈ r.writes, ∀ w ∈ ws, y.1 ≠ w.1) :
    x.yieldTo ws = x := by
  have : x.vars.filter (fun r => r.arrived && r.writes.any (fun w => ws.any (fun e => e.1 = w.1))) = [] := by
    rw [List.filter_eq_nil_iff]
    intro r hr
    simp only [Bool.and_eq_true, List.any_eq_true, decide_eq_true_eq, not_and, not_exists]
    intro _ y hy w hw he
    exact h r hr y hy w hw he.symm
  simp [Ctx.yieldTo, this]

/-! Emission -/

theorem mem_ownersOf {ws : List (CtxId × Loc × Word)} {o : CtxId} : o ∈ ownersOf ws ↔ ∃ w ∈ ws, w.1 = o := by
  simp [ownersOf, mem_distinct]

theorem mem_writesOf {ws : List (CtxId × Loc × Word)} {o : CtxId} {y : Loc × Word} : y ∈ writesOf o ws ↔ (o, y) ∈ ws := by
  simp [writesOf]

theorem lastWord_other {ws : List (CtxId × Loc × Word)} {o : CtxId} (h : o ∉ ownersOf ws) (l : Loc) :
    lastWord (writesOf o ws) l = none := by
  have : writesOf o ws = [] := by
    simp only [writesOf, List.map_eq_nil_iff, List.filter_eq_nil_iff, decide_eq_true_eq]
    intro w hw he
    exact h (mem_ownersOf.2 ⟨w, hw, he⟩)
  simp [this, lastWord]

/-- A write on its way to free destinations is made. -/
theorem emitWith_clear {u : State} {ws : List (CtxId × Loc × Word)} (H : Clear u ws) (f : State → Ctx → List (Loc × Word) → Ctx) :
    emitWith u ws f = .next (writeAll u ws (fun x v => f u (x.yieldTo v) v)) := by
  obtain ⟨h1, h2, h3⟩ := H
  have a : meetsPending u ws = false := by
    simp only [meetsPending, List.any_eq_false, Bool.and_eq_true, List.any_eq_true, decide_eq_true_eq, not_exists, not_and]
    intro w hw r hr _ y hy he
    exact h2 w hw r hr y hy he
  have b : (ownersOf ws).any (fun c => !logRoom u c (writesOf c ws)) = false := by
    simp only [List.any_eq_false, Bool.not_eq_true', Bool.not_eq_false]
    exact h3
  unfold emitWith
  simp only [h1, a, b, Bool.false_eq_true, if_false]

/-- The contexts that an emission changes, none of whose destinations a variable result is on its way to. -/
theorem emit_ctx {u : State} {ws : List (CtxId × Loc × Word)} (H : Clear u ws) (f : Ctx → List (Loc × Word) → Ctx) (o : CtxId) :
    (writeAll u ws (fun x v => f (x.yieldTo v) v)).ctx o = if o ∈ ownersOf ws ∧ u.hasCtx o = true then
      f (if logged o then (u.ctx o).note (writesOf o ws) else u.ctx o) (writesOf o ws) else u.ctx o := by
  rw [(writeAll_ctx u ws (fun x v => f (x.yieldTo v) v) o).1]
  have hv : ∀ x : Ctx, x = (if logged o then (u.ctx o).note (writesOf o ws) else u.ctx o) → x.vars = (u.ctx o).vars := by
    intro x hx; subst hx; split
    · unfold Ctx.note; split <;> rfl
    · rfl
  have : (if logged o then (u.ctx o).note (writesOf o ws) else u.ctx o).yieldTo (writesOf o ws)
      = (if logged o then (u.ctx o).note (writesOf o ws) else u.ctx o) := by
    apply yieldTo_free
    rw [hv _ rfl]
    intro r hr y hy w hw
    exact H.free (o, w) (mem_writesOf.1 hw) r hr y hy
  simp only [this]

/-! Retirement -/

/-- What retirement makes of a context of the unit. -/
def retireCtx (s : State) (e : Env) (ids : List Nat) (advance : Bool) (x : Ctx) : Ctx :=
  { x with
    pc := if advance then x.pc + 1 else x.pc
    wait := none
    joined := false
    xk := 0
    next := s.cycle + 1 + (if e.x.level = 1 then e.h.hints.gap.toNat else 0)
    last := s.cycle + 1
    skip := 0
    yld := decide (e.x.level = 1) && e.h.hints.yld
    vars := x.vars.map (fun r => if ids.contains r.id then { r with left := r.left - 1 } else r) }

theorem retire_ctx (s : State) (e : Env) (ids : List Nat) (a : Bool) (o : CtxId) :
    (retire s e ids a).ctx o = if o ∈ e.unit ∧ s.hasCtx o = true then retireCtx s e ids a (s.ctx o) else s.ctx o := by
  have := State.ctx_modCtxs s o e.unit (retireCtx s e ids a)
  rw [← this]; rfl

theorem retire_rest (s : State) (e : Env) (ids : List Nat) (a : Bool) :
    retire s e ids a = { s with ctxs := (retire s e ids a).ctxs, took := .issued } := rfl

theorem retire_hasCtx (s : State) (e : Env) (ids : List Nat) (a : Bool) (o : CtxId) : (retire s e ids a).hasCtx o = s.hasCtx o :=
  State.hasCtx_modCtxs s o e.unit (retireCtx s e ids a)

theorem through_retireCtx (s : State) (e : Env) (ids : List Nat) (a : Bool) (x : Ctx) (l : Loc) :
    (retireCtx s e ids a x).through l = x.through l := by
  rw [through_eq, through_eq]
  have : varFold (retireCtx s e ids a x).vars l = varFold x.vars l := by
    funext b
    simp only [varFold, retireCtx, List.foldl_map]
    congr
    funext w r
    split <;> rfl
  rw [this]; rfl

/-! Register instructions -/

/-- A state that differs from u in the results that are on their way, retired. -/
theorem retire_writes {u t : State} {ws : List (CtxId × Loc × Word)} (e : Env) (ids : List Nat)
    (f : Ctx → List (Loc × Word) → Ctx) (H : Clear u ws)
    (hf : ∀ x v l, (∀ r ∈ x.vars, ∀ y ∈ r.writes, ∀ w ∈ v, y.1 ≠ w.1) → (f x v).through l = (lastWord v l).getD (x.through l))
    (hk : ∀ x v, { f x v with fixed := x.fixed, vars := x.vars } = x)
    (ht : { t with timers := u.timers, nonce := u.nonce } = writeAll u ws (fun x v => f (x.yieldTo v) v)) :
    Writes u (retire t e ids true) e.unit ws := by
  have hc : ∀ o, t.ctx o = (writeAll u ws (fun x v => f (x.yieldTo v) v)).ctx o := fun o => by rw [← ht]; rfl
  have hh : ∀ o, t.hasCtx o = u.hasCtx o := fun o => by
    rw [← (writeAll_ctx u ws (fun x v => f (x.yieldTo v) v) o).2, ← ht]; rfl
  have hn : ∀ x : Ctx, ∀ v, (x.note v) = { x with log := (x.note v).log } := by intro x v; unfold Ctx.note; split <;> rfl
  -- a context before it retires
  have key : ∀ o, ∃ x : Ctx, t.ctx o = x ∧ (∀ l, u.hasCtx o = true → x.through l = (lastWord (writesOf o ws) l).getD ((u.ctx o).through l))
      ∧ { x with fixed := (u.ctx o).fixed, vars := (u.ctx o).vars, log := (u.ctx o).log } = u.ctx o := by
    intro o
    refine ⟨_, rfl, ?_, ?_⟩
    · intro l ho
      rw [hc, emit_ctx H]
      by_cases hm : o ∈ ownersOf ws
      · simp only [hm, ho, and_self, if_true]
        have hfree : ∀ r ∈ (if logged o then (u.ctx o).note (writesOf o ws) else u.ctx o).vars, ∀ y ∈ r.writes,
            ∀ w ∈ writesOf o ws, y.1 ≠ w.1 := by
          have : (if logged o then (u.ctx o).note (writesOf o ws) else u.ctx o).vars = (u.ctx o).vars := by
            split
            · rw [hn]
            · rfl
          rw [this]
          intro r hr y hy w hw
          exact H.free (o, w) (mem_writesOf.1 hw) r hr y hy
        rw [hf _ _ _ hfree]
        congr 1
        split
        · exact through_note _ _ _
        · rfl
      · simp [hm, lastWord_other hm]
    · rw [hc, emit_ctx H]
      split
      · have e1 : (if logged o then (u.ctx o).note (writesOf o ws) else u.ctx o)
            = { u.ctx o with log := (if logged o then (u.ctx o).note (writesOf o ws) else u.ctx o).log } := by
          split
          · rw [hn]
          · rfl
        have e2 := hk (if logged o then (u.ctx o).note (writesOf o ws) else u.ctx o) (writesOf o ws)
        generalize hy : f (if logged o then (u.ctx o).note (writesOf o ws) else u.ctx o) (writesOf o ws) = y at e2 ⊢
        generalize (if logged o then (u.ctx o).note (writesOf o ws) else u.ctx o) = z at e1 e2
        have : { y with fixed := (u.ctx o).fixed, vars := (u.ctx o).vars, log := (u.ctx o).log }
            = { ({ y with fixed := z.fixed, vars := z.vars } : Ctx) with
                fixed := (u.ctx o).fixed, vars := (u.ctx o).vars, log := (u.ctx o).log } := rfl
        rw [this, e2, e1]
      · rfl
  have hpc : ∀ o, (t.ctx o).pc = (u.ctx o).pc := fun o => by
    obtain ⟨x, hx, -, hr⟩ := key o
    rw [hx]; have := congrArg Ctx.pc hr; simpa using this
  refine ⟨rfl, ?_, ?_, ?_, ?_, ?_⟩
  · intro o l ho
    obtain ⟨x, hx, hv, -⟩ := key o
    rw [retire_ctx]
    split
    · rw [through_retireCtx, hx, hv l ho]
    · rw [hx, hv l ho]
  · intro x hx ho
    rw [retire_ctx]
    simp only [hx, hh, ho, and_self, if_true, retireCtx, hpc]
  · intro x hx
    rw [retire_ctx]
    simp only [hx, false_and, if_false, hpc]
  · intro o
    obtain ⟨x, hx, -, hr⟩ := key o
    rw [retire_ctx, hx]
    have := congrArg (fun y : Ctx => { y with
        pc := (u.ctx o).pc, wait := (u.ctx o).wait, joined := (u.ctx o).joined, next := (u.ctx o).next, last := (u.ctx o).last
        skip := (u.ctx o).skip, yld := (u.ctx o).yld, xk := (u.ctx o).xk }) hr
    split <;> exact this
  · have h1 := writeAll_rest u ws (fun x v => f (x.yieldTo v) v)
    rw [← ht] at h1
    rw [retire_rest]
    exact congrArg (fun x : State => { x with ctxs := u.ctxs, took := u.took }) h1

/-! `store` -/

theorem pushOuts_nil (e : Env) (s : State) : pushOuts e s [] = .ok s := rfl
theorem outCells_nil (e : Env) (s : State) : outCells e s [] = [] := rfl

/-- A context of `ids` and of the results on their way keeps what it holds of them. -/
theorem retire_vars {s : State} {e : Env} {ids : List Nat} {a : Bool} {o : CtxId} {r : VarRes} (h : r ∈ (s.ctx o).vars) :
    ∃ q ∈ ((retire s e ids a).ctx o).vars, q.id = r.id ∧ q.arrived = r.arrived ∧ q.writes = r.writes := by
  rw [retire_ctx]
  split
  · refine ⟨_, List.mem_map.2 ⟨r, h, rfl⟩, ?_⟩
    split <;> simp
  · exact ⟨r, h, rfl, rfl, rfl⟩
theorem retire_fixed (s : State) (e : Env) (ids : List Nat) (a : Bool) (o : CtxId) :
    ((retire s e ids a).ctx o).fixed = (s.ctx o).fixed := by
  rw [retire_ctx]; split <;> rfl

theorem writeAll_nonce (u : State) (n : Nat) (ws : List (CtxId × Loc × Word)) (f : Ctx → List (Loc × Word) → Ctx) :
    writeAll { u with nonce := n } ws f = { writeAll u ws f with nonce := n } := by
  have h : ∀ (l : List CtxId) (u : State) (g : CtxId → Ctx → Ctx),
      l.foldl (fun s c => s.modCtx c (g c)) { u with nonce := n } = { l.foldl (fun s c => s.modCtx c (g c)) u with nonce := n } := by
    intro l
    induction l with
    | nil => intro u g; rfl
    | cons c l ih => intro u g; simp only [List.foldl_cons]; rw [← ih]; rfl
  exact h _ u (fun c x => f (if logged c then x.note (writesOf c ws) else x) (writesOf c ws))

/-- A variable result set on its way to free destinations, and its unit retired. -/
theorem emitVar_writes {u : State} {e : Env} {ws : List (CtxId × Loc × Word)} (acq : Bool) (H : Clear u ws) :
    ∃ t, emitVar e u acq ws = .next t ∧ ∀ e' ids, Writes u (retire t e' ids true) e'.unit ws
      ∧ OnTheWay u (retire t e' ids true) e.c ws := by
  let f : Ctx → List (Loc × Word) → Ctx := fun x w => { x with vars := x.vars ++ [⟨u.nonce, w, e.h.hints.la.toNat, false, acq⟩] }
  let t0 : State := { writeAll u ws (fun x w => f (x.yieldTo w) w) with nonce := u.nonce + 1 }
  have hu : Clear { u with nonce := u.nonce + 1 } ws := ⟨H.alone, H.free, H.room⟩
  have h0 : emitWith { u with nonce := u.nonce + 1 } ws (fun _ => f) = .next t0 := by
    rw [emitWith_clear hu (fun _ => f), writeAll_nonce]
  have hxm : u.xm.isSome = false := by rw [H.alone]; rfl
  obtain ⟨t, ht, hc, hn⟩ : ∃ t : State, emitVar e u acq ws = .next t
      ∧ { t with timers := u.timers, nonce := u.nonce } = writeAll u ws (fun x w => f (x.yieldTo w) w)
      ∧ (ws ≠ [] → ∃ n, u.cycle < n ∧ t.timers = u.timers ++ [(n, .resultArrival e.c u.nonce)]) := by
    have hr := writeAll_rest u ws (fun x w => f (x.yieldTo w) w)
    have hq : { (writeAll u ws (fun x w => f (x.yieldTo w) w)) with timers := u.timers, nonce := u.nonce }
        = writeAll u ws (fun x w => f (x.yieldTo w) w) := by rw [hr]
    cases ws with
    | nil =>
      refine ⟨t0, ?_, hq, fun h => absurd rfl h⟩
      unfold emitVar; simp only [State.fresh]; erw [h0]; simp
    | cons w r =>
      refine ⟨t0.later (.resultArrival e.c u.nonce), ?_, hq, fun _ => ⟨u.cycle + 1 + Config.latency (u.nonce + 1), by omega, ?_⟩⟩
      · unfold emitVar; simp only [State.fresh]; erw [h0]; simp [hxm]
      · simp only [State.later]
        have h1 : t0.timers = u.timers := by simpa [t0] using congrArg State.timers hr
        have h2 : t0.cycle = u.cycle := by simpa [t0] using congrArg State.cycle hr
        rw [h1, h2]
  refine ⟨t, ht, fun e' ids => ⟨?_, ?_, ?_⟩⟩
  · exact retire_writes e' ids f H (fun x w l _ => through_var x _ l) (fun x w => rfl) hc
  · intro w hm ho
    have hc' : ∀ o, t.ctx o = (writeAll u ws (fun x w => f (x.yieldTo w) w)).ctx o := fun o => by rw [← hc]; rfl
    have hh : ∀ o, t.hasCtx o = u.hasCtx o := fun o => by
      rw [← (writeAll_ctx u ws (fun x w => f (x.yieldTo w) w) o).2, ← hc]; rfl
    rw [retire_hasCtx, hh] at ho
    have hx := emit_ctx H f w.1
    simp only [mem_ownersOf.2 ⟨w, hm, rfl⟩, ho, and_self, if_true] at hx
    have hv : (⟨u.nonce, writesOf w.1 ws, e.h.hints.la.toNat, false, acq⟩ : VarRes) ∈ (t.ctx w.1).vars := by
      rw [hc', hx]; simp [f]
    obtain ⟨q, hq, h1, h2, h3⟩ := retire_vars (e := e') (ids := ids) (a := true) hv
    exact ⟨q, hq, h1, h2, h3⟩
  · intro hw
    obtain ⟨n, h1, h2⟩ := hn hw
    exact ⟨n, h1, h2⟩

/-- What the body of an instruction that stores results answers, retired. -/
theorem store_writes {u v : State} {e : Env} {rd : Ready} {outs : List ((CtxId × Nat) × List Out)} (hrd : rd ≠ .now)
    (hp : pushOuts e v outs = .ok u) (H : Clear u (outCells e v outs)) :
    ∃ t, store e v rd outs = .next t ∧ ∀ e' ids, Writes u (retire t e' ids true) e'.unit (outCells e v outs)
      ∧ Lands rd e.x u (retire t e' ids true) e.c (outCells e v outs) := by
  generalize hw : outCells e v outs = ws at H
  cases rd with
  | now => exact absurd rfl hrd
  | fixed =>
    refine ⟨writeAll u ws (fun x w => (x.yieldTo w).delay (u.cycle + fixedLatency e.x) w), ?_, fun e' ids => ⟨?_, ?_⟩⟩
    · simp only [store, hp, hw, emitFixed]; rw [emitWith_clear H]
    · exact retire_writes e' ids (fun x w => x.delay (u.cycle + fixedLatency e.x) w) H
        (fun x w l hx => through_delay _ hx l) (fun x w => rfl) (by
          have := writeAll_rest u ws (fun x w => (x.yieldTo w).delay (u.cycle + fixedLatency e.x) w)
          rw [this])
    · intro w hm ho
      rw [retire_hasCtx, (writeAll_ctx _ _ _ _).2] at ho
      have hx := emit_ctx H (fun x w => x.delay (u.cycle + fixedLatency e.x) w) w.1
      rw [retire_fixed, hx]
      simp only [mem_ownersOf.2 ⟨w, hm, rfl⟩, ho, and_self, if_true, Ctx.delay, List.mem_append, List.mem_map]
      exact Or.inr ⟨w.2, mem_writesOf.2 hm, rfl⟩
  | varies => simpa only [store, hp, hw, Lands] using emitVar_writes (e := e) false H
  | acquired => simpa only [store, hp, hw, Lands] using emitVar_writes (e := e) true H

/-- A body that stores results of some operands. -/
theorem results_of_store {i : Instr} {s v : State} {c : CtxId} {h : Head} {how : How} {body : Env → State → Res} {rd : Ready}
    {outs : List ((CtxId × Nat) × List Out)} (hi : exec i s = issue h how body s) (H : Issues s c h how) (hraw : how.raw = false)
    (heff : how.effect = false) (hrd : rd ≠ .now)
    (hb : (envAt s c h false).parts ≠ [] → body (envAt s c h false) (entered s c h) = store (envAt s c h false) v rd outs)
    (hn : (envAt s c h false).parts = [] → v = entered s c h ∧ outs = []) : Results i s c h rd v outs := by
  intro u hp hc
  by_cases hz : (envAt s c h false).parts = []
  · obtain ⟨rfl, rfl⟩ := hn hz
    have hu : u = entered s c h := by
      rw [pushOuts_nil] at hp
      exact (Except.ok.inj hp).symm
    subst hu
    refine ⟨_, by rw [hi]; rw [issue_none H hz hraw, guardedOff, heff, if_neg Bool.false_ne_true], ?_, ?_⟩
    · have := retire_writes (t := entered s c h) (envAt s c h false)
        (varIds (entered s c h) (unitOf (entered s c h) c)) (fun x w => x.delay 0 w) hc
        (fun x w l hx => through_delay 0 hx l) (fun x w => rfl) (by rfl)
      rw [if_neg hrd]
      exact this
    · cases rd <;> simp [Lands, outCells_nil, DueAt, OnTheWay, writesOf, lastWord]
  · obtain ⟨t, ht, hw⟩ := store_writes hrd hp hc
    refine ⟨_, by rw [hi]; exact issue_next H (Or.inl (by rw [hraw]; exact hz)) (by rw [hraw, hb hz]; exact ht), ?_⟩
    rw [hraw, if_neg hrd]
    exact hw _ _

/-! The shapes of register instructions -/

/-- An instruction whose body is `pureBody` computes. -/
theorem computes_pure {i : Instr} {h : Head} {how : How} {rd : Ready} {srcs : List Operand} {f : List Nat → List Out}
    (hi : ∀ s, exec i s = issue h how (pureBody rd srcs f) s) (hraw : how.raw = false)
    (heff : how.effect = false) (hrd : rd ≠ .now) : Computes i h how rd srcs f := by
  intro s c vals v H hr
  refine results_of_store (hi s) H hraw heff hrd (fun hp => ?_) (fun hp => ?_)
  · simp only [OperandsRead, hp, if_false] at hr
    simp only [pureBody, hr, resultsOf]
  · simp only [OperandsRead, hp, if_true] at hr
    exact ⟨hr.2, by simp [resultsOf, hp]⟩

/-- An instruction whose body is `crossBody` exchanges lanes. -/
theorem cross_result {i : Instr} {h : Head} {srcs : List Operand} {m : Reg} {f : List (Nat × List Nat) → Nat × List Nat → List Out}
    (hi : ∀ s, exec i s = issue h { varying := true } (crossBody srcs m f) s) : CrossResult i h srcs m f := by
  intro s k vals v H hq hm hr
  refine results_of_store (hi s) H rfl rfl (by decide) (fun hp => ?_) (fun hp => ?_)
  · simp only [OperandsRead, hp, if_false] at hr
    have hq : readsPending (entered s k h) (envAt s k h false).x (envAt s k h false).c 0 1 m = false := hq
    simp only [crossBody, hq, hm, hr, Bool.false_eq_true, if_false]
  · simp only [OperandsRead, hp, if_true] at hr
    exact ⟨hr.2, by simp [hp]⟩
/-- One whose body is `upperBody` reads the lanes below. -/
theorem upper_result {i : Instr} {h : Head} {srcs : List Operand}
    {f : Env → State → List Nat → List (CtxId × Nat) → Except FaultInfo (List Out)}
    {g : Env → State → List Nat → List (CtxId × Nat) → List Out} (hi : ∀ s, exec i s = issue h upperHow (upperBody srcs f) s)
    (hf : ∀ e s v l, f e s v l = .ok (g e s v l)) : UpperResult i h srcs g := by
  intro s c vals v H hp hb hr
  refine results_of_store (hi s) H rfl rfl (by decide) (fun _ => ?_) (fun h => absurd h hp)
  have : (envAt s c h false).c = c := rfl
  simp only [OperandsRead, hp, if_false] at hr
  simp only [upperBody, this, hb, Bool.not_true, Bool.false_eq_true, if_false, hr, hf]

end Sys2Proof.Machine
end

