-- ==== Sys2Proof/Laws/Local.lean ====
section
/-! SUPPORT. What the shared operations of local memory do: bytes held in the galley and in the private-stack cache. -/

namespace Sys2Proof.Machine

theorem get?_zip_range' (l : List Byte) (a o k : Nat) :
    get? k (((List.range' o l.length).zip l).map (fun e => (a + e.1, e.2))) =
      if a + o ≤ k ∧ k < a + o + l.length then some (l.getD (k - a - o) 0) else none := by
  induction l generalizing o with
  | nil => simp [get?]
  | cons b r ih =>
    simp only [List.length_cons, List.range'_succ, List.zip_cons_cons, List.map_cons, get?]
    by_cases hk : a + o = k
    · subst hk; simp
    · rw [if_neg hk, ih]
      by_cases h : a + o ≤ k ∧ k < a + o + (r.length + 1)
      · rw [if_pos h, if_pos (by omega), show k - a - o = (k - a - (o + 1)) + 1 by omega]; rfl
      · rw [if_neg h, if_neg (by omega)]

/-- The byte that placed bytes give an address. -/
theorem get?_placed (l : List Byte) (a k : Nat) :
    get? k (placed a l) = if a ≤ k ∧ k < a + l.length then some (l.getD (k - a) 0) else none := by
  unfold placed
  rw [List.range_eq_range', get?_zip_range' l a 0 k]
  simp

theorem leBytes_length (n x : Nat) : (leBytes n x).length = n := by simp [leBytes]
theorem leBytes_getD (n x i : Nat) (h : i < n) : (leBytes n x).getD i 0 = BitVec.ofNat 8 (x / 256 ^ i) := by
  simp [leBytes, List.getD_eq_getElem?_getD, h]

variable {s : State} {t k : TeamId}

theorem sign_eq (s : State) (t : TeamId) (v : DWord) : ∃ l, sign s t v = { s with teams := l }
    ∧ ∀ u, (get? u l).map (fun y => { y with sig := 0 }) = (get? u s.teams).map (fun y => { y with sig := 0 }) := by
  unfold sign
  split
  · split
    · refine ⟨_, rfl, fun u => ?_⟩
      have := get?_map (fun e => e = t) (fun x : Team => { x with sig := x.sig + v }) u s.teams
      rw [this]
      split
      · cases get? u s.teams <;> rfl
      · cases get? u s.teams <;> rfl
    · exact ⟨s.teams, rfl, fun _ => rfl⟩
  · exact ⟨s.teams, rfl, fun _ => rfl⟩

/-- States that agree but for held bytes, the private-stack caches, free choices and signatures. -/
structure Like (v t : State) : Prop where
  rest : { t with galley := v.galley, pvCache := v.pvCache, nonce := v.nonce, teams := v.teams } = v
  teams : ∀ u, (t.team? u).map (fun y => { y with sig := 0 }) = (v.team? u).map (fun y => { y with sig := 0 })

theorem Like.refl (v : State) : Like v v := ⟨rfl, fun _ => rfl⟩
theorem Like.trans {a b c : State} (h : Like a b) (g : Like b c) : Like a c := by
  refine ⟨?_, fun u => (g.teams u).trans (h.teams u)⟩
  have h1 := h.rest
  rw [← g.rest] at h1
  exact h1
theorem Like.core {v t : State} (h : Like v t) (u : TeamId) : (t.team? u).map (fun y => y.core) = (v.team? u).map (fun y => y.core) := by
  have := congrArg (Option.map (fun y : Team => y.core)) (h.teams u)
  simpa [Option.map_map, Function.comp_def] using this
theorem Like.pair {v t : State} (h : Like v t) (u : TeamId) :
    (t.team? u).bind (fun y => y.pair) = (v.team? u).bind (fun y => y.pair) := by
  have := congrArg (fun o : Option Team => o.bind (fun y => y.pair)) (h.teams u)
  cases hx : t.team? u <;> cases hy : v.team? u <;> simp_all
theorem Like.isSome {v t : State} (h : Like v t) (u : TeamId) : (t.team? u).isSome = (v.team? u).isSome := by
  have := congrArg Option.isSome (h.teams u)
  simpa using this
theorem Like.unitTeams {v t : State} (h : Like v t) (u : TeamId) : unitTeams t u = unitTeams v u := by
  simp only [Machine.unitTeams, h.pair]
theorem Like.mem {v t : State} (h : Like v t) : t.mem = v.mem := by rw [← h.rest]

theorem like_sign (s : State) (t : TeamId) (v : DWord) : Like s (sign s t v) := by
  obtain ⟨l, h, hl⟩ := sign_eq s t v
  rw [h]
  exact ⟨rfl, hl⟩
theorem like_hold (s : State) (t : TeamId) (who : List CtxId) (k p : Nat) (bs : List (Nat × Byte)) (key : Option EffKey) :
    Like s (holdBy s t who k p bs key) := by
  unfold holdBy
  split
  · exact Like.refl s
  · exact ⟨rfl, fun _ => rfl⟩

theorem readByte_sign (s : State) (t : TeamId) (v : DWord) (u : List TeamId) (a : Nat) : readByte (sign s t v) u a = readByte s u a := by
  obtain ⟨l, h, -⟩ := sign_eq s t v
  rw [h]; rfl
/-- Bytes held: they read as held within the containment unit, every other byte as before. -/
theorem readByte_hold (s : State) (t : TeamId) (who : List CtxId) (k p : Nat) (bs : List (Nat × Byte)) (key : Option EffKey)
    (u : List TeamId) (a : Nat) (ht : (s.team? t).isSome = true) :
    readByte (holdBy s t who k p bs key) u a = if t ∈ u then (get? a bs).getD (readByte s u a) else readByte s u a := by
  obtain ⟨x, hx⟩ := Option.isSome_iff_exists.1 ht
  simp only [holdBy, hx, readByte, List.reverse_append, List.reverse_cons, List.reverse_nil, List.nil_append, List.singleton_append,
    List.findSome?_cons]
  by_cases hu : t ∈ u
  · simp only [hu, if_true]
    cases get? a bs <;> rfl
  · simp only [hu, if_false]

theorem readPv_eq {v t : State} (h : Like v t) (hp : t.pvCache = v.pvCache) {k : TeamId} {a : Nat}
    (hr : ∀ u, readByte t u a = readByte v u a) : readPv t k a = readPv v k a := by
  unfold readPv
  rw [hp, h.unitTeams]
  split
  · rfl
  · exact hr _
theorem readPv_sign (s : State) (t : TeamId) (v : DWord) (k : TeamId) (a : Nat) : readPv (sign s t v) k a = readPv s k a := by
  have hp : (sign s t v).pvCache = s.pvCache := by
    obtain ⟨l, h, -⟩ := sign_eq s t v
    rw [h]
  exact readPv_eq (like_sign s t v) hp (fun u => readByte_sign s t v u a)

/-- The byte that cells give a place: that of the one cell which lies there. -/
theorem get?_zip_some {l : List Nat} {bs : List Byte} {i a : Nat} {b : Byte} (h : l[i]? = some a) (hb : bs[i]? = some b)
    (hd : ∀ j, j ≠ i → l[j]? ≠ some a) : get? a (l.zip bs) = some b := by
  induction l generalizing bs i with
  | nil => simp at h
  | cons c r ih =>
    cases bs with
    | nil => simp at hb
    | cons y ys =>
      cases i with
      | zero => simp_all [get?]
      | succ i =>
        have hc : c ≠ a := fun e => hd 0 (by omega) (by simp [e])
        simp only [List.zip_cons_cons, get?, hc, if_false]
        exact ih (by simpa using h) (by simpa using hb) (fun j hj => by simpa using hd (j + 1) (by omega))
theorem get?_zip_none {l : List Nat} {bs : List Byte} {a : Nat} (h : a ∉ l) : get? a (l.zip bs) = none := by
  induction l generalizing bs with
  | nil => rfl
  | cons c r ih =>
    simp only [List.mem_cons, not_or] at h
    cases bs with
    | nil => rfl
    | cons y ys => simp only [List.zip_cons_cons, get?, Ne.symm h.1, if_false]; exact ih h.2
/-- The bytes of an access at its cells. -/
theorem get?_cells {x : Access} {n v i a : Nat} (h : x.cells[i]? = some a) (hi : i < n) (hd : ∀ j, j ≠ i → x.cells[j]? ≠ some a) :
    get? a (x.cells.zip (leBytes n v)) = some (BitVec.ofNat 8 (v / 256 ^ i)) :=
  get?_zip_some h (by simp [leBytes, hi]) hd

/-- What a list of writes leaves, whatever reads it: `f` makes one write, and `rd` reads a byte. -/
theorem stores_fold {α : Type} (l : List Access) (rd : α → Nat → Byte) (f : α → Access → α) (n : Nat) (data : Access → Nat)
    (hf : ∀ s, ∀ x ∈ l, ∀ a, rd (f s x) a = (get? a (x.cells.zip (leBytes n (data x)))).getD (rd s a)) (s : α) :
    (∀ a, (∀ x ∈ l, a ∉ x.cells) → rd (l.foldl f s) a = rd s a)
      ∧ ∀ x ∈ l, ∀ i < n, ∀ a, x.cells[i]? = some a → (∀ y ∈ l, ∀ j, (y, j) ≠ (x, i) → y.cells[j]? ≠ some a) →
          rd (l.foldl f s) a = BitVec.ofNat 8 (data x / 256 ^ i) := by
  induction l generalizing s with
  | nil => exact ⟨fun _ _ => rfl, fun x hx => by cases hx⟩
  | cons y r ih =>
    obtain ⟨h1, h2⟩ := ih (fun s x hx => hf s x (List.mem_cons_of_mem _ hx)) (f s y)
    refine ⟨fun a ha => ?_, fun x hx i hi a hc hd => ?_⟩
    · rw [List.foldl_cons, h1 a (fun x hx => ha x (List.mem_cons_of_mem _ hx)), hf _ _ List.mem_cons_self,
        get?_zip_none (ha y List.mem_cons_self)]
      rfl
    · rw [List.foldl_cons]
      by_cases hxr : x ∈ r
      · exact h2 x hxr i hi a hc (fun z hz => hd z (List.mem_cons_of_mem _ hz))
      · obtain rfl : x = y := (List.mem_cons.1 hx).resolve_right hxr
        have hr : ∀ z ∈ r, a ∉ z.cells := fun z hz hm => by
          obtain ⟨j, hj⟩ := List.getElem?_of_mem hm
          exact hd z (List.mem_cons_of_mem _ hz) j (fun e => hxr ((Prod.mk.inj e).1 ▸ hz)) hj
        rw [h1 a hr, hf _ _ List.mem_cons_self,
          get?_cells hc hi (fun j hj => hd x List.mem_cons_self j (fun e => hj (Prod.mk.inj e).2))]
        rfl

/-- The writes of a store in `sh`, `pp` or `dz`. -/
theorem stores_held (l : List Access) (v : State) (team : TeamId) (who : List CtxId) (p n : Nat) (data : Access → Nat)
    (g : Access → DWord) (ht : l ≠ [] → (v.team? team).isSome = true) :
    let t := l.foldl (fun t x => sign (holdBy t team who 0 p (x.cells.zip (leBytes n (data x))) none) team (g x)) v
    Like v t ∧ t.pvCache = v.pvCache
      ∧ (∀ a, (∀ x ∈ l, a ∉ x.cells) → ∀ u, readByte t u a = readByte v u a)
      ∧ ∀ x ∈ l, ∀ i < n, ∀ a, x.cells[i]? = some a → (∀ y ∈ l, ∀ j, (y, j) ≠ (x, i) → y.cells[j]? ≠ some a) →
          readByte t (unitTeams v team) a = BitVec.ofNat 8 (data x / 256 ^ i) := by
  let f : State → Access → State := fun t x => sign (holdBy t team who 0 p (x.cells.zip (leBytes n (data x))) none) team (g x)
  have like : ∀ (s : State) (x : Access), Like s (f s x) := fun s x => (like_hold ..).trans (like_sign ..)
  have cache : ∀ (s : State) (x : Access), (f s x).pvCache = s.pvCache := fun s x => by
    obtain ⟨l', h', -⟩ := sign_eq (holdBy s team who 0 p (x.cells.zip (leBytes n (data x))) none) team (g x)
    show (sign _ _ _).pvCache = _
    rw [h']
    unfold holdBy
    split <;> rfl
  have read : ∀ (s : State) (x : Access) (u : List TeamId) (a : Nat), (s.team? team).isSome = true →
      readByte (f s x) u a = if team ∈ u then (get? a (x.cells.zip (leBytes n (data x)))).getD (readByte s u a) else readByte s u a :=
    fun s x u a hs => by
      show readByte (sign _ _ _) u a = _
      rw [readByte_sign, readByte_hold _ _ _ _ _ _ _ _ _ hs]
  have all : ∀ (m : List Access) (s : State), (m ≠ [] → (s.team? team).isSome = true) → Like s (m.foldl f s) ∧ (m.foldl f s).pvCache = s.pvCache
      ∧ (∀ u, team ∉ u → ∀ a, readByte (m.foldl f s) u a = readByte s u a) := by
    intro m
    induction m with
    | nil => exact fun s _ => ⟨Like.refl s, rfl, fun _ _ _ => rfl⟩
    | cons y r ih =>
      intro s hs
      have hv := hs (List.cons_ne_nil _ _)
      obtain ⟨h1, h2, h3⟩ := ih (f s y) (fun _ => by rw [(like s y).isSome]; exact hv)
      exact ⟨(like s y).trans h1, h2.trans (cache s y), fun u hu a => by rw [List.foldl_cons, h3 u hu, read s y u a hv, if_neg hu]⟩
  have inside : ∀ u, team ∈ u → (∀ a, (∀ x ∈ l, a ∉ x.cells) → readByte (l.foldl f v) u a = readByte v u a)
      ∧ ∀ x ∈ l, ∀ i < n, ∀ a, x.cells[i]? = some a → (∀ y ∈ l, ∀ j, (y, j) ≠ (x, i) → y.cells[j]? ≠ some a) →
          readByte (l.foldl f v) u a = BitVec.ofNat 8 (data x / 256 ^ i) := by
    intro u hu
    cases l with
    | nil => exact ⟨fun _ _ => rfl, fun x hx => by cases hx⟩
    | cons y r =>
      have hv := ht (List.cons_ne_nil _ _)
      let F : {s : State // (s.team? team).isSome = true} → Access → {s : State // (s.team? team).isSome = true} :=
        fun s x => ⟨f s.1 x, by rw [(like s.1 x).isSome]; exact s.2⟩
      have hF : ∀ (m : List Access) (s : {s : State // (s.team? team).isSome = true}), (m.foldl F s).1 = m.foldl f s.1 := by
        intro m
        induction m with
        | nil => exact fun _ => rfl
        | cons z q ih => exact fun s => ih (F s z)
      have := stores_fold (y :: r) (fun (s : {s : State // (s.team? team).isSome = true}) a => readByte s.1 u a) F n data
        (fun s x _ a => by show readByte (f s.1 x) u a = _; rw [read s.1 x u a s.2, if_pos hu]) ⟨v, hv⟩
      simpa only [hF] using this
  obtain ⟨h1, h2, h3⟩ := all l v ht
  have hun : team ∈ unitTeams v team := by
    unfold unitTeams
    split <;> simp
  refine ⟨h1, h2, fun a ha u => ?_, (inside _ hun).2⟩
  by_cases hu : team ∈ u
  · exact (inside u hu).1 a ha
  · exact h3 u hu a

theorem mem_insertRank (k : Nat) (x y : Access) (l : List Access) : y ∈ insertRank k x l ↔ y = x ∨ y ∈ l := by
  induction l with
  | nil => simp [insertRank]
  | cons z r ih =>
    simp only [insertRank]
    split
    · simp
    · simp only [List.mem_cons, ih]
      constructor
      · rintro (h | h | h) <;> simp [h]
      · rintro (h | h | h) <;> simp [h]
/-- The free order of lanes keeps every access. -/
theorem mem_laneOrder (k : Nat) (l : List Access) (y : Access) : y ∈ laneOrder k l ↔ y ∈ l := by
  unfold laneOrder
  have : ∀ (m : List Access), y ∈ l.foldl (fun r x => insertRank k x r) m ↔ y ∈ m ∨ y ∈ l := by
    induction l with
    | nil => simp
    | cons x r ih =>
      intro m
      simp only [List.foldl_cons, ih, mem_insertRank, List.mem_cons]
      constructor
      · rintro ((h | h) | h) <;> simp [h]
      · rintro (h | h | h) <;> simp [h]
  rw [this]
  simp

theorem readByte_writePv (s : State) (t : TeamId) (who : List CtxId) (bs : List (Nat × Byte)) (u : List TeamId) (a : Nat) :
    readByte (writePv s t who bs) u a = readByte s u a := rfl
theorem like_writePv (s : State) (t : TeamId) (who : List CtxId) (bs : List (Nat × Byte)) : Like s (writePv s t who bs) :=
  ⟨rfl, fun _ => rfl⟩
/-- Bytes written to a private stack read as written by its team, every other byte as before. -/
theorem readPv_write (s : State) (t k : TeamId) (who : List CtxId) (bs : List (Nat × Byte)) (a : Nat) :
    readPv (writePv s t who bs) k a = if k = t then (get? a bs).getD (readPv s k a) else readPv s k a := by
  have hu : unitTeams (writePv s t who bs) k = unitTeams s k := (like_writePv s t who bs).unitTeams k
  unfold readPv
  rw [hu, readByte_writePv]
  simp only [writePv, List.reverse_append, List.reverse_cons, List.reverse_nil, List.nil_append, List.singleton_append,
    List.findSome?_cons]
  by_cases h : k = t
  · subst h
    simp only [if_true]
    cases get? a bs <;> rfl
  · simp only [h, Ne.symm h, if_false]

/-- The writes of a store in `pv`. -/
theorem stores_pv (l : List Access) (v : State) (team : TeamId) (who : List CtxId) (n : Nat) (data : Access → Nat)
    (g : State → Access → DWord) :
    let t := l.foldl (fun t x => sign (writePv t team who (x.cells.zip (leBytes n (data x)))) team (g t x)) v
    Like v t ∧ (∀ u a, readByte t u a = readByte v u a)
      ∧ (∀ a, (∀ x ∈ l, a ∉ x.cells) → ∀ k, readPv t k a = readPv v k a)
      ∧ ∀ x ∈ l, ∀ i < n, ∀ a, x.cells[i]? = some a → (∀ y ∈ l, ∀ j, (y, j) ≠ (x, i) → y.cells[j]? ≠ some a) →
          readPv t team a = BitVec.ofNat 8 (data x / 256 ^ i) := by
  let f : State → Access → State := fun t x => sign (writePv t team who (x.cells.zip (leBytes n (data x)))) team (g t x)
  have read : ∀ (s : State) (x : Access) (k : TeamId) (a : Nat),
      readPv (f s x) k a = if k = team then (get? a (x.cells.zip (leBytes n (data x)))).getD (readPv s k a) else readPv s k a :=
    fun s x k a => by
      show readPv (sign _ _ _) k a = _
      rw [readPv_sign, readPv_write]
  have all : ∀ (m : List Access) (s : State), Like s (m.foldl f s) ∧ (∀ u a, readByte (m.foldl f s) u a = readByte s u a)
      ∧ (∀ k, k ≠ team → ∀ a, readPv (m.foldl f s) k a = readPv s k a) := by
    intro m
    induction m with
    | nil => exact fun s => ⟨Like.refl s, fun _ _ => rfl, fun _ _ _ => rfl⟩
    | cons y r ih =>
      intro s
      obtain ⟨h1, h2, h3⟩ := ih (f s y)
      exact ⟨((like_writePv ..).trans (like_sign ..)).trans h1,
        fun u a => (h2 u a).trans ((readByte_sign ..).trans (readByte_writePv ..)),
        fun k hk a => by rw [List.foldl_cons, h3 k hk, read s y k a, if_neg hk]⟩
  obtain ⟨h1, h2, h3⟩ := all l v
  obtain ⟨h4, h5⟩ := stores_fold l (fun s a => readPv s team a) f n data (fun s x _ a => by rw [read s x team a, if_pos rfl]) v
  refine ⟨h1, h2, fun a ha k => ?_, h5⟩
  by_cases hk : k = team
  · subst hk; exact h4 a ha
  · exact h3 k hk a

end Sys2Proof.Machine
end

