-- ==== Sys2Proof/Laws/Memory.lean ====
section
/-! SUPPORT. Memory keeps its canonical form, a read after a write gives what was written, and a write leaves every other byte. -/

namespace Sys2Proof.Machine

/-- Every address of some cells lies above a. -/
def above (a : Nat) (l : List Host.Cell) : Prop := ∀ c ∈ l, a < c.1

theorem sortedCells_cons (c : Host.Cell) (l : List Host.Cell) :
    sortedCells (c :: l) = true ↔ c.2 ≠ 0 ∧ (∀ d ∈ l.head?, c.1 < d.1) ∧ sortedCells l = true := by
  cases l with
  | nil => simp [sortedCells]
  | cons d r => simp [sortedCells, and_assoc]

theorem sortedCells_above {c : Host.Cell} {l : List Host.Cell} (h : sortedCells (c :: l) = true) : above c.1 l := by
  induction l generalizing c with
  | nil => intro d hd; cases hd
  | cons d r ih =>
    obtain ⟨-, hd, hr⟩ := (sortedCells_cons c _).1 h
    intro e he
    have h1 : c.1 < d.1 := hd d rfl
    rcases List.mem_cons.1 he with rfl | he
    · exact h1
    · exact Nat.lt_trans h1 (ih hr e he)

theorem sortedCells_mk {c : Host.Cell} {l : List Host.Cell} (h0 : c.2 ≠ 0) (ha : above c.1 l) (hl : sortedCells l = true) :
    sortedCells (c :: l) = true :=
  (sortedCells_cons c l).2 ⟨h0, fun d hd => ha d (List.mem_of_mem_head? hd), hl⟩

theorem above_insert {k a : Nat} {b : Byte} {l : List Host.Cell} (hk : k < a) (h : above k l) : above k (insertCell a b l) := by
  induction l with
  | nil =>
    intro c hc
    by_cases hb : b = 0
    · simp [insertCell, hb] at hc
    · simp only [insertCell, hb, if_false, List.mem_singleton] at hc
      subst hc; exact hk
  | cons d r ih =>
    have hd : k < d.1 := h d List.mem_cons_self
    have hr : above k r := fun c hc => h c (List.mem_cons_of_mem _ hc)
    simp only [insertCell]
    split
    · split
      · exact h
      · intro c hc
        rcases List.mem_cons.1 hc with rfl | hc
        · exact hk
        · exact h c hc
    · split
      · split
        · exact hr
        · intro c hc
          rcases List.mem_cons.1 hc with rfl | hc
          · exact hk
          · exact hr c hc
      · intro c hc
        rcases List.mem_cons.1 hc with rfl | hc
        · exact hd
        · exact ih hr c hc

theorem sorted_insert (a : Nat) (b : Byte) {l : List Host.Cell} (h : sortedCells l = true) :
    sortedCells (insertCell a b l) = true := by
  induction l with
  | nil =>
    by_cases hb : b = 0
    · rw [show insertCell a b [] = [] from if_pos hb]; rfl
    · rw [show insertCell a b [] = [(a, b)] from if_neg hb]
      exact sortedCells_mk hb (fun c hc => by cases hc) rfl
  | cons d r ih =>
    have hd := sortedCells_above h
    obtain ⟨h0, -, hr⟩ := (sortedCells_cons d r).1 h
    simp only [insertCell]
    split
    · rename_i hlt
      split
      · exact h
      · rename_i hb
        exact sortedCells_mk hb (fun c hc => by
          rcases List.mem_cons.1 hc with rfl | hc
          · exact hlt
          · exact Nat.lt_trans hlt (hd c hc)) h
    · split
      · rename_i he
        split
        · exact hr
        · rename_i hb
          exact sortedCells_mk hb (by rw [he]; exact hd) hr
      · rename_i h1 h2
        exact sortedCells_mk h0 (above_insert (by omega) hd) (ih hr)

/-- Every write keeps the canonical form. -/
theorem Memory.wf_write {m : Memory} (a : Nat) (b : Byte) (h : m.wf = true) : (m.write a b).wf = true := sorted_insert a b h
theorem Memory.wf_writes {m : Memory} (bs : List (Nat × Byte)) (h : m.wf = true) : (m.writes bs).wf = true := by
  unfold Memory.writes
  induction bs generalizing m with
  | nil => exact h
  | cons b r ih => exact ih (Memory.wf_write b.1 b.2 h)

/-- Cells dropped keep the form. -/
theorem sorted_filter (p : Host.Cell → Bool) {l : List Host.Cell} (h : sortedCells l = true) : sortedCells (l.filter p) = true := by
  induction l with
  | nil => rfl
  | cons c r ih =>
    obtain ⟨h0, -, hr⟩ := (sortedCells_cons c r).1 h
    simp only [List.filter_cons]
    split
    · exact sortedCells_mk h0 (fun d hd => sortedCells_above h d (List.mem_filter.1 hd).1) (ih hr)
    · exact ih hr
theorem Memory.wf_filter {m : Memory} (p : Host.Cell → Bool) (h : m.wf = true) : Memory.wf ⟨m.cells.filter p⟩ = true :=
  sorted_filter p h

theorem get?_above {k : Nat} {l : List Host.Cell} (h : above k l) : get? k l = none := by
  induction l with
  | nil => rfl
  | cons c r ih =>
    have := h c List.mem_cons_self
    simp only [get?]
    rw [if_neg (by omega)]
    exact ih (fun d hd => h d (List.mem_cons_of_mem _ hd))

theorem get?_insert (a k : Nat) (b : Byte) {l : List Host.Cell} (h : sortedCells l = true) :
    (get? k (insertCell a b l)).getD 0 = if k = a then b else (get? k l).getD 0 := by
  induction l with
  | nil =>
    by_cases hb : b = 0
    · rw [show insertCell a b [] = [] from if_pos hb]
      by_cases hk : k = a
      · rw [if_pos hk, hb]; rfl
      · rw [if_neg hk]
    · rw [show insertCell a b [] = [(a, b)] from if_neg hb]
      by_cases hk : k = a
      · simp [get?, hk]
      · simp [get?, hk, Ne.symm hk]
  | cons c r ih =>
    have hc := sortedCells_above h
    obtain ⟨-, -, hr⟩ := (sortedCells_cons c r).1 h
    simp only [insertCell]
    split
    · rename_i hlt
      have hk' : k = a → get? k (c :: r) = none := fun e => get?_above (fun d hd => by
        rcases List.mem_cons.1 hd with rfl | hd
        · omega
        · have := hc d hd; omega)
      split
      · rename_i hb
        by_cases hk : k = a
        · rw [if_pos hk, hk' hk]; exact hb.symm
        · rw [if_neg hk]
      · by_cases hk : k = a
        · simp [get?, hk]
        · simp [get?, hk, Ne.symm hk]
    · split
      · rename_i he
        have hk' : k = a → get? k r = none := fun e => get?_above (fun d hd => by have := hc d hd; omega)
        split
        · rename_i hb
          by_cases hk : k = a
          · rw [if_pos hk, hk' hk]; exact hb.symm
          · rw [if_neg hk]; simp [get?, show c.1 ≠ k by omega]
        · by_cases hk : k = a
          · simp [get?, hk]
          · simp [get?, hk, Ne.symm hk, show c.1 ≠ k by omega]
      · rename_i h1 h2
        simp only [get?]
        by_cases hk : c.1 = k
        · simp [hk, show k ≠ a by omega]
        · simp only [hk, if_false]; exact ih hr

/-- A read after a write. -/
theorem Memory.read_write {m : Memory} (h : m.wf = true) (a k : Nat) (b : Byte) :
    (m.write a b).read k = if k = a then b else m.read k := get?_insert a k b h

/-- A byte that no write names keeps its value. -/
theorem Memory.read_writes_other {m : Memory} (h : m.wf = true) (bs : List (Nat × Byte)) (k : Nat) (hk : ∀ e ∈ bs, e.1 ≠ k) :
    (m.writes bs).read k = m.read k := by
  unfold Memory.writes
  induction bs generalizing m with
  | nil => rfl
  | cons b r ih =>
    simp only [List.foldl_cons]
    rw [ih (Memory.wf_write _ _ h) (fun e he => hk e (List.mem_cons_of_mem _ he)), Memory.read_write h]
    rw [if_neg (Ne.symm (hk b List.mem_cons_self))]

/-- A byte after bytes have been written one after the other. -/
theorem Memory.read_writes_range' {m : Memory} (h : m.wf = true) (p o k : Nat) (bs : List Byte) :
    (m.writes (((List.range' o bs.length).zip bs).map (fun e => (p + e.1, e.2)))).read k
      = if p + o ≤ k ∧ k < p + o + bs.length then bs.getD (k - p - o) 0 else m.read k := by
  induction bs generalizing m o with
  | nil => rw [if_neg (by simp only [List.length_nil]; omega)]; rfl
  | cons b r ih =>
    simp only [List.length_cons, List.range'_succ, List.zip_cons_cons, List.map_cons, Memory.writes, List.foldl_cons]
    have := ih (m := m.write (p + o) b) (Memory.wf_write _ _ h) (o + 1)
    unfold Memory.writes at this
    rw [this, Memory.read_write h]
    by_cases hk : k = p + o
    · subst hk; rw [if_neg (by omega), if_pos rfl, if_pos (by omega)]; simp
    · by_cases hc : p + o ≤ k ∧ k < p + o + (r.length + 1)
      · rw [if_pos (by omega), if_pos hc]
        have : k - p - o = (k - p - (o + 1)) + 1 := by omega
        rw [this]; simp
      · rw [if_neg (by omega), if_neg hk, if_neg hc]

/-- A byte after bytes have been written in a row. -/
theorem Memory.read_writes_placed {m : Memory} (h : m.wf = true) (p k : Nat) (bs : List Byte) :
    (m.writes (placed p bs)).read k = if p ≤ k ∧ k < p + bs.length then bs.getD (k - p) 0 else m.read k := by
  have := Memory.read_writes_range' h p 0 k bs
  unfold placed
  rw [List.range_eq_range', this]; simp
/-- Bytes read back. -/
theorem Memory.bytes_writes_placed {m : Memory} (h : m.wf = true) (p : Nat) (bs : List Byte) :
    (m.writes (placed p bs)).bytes p bs.length = bs := by
  apply List.ext_getElem
  · simp [Memory.bytes]
  · intro i h1 h2
    simp only [Memory.bytes, List.getElem_map, List.getElem_range, Memory.read_writes_placed h]
    rw [if_pos (by omega)]
    simp [h2]

end Sys2Proof.Machine
end

