-- ==== Sys2Proof/Laws/Translation.lean ====
section
/-! SUPPORT. Translation within one page: a walk depends on the page of its address alone, and what the compositor reads of a page is what
memory holds there. -/

namespace Sys2Proof.Machine

/-- A walk depends on the page of 64 KiB of its address alone (R265). -/
theorem walkFrom_page (m : Memory) {va vb : Nat} (h : va / 65536 = vb / 65536) (n t : Nat) : walkFrom m va n t = walkFrom m vb n t := by
  induction n generalizing t with
  | zero => rfl
  | succ k ih =>
    have hi : ∀ sh w, 16 ≤ sh → va / 2 ^ sh % w = vb / 2 ^ sh % w := by
      intro sh w hs
      obtain ⟨d, rfl⟩ := Nat.exists_eq_add_of_le hs
      rw [Nat.pow_add, ← Nat.div_div_eq_div_mul, ← Nat.div_div_eq_div_mul, show (2 : Nat) ^ 16 = 65536 from rfl, h]
    unfold walkFrom
    simp only [ih]
    have : ∀ sh w, sh = 43 ∨ sh = 30 ∨ sh = 21 ∨ sh = 16 → va / 2 ^ sh % w = vb / 2 ^ sh % w := fun sh w hs => hi sh w (by omega)
    rw [this]
    split <;> (try split) <;> (try split) <;> simp
theorem walk_page (s : State) (ctx : Nat) {va vb : Nat} (h : va / 65536 = vb / 65536) : walk s ctx va = walk s ctx vb := by
  unfold walk
  split
  · rfl
  · exact walkFrom_page _ h _ _

/-- Bytes of one page, read by the compositor. -/
theorem vaRead_page {s : State} {ctx va n : Nat} {l : Leaf} (hb : s.bad = []) (hg : s.galley = [])
    (hw : walk s ctx va = .ok l) (hs : l.serves va .read = true) (hl : 16 ≤ l.shift)
    (hn : va % 65536 + n ≤ 65536) (he : l.place va + n ≤ Config.dramBytes) : vaRead s ctx va n = .ok (s.mem.bytes (l.place va) n) := by
  have hp : ∀ i ∈ List.range n, vaPlace s ctx (va + i) .read = .ok (l.place va + i) := by
    intro i hi
    rw [List.mem_range] at hi
    have hpage : (va + i) / 65536 = va / 65536 := by omega
    have hside : decide (hostBase ≤ va + i) = decide (hostBase ≤ va) := by
      rw [decide_eq_decide, show hostBase = 1099511627776 * 65536 from rfl]; omega
    have hmod : (va + i) % 2 ^ l.shift = va % 2 ^ l.shift + i := by
      obtain ⟨d, hd⟩ := Nat.exists_eq_add_of_le hl
      have h1 : va % 2 ^ l.shift % 65536 = va % 65536 := by
        rw [hd, Nat.pow_add]; exact Nat.mod_mul_right_mod _ _ _
      have h2 : va % 2 ^ l.shift < 2 ^ l.shift := Nat.mod_lt _ (Nat.two_pow_pos _)
      have h3 : 2 ^ l.shift = 65536 * 2 ^ d := by rw [hd, Nat.pow_add]
      have h4 : va % 2 ^ l.shift + i < 2 ^ l.shift := by
        rw [h3] at h2 ⊢
        have : va % (65536 * 2 ^ d) / 65536 < 2 ^ d := Nat.div_lt_of_lt_mul h2
        rw [h3] at h1
        omega
      rw [Nat.add_mod, Nat.mod_eq_of_lt (show i < 2 ^ l.shift by omega), Nat.mod_eq_of_lt h4]
    have hplace : l.place (va + i) = l.place va + i := by
      simp only [Leaf.place, hmod]; split <;> omega
    have hserves : l.serves (va + i) .read = true := by
      unfold Leaf.serves at hs ⊢; rw [hside]; exact hs
    simp only [vaPlace, walk_page s ctx hpage, hw, Leaf.answer, hserves, if_true, hplace]
    have : exists_ (l.place va + i) 1 = true := by simp only [exists_, Bool.or_eq_true, decide_eq_true_eq]; left; left; left; omega
    simp [this]
  have hm : ∀ (f : Nat → Except Cause Nat) (g : Nat → Nat) (k : List Nat), (∀ i ∈ k, f i = .ok (g i)) → k.mapM f = .ok (k.map g) := by
    intro f g k
    induction k with
    | nil => intro _; rfl
    | cons x k ih =>
      intro h
      rw [List.mapM_cons, h x (by simp), ih (fun i hi => h i (by simp [hi]))]
      rfl
  simp only [vaRead, vaPlaces, hm _ _ _ hp, Memory.bytes, List.map_map, badAt, hb, List.isEmpty_nil, if_true, Option.isSome_none,
    Bool.false_eq_true, if_false, Except.ok.injEq]
  refine List.map_congr_left (fun i _ => ?_)
  simp [readByte, hg]

end Sys2Proof.Machine
end

