-- ==== Sys2Proof/Tests/Slice0.lean ====
section
/-! SUPPORT. The model's own tests: decodings of words written out in the manual, ill-formed terms that the checks refuse,
words written out from the manual's encoding, a state that meets the hypotheses of each statement (`meets_<statement>`), single steps. -/

namespace Sys2Proof.Tests

set_option Elab.async false

/-- Always, at scope L, no hints. -/
def h0 : Head := ⟨.L, ⟨false, 7⟩, false, ⟨false, 0, 0⟩⟩
def hS : Head := { h0 with scope := .S }
def hG : Head := { h0 with scope := .G }
def hT : Head := { h0 with scope := .T }
def hW : Head := { h0 with scope := .W }

/-- The instruction of three words. -/
def dec (a b c : Nat) : Option Instr := decodeTableWord 96 (a + b * 2 ^ 32 + c * 2 ^ 64)

-- 03, Worked encodings
theorem test_dec_ld : dec 0x0042E200 0x40002010 0x02000000
    = some (.ld { h0 with hints := ⟨false, 0, 2⟩ } ⟨.rlx, .slice⟩ .w32 .sh false (.v 4) (.v 1) (.imm 0x40)) := by decide +kernel
theorem test_dec_br : dec 0x0002E802 0x073C4000 0 = some (.br hG .L false (some 2) 7) := by decide +kernel
-- 02, Worked encoding
theorem test_dec_add : dec 0x00034040 0x0500200C 0x10000000
    = some (.add ⟨.L, ⟨true, 2⟩, false, ⟨false, 1, 0⟩⟩ .i32 false (.v 3) (.v 1) (.imm 5)) := by decide +kernel
-- 06, FCMP
theorem test_dec_fcmp : dec 0x1420E106 0x03004784 0 = some (.fcmp h0 .f32 .ltu 1 (.v 2) (.reg (.v 3))) := by decide +kernel
-- 07, BCOPY
theorem test_dec_bcopy : dec 0x0800EE80 0x46290510 0x00000A11
    = some (.bcopy hT 0 .sh .mem (.t 4) (.t 8) (.t 6) (.barrier (.t 2))) := by decide +kernel
-- 08, MMA
theorem test_dec_mma : dec 0x2024EF04 0x562AA551 0x00000AB9
    = some (.mma hT .bf16 .bf16 false (.t 20) (.t 21) (.t 22) (.t 23)) := by decide +kernel
-- 12, ST.T
theorem test_dec_st : dec 0x0042EE01 0xE0294530 0
    = some (.st hT ⟨.rlx, .slice⟩ .w32 .sh (.t 12) (.t 10) (.imm 0xE0)) := by decide +kernel
-- 16, COLL
theorem test_dec_coll : dec 0x0000EF45 0x4C2907C4 0x00000A69
    = some (.coll hT .allred .add .f32 .restart 1 (.t 8) (.t 12) (.t 13)) := by decide +kernel
-- 05, XISSUE words
theorem test_dec_xword : dec 0x0002E044 0x0300A014 0 = some (.mul h0 .i32 false (.v 5) (.v 5) (.imm 3)) := by decide +kernel

/-- The first failed check of three words. -/
def fails (env : DecEnv) (a b c : Nat) : Option DecodeFault :=
  match decode env (BitVec.ofNat 96 (a + b * 2 ^ 32 + c * 2 ^ 64)) with
  | .ok _ => none
  | .error e => some e

-- 03, the borderline words
theorem test_dec_order1 : fails ⟨256, false⟩ (0x1C7 + 7 * 1024) 0 0 = some { cause := .illop } := by decide +kernel
theorem test_dec_order2 : fails ⟨256, false⟩ (0x009 + 2 * 1024) 0 (1 * 8) = some { cause := .scope } := by decide +kernel
theorem test_dec_order3 : (encodeWord (.add hS .i32 false (.v 3) .zero (.reg .zero))).map
    (fun w => (decode ⟨256, false⟩ w).toOption.isNone && checkFields ⟨256, false⟩ (Fields.ofWord w) == some ⟨.scope, 3, 0⟩)
    = some true := by decide +kernel
theorem test_dec_budget : (encodeWord (.add h0 .i32 false (.v 70) .zero (.reg .zero))).map
    (fun w => checkFields ⟨64, false⟩ (Fields.ofWord w)) = some (some ⟨.illreg, 70, 0⟩) := by decide +kernel

-- ill-formed terms, one for each check
theorem test_wf_add : wellFormed (.add h0 .i32 false (.v 3) (.v 1) (.imm 5)) = true := by decide +kernel
theorem test_wf_type : wellFormed (.add h0 .i8 false (.v 3) (.v 1) (.imm 5)) = false := by decide +kernel
theorem test_wf_scope : wellFormed (.rcv hG 0) = false := by decide +kernel
theorem test_wf_pair : wellFormed (.add h0 .i64 false (.v 3) (.v 2) (.imm 5)) = false := by decide +kernel
theorem test_wf_write : wellFormed (.add h0 .i32 false (.g 3) (.v 2) (.imm 5)) = false := by decide +kernel
theorem test_wf_special : wellFormed (.mov hT (.t 0) (.sp .lane)) = false := by decide +kernel
theorem test_wf_shape : wellFormed (.shfl h0 .get 0 (.v 1) (.v 2) (.imm 1) (.g 0)) = false := by decide +kernel
theorem test_wf_agent : wellFormed (.dierstSet 4) = false := by decide +kernel

/-! A word of every opcode, its fields placed as R41 gives them, with the codes of R47 and R53 to R63 -/

/-- The register form: OP, SC, MOD and the specifiers D, A, B, C; always guarded, no hints. -/
def rf (op sc mod d a b c : Nat) : Nat :=
  op + sc * 2 ^ 10 + 7 * 2 ^ 13 + mod * 2 ^ 18 + d * 2 ^ 34 + a * 2 ^ 45 + b * 2 ^ 56 + c * 2 ^ 67
/-- The immediate form. -/
def imf (op sc mod d a imm : Nat) : Nat :=
  op + sc * 2 ^ 10 + 7 * 2 ^ 13 + 2 ^ 17 + mod * 2 ^ 18 + d * 2 ^ 34 + a * 2 ^ 45 + imm * 2 ^ 56
/-- Whether each word decodes to its instruction. -/
def reads (l : List (Nat × Instr)) : Bool := l.all (fun e => decodeTableWord 96 e.1 == some e.2)

theorem test_words_control : reads [
    (rf 0x000 0 0 0 0 0 0, .nop h0),
    (imf 0x001 3 0 0 0 5, .bra hT 5),
    (imf 0x002 2 8 0 0x1E2 7, .br hG .L true (some 2) 7),
    (rf 0x003 3 0 0 0 0x145 0, .brx hT .L false none (.t 5)),
    (imf 0x004 2 0 0 0 0xFFFFFFFF, .call hG 0xFFFFFFFF),
    (rf 0x005 1 0 0 0 0x103 0, .callx hS (.g 3)),
    (rf 0x006 3 0 0 0 0 0, .ret hT),
    (rf 0x007 2 0 0x1E9 0x104 0 0, .lcnt hG 1 (.reg (.g 4))),
    (imf 0x007 1 0 0x1EA 0 9, .lcnt hS 2 (.imm 9)),
    (imf 0x008 1 0 0x1E8 0 0xFFFFFFFC, .loop hS 0 0xFFFFFFFC),
    (imf 0x009 1 0 0 0 12, .rcv hS 12),
    (rf 0x00A 1 0 0 0 0 0, .regang hS),
    (rf 0x00B 0 0 0 0 0 0, .exit h0),
    (rf 0x00C 2 (1 + 8 + 3 * 16) 0x1E3 0x1E4 0 0, .vote hG .S true .maj 3 4),
    (rf 0x00D 0 0 0 6 0 0, .xissue h0 (.v 6)),
    (imf 0x00E 3 0 0 0 17, .trap hT 17),
    (rf 0x00F 4 0 0 0 0 0, .bkpt hW),
    (rf 0x010 3 0 0 0 0 0, .tret hT),
    (rf 0x011 3 0 0 0x147 0 0, .nap hT (.reg (.t 7)))] = true := by decide +kernel

theorem test_words_integer : reads [
    (imf 0x040 0 64 3 1 5, .add h0 .i32 true (.v 3) (.v 1) (.imm 5)),
    (rf 0x041 3 7 0x142 0x144 0x146 0, .sub hT .n64 false (.t 2) (.t 4) (.reg (.t 6))),
    (rf 0x042 0 1 3 1 2 0x1E1, .addc h0 .n32 (.v 3) (.v 1) (.v 2) 1),
    (rf 0x043 2 0 0x103 0x101 0x102 0x1E2, .subb hG .i32 (.g 3) (.g 1) (.g 2) 2),
    (imf 0x044 4 6 0x1C2 0x1C4 3, .mul hW .i64 false (.w 2) (.w 4) (.imm 3)),
    (rf 0x045 0 1 3 1 2 0, .mulh h0 .n32 (.v 3) (.v 1) (.reg (.v 2))),
    (rf 0x046 0 64 4 1 2 3, .mad h0 .i32 true (.v 4) (.v 1) (.v 2) (.v 3)),
    (rf 0x047 0 1 4 1 2 6, .madw h0 .n32 (.v 4) (.v 1) (.v 2) (.v 6)),
    (rf 0x048 0 6 2 4 6 0, .min h0 .i64 (.v 2) (.v 4) (.reg (.v 6))),
    (imf 0x049 0 1 2 4 9, .max h0 .n32 (.v 2) (.v 4) (.imm 9)),
    (rf 0x04A 0 64 2 4 0 0, .abs h0 .i32 true (.v 2) (.v 4)),
    (rf 0x04B 3 6 0x142 0x144 0 0, .neg hT .i64 false (.t 2) (.t 4)),
    (imf 0x04C 0 1 2 4 0xFF, .and h0 .n32 (.v 2) (.v 4) (.imm 0xFF)),
    (rf 0x04D 0 0 2 4 5 0, .or h0 .i32 (.v 2) (.v 4) (.reg (.v 5))),
    (rf 0x04E 0 7 2 4 6 0, .xor h0 .n64 (.v 2) (.v 4) (.reg (.v 6))),
    (rf 0x04F 0 1 2 4 0 0, .not h0 .n32 (.v 2) (.v 4)),
    (imf 0x050 0 1 2 4 15, .andn h0 .n32 (.v 2) (.v 4) (.imm 15))] = true := by decide +kernel

theorem test_words_bits : reads [
    (rf 0x051 0 0 2 4 5 0, .shl h0 .i32 (.v 2) (.v 4) (.reg (.v 5))),
    (rf 0x052 0 7 2 4 5 0, .shr h0 .n64 (.v 2) (.v 4) (.reg (.v 5))),
    (imf 0x053 0 6 2 4 63, .sar h0 .i64 (.v 2) (.v 4) (.imm 63)),
    (rf 0x054 0 (1 + 128) 2 4 5 6, .shf h0 true (.v 2) (.v 4) (.v 5) (.v 6)),
    (imf 0x055 0 7 2 4 13, .rot h0 .n64 (.v 2) (.v 4) (.imm 13)),
    (rf 0x056 0 0 2 4 5 6, .bfe h0 .i32 (.v 2) (.v 4) (.v 5) (.v 6)),
    (rf 0x057 0 1 2 4 5 6, .bfi h0 (.v 2) (.v 4) (.v 5) (.v 6)),
    (rf 0x058 0 1 2 4 0 0, .popc h0 (.v 2) (.v 4)),
    (rf 0x059 0 1 2 4 0 0, .clz h0 (.v 2) (.v 4)),
    (rf 0x05A 0 1 2 4 0 0, .brev h0 (.v 2) (.v 4)),
    (rf 0x05B 0 1 2 4 5 6, .prmt h0 (.v 2) (.v 4) (.v 5) (.v 6)),
    (rf 0x05C 0 7 2 4 6 0x1E5, .sel h0 .n64 (.v 2) (.v 4) (.v 6) 5),
    (imf 0x05D 0 (1 + 3 * 128) 0x1E3 4 9, .icmp h0 .n32 .le 3 (.v 4) (.imm 9)),
    (rf 0x05E 0 (7 + 3 * 128) 2 4 5 0, .lea h0 .n64 3 (.v 2) (.v 4) (.reg (.v 5))),
    (rf 0x05F 0 (5 + 64) 2 4 5 6, .dp4 h0 .n8 true (.v 2) (.v 4) (.v 5) (.v 6)),
    (rf 0x060 0 2 2 4 5 6, .dp2 h0 .i16 false (.v 2) (.v 4) (.v 5) (.v 6)),
    (rf 0x061 0 5 2 4 5 6, .sad h0 .n8 false (.v 2) (.v 4) (.v 5) (.v 6)),
    (rf 0x062 0 6 2 4 6 8, .clamp h0 .i64 (.v 2) (.v 4) (.v 6) (.v 8))] = true := by decide +kernel

theorem test_words_float : reads [
    (rf 0x100 0 (8 + 16) 2 4 5 0, .fadd h0 .f32 .rz (.v 2) (.v 4) (.reg (.v 5))),
    (imf 0x101 0 9 2 4 0x3F80, .fsub h0 .bf16 .rne (.v 2) (.v 4) (.imm 0x3F80)),
    (rf 0x102 0 (10 + 48) 2 4 5 0, .fmul h0 .f16 .ru (.v 2) (.v 4) (.reg (.v 5))),
    (rf 0x103 0 (8 + 32) 2 4 5 6, .ffma h0 .f32 .rd (.v 2) (.v 4) (.v 5) (.v 6)),
    (rf 0x104 0 8 2 4 5 0, .fmin h0 .f32 (.v 2) (.v 4) (.reg (.v 5))),
    (imf 0x105 0 8 2 4 0x40000000, .fmax h0 .f32 (.v 2) (.v 4) (.imm 0x40000000)),
    (rf 0x106 0 (8 + 13 * 128) 0x1E1 2 3 0, .fcmp h0 .f32 .geu 1 (.v 2) (.reg (.v 3))),
    (rf 0x107 0 9 2 4 0 0, .fclass h0 .bf16 (.v 2) (.v 4)),
    (rf 0x108 0 (8 + 32) 2 4 0 0, .frnd h0 .f32 .rd (.v 2) (.v 4)),
    (imf 0x109 0 8 2 4 3, .fscale h0 .f32 .rne (.v 2) (.v 4) (.imm 3)),
    (rf 0x10A 0 10 2 4 0 0, .fexp h0 .f16 (.v 2) (.v 4)),
    (rf 0x10B 0 (8 * 2 ^ 11 + 16 + 64) 2 4 0 0, .cvt h0 (.int .i32) (.flt .f32) .rz true false (.v 2) (.v 4)),
    (rf 0x10C 0 (11 + 128) 2 4 5 0, .pack h0 .e4m3 .rne false true (.v 2) (.v 4) (.reg (.v 5))),
    (rf 0x10C 0 (14 + 3 * 64 + 1024 + 2048) 2 4 5 0, .pack h0 (.b8 ⟨3, false, true⟩) .rne true false (.v 2) (.v 4) (.reg (.v 5))),
    (rf 0x10D 0 9 2 4 5 0, .unpk h0 .bf16 (.v 2) (.v 4) (.v 5)),
    (rf 0x10E 0 (9 + 16) 2 4 5 0, .hadd2 h0 .bf16 .rz (.v 2) (.v 4) (.reg (.v 5))),
    (imf 0x10F 0 10 2 4 0x3C003C00, .hmul2 h0 .f16 .rne (.v 2) (.v 4) (.imm 0x3C003C00)),
    (rf 0x110 0 9 2 4 5 6, .hfma2 h0 .bf16 .rne (.v 2) (.v 4) (.v 5) (.v 6)),
    (rf 0x111 0 10 2 4 5 0, .hmin2 h0 .f16 (.v 2) (.v 4) (.reg (.v 5))),
    (rf 0x112 0 9 2 4 5 0, .hmax2 h0 .bf16 (.v 2) (.v 4) (.reg (.v 5))),
    (rf 0x113 0 (9 + 48) 2 4 5 6, .dot2f h0 .bf16 .ru (.v 2) (.v 4) (.v 5) (.v 6)),
    (imf 0x114 0 0 0 0 99, .seed h0 (.imm 99))] = true := by decide +kernel

theorem test_words_special : reads [
    (rf 0x140 0 8 2 4 0 0, .rcp h0 (.v 2) (.v 4)),
    (rf 0x141 0 8 2 4 0 0, .rsq h0 (.v 2) (.v 4)),
    (rf 0x142 0 (8 + 16) 2 4 0 0, .sqrt h0 .rz (.v 2) (.v 4)),
    (rf 0x143 0 8 2 4 0 0, .ex2 h0 (.v 2) (.v 4)),
    (rf 0x144 0 8 2 4 0 0, .lg2 h0 (.v 2) (.v 4)),
    (rf 0x145 0 8 2 4 0 0, .sin h0 (.v 2) (.v 4)),
    (rf 0x146 0 8 2 4 0 0, .cos h0 (.v 2) (.v 4)),
    (rf 0x147 2 8 0x102 0x104 0 0, .sincos hG (.g 2) (.g 4)),
    (rf 0x148 3 8 0x142 0x144 0 0, .tanh hT (.t 2) (.t 4)),
    (rf 0x149 0 8 2 4 0 0, .rred h0 (.v 2) (.v 4))] = true := by decide +kernel

theorem test_words_lanes : reads [
    (rf 0x180 0 (2 * 128 + 2 * 512) 2 4 5 0x101, .shfl h0 .rev 2 (.v 2) (.v 4) (.reg (.v 5)) (.g 1)),
    (rf 0x181 0 8 2 4 0 0x220, .pswap h0 (.v 2) (.v 4) .zero),
    (rf 0x182 2 (1 + 2 * 128 + 2048) 0x103 4 0 0x1E2, .reduce hG (.int .n32) .max (.g 3) (.v 4) (some 2)),
    (rf 0x183 0 (8 + 1024) 2 4 0 0, .scan h0 (.flt .f32) .add true (.v 2) (.v 4) none),
    (rf 0x184 0 (8 + 128) 2 4 0 0x220, .matchLanes h0 true (.v 2) (.v 4) .zero),
    (rf 0x185 2 0 0x103 0x1E4 0 0, .ballot hG (.g 3) 4 none),
    (rf 0x186 3 0 0x143 0x1E4 0 0, .elect hT (.t 3) 4),
    (imf 0x187 3 0 0x143 4 40, .bcast hT (.t 3) (.v 4) (.imm 40)),
    (rf 0x188 0 0 2 0x1E1 0 0x220, .firstl h0 (.v 2) 1 .zero)] = true := by decide +kernel

theorem test_words_moves : reads [
    (rf 0x1C0 0 0 2 0x240 0 0, .mov h0 (.v 2) (.sp .lane)),
    (imf 0x1C1 3 0 0x143 0 0xDEADBEEF, .movi hT (.t 3) 0xDEADBEEF),
    (rf 0x1C2 0 (0xC0 * 128) 0x1E3 0x1E1 0x1E2 0x1E7, .plop h0 0xC0 3 1 2 7),
    (rf 0x1C3 0 0 2 4 0 0, .p2r h0 (.v 2) (.v 4)),
    (imf 0x1C4 0 0 0 4 0x7F, .registerToPredicate h0 (.v 4) (.imm 0x7F)),
    (imf 0x1C5 3 0 0x143 0 0x011, .rdsr hT (.t 3) 0x011),
    (imf 0x1C6 3 0 0 0x143 0x010, .wrsr hT 0x010 (.t 3))] = true := by decide +kernel

theorem test_words_memory : reads [
    (rf 0x200 2 (8 + 64 + 512 + 2048) 0x103 0x104 0x105 0, .ld hG ⟨.acq, .team⟩ .w16 .sh true (.g 3) (.g 4) (.reg (.g 5))),
    (imf 0x201 3 (2 + 24 + 128 + 768) 0x144 0x142 8, .st hT ⟨.rel, .pair⟩ .w64 .dz (.t 4) (.t 2) (.imm 8)),
    (imf 0x202 0 (1 + 32 + 7 * 2 ^ 11) 8 4 0, .ldx h0 ⟨.rlx, .slice⟩ .w128 .pp 7 (.v 8) (.v 4) (.imm 0)),
    (rf 0x203 0 (16 + 2 * 2 ^ 11) 5 4 6 0, .stx h0 ⟨.rlx, .slice⟩ .w32 .sh 2 (.v 5) (.v 4) (.reg (.v 6))),
    (rf 0x204 0 (2 + 16 + 192 + 1024 + 4 * 2 ^ 11) 2 4 5 0, .atom h0 ⟨.ar, .die⟩ .w32 .dz .umax (.v 2) (.v 4) (.reg (.v 5))),
    (imf 0x205 0 (16 + 128 + 512 + 9 * 2 ^ 11) 2 4 16, .red h0 ⟨.rel, .team⟩ .w32 .sh .fadd (.v 2) (.v 4) (.imm 16)),
    (rf 0x206 0 24 2 4 5 6, .cas h0 ⟨.rlx, .slice⟩ .w64 .sh (.v 2) (.v 4) (.v 5) (.v 6)),
    (rf 0x207 3 (192 + 5 * 256) 0 0 0 0, .fence hT ⟨.ar, .package⟩)] = true := by decide +kernel

theorem test_words_engines : reads [
    (rf 0x280 3 (5 + 64 + 1024) 0x144 0x142 0x143 0x1F1, .bcopy hT 5 .mem .sh (.t 4) (.t 2) (.t 3) (.handle 1)),
    (rf 0x281 3 (512 + 2 * 2 ^ 11) 0x142 0x144 0x146 0x220, .bgath hT 2 .sh .mem (.t 2) (.t 4) (.t 6) (.barrier .zero)),
    (rf 0x282 3 (64 + 1024) 0x144 0x142 0x146 0x1F3, .bscat hT 0 .mem .sh (.t 4) (.t 2) (.t 6) (.handle 3)),
    (rf 0x283 2 (5 + 16) 0x101 0x102 0x103 0x220, .bfill hG 5 .pp (.g 1) (.g 2) (.g 3) (.barrier .zero)),
    (rf 0x284 3 (2 + 32 + 2 ^ 11) 0x141 0x142 0x143 0x220, .bred hT .smin 2 .dz .sh (.t 1) (.t 2) (.t 3) (.barrier .zero)),
    (rf 0x285 3 (1 + 64 + 8 * 2 ^ 11) 0x141 0x144 0x146 0x149, .batom hT .exch true .mem (.t 1) (.t 4) (.t 6) (.barrier (.t 9))),
    (imf 0x286 3 0 0 0x142 64, .bari hT (.t 2) (.imm 64)),
    (rf 0x287 2 0 0 0x101 0x102 0, .barx hG (.g 1) (.reg (.g 2))),
    (rf 0x288 3 0 0 0x142 0 0, .bara hT (.t 2)),
    (rf 0x289 3 0 0 0x142 0x143 0, .barw hT (.t 2) (.reg (.t 3))),
    (imf 0x28A 0 0 0 4 128, .bar h0 (.v 4) (.imm 128)),
    (imf 0x28B 3 2 0 0 5, .cwait hT .matrix 5),
    (rf 0x28C 3 0 0 0x1F4 0 0, .hwait hT 4),
    (rf 0x28D 3 0 0x1E2 0x1F4 0 0, .htest hT 2 4),
    (rf 0x28E 3 0 0 0x1F4 0 0, .hcancel hT 4),
    (imf 0x28F 3 9 0 0 4096, .chwait hT 9 (.imm 4096))] = true := by decide +kernel

theorem test_words_matrix : reads [
    (rf 0x300 3 (11 + 16 + 2 * 2 ^ 11 + 2 * 2 ^ 13) 0x141 0x142 0x143 0x144,
      .obres hT .e4m3 .sp4 .k32 .ds4 (.t 1) (.t 2) (.t 3) (some (.t 4))),
    (rf 0x301 3 0 0 0x141 0 0, .obrel hT (.t 1)),
    (imf 0x302 3 0 0x141 0x142 256, .obld hT (.t 1) (.t 2) (.imm 256)),
    (rf 0x303 3 0 0x141 0x142 0x143 0, .obsc hT (.t 1) (.t 2) (.reg (.t 3))),
    (rf 0x304 3 (10 + 9 * 2 ^ 11) 0x141 0x142 0x143 0x144, .mma hT .f16 .bf16 false (.t 1) (.t 2) (.t 3) (.t 4)),
    (rf 0x305 3 (9 + 16 + 9 * 2 ^ 11) 0x141 0x142 0x143 0x148, .mmag hT .bf16 .bf16 true (.t 1) (.t 2) (.t 3) (.t 8)),
    (rf 0x306 3 (12 + 11 * 2 ^ 11) 0x141 0x142 0x143 0x144, .mmas hT .e5m2 .e4m3 false (.t 1) (.t 2) (.t 3) (.t 4)),
    (rf 0x307 3 0 0x142 0x144 0 0, .acca hT (.t 2) (.t 4)),
    (rf 0x308 3 0 0 0x141 0 0, .accf hT (.t 1)),
    (rf 0x309 3 0 0 0x141 0 0, .accz hT (.t 1)),
    (rf 0x30A 3 (8 + 4 * 256) 0x141 0x144 0x143 0x1F2, .accld hT .f32 .mem (.t 1) (.t 4) (.t 3) (some 2)),
    (rf 0x30B 3 8 6 0x141 0x142 0, .accrd hT .f32 6 (.t 1) (.t 2)),
    (rf 0x30C 3 (8 + 2048) 0x141 0x142 0x143 0, .accst hT true .f32 .rne false false .sh (.t 1) (.t 2) (.t 3) none),
    (rf 0x30D 3 9 0x141 6 0x142 0, .accwr hT .bf16 (.t 1) 6 (.t 2))] = true := by decide +kernel

theorem test_words_work : reads [
    (rf 0x340 0 1 0 0x203 5 0x1E1, .qtry h0 (.v 0) 3 (some (.v 5)) 1),
    (rf 0x340 3 0 0x142 0x203 0 0x1E1, .qtry hT (.t 2) 3 none 1),
    (rf 0x341 3 0 0x142 0x203 0 0, .qcnt hT (.t 2) 3),
    (rf 0x342 3 1 0x142 0x1E2 0 0, .tile hT true (.t 2) 2),
    (rf 0x343 3 0 0 0 0 0, .seal hT),
    (imf 0x344 3 2 0 0 5, .pbar hT .sync (.imm 5)),
    (rf 0x345 3 (1 + 8 + 32 + 128) 0x1F1 0x148 0x14C 0x14D, .coll hT .redscat .min .bf16 .reweight 1 (.t 8) (.t 12) (.t 13)),
    (rf 0x346 3 0 0x142 0x144 0 0, .view hT (.t 2) (.t 4)),
    (rf 0x347 3 0 0x204 0x141 0x220 0x220, .qcfg hT 4 (.t 1) .zero .zero),
    (rf 0x380 4 0 0 0x1C2 0 0, .snap hW (.w 2)),
    (imf 0x381 3 0 0 0 1, .syscall hT 1),
    (rf 0x382 4 0 0 0x1C2 0x1C4 0, .tlbi hW (.w 2) (.w 4)),
    (imf 0x383 4 0 0x1C3 0 0x111, .csrr hW (.w 3) 0x111),
    (imf 0x384 4 0 0 0x1C3 0x107, .csrw hW 0x107 (.w 3))] = true := by decide +kernel

/-! What meets the hypotheses of the statements: small states of one team that has just started -/

open Machine

/-- The answer of a computation that succeeds, if it meets p. -/
def okWith {ε α : Type} (x : Except ε α) (p : α → Bool) : Bool :=
  match x with
  | .ok a => p a
  | .error _ => false
theorem okWith_ok {ε α : Type} {x : Except ε α} {p : α → Prop} [DecidablePred p] (h : okWith x (fun a => decide (p a)) = true) :
    ∃ a, x = .ok a ∧ p a := by
  cases x with
  | ok a => exact ⟨a, rfl, of_decide_eq_true h⟩
  | error _ => cases h
theorem okWith_eq {ε α : Type} [BEq α] [LawfulBEq α] {x : Except ε α} {a : α} (h : okWith x (fun b => b == a) = true) : x = .ok a := by
  cases x with
  | ok b => rw [eq_of_beq h]
  | error _ => cases h

/-- `Issues`, as a check. -/
def issuesCheck (s : State) (c : CtxId) (h : Head) (how : How) : Bool :=
  s.cur == some c && s.xm.isNone && s.hasCtx c && c.serves h.scope && !(unitOf s c).any (fun u => windowShut ((settled s c).ctx u))
    && (!joins s c h || (!joinFault (settled s c) (unitOf s c) && !joinSwitches (settled s c) (unitOf s c)))
    && (!how.noHandler || !inHandler (entered s c h) c)
    && (!how.varying || !varFull (entered s c h) (unitOf (entered s c h) c))
    && (!how.anchored || ((entered s c h).ctx c).tickets.isEmpty)
theorem issues_check {s : State} {c : CtxId} {h : Head} {how : How} (k : issuesCheck s c h how = true) : Issues s c h how := by
  simp only [issuesCheck, Bool.and_eq_true, Bool.or_eq_true, Bool.not_eq_true', beq_iff_eq, Option.isNone_iff_eq_none,
    List.isEmpty_iff] at k
  obtain ⟨⟨⟨⟨⟨⟨⟨⟨a, b⟩, d⟩, e⟩, f⟩, g⟩, i⟩, j⟩, l⟩ := k
  exact ⟨a, b, d, e, by simpa using f, fun x => by simpa [x] using g, fun x => by simpa [x] using i, fun x => by simpa [x] using j,
    fun x => by simpa [x] using l⟩

/-- `Clear`, as a check. -/
def clearCheck (u : State) (ws : List (CtxId × Loc × Word)) : Bool :=
  u.xm.isNone && ws.all (fun w => (u.ctx w.1).vars.all (fun r => r.writes.all (fun x => x.1 != w.2.1)))
    && (ownersOf ws).all (fun o => logRoom u o (writesOf o ws))
theorem clear_check {u : State} {ws : List (CtxId × Loc × Word)} (k : clearCheck u ws = true) : Clear u ws := by
  simp only [clearCheck, Bool.and_eq_true, Option.isNone_iff_eq_none, List.all_eq_true, bne_iff_ne] at k
  exact ⟨k.1.1, k.1.2, k.2⟩

/-- The contexts of the team, and its state with a word of a level to run (0 and 1 for slices), and one of them to run it. -/
def sl : CtxId := .slice ⟨0, 0⟩ 0 0
def gr : CtxId := .group ⟨0, 0⟩ 0
def tm : CtxId := .team ⟨0, 0⟩ 0
def gd : CtxId := .grid 0 0
def at_ (n : Nat) (c : CtxId) : State := { State.reset.withFetchWord 96 (n * 1024) with cur := some c }
/-- Cells of one context set. -/
def regs (s : State) (c : CtxId) (ws : List (Loc × Word)) : State := s.modCtx c (fun x => x.setCells ws)

/-- An instruction that writes registers may run, its operands are read, and its results find their cells free. -/
def storesCheck (s : State) (c : CtxId) (h : Head) (how : How) (srcs : List Operand) (outs : List (List Nat) → State → List ((CtxId × Nat) × List Out)) :
    Bool :=
  issuesCheck s c h how && !(envAt s c h false).parts.isEmpty && okWith (columns (envAt s c h false) (entered s c h) srcs) (fun (vals, v) =>
    okWith (pushOuts (envAt s c h false) v (outs vals v)) (fun u => clearCheck u (outCells (envAt s c h false) v (outs vals v))))
/-- The hypotheses of such an instruction. -/
def Meets (s : State) (c : CtxId) (h : Head) (how : How) (srcs : List Operand) (outs : List (List Nat) → State → List ((CtxId × Nat) × List Out)) :
    Prop :=
  ∃ vals v u, Issues s c h how ∧ (envAt s c h false).parts ≠ [] ∧ OperandsRead (envAt s c h false) (entered s c h) srcs vals v
    ∧ pushOuts (envAt s c h false) v (outs vals v) = .ok u ∧ Clear u (outCells (envAt s c h false) v (outs vals v))
theorem stores_check {s : State} {c : CtxId} {h : Head} {how : How} {srcs : List Operand}
    {outs : List (List Nat) → State → List ((CtxId × Nat) × List Out)} (k : storesCheck s c h how srcs outs = true) :
    Meets s c h how srcs outs := by
  simp only [storesCheck, Bool.and_eq_true, Bool.not_eq_true', List.isEmpty_eq_false_iff] at k
  obtain ⟨⟨a, b⟩, d⟩ := k
  cases hc : columns (envAt s c h false) (entered s c h) srcs with
  | error _ => rw [hc] at d; cases d
  | ok r =>
    rw [hc] at d
    cases hp : pushOuts (envAt s c h false) r.2 (outs r.1 r.2) with
    | error _ => simp only [okWith, hp] at d; cases d
    | ok u =>
      simp only [okWith, hp] at d
      exact ⟨r.1, r.2, u, issues_check a, b, by simp only [OperandsRead, b, if_false]; exact hc, hp, clear_check d⟩

/-- Results that f computes lane by lane. -/
def perLane (s : State) (c : CtxId) (h : Head) (f : List Nat → List Out) : List (List Nat) → State → List ((CtxId × Nat) × List Out) :=
  fun vals _ => resultsOf (envAt s c h false) vals f

/-- Lane 0 with v1 = 7. -/
def s7 : State := regs (at_ 0 sl) sl [(.v 0 1, 7)]
theorem meets_IntegerResults : Meets s7 sl h0 { anchored := namesQueue [.v 3] [.reg (.v 1) 1, .typed .i32 (.imm 5)] }
    [.reg (.v 1) 1, .typed .i32 (.imm 5)] (perLane s7 sl h0 (fun v => [(.v 3, 1, intResult .i32 true (ival .i32 v 0 + ival .i32 v 1))])) :=
  stores_check (by decide +kernel)

theorem meets_IntegerResults_carry : Meets s7 sl h0 { anchored := namesQueue [.v 3] [.reg (.v 1) 1, .reg (.v 2) 1, .reg (.p 0) 1] }
    [.reg (.v 1) 1, .reg (.v 2) 1, .reg (.p 0) 1] (perLane s7 sl h0 (fun v =>
      [(.v 3, 1, (v.getD 0 0 + v.getD 1 0 + v.getD 2 0) % 2 ^ 32), (.p 0, 1, (v.getD 0 0 + v.getD 1 0 + v.getD 2 0) / 2 ^ 32 % 2)])) :=
  stores_check (by decide +kernel)
theorem meets_BitResults : Meets s7 sl h0 { anchored := namesQueue [.v 4] [.reg (.v 1) 2, .src (.imm 64)] }
    [.reg (.v 1) 2, .src (.imm 64)] (perLane s7 sl h0 (fun v => [(.v 4, 2, shlVal 64 (v.getD 0 0) (v.getD 1 0))])) :=
  stores_check (by decide +kernel)
theorem meets_ValueFunctions : 0 < 1 ∧ (IntTy.n64 = .i32 ∨ IntTy.n64 = .n32 ∨ IntTy.n64 = .i64 ∨ IntTy.n64 = .n64) ∧ (1 : Word) ≠ 0 := by decide
theorem meets_FloatResults : Meets s7 sl h0 { anchored := namesQueue [.v 4] [.reg (.v 1) 1, .src (.reg (.v 2))] }
    [.reg (.v 1) 1, .src (.reg (.v 2))] (perLane s7 sl h0 (fun v => [(.v 4, 1, addCode .f32 .rne (fval .f32 v 0) (fval .f32 v 1))])) :=
  stores_check (by decide +kernel)
theorem meets_SpecialResults : Meets s7 sl h0 { varying := true } [.reg (.v 1) 1]
    (perLane s7 sl h0 (fun v => [(.v 4, 2, v.headD 0)])) := stores_check (by decide +kernel)
theorem meets_SpecialResults_cvt : Meets s7 sl h0 { anchored := namesQueue [.v 4] [.reg (.v 1) (numWords (.flt .f32))] }
    [.reg (.v 1) (numWords (.flt .f32))] (perLane s7 sl h0 (fun v => [(.v 4, 1, v.headD 0)])) := stores_check (by decide +kernel)
theorem meets_SpecialResults_seed : Meets s7 sl h0 { anchored := namesQueue [] [.src (.imm 0)] } [.src (.imm 0)] (fun _ _ => []) :=
  stores_check (by decide +kernel)
theorem meets_MoveResults : Meets s7 sl h0 { anchored := namesQueue [] [.reg (.v 1) 1, .src (.imm 0x7F)] } [.reg (.v 1) 1, .src (.imm 0x7F)]
    (perLane s7 sl h0 (fun v => ((List.range 7).filter (fun i => (v.getD 1 0).testBit i)).map (fun i =>
      (.p (BitVec.ofNat 3 i), 1, ((v.getD 0 0).testBit i).toNat)))) := stores_check (by decide +kernel)
theorem meets_MoveResults_rdsr : Meets (at_ 0 sl) sl h0 { anchored := true, varying := true } []
    (fun _ _ => (envAt (at_ 0 sl) sl h0 false).parts.map (fun e => (e, [(.v 4, 1, statusVal (entered (at_ 0 sl) sl h0) e.1 0)]))) :=
  stores_check (by decide +kernel)
theorem meets_MoveResults_wrsr : Meets (at_ 3 tm) tm hT { anchored := true } [.reg (.t 1) 1] (fun _ _ => []) := stores_check (by decide +kernel)

/-- The team context with handle 1 pending. -/
def sHandle : State := (at_ 3 tm).modCtx tm (fun x => { x with h := x.h.set 1 (.pending 1) })
theorem meets_MoveResults_handle : Issues sHandle tm hT {} ∧ (envAt sHandle tm hT false).parts ≠ []
    ∧ ∀ p ∈ (envAt sHandle tm hT false).parts, ((entered sHandle tm hT).ctx p.1).h.getD 1 .empty ≠ .empty :=
  ⟨issues_check (by decide +kernel), by decide +kernel⟩

theorem meets_LaneExchange : Meets s7 sl h0 { varying := true } [.reg (.v 1) 1, .src (.imm 1)]
      (perLane s7 sl h0 (fun v => [(.v 4, 1, v.headD 0)]))
    ∧ memberFault (envAt s7 sl h0 false) (entered s7 sl h0) .zero = none := ⟨stores_check (by decide +kernel), by decide +kernel⟩
/-- A mask that names the four lanes. -/
theorem meets_LaneExchange_mask : let s := regs (at_ 0 sl) sl [(.v 0 2, 15), (.v 1 2, 15), (.v 2 2, 15), (.v 3 2, 15)]
    Issues s sl h0 { varying := true } ∧ memberFault (envAt s sl h0 false) (entered s sl h0) (.v 2) = none :=
  ⟨issues_check (by decide +kernel), by decide +kernel⟩
theorem meets_LaneExchange_upper : Meets (at_ 2 gr) gr hG upperHow [] (fun _ _ => [((gr, 0), [(.g 1, 1, 5)])])
    ∧ settledBelow (entered (at_ 2 gr) gr hG) gr = true
    ∧ namedLane (viewBelow (entered (at_ 2 gr) gr hG) gr) .G gr 3 = some (sl, 3) ∧ hG.scope ≠ .L :=
  ⟨stores_check (by decide +kernel), by decide +kernel⟩

/-- The accesses of a local-memory instruction pass: `Reaches`, as a check. -/
def reachesCheck (e : Env) (v : State) (sp : Space) (al n : Nat) (w : Want) (vals : List (List Nat)) (p : List Access → Bool) : Bool :=
  match checkAccess e v sp al n w (e.parts.zip (vals.map addrOf)) with
  | .ok l => !anyHeld v e.team l && (badRead v e.team sp l).isNone && p l
  | .no _ => false
theorem reaches_check {e : Env} {v : State} {sp : Space} {al n : Nat} {w : Want} {vals : List (List Nat)} {p : List Access → Prop}
    [DecidablePred p] (k : reachesCheck e v sp al n w vals (fun l => decide (p l)) = true) : ∃ l, Reaches e v sp al n w vals l ∧ p l := by
  unfold reachesCheck at k
  split at k
  · next l h =>
    simp only [Bool.and_eq_true, Bool.not_eq_true', Option.isNone_iff_eq_none, decide_eq_true_eq] at k
    exact ⟨l, ⟨h, k.1.1, fun _ => k.1.2⟩, k.2⟩
  · cases k
/-- The hypotheses of an instruction whose operands are read, and a property of what is read. -/
def Reads (s : State) (c : CtxId) (h : Head) (how : How) (srcs : List Operand) (P : List (List Nat) → State → Prop) : Prop :=
  ∃ vals v, Issues s c h how ∧ (envAt s c h false).parts ≠ [] ∧ columns (envAt s c h false) (entered s c h) srcs = .ok (vals, v) ∧ P vals v
theorem reads_check {s : State} {c : CtxId} {h : Head} {how : How} {srcs : List Operand} {P : List (List Nat) → State → Prop}
    (p : List (List Nat) → State → Bool) (hp : ∀ vals v, p vals v = true → P vals v)
    (k : (issuesCheck s c h how && !(envAt s c h false).parts.isEmpty
      && okWith (columns (envAt s c h false) (entered s c h) srcs) (fun r => p r.1 r.2)) = true) : Reads s c h how srcs P := by
  simp only [Bool.and_eq_true, Bool.not_eq_true', List.isEmpty_eq_false_iff] at k
  obtain ⟨⟨a, b⟩, d⟩ := k
  cases hc : columns (envAt s c h false) (entered s c h) srcs with
  | error _ => rw [hc] at d; cases d
  | ok r => rw [hc] at d; exact ⟨r.1, r.2, issues_check a, b, hc, hp _ _ d⟩
theorem reads_decide {s : State} {c : CtxId} {h : Head} {how : How} {srcs : List Operand} {P : List (List Nat) → State → Prop}
    [∀ vals v, Decidable (P vals v)] (k : (issuesCheck s c h how && !(envAt s c h false).parts.isEmpty
      && okWith (columns (envAt s c h false) (entered s c h) srcs) (fun r => decide (P r.1 r.2))) = true) : Reads s c h how srcs P :=
  reads_check (fun vals v => decide (P vals v)) (fun _ _ h => of_decide_eq_true h) k

/-- A load of 32 bits from the last word of `sh`. -/
theorem meets_LoadResults : let s := regs (at_ 0 sl) sl [(.v 0 1, 65532)]
    Reads s sl h0 loadHow [.reg (.v 1) 1, .src (.imm 0)] (fun vals v => ∃ l, Reaches (envAt s sl h0 false) v .sh 4 4 .read vals l
      ∧ Clear v (outCells (envAt s sl h0 false) v (l.map (fun x => (x.who, [(.v 4, 1, 0)]))))) ∧ acquiring (entered s sl h0) (envAt s sl h0 false) = false :=
  ⟨reads_check (fun vals v => reachesCheck (envAt _ sl h0 false) v .sh 4 4 .read vals (fun l => decide (clearCheck v
      (outCells (envAt _ sl h0 false) v (l.map (fun x => (x.who, [(.v 4, 1, 0)])))) = true)))
      (fun _ _ h => by obtain ⟨l, a, b⟩ := reaches_check h; exact ⟨l, a, clear_check b⟩) (by decide +kernel), by decide +kernel⟩
theorem meets_StoreResults : let s := regs (at_ 0 sl) sl [(.v 0 1, 65532)]
    Reads s sl h0 memHow [.reg (.v 1) 1, .src (.imm 0), .reg (.v 4) 1] (fun vals v => ∃ l, Reaches (envAt s sl h0 false) v .sh 4 4 .write vals l
      ∧ galleyFits v (envAt s sl h0 false).team (l.flatMap (fun x => x.cells.zip (leBytes 4 0))) = true) :=
  reads_check (fun vals v => reachesCheck (envAt _ sl h0 false) v .sh 4 4 .write vals (fun l => decide (
      galleyFits v (envAt _ sl h0 false).team (l.flatMap (fun x => x.cells.zip (leBytes 4 0))) = true)))
      (fun _ _ h => reaches_check h) (by decide +kernel)
/-- The first 2 MiB of the `pv` region are in the core's cache, and stand below the high-water mark. -/
def sPv : State := ((at_ 0 sl).modCore 0 (fun x => { x with tlb := (0, 2 ^ 29 / 2 ^ 21, 21, 2 ^ 29 + 0x17) :: x.tlb })).modContext 0
  (fun x => { x with pvmark := 65536 })
theorem meets_StoreResults_pv : Reads sPv sl h0 memHow [.reg (.v 1) 1, .src (.imm 0), .reg (.v 4) 1] (fun vals v =>
    ∃ l, Reaches (envAt sPv sl h0 false) v .pv 4 4 .pvWrite vals l ∧ l ≠ []) :=
  reads_check (fun vals v => reachesCheck (envAt sPv sl h0 false) v .pv 4 4 .pvWrite vals (fun l => decide (l ≠ [])))
      (fun _ _ h => reaches_check h) (by decide +kernel)
/-- Each of the three outcomes: the last word of `sh`; a skew address; one past the end. -/
theorem meets_AccessChecks : let e := envAt (at_ 0 sl) sl h0 false
    (∀ b ∈ [((sl, 0), 65532)], b.2 % 4 = 0) ∧ (∀ b ∈ [((sl, 0), 65532)], (resolve (at_ 0 sl) e.team .sh b.2 4).isSome)
    ∧ [((sl, 0), 65534)].filter (fun b => b.2 % 4 ≠ 0) = [((sl, 0), 65534)]
    ∧ [((sl, 0), 2 ^ 20)].filter (fun b => (resolve (at_ 0 sl) e.team .sh b.2 4).isNone) = [((sl, 0), 2 ^ 20)] := by decide +kernel

/-- `Performs`, as a check. -/
def performsCheck (e : Env) (v : State) (sp : Space) (op : AtomOp) (n : Nat) (vals : List (List Nat)) : Bool :=
  match checkAccess e v sp n n .write (e.parts.zip (vals.map addrOf)) with
  | .ok l =>
    let new := l.filter (fun x => (replayed v e.team (effKey v x.who) (pointOf x.place) op.code 0 x.addr).isNone)
    (!isShadow e.team || new.isEmpty) && !anyHeld v e.team new && (badRead v e.team sp new).isNone
      && (effectBar v e.team new.length (new.map (fun x => pointOf x.place)) sp.eng.num).isNone
      && galleyFits v e.team (new.flatMap (fun x => x.cells.zip (leBytes n 0)))
  | .no _ => false
theorem performs_check {e : Env} {v : State} {sp : Space} {op : AtomOp} {n : Nat} {vals : List (List Nat)}
    (k : performsCheck e v sp op n vals = true) : ∃ l, Performs e v sp op n vals l := by
  unfold performsCheck at k
  split at k
  · next l h =>
    simp only [Bool.and_eq_true, Bool.or_eq_true, Bool.not_eq_true', Option.isNone_iff_eq_none, List.isEmpty_iff] at k
    exact ⟨l, h, fun x => by simpa [x] using k.1.1.1.1, k.1.1.1.2, k.1.1.2, k.1.2, k.2⟩
  · cases k
theorem meets_AtomicResults : Reads (at_ 0 sl) sl h0 loadHow [.reg (.v 1) 1, .src (.imm 65528), .reg (.v 4) 2] (fun vals v =>
      ∃ l, Performs (envAt (at_ 0 sl) sl h0 false) v .sh .add 8 vals l)
    ∧ acquiring (entered (at_ 0 sl) sl h0) (envAt (at_ 0 sl) sl h0 false) = false :=
  ⟨reads_check (fun vals v => performsCheck (envAt (at_ 0 sl) sl h0 false) v .sh .add 8 vals) (fun _ _ h => performs_check h) (by decide +kernel),
    by decide +kernel⟩
theorem meets_AtomicResults_cas : Reads (at_ 0 sl) sl h0 loadHow [.reg (.v 1) 1, .reg (.v 2) 1, .reg (.v 4) 1, .reg (.v 5) 1] (fun vals v =>
    ∃ l, Performs (envAt (at_ 0 sl) sl h0 false) v .dz .cas 4 vals l) :=
  reads_check (fun vals v => performsCheck (envAt (at_ 0 sl) sl h0 false) v .dz .cas 4 vals) (fun _ _ h => performs_check h) (by decide +kernel)
/-- A release of package scope with nothing held. -/
theorem meets_FenceCompletes : let s := at_ 3 tm
    Issues s tm hT memHow ∧ (envAt s tm hT false).parts ≠ [] ∧ outstanding (entered s tm hT) (envAt s tm hT false).unit = false
    ∧ ((entered s tm hT).ctx tm).wait = none ∧ fenceUntil (entered s tm hT) ((envAt s tm hT false).unit ++ contextsBelow (entered s tm hT) tm) .package ≤ (entered s tm hT).tick :=
  ⟨issues_check (by decide +kernel), by decide +kernel⟩

/-- Slice 0 with p0 true in some lanes. -/
def sVote (l : List Nat) : State := regs (at_ 1 sl) sl (l.map (fun k => (.lp k 0, 1)))
theorem meets_VoteAgreement : (∀ u ∈ voteUnits (sVote []) .S sl .L 0, u.2 = false)
    ∧ voteUnits (sVote [0, 1, 2, 3]) .S sl .L 0 ≠ [] ∧ (∀ u ∈ voteUnits (sVote [0, 1, 2, 3]) .S sl .L 0, u.2 = true)
    ∧ (∃ u ∈ voteUnits (sVote [3]) .S sl .L 0, u.2 = true) ∧ (∃ u ∈ voteUnits (sVote [3]) .S sl .L 0, u.2 = false) := by decide +kernel
theorem meets_UpperBranches : let s := at_ 3 tm
    2 ≤ hT.scope.level ∧ (envAt s tm hT false).parts ≠ [] ∧ Issues s tm hT { anchored := votes .T .L (some 0) }
    ∧ branchReady (entered s tm hT) (envAt s tm hT false) .L (some 0) = true ∧ condition (entered s tm hT) .T tm .L true (some 0) = .ok true :=
  ⟨by decide, by decide +kernel, issues_check (by decide +kernel), by decide +kernel, okWith_eq (by decide +kernel)⟩
theorem meets_SliceBranches : let s := sVote [0, 1, 2, 3]
    Issues s sl hS { raw := true } ∧ branchReady (entered s sl hS) (envAt s sl hS true) .L (some 0) = true
    ∧ ∀ u ∈ (envAt s sl hS true).unit, takesPart (entered s sl hS) (envAt s sl hS true) u = true →
      condition (entered s sl hS) .S (decider (entered s sl hS) (envAt s sl hS true).unit u) .L false (some 0) = .ok true :=
  ⟨issues_check (by decide +kernel), by decide +kernel, fun u hu _ => by
    have h : (envAt (sVote [0, 1, 2, 3]) sl hS true).unit = [sl] := by decide +kernel
    rw [h, List.mem_singleton] at hu; subst hu; exact okWith_eq (by decide +kernel)⟩
/-- No lane taken; every lane; lane 3 only, with an entry to wait in. -/
theorem meets_LaneBranches : let s := (sVote [3]).modCtx sl (fun x => { x with rstk := [⟨9, 0, false⟩] })
    let taken (a : BitVec 3) := (envAt s sl h0 false).parts.filter (fun p => readPred (entered s sl h0) .L p.1 p.2 a)
    Issues s sl h0 {} ∧ (envAt s sl h0 false).parts ≠ [] ∧ taken 1 = [] ∧ taken 7 = (envAt s sl h0 false).parts ∧ taken 0 = [(sl, 3)]
    ∧ ∀ u ∈ (envAt s sl h0 false).unit, ((entered s sl h0).ctx u).rstk = [⟨9, 0, false⟩] :=
  ⟨issues_check (by decide +kernel), by decide +kernel⟩
/-- A call with one place left, and a return from that depth. -/
theorem meets_CallsAndReturns : let s := (at_ 3 tm).modCtx tm (fun x => { x with calls := List.replicate 31 5 })
    Issues s tm hT {} ∧ (envAt s tm hT false).parts ≠ [] ∧ ((entered s tm hT).ctx tm).calls.length < callDepth tm
    ∧ ((entered s tm hT).ctx tm).calls = 5 :: List.replicate 30 5 := ⟨issues_check (by decide +kernel), by decide +kernel⟩
/-- Every slice of the unit has an active lane, and its guard holds. -/
def allOn (s : State) : Prop := ∀ x ∈ (envAt s sl hS true).unit, ((entered s sl hS).ctx x).active = true
  ∧ guardOn (entered s sl hS) .S x 0 hS.guard = true
theorem meets_CallsAndReturns_slice : let s := (at_ 1 sl).modCtx sl (fun x => { x with calls := List.replicate 7 5 })
    Issues s sl hS { raw := true } ∧ allOn s ∧ ∀ x ∈ (envAt s sl hS true).unit,
      ((entered s sl hS).ctx x).calls.length < callDepth x ∧ ((entered s sl hS).ctx x).calls ≠ [] :=
  ⟨issues_check (by decide +kernel), by unfold allOn; decide +kernel, by decide +kernel⟩
theorem meets_CallsAndReturns_slice_full : let s := (at_ 1 sl).modCtx sl (fun x => { x with calls := List.replicate 8 5 })
    Issues s sl hS { raw := true } ∧ allOn s ∧ ∃ x ∈ (envAt s sl hS true).unit, callDepth x ≤ ((entered s sl hS).ctx x).calls.length :=
  ⟨issues_check (by decide +kernel), by unfold allOn; decide +kernel, sl, by decide +kernel⟩
theorem meets_CallsAndReturns_slice_empty : Issues (at_ 1 sl) sl hS { raw := true } ∧ allOn (at_ 1 sl)
    ∧ ∃ x ∈ (envAt (at_ 1 sl) sl hS true).unit, ((entered (at_ 1 sl) sl hS).ctx x).calls = [] :=
  ⟨issues_check (by decide +kernel), by unfold allOn; decide +kernel, sl, by decide +kernel⟩
theorem meets_LoopCounting_slice : let s := regs (at_ 1 sl) sl [(.lc 3, 2)]
    Issues s sl hS { raw := true } ∧ allOn s ∧ Clear (entered s sl hS) [(sl, .lc 3, 1)] :=
  ⟨issues_check (by decide +kernel), by unfold allOn; decide +kernel, clear_check (by decide +kernel)⟩
theorem meets_SliceBranches_calls : let s := (at_ 1 sl).modCtx sl (fun x => { x with calls := List.replicate 7 5 })
    Issues s sl hS { raw := true } ∧ ∀ x ∈ (envAt s sl hS true).unit, takesPart (entered s sl hS) (envAt s sl hS true) x = true
      ∧ ((entered s sl hS).ctx x).calls.length < callDepth x ∧ ((entered s sl hS).ctx x).calls ≠ [] :=
  ⟨issues_check (by decide +kernel), by decide +kernel⟩
/-- A full stack, and an empty one. -/
theorem meets_CallsAndReturns_full : let s := (at_ 3 tm).modCtx tm (fun x => { x with calls := List.replicate 32 5 })
    Issues s tm hT {} ∧ (envAt s tm hT false).parts ≠ [] ∧ callDepth tm ≤ ((entered s tm hT).ctx tm).calls.length :=
  ⟨issues_check (by decide +kernel), by decide +kernel⟩
theorem meets_CallsAndReturns_empty : Issues (at_ 3 tm) tm hT {} ∧ (envAt (at_ 3 tm) tm hT false).parts ≠ []
    ∧ ((entered (at_ 3 tm) tm hT).ctx tm).calls = [] := ⟨issues_check (by decide +kernel), by decide +kernel⟩
theorem meets_SliceBranches_calls_full : let s := (at_ 1 sl).modCtx sl (fun x => { x with calls := List.replicate 8 5 })
    Issues s sl hS { raw := true } ∧ ∃ x ∈ (envAt s sl hS true).unit, takesPart (entered s sl hS) (envAt s sl hS true) x = true
      ∧ callDepth x ≤ ((entered s sl hS).ctx x).calls.length :=
  ⟨issues_check (by decide +kernel), sl, by decide +kernel⟩
theorem meets_SliceBranches_calls_empty : Issues (at_ 1 sl) sl hS { raw := true } ∧ ∃ x ∈ (envAt (at_ 1 sl) sl hS true).unit,
    takesPart (entered (at_ 1 sl) sl hS) (envAt (at_ 1 sl) sl hS true) x = true ∧ ((entered (at_ 1 sl) sl hS).ctx x).calls = [] :=
  ⟨issues_check (by decide +kernel), sl, by decide +kernel⟩
theorem meets_LoopCounting : let s := regs (at_ 3 tm) tm [(.lc 3, 1)]
    Issues s tm hT {} ∧ (envAt s tm hT false).parts ≠ [] ∧ Clear (entered s tm hT) [(tm, .lc 3, 0)] :=
  ⟨issues_check (by decide +kernel), by decide +kernel, clear_check (by decide +kernel)⟩
theorem meets_SliceBranches_loop : let s := regs (at_ 1 sl) sl [(.lc 3, 2)]
    Issues s sl hS { raw := true } ∧ Clear (entered s sl hS) [(sl, .lc 3, 1)] :=
  ⟨issues_check (by decide +kernel), clear_check (by decide +kernel)⟩
theorem meets_LoopCounting_lcnt : Meets s7 sl hS { anchored := namesQueue [] [.src (.imm 9)] } [.src (.imm 9)]
    (perLane s7 sl hS (fun v => [(.lc 3, 1, v.headD 0)])) := stores_check (by decide +kernel)

/-- A group of two slices, parted: slice 1 waits at a `REGANG`. -/
def sParted : State :=
  let s := putTeam { at_ 0 sl with ctxs := [], teams := [] } ⟨0, 0⟩ (newTeam 0 0 0 65536 none [⟨0, 1, 2, 128, 0, false, none, [], 0⟩] 0xFFFF none)
  (s.modCtx gr (fun x => { x with parted := true })).modCtx (.slice ⟨0, 0⟩ 0 1) (fun x => { x with wait := some .regang })
theorem meets_DivergenceAndGangs : Issues sParted sl h0 {} ∧ (envAt sParted sl h0 false).parts ≠ []
    ∧ isParted (entered sParted sl h0) ⟨0, 0⟩ 0 = true ∧ liveSlices (entered sParted sl h0) ⟨0, 0⟩ 0 = [sl, .slice ⟨0, 0⟩ 0 1]
    ∧ (∀ u ∈ liveSlices (entered sParted sl h0) ⟨0, 0⟩ 0, (u = sl ∨ ((entered sParted sl h0).ctx u).wait = some .regang)
      ∧ ((entered sParted sl h0).ctx u).pc = 0 ∧ ((entered sParted sl h0).ctx u).rstk.length = 0)
    ∧ (entered sParted sl h0).hasCtx gr = true := ⟨issues_check (by decide +kernel), by decide +kernel⟩
theorem meets_DivergenceAndGangs_rcv : let s := (at_ 0 sl).modCtx sl (fun x => { x with rstk := List.replicate 15 ⟨9, 0, false⟩ })
    Issues s sl h0 {} ∧ (envAt s sl h0 false).parts ≠ [] ∧ (∀ p ∈ (envAt s sl h0 false).parts, ((entered s sl h0).ctx p.1).rstk.length < 16)
    ∧ isParted (entered s sl h0) ⟨0, 0⟩ 0 = false := ⟨issues_check (by decide +kernel), by decide +kernel⟩
theorem meets_DivergenceAndGangs_full : let s := (at_ 0 sl).modCtx sl (fun x => { x with rstk := List.replicate 16 ⟨9, 0, false⟩ })
    Issues s sl h0 {} ∧ ∃ p ∈ (envAt s sl h0 false).parts, 16 ≤ ((entered s sl h0).ctx p.1).rstk.length :=
  ⟨issues_check (by decide +kernel), (sl, 0), by decide +kernel⟩
/-- Lane 3 waits in the top entry. -/
theorem meets_JoinSwitches : let s := (at_ 0 sl).modCtx sl (fun x => { x with rstk := [⟨9, 8, false⟩] })
    let h : Head := { h0 with join := true }
    (Instr.nop h).fields.bind headOf = some h ∧ s.cur = some sl ∧ s.xm = none ∧ s.hasCtx sl = true ∧ sl.serves h.scope = true
    ∧ (unitOf s sl).any (fun u => windowShut ((settled s sl).ctx u)) = false ∧ joins s sl h = true
    ∧ joinFault (settled s sl) (unitOf s sl) = false ∧ joinSwitches (settled s sl) (unitOf s sl) = true := by decide +kernel
/-- Under `@p0`, which no lane has set. -/
theorem meets_GuardedOff : let h : Head := { h0 with guard := ⟨false, 0⟩ }
    (Instr.nop h).fields.bind headOf = some h ∧ Issues (at_ 0 sl) sl h ⟨true, true, true, false, false⟩ ∧ (envAt (at_ 0 sl) sl h false).parts = []
    ∧ h.scope ≠ .S := ⟨by decide +kernel, issues_check (by decide +kernel), by decide +kernel⟩
theorem meets_ExitEnds : Issues (at_ 0 sl) sl h0 { anchored := true } ∧ (envAt (at_ 0 sl) sl h0 false).parts ≠ []
    ∧ (entered (at_ 0 sl) sl h0).hasCtx sl = true := ⟨issues_check (by decide +kernel), by decide +kernel⟩
theorem meets_VoteResults : Meets (sVote [3]) sl hS {} [] (fun _ _ => [((sl, 0), [(.p 1, 1, 1)])])
    ∧ branchReady (entered (sVote [3]) sl hS) (envAt (sVote [3]) sl hS false) .L (some 0) = true :=
  ⟨stores_check (by decide +kernel), by decide +kernel⟩
/-- A wait that has ended; one to begin; a context with a debug agent and one without. -/
theorem meets_Waiting : let s := (at_ 3 tm).modCtx tm (fun x => { x with wait := some (.nap 0) })
    Issues s tm hT { anchored := true } ∧ (envAt s tm hT false).parts ≠ [] ∧ ((entered s tm hT).ctx tm).wait = some (.nap 0)
    ∧ debugged (entered s tm hT) tm = false ∧ debugged ((entered s tm hT).modContext 0 (fun x => { x with debug := true })) tm = true :=
  ⟨issues_check (by decide +kernel), by decide +kernel⟩
theorem meets_Waiting_nap : Reads (at_ 3 tm) tm hT { anchored := true } [.src (.imm 8)] (fun vals _ => (vals.headD []).headD 0 ≠ 0)
    ∧ ∀ u, ((entered (at_ 3 tm) tm hT).ctx tm).wait ≠ some (.nap u) := by
  refine ⟨reads_decide (by decide +kernel), fun u => ?_⟩
  have : ((entered (at_ 3 tm) tm hT).ctx tm).wait = none := by decide +kernel
  simp [this]

/-- A launch with a handler. -/
def sTrap : State := (at_ 0 sl).modLaunch 0 (fun l => { l with trapPc := some 64 })
theorem meets_TrapEntry : faultHome sTrap sl = some (⟨0, 0⟩, 0) ∧ sl.level < 4 ∧ sTrap.hasCtx sl = true ∧ sl ∈ roleCtxs sTrap ⟨0, 0⟩ 0
    ∧ (∃ x q l, sTrap.team? ⟨0, 0⟩ = some x ∧ x.roles[0]? = some q ∧ x.handling = false ∧ sTrap.launch? 0 = some l ∧ l.trapPc = some 64)
    ∧ Cause.illop.dest = .handler := by
  refine ⟨by decide +kernel, by decide, by decide +kernel, by decide +kernel, ?_, by decide⟩
  have h : ((sTrap.team? ⟨0, 0⟩).bind (fun x => (x.roles[0]?).bind (fun _ => (sTrap.launch? 0).bind (fun l =>
    if x.handling = false then l.trapPc else none)))) = some 64 := by decide +kernel
  grind [Option.bind_eq_some_iff]
theorem meets_TrapEntry_trap : Issues sTrap sl h0 { anchored := true } ∧ (envAt sTrap sl h0 false).parts ≠ [] :=
  ⟨issues_check (by decide +kernel), by decide +kernel⟩
/-- The role in its handler, where its team context runs; and one that is in none. -/
theorem meets_TrapReturn : let s := { raise sTrap sl 0 { cause := .illop } with cur := some tm }
    let u := entered s tm hT
    Issues s tm hT { anchored := true } ∧ (envAt s tm hT false).parts ≠ [] ∧ inHandler (entered (at_ 3 tm) tm hT) tm = false
    ∧ ((u.team? ⟨0, 0⟩).map (fun x => x.faults)) = some [] ∧ ((role? u ⟨0, 0⟩ (roleOf u tm)).bind (fun q => q.handler)).isSome = true
    ∧ ∀ o ∈ [tm, gr, sl], o ∈ roleCtxs u ⟨0, 0⟩ (roleOf u tm) ∧ u.hasCtx o = true ∧ (u.ctx o).saved.isSome = true :=
  ⟨issues_check (by decide +kernel), by decide +kernel⟩
/-- Lane 0 holds `ADD.L v9, v8, 1`, the other lanes `ADD.L v9, v8, 2`. -/
def sXissue : State := regs (at_ 0 sl) sl ((List.range 4).flatMap (fun k =>
  ((List.range 3).zip (wordsOf 3 (0x040 + 7 * 2 ^ 13 + 2 ^ 17 + 9 * 2 ^ 34 + 8 * 2 ^ 45 + (if k = 0 then 1 else 2) * 2 ^ 56))).map
    (fun (i, w) => (Loc.v k (1 + i), w))))
theorem meets_XissueRuns : let u := entered sXissue sl h0
    let l := laneWords (envAt sXissue sl h0 false) u (.v 1)
    let env : DecEnv := ⟨((role? u ⟨0, 0⟩ 0).map (fun r => r.budget)).getD 0, false⟩
    let r := runWords l env (u.ctx sl).xk ((distinct (l.map (fun p => p.2))).drop (u.ctx sl).xk) ⟨u, [], none, none⟩
    Issues sXissue sl h0 { varying := true } ∧ (envAt sXissue sl h0 false).parts ≠ [] ∧ (∀ p ∈ l, (permitted env p.2).isSome = true)
    ∧ r.stall = none ∧ r.trap.isNone = true ∧ r.written = [0, 1, 2, 3].map (fun k => (sl, .v k 9))
    ∧ meetsPending u ((distinct r.written).map (fun w => (w.1, w.2, 0))) = false :=
  ⟨issues_check (by decide +kernel), by decide +kernel⟩

/-- A skew length; a source that ends one word past `sh`; and an operand in order. -/
theorem meets_EngineChecks : (∃ x ∈ [(0x100, 4), (62, 4)], x.1 % x.2 ≠ 0) ∧ (∀ x ∈ [(0x100, 4), (64, 4)], x.1 % x.2 = 0)
    ∧ (∃ x ∈ [(EP.mk .sh (2 ^ 20 - 60), 64)], inSpace (at_ 3 tm) ⟨0, 0⟩ x.1 x.2 = false) := by decide +kernel

/-- t1, t2 and t3 name 64 bytes at 0x100 and at 0x200 of `sh`, t4 a barrier object. -/
def sEng : State := regs (at_ 3 tm) tm [(.sc 1, 0x100), (.sc 2, 0x200), (.sc 3, 64), (.sc 4, 0x400)]
theorem meets_EnginesQueue : Reads sEng tm hT engineHow ([.reg (.t 1) (spaceWords .sh), .reg (.t 2) (spaceWords .sh), .reg (.t 3) 1]
      ++ doneSrc (.barrier (.t 4))) (fun vals v =>
    let t := (envAt sEng tm hT false).team
    let w := vals.headD []
    let dst : EP := ⟨.sh, w.getD 0 0⟩
    let src : EP := ⟨.sh, w.getD 1 0⟩
    let len := w.getD 2 0
    ownsChan v t 15 = true ∧ countFull v tm .copy = false ∧ ((chanOf v 0 15).map (fun x => x.ops.length)).getD 0 < 8
    ∧ checkRanges v t (localAlign false dst ++ localAlign false src ++ [(len, 4)]) [(dst, len), (src, len)] w[3]? = none
    ∧ checkRanges v t (localAlign true dst ++ localAlign true src ++ [(len, 4)]) [(dst, len), (src, len)] w[3]? = none
    ∧ (engineQuota v (envAt sEng tm hT false) AtomOp.add.code 1 dst).isNone = true
    ∧ checkRanges v t (localAlign false dst ++ [(len, 4)]) [(dst, len)] w[3]? = none) := reads_decide (by decide +kernel)
/-- Four elements of 4 bytes; an index list at 0x300 of `sh` (t6, t7). -/
theorem meets_EnginesQueue_gather : let s := regs sEng tm [(.sc 6, 0x300), (.sc 7, 4)]
    Reads s tm hT engineHow ([.reg (.t 1) (spaceWords .sh), .reg (.t 2) (spaceWords .sh), .reg (.t 6) 2] ++ doneSrc (.handle 5)) (fun vals v =>
      let w := vals.headD []
      let dst : EP := ⟨.sh, w.getD 0 0⟩
      let src : EP := ⟨.sh, w.getD 1 0⟩
      let idx := w.getD 2 0 % 2 ^ 32
      let n := w.getD 2 0 / 2 ^ 32
      n = 4 ∧ n ≤ 65536 ∧ countFull v tm .gather = false
      ∧ checkRanges v ⟨0, 0⟩ [(dst.addr, 4), (src.addr, 4), (idx, 4)] [(dst, n * 4), (src, 0), (⟨.sh, idx⟩, 4 * n)] w[3]? = none
      ∧ checkRanges v ⟨0, 0⟩ [(dst.addr, 4), (src.addr, 4), (idx, 4)] [(dst, 0), (src, n * 4), (⟨.sh, idx⟩, 4 * n)] w[3]? = none) :=
  reads_decide (by decide +kernel)
theorem meets_EnginesQueue_atomic : Reads sEng tm hT engineHow ([.reg (.t 1) 1, .reg (.t 2) (spaceWords .dz), .reg (.t 10) 2]
      ++ doneSrc (.barrier .zero)) (fun vals v =>
    let w := vals.headD []
    let slot := w.getD 0 0
    let dst : EP := ⟨.dz, w.getD 1 0⟩
    checkRanges v ⟨0, 0⟩ [(slot, 8), (dst.addr, 8)] [(⟨.sh, slot⟩, 8), (dst, 8)] w[3]? = none
    ∧ ¬(dst.sp = .mem ∧ dst.addr.testBit 56 = true) ∧ (engineQuota v (envAt sEng tm hT false) AtomOp.cas.code 2 dst).isNone = true
    ∧ countFull v tm .copy = false) := reads_decide (by decide +kernel)
/-- Handle 1 complete; a copy that has begun, and one that has not. -/
theorem meets_EngineWaits : let s := (at_ 3 tm).modCtx tm (fun x => { x with h := x.h.set 1 (.complete 1 0) })
    let o := newOp s (envAt s tm hT false) (.copy ⟨.sh, 0⟩ ⟨.sh, 64⟩ 64) (some .copy)
    let u := { entered s tm hT with ops := [{ o with begun := true }, { o with id := 2 }] }
    Issues s tm hT engineHow ∧ (envAt s tm hT false).parts ≠ [] ∧ (∀ p ∈ (envAt s tm hT false).parts, countOf (entered s tm hT) p.1 .copy ≤ 0)
    ∧ ownsChan (entered s tm hT) (envAt s tm hT false).team 15 = true
    ∧ (∀ p ∈ (envAt s tm hT false).parts, (((entered s tm hT).ctx p.1).h.getD 1 .empty).done = true)
    ∧ (u.op? 1).map (fun o => (o.begun, o.finished)) = some (true, false) ∧ (u.op? 2).map (fun o => (o.begun, o.finished)) = some (false, false) :=
  ⟨issues_check (by decide +kernel), by decide +kernel⟩
theorem meets_EngineWaits_channel : Reads (at_ 3 tm) tm hT engineHow [.src (.imm 0)] (fun vals _ => ∀ w ∈ vals, w.headD 0 ≤
    ((((entered (at_ 3 tm) tm hT).team? ⟨0, 0⟩).bind (fun y => chanOf (entered (at_ 3 tm) tm hT) y.core 15)).map (fun k => k.cwp.toNat)).getD 0) :=
  reads_decide (by decide +kernel)

/-- The object at 0x400, named by t4: a generation of 0xFFFF, and the greatest counts. -/
def sBar (b : Bar) : State := setBar sEng ⟨0, 0⟩ 0x400 b
def onObjectCheck (writes : Bool) (s : State) (c : CtxId) (h : Head) (srcs : List Operand) (a n : Nat) (p : State → Bool) : Bool :=
  issuesCheck s c h engineHow && !(envAt s c h false).parts.isEmpty && !acquiring (entered s c h) (envAt s c h false)
    && okWith (columns (envAt s c h false) (entered s c h) srcs) (fun (vals, v) => (vals.headD []).getD 0 0 == a && (vals.headD []).getD 1 0 == n
      && (objectFault v (envAt s c h false).team a).isNone && !objectHeld v (envAt s c h false).team a
      && (!writes || galleyFits v (envAt s c h false).team (objectBytes v (envAt s c h false).team a)) && p v)
theorem onObject_check {writes : Bool} {s : State} {c : CtxId} {h : Head} {srcs : List Operand} {a n : Nat} {p : State → Prop} [DecidablePred p]
    (k : onObjectCheck writes s c h srcs a n (fun v => decide (p v)) = true) :
    ∃ v, Issues s c h engineHow ∧ (envAt s c h false).parts ≠ [] ∧ OnObject writes s c h srcs v a n ∧ p v := by
  simp only [onObjectCheck, Bool.and_eq_true, Bool.not_eq_true', List.isEmpty_eq_false_iff] at k
  obtain ⟨⟨⟨a', b⟩, d⟩, e⟩ := k
  cases hc : columns (envAt s c h false) (entered s c h) srcs with
  | error _ => rw [hc] at e; cases e
  | ok r =>
    rw [hc] at e
    simp only [okWith, Bool.and_eq_true, Bool.or_eq_true, Bool.not_eq_true', beq_iff_eq, Option.isNone_iff_eq_none, decide_eq_true_eq] at e
    exact ⟨r.2, issues_check a', b, ⟨d, ⟨r.1, hc, e.1.1.1.1.1, e.1.1.1.1.2⟩, e.1.1.1.2, e.1.1.2, fun w => by simpa [w] using e.1.2⟩, e.2⟩
theorem meets_BarrierResults_object : (resolve sEng ⟨0, 0⟩ .sh 0x400 16).isSome = true ∧ 2 ^ 56 - 1 < 2 ^ 56 ∧ 65535 < 2 ^ 16 := by decide +kernel
/-- An object that expects 65535, lacks one arrival, and is in generation 65535. -/
theorem meets_BarrierResults : let s := sBar ⟨0, false, 65535, 65534, 65535⟩
    ∃ v, Issues s tm hT engineHow ∧ (envAt s tm hT false).parts ≠ [] ∧ OnObject true s tm hT [.reg (.t 4) 1, .src (.imm 65535)] v 0x400 65535
      ∧ (1 ≤ 65535 ∧ 65535 ≤ 65535 ∧ (getBar v ⟨0, 0⟩ 0x400).signedPend + 65535 ≤ 2 ^ 55 - 1 ∧ (getBar v ⟨0, 0⟩ 0x400).arrived < 65535
        ∧ (getBar v ⟨0, 0⟩ 0x400).gen = 65535 % 2 ^ 16) := onObject_check (by decide +kernel)
theorem meets_BarrierResults_wait : ∃ v, Issues sEng tm hT engineHow ∧ (envAt sEng tm hT false).parts ≠ []
      ∧ OnObject false sEng tm hT [.reg (.t 4) 1, .src (.imm 1)] v 0x400 1 ∧ ((getBar v ⟨0, 0⟩ 0x400).gen ≠ 1 % 2 ^ 16
        ∧ ((entered sEng tm hT).ctx tm).wait = none) := onObject_check (by decide +kernel)
theorem meets_BarrierResults_waited : let s := sEng.modCtx tm (fun x => { x with wait := some (.barrier [] false) })
    Issues s tm hT engineHow ∧ ((entered s tm hT).ctx tm).wait = some (.barrier [] false) := ⟨issues_check (by decide +kernel), by decide +kernel⟩
/-- Four lanes that meet at one object with n = 4 (released), or with n = 5 (not yet); and a unit that has met its phases. -/
theorem meets_BarrierResults_bar (n : Word) (hn : n = 4 ∨ n = 5) : Reads (at_ 0 sl) sl h0 engineHow [.reg (.v 1) 1, .src (.imm n)] (fun vals v =>
    let e := envAt (at_ 0 sl) sl h0 false
    let l := arrivals e v vals
    let objs := distinct (l.map (fun y => y.obj))
    let q := arrive (v.modCtxs e.unit (fun y => { y with wait := some (.barrier [] true) })) e.team l
    (∀ w ∈ e.parts.zip vals, (w.2.getD 0 0) % 16 = 0 ∧ (resolve v e.team .sh (w.2.getD 0 0) 16).isSome = true)
    ∧ (∀ o ∈ objs, (arrivalFault v e.team l o).isNone = true ∧ objectHeld v e.team o = false)
    ∧ galleyFits v e.team (objs.flatMap (objectBytes v e.team)) = true ∧ released q e.unit = (n == 4) ∧ objs = [0]
    ∧ (∀ y ∈ e.unit, ((entered (at_ 0 sl) sl h0).ctx y).wait = none) ∧ acquiring (entered (at_ 0 sl) sl h0) e = false) := by
  rcases hn with rfl | rfl <;> exact reads_decide (by decide +kernel)
theorem meets_BarrierResults_met : let s := (at_ 0 sl).modCtx sl (fun x => { x with wait := some (.barrier [] true) })
    Issues s sl h0 engineHow ∧ (∀ y ∈ (envAt s sl h0 false).unit, ((entered s sl h0).ctx y).wait = some (.barrier [] true))
    ∧ (envAt s sl h0 false).unit ≠ [] ∧ (envAt s sl h0 false).parts ≠ [] := ⟨issues_check (by decide +kernel), by decide +kernel⟩

/-- A core with the range of a record for A (0), B (1) and a sparse A (2), tile 3 owned, and registers t1 to t8 for them. -/
def sMat : State :=
  let r : Rec := { valid := true, size := 8, owner := some ⟨0, 0⟩ }
  (regs (at_ 3 tm) tm [(.sc 1, 3), (.sc 2, 0), (.sc 3, 1), (.sc 4, 0x10001), (.sc 5, 0), (.sc 6, 0), (.sc 7, 128), (.sc 8, 2)]).modCore 0 (fun c =>
    { c with
      recs := ((c.recs.set 0 r).set 1 { r with start := 8, size := 16 }).set 2 { r with start := 24, size := 9, spars := .sp4, moff := 8192 }
      tiles := c.tiles.modify 3 (fun k => { k with owner := some ⟨0, 0⟩ })
      forme := { c.forme with cells := (List.range 16).map (fun g => (32768 + g, 0x33)) } })
theorem meets_RangeInstructions : let s := regs (at_ 3 tm) tm [(.sc 1, 262144), (.sc 2, 0)]
    Reads s tm hT engineHow [.reg (.t 1) 1, .reg (.t 2) 1] (fun vals v =>
      let w := vals.headD []
      let recs := ((v.core? 0).map (fun y => y.recs)).getD []
      w.getD 0 0 % 1024 = 0 ∧ w.getD 0 0 ≠ 0 ∧ w.getD 0 0 ≤ 262144 ∧ bit (w.getD 1 0) 31 = false ∧ bit (w.getD 1 0) 15 = false
      ∧ recs.findIdx? (fun r => r.freeTo ⟨0, 0⟩) = some 0 ∧ 0 + w.getD 0 0 / 1024 ≤ 256 ∧ recs.any (fun r => r.valid) = false) :=
  reads_decide (by decide +kernel)
theorem meets_RangeInstructions_none : let s := regs sMat tm [(.sc 9, 240 * 1024)]
    Reads s tm hT engineHow [.reg (.t 9) 1, .reg (.t 2) 1] (fun vals v =>
      let used := (((v.core? 0).map (fun y => y.recs)).getD []).flatMap (fun r => if r.valid then r.granules else [])
      (vals.headD []).getD 0 0 / 1024 = 240 ∧ ∀ st ∈ List.range 17, ∃ i ∈ List.range 240, st + i ∈ used) := reads_decide (by decide +kernel)
theorem meets_RangeInstructions_free : Reads sMat tm hT engineHow [.reg (.t 3) 1] (fun vals v =>
    (rangeOf v ⟨0, 0⟩ ((vals.headD []).getD 0 0)).isSome = true
    ∧ ∀ o ∈ queued v 0, (vals.headD []).getD 0 0 ∉ opReads o ∧ (vals.headD []).getD 0 0 ∉ opFills o) := reads_decide (by decide +kernel)
theorem meets_RangeInstructions_load : Reads sMat tm hT engineHow [.reg (.t 3) 1, .reg (.t 5) 1, .src (.imm 57344)] (fun vals v =>
    let w := vals.headD []
    let addr := (w.getD 1 0 + w.getD 2 0) % 2 ^ 32
    (rangeOf v ⟨0, 0⟩ (w.getD 0 0)).map (fun r => 1024 * r.size) = some 16384 ∧ addr % 16 = 0
    ∧ (resolve v ⟨0, 0⟩ .sh addr 16384).map (fun p => mustWait v (unitTeams v ⟨0, 0⟩) p 16384) = some false ∧ queueFull v 0 = false) :=
  reads_decide (by decide +kernel)
theorem meets_ProductsAccepted : Reads sMat tm hT engineHow [.reg (.t 1) 1, .reg (.t 2) 1, .reg (.t 3) 1, .reg (.t 4) 1] (fun vals v =>
    let w := vals.headD []
    (rangeOf v ⟨0, 0⟩ (w.getD 1 0)).isSome = true ∧ (rangeOf v ⟨0, 0⟩ (w.getD 2 0)).isSome = true ∧ queueFull v 0 = false
    ∧ basePending v (envAt sMat tm hT false) (rangeOf v ⟨0, 0⟩ (w.getD 1 0)) = false
    ∧ basePending v (envAt sMat tm hT false) (rangeOf v ⟨0, 0⟩ (w.getD 2 0)) = false
    ∧ countFull v tm .matrix = false ∧ w.length = 4 ∧ (productFault v (envAt sMat tm hT false) .mma .bf16 .bf16 false (w.getD 0 0) (w.getD 1 0)
      (w.getD 2 0) (w.getD 3 0) (w.getD 6 0) (denseK (layout .bf16).width)).isNone = true) := reads_decide (by decide +kernel)
theorem meets_ProductsAccepted_sparse : Reads sMat tm hT engineHow [.reg (.t 1) 1, .reg (.t 8) 1, .reg (.t 3) 1, .reg (.t 4) 1] (fun vals v =>
    let w := vals.headD []
    (productFault v (envAt sMat tm hT false) .mmas .bf16 .bf16 false (w.getD 0 0) (w.getD 1 0) (w.getD 2 0) (w.getD 3 0) (w.getD 6 0)
      (2 * denseK (layout .bf16).width)).isNone = true ∧ (∀ o ∈ queued v 0, w.getD 1 0 ∉ opFills o)
    ∧ ((rangeOf v ⟨0, 0⟩ (w.getD 1 0)).map (fun ra => (masksOf v 0 ra (w.getD 3 0 % 256) 128).all (fun m => m.all (maskOk ra)))) = some true) :=
  reads_decide (by decide +kernel)
theorem meets_ProductsAccepted_gather : Reads sMat tm hT engineHow [.reg (.t 1) 1, .reg (.t 2) 1, .reg (.t 3) 1, .reg (.t 4) 1, .reg (.t 5) 1,
    .reg (.t 6) 1, .reg (.t 7) 1] (fun vals v =>
    let w := vals.headD []
    w.getD 4 0 % 4 = 0 ∧ w.getD 5 0 % 16 = 0 ∧ w.getD 6 0 % 16 = 0
    ∧ (productFault v (envAt sMat tm hT false) .mmag .bf16 .bf16 false (w.getD 0 0) (w.getD 1 0) (w.getD 2 0) (w.getD 3 0) (w.getD 6 0)
      (denseK (layout .bf16).width)).isNone = true
    ∧ okWith (gatherRows v ⟨0, 0⟩ (w.getD 3 0 % 256) (w.getD 4 0) (w.getD 5 0) (w.getD 6 0) 128) (fun places =>
      places.length == 1 && places.all (fun p => p.all (fun a => !mustWait v (unitTeams v ⟨0, 0⟩) a 1))
        && (badAt v (unitTeams v ⟨0, 0⟩) places.flatten).isNone) = true) := reads_decide (by decide +kernel)

/-- Tiles 3 and 4 granted to a request. -/
theorem meets_TileInstructions_grant : let s := sMat.modCore 0 (fun c => { c with alloc := [(tm, 2, some [3, 4])] })
    Meets s tm hT engineHow [] (fun _ _ => [((tm, 0), [(.t 10, 2, 3 + 2 ^ 32 * tileMask [3, 4])])])
    ∧ ((entered s tm hT).core? (coreOf (entered s tm hT) ⟨0, 0⟩)).map (fun y => y.alloc.find? (fun r => r.1 = tm)) = some (some (tm, 2, some [3, 4])) :=
  ⟨stores_check (by decide +kernel), by decide +kernel⟩
/-- 31 tiles beside the one that is held. -/
theorem meets_TileInstructions_request : Reads sMat tm hT engineHow [.reg (.t 9) 1] (fun _ v => 1 ≤ 31 ∧ holding v ⟨0, 0⟩ + 31 ≤ 32
    ∧ ((entered sMat tm hT).core? (coreOf (entered sMat tm hT) ⟨0, 0⟩)).map (fun y => y.alloc.isEmpty) = some true) := reads_decide (by decide +kernel)
theorem meets_TileInstructions_free : Reads sMat tm hT engineHow [.reg (.t 1) 1] (fun vals v =>
    (ownedTile v ⟨0, 0⟩ ((vals.headD []).getD 0 0)).isSome = true ∧ tileBusy v 0 ((vals.headD []).getD 0 0) = false ∧ queueFull v 0 = false) :=
  reads_decide (by decide +kernel)
theorem meets_TileInstructions_load : Reads sMat tm hT engineHow [.reg (.t 1) 1, .reg (.t 2) (spaceWords .sh), .reg (.t 7) 1] (fun vals v =>
    let w := vals.headD []
    (ownedTile v ⟨0, 0⟩ (w.getD 0 0)).isSome = true ∧ (drainFault v ⟨0, 0⟩ .bf16 false ⟨.sh, w.getD 1 0⟩ (w.getD 2 0)).isNone = true
    ∧ queueFull v 0 = false ∧ countFull v tm .matrix = false) := reads_decide (by decide +kernel)
theorem meets_TileInstructions_store : Reads sMat tm hT engineHow [.reg (.t 2) (spaceWords .sh), .reg (.t 1) 1, .reg (.t 7) 1] (fun vals v =>
    let w := vals.headD []
    (ownedTile v ⟨0, 0⟩ (w.getD 1 0)).isSome = true ∧ (drainFault v ⟨0, 0⟩ .bf16 true ⟨.sh, w.getD 0 0⟩ (w.getD 2 0)).isNone = true
    ∧ queueFull v 0 = false ∧ countFull v tm .matrix = false
    ∧ (engineQuota v (envAt sMat tm hT false) (addCodeOf .bf16) 3 ⟨.sh, w.getD 0 0⟩).isNone = true) := reads_decide (by decide +kernel)
/-- Row 63, the last. -/
theorem meets_TileInstructions_row : let s := regs sMat tm [(.sc 9, 63)]
    Reads s tm hT engineHow [.reg (.t 1) 1, .reg (.t 9) 1] (fun vals v =>
      let w := vals.headD []
      (ownedTile v ⟨0, 0⟩ (w.getD 0 0)).isSome = true ∧ (∀ y ∈ fragRows v (envAt s tm hT false) (w.getD 1 0), y.2 ≤ 63)
      ∧ fragRows v (envAt s tm hT false) (w.getD 1 0) = [(0, 63)] ∧ settledBelow v tm = true ∧ tileBusy v 0 (w.getD 0 0) = false
      ∧ queueFull v 0 = false ∧ clearCheck v ((fragLanes v (envAt s tm hT false) [(0, 63)]).map (fun (p, _) => (p.1, Loc.v p.2 4, 0))) = true) :=
  reads_decide (by decide +kernel)
theorem meets_TileInstructions_apply : (tileOf sMat 0 3).isSome = true ∧ 0 = (pairCores (pairOf 0)).1 ∧ (sMat.op? sMat.opNum).isNone = true
    ∧ queuedPair sMat 0 = [] ∧ (∀ o ∈ sMat.ops, o.id < sMat.opNum) ∧ (sMat.core? 0).map (fun y => y.mq) = some [] := by decide +kernel

/-- Queue 3 of the team: 4 places, and one element of role 0. -/
def sQueue (n : Nat) (c : CtxId) : State := (at_ n c).modTeam ⟨0, 0⟩ (fun x => { x with
  queues := x.queues.set 3 (some ⟨0x800, 4, 4, 15, false, 0, 0, [(0, 7)], 0⟩) })
theorem meets_QueueInstructions : ((Machine.queueOf (sQueue 0 sl) ⟨0, 0⟩ 3).map (fun x => decide (1 ≤ x.limit ∧ 1 ≤ x.elems.length ∧ 2 ≤ x.limit
      ∧ x.elems.length < 2 ∧ (popBar (sQueue 0 sl) ⟨0, 0⟩ 3 1 x).isNone = true ∧ x.elems.length ≤ x.cap ∧ (pushBar (sQueue 0 sl) ⟨0, 0⟩ 0 3 3 x).isNone = true
      ∧ x.spill = false ∧ x.prod.getLsbD 0 = true ∧ 4 ≤ x.allow ∧ 4 ≤ x.cap))) = some true := by decide +kernel
/-- A queue that spills to a ring of which no page is mapped: a pop has an element to take back. -/
theorem meets_QueueInstructions_ring : let x : QueueSt := ⟨0x800, 2, 4, 15, true, 2 ^ 55, 16, [(0, 7), (0, 8), (0, 9)], 0⟩
    1 ≤ x.limit ∧ 1 ≤ x.elems.length ∧ (popBar (sQueue 0 sl) ⟨0, 0⟩ 3 1 x).isSome = true := by decide +kernel
/-- A full queue whose allowance is not used up. -/
theorem meets_QueueInstructions_full : let x : QueueSt := ⟨0x800, 2, 2, 15, false, 0, 0, [(1, 7), (1, 8)], 0⟩
    x.spill = false ∧ x.prod.getLsbD 0 = true ∧ 1 ≤ x.allow ∧ 1 ≤ x.cap ∧ x.outOf 0 + 1 ≤ x.allow ∧ x.cap < x.elems.length + 1 := by decide
/-- An access that can never complete: more than the queue ever holds; and an allowance that is used up. -/
theorem meets_QueueInstructions_never : let x : QueueSt := ⟨0x800, 2, 2, 14, false, 0, 0, [(1, 7), (1, 8)], 0⟩
    x.limit < 3 ∧ x.allow < 3 ∧ x.prod.getLsbD 0 = false ∧ x.prod.getLsbD 1 = true ∧ x.allow < x.outOf 1 + 1 := by decide
theorem meets_QueueInstructions_try : Issues (sQueue 0 sl) sl h0 loadHow
    ∧ (∃ r, tryAll (envAt (sQueue 0 sl) sl h0 false) 3 (.v 1) 2 false (entered (sQueue 0 sl) sl h0)
      ((envAt (sQueue 0 sl) sl h0 false).parts.zip [[], [], [], []]) = .ok r ∧ r.1.length = 4)
    ∧ Meets (sQueue 0 sl) sl h0 loadHow [] (fun _ _ => [((sl, 0), [(.v 1, 1, 7), (.p 2, 1, 1)])]) :=
  ⟨issues_check (by decide +kernel), okWith_ok (by decide +kernel), stores_check (by decide +kernel)⟩
/-- `QCFG` of queue 4: 2^2 places at 0x800, allowance 2^2, role 0 pushes, no ring. -/
theorem meets_QueueInstructions_cfg : let s := regs (at_ 3 tm) tm [(.sc 1, BitVec.ofNat 32 (4 * 2 ^ 25 + 2 * 2 ^ 20 + 2 ^ 16 + 2 * 2 ^ 12 + 8))]
    Reads s tm hT engineHow [.reg (.t 1) 1, .reg .zero 2, .reg .zero 1] (fun vals v =>
      let w := vals.headD []
      QDesc.bad v ⟨0, 0⟩ 4 (w.getD 0 0) (QDesc.of (w.getD 0 0) (w.getD 1 0) (w.getD 2 0)) = false
      ∧ 4 < ((v.team? ⟨0, 0⟩).map (fun t => t.queues.length)).getD 0) := reads_decide (by decide +kernel)

/-- The one role of the team arrives. -/
theorem meets_SealPoints : let s := at_ 3 tm
    let u := entered s tm hT
    let q := u.modTeam ⟨0, 0⟩ (fun x => { x with sealers := x.sealers ++ [⟨roleOf u tm, true, false, .t 4, 2, 0, u.treeCycle⟩] })
    let ts := sealTeams q ⟨0, 0⟩
    Issues s tm hT (sealHow true) ∧ (envAt s tm hT false).parts ≠ [] ∧ meetsPending u (cellsOf u .T tm 0 3 (.t 4) 0 ++ cellsOf u .T tm 0 1 (.p 2) 0) = false
    ∧ ((u.team? ⟨0, 0⟩).map (fun x => x.sealers.any (fun y => y.role == roleOf u tm))).getD false = false
    ∧ allStand q ts = true ∧ (∀ y ∈ sealersOf q ts, y.2.tile = true) ∧ ts = [⟨0, 0⟩] ∧ mayClose q ts = true
    ∧ (keptDraw (sealDraw q ts) (primaryOf ts)).isSome = true
    ∧ (q.team? ⟨0, 0⟩).map (fun z => z.queues.all (fun k => k.isNone)) = some true
    ∧ (q.launch? 0).map (fun l => (l.proof, l.audit)) = some (false, false) := ⟨issues_check (by decide +kernel), by decide +kernel⟩
/-- The first of two roles. -/
theorem meets_SealPoints_wait : let s := putTeam { at_ 3 tm with ctxs := [], teams := [] } ⟨0, 0⟩ (newTeam 0 0 0 65536 none
      [⟨0, 1, 1, 128, 0, false, none, [], 0⟩, ⟨1, 1, 1, 128, 0, false, none, [], 0⟩] 0xFFFF none)
    let u := entered s tm hT
    let q := u.modTeam ⟨0, 0⟩ (fun x => { x with sealers := x.sealers ++ [⟨roleOf u tm, false, false, .zero, 7, 0, u.treeCycle⟩] })
    Issues s tm hT (sealHow false) ∧ (envAt s tm hT false).parts ≠ [] ∧ allStand q (sealTeams q ⟨0, 0⟩) = false :=
  ⟨issues_check (by decide +kernel), by decide +kernel⟩
/-- Four lanes draw, of a spool that holds one tile; and no lane does, under a guard that holds for none. -/
theorem meets_SealPoints_draw : let s := at_ 0 sl
    let u := entered s sl h0
    let point := spoolPoint (dieOf (coreOf u ⟨0, 0⟩))
    let ks := laneDraws u (envAt s sl h0 false)
    Issues s sl h0 { sealHow true with effect := true } ∧ isShadow ⟨0, 0⟩ = false
    ∧ (effectBar u ⟨0, 0⟩ ks.length (ks.map (fun _ => point)) 4).isNone = true ∧ ks.length = 4
    ∧ (drawsOf u 0).filter (fun q => q.die = dieOf (coreOf u ⟨0, 0⟩) && q.unit ≠ sl) = []
    ∧ ((ks.filter (fun k => (replayed (serveSpool (queueLanes u (envAt s sl h0 false) ks) 0 (dieOf (coreOf u ⟨0, 0⟩))) ⟨0, 0⟩ k.2 point 0 4 0).isNone)) = []) :=
  ⟨issues_check (by decide +kernel), by decide +kernel⟩
/-- Barrier 63 of the launch, of one team context. -/
theorem meets_PackageBarriers : let s := { at_ 3 tm with pbars := [(63, ⟨0, 1, 0, [], [], false, 0⟩)] }
    Reads s tm hT { anchored := true, noHandler := true } [.src (.imm 63)] (fun vals v => (vals.headD []).getD 0 0 = 63
      ∧ (Machine.pbarOf v 0 63).map (fun b => (b.arrived.contains (⟨0, 0⟩, 0), b.releasing,
        PBar.full { b with arrived := b.arrived ++ [(⟨0, 0⟩, 0)] })) = some (false, false, true)
      ∧ ((entered s tm hT).ctx tm).wait = none) := reads_decide (by decide +kernel)
theorem meets_PackageBarriers_released : let s := { (at_ 3 tm).modCtx tm (fun x => { x with wait := some (.pbar 63 1) }) with
      pbars := [(63, ⟨0, 1, 1, [], [], false, 0⟩)] }
    Issues s tm hT { anchored := true, noHandler := true } ∧ ((entered s tm hT).ctx tm).wait = some (.pbar 63 (0 + 1))
    ∧ ((Machine.pbarOf (entered s tm hT) 0 63).map (fun b => b.arrived.contains (⟨0, 0⟩, 0))).getD false = false :=
  ⟨issues_check (by decide +kernel), by decide +kernel⟩

/-- Member 0 of a domain of two. -/
def dom : Domain where
  num := 0
  ranks := 2
  own := 0
  hold := 10 ^ 10
  ports := 0
  view := 0
  members := [0, 1]
  state := .normal
  noQuorum := false
  ackedNum := 0
  ackedFrom := 0
  proposal := none
  acks := []
  suspected := []
  heard := [(1, 0, false)]
  deadline := none
  nextSeq := 5
  confirmed := none
  colls := []
  early := []
  dropped := []
  unacked := []
  offer := none
  joinAcks := []
  frozen := false
  answered := []
  commit := 0
  commitTo := []
  beat := 0
  again := 0
  clashed := []
/-- An all-reduce of 4 words from 0x10000000 to 0x20000000. -/
theorem meets_CollectiveInstructions : let s := regs { at_ 3 tm with domains := [dom] } tm [(.sc 8, 0x10000000), (.sc 10, 0x20000000), (.sc 12, 4)]
    Reads s tm hT { anchored := true, noHandler := true } [.reg (.t 8) 2, .reg (.up (.t 8) 2) 2, .reg (.t 12) 1, .reg (.t 13) 1] (fun vals v =>
      let w := vals.headD []
      w.getD 0 0 % 16 = 0 ∧ w.getD 1 0 % 16 = 0
      ∧ (collJob v .allred .add .f32 .restart (w.getD 0 0) (w.getD 1 0) (w.getD 2 0) (w.getD 3 0)).map (fun j => j.dom) = some 0
      ∧ countFull v tm .coll = false ∧ (effectBar v ⟨0, 0⟩ 1 [collPoint] 5).isNone = true
      ∧ (replayed v ⟨0, 0⟩ (engineKey v (envAt s tm hT false)) collPoint 0 5 0x10000000).isNone = true ∧ isShadow ⟨0, 0⟩ = false
      ∧ (v.domain? 0).isSome = true) := reads_decide (by decide +kernel)
theorem meets_CollectiveInstructions_view : Meets { at_ 3 tm with domains := [dom] } tm hT { varying := true, noHandler := true } [.reg (.t 13) 1]
    (fun _ _ => [((tm, 0), [(.t 1, 1, 0), (.t 2, 1, 2), (.t 3, 1, 0)])]) := stores_check (by decide +kernel)
theorem meets_SystemInstructions : Reads (at_ 4 gd) gd hW { anchored := true } [.reg (.w 2) 1] (fun _ v =>
    (launchOf v gd).map (fun l => l.snap) = some true ∧ ((entered (at_ 4 gd) gd hW).ctx gd).wait = none
    ∧ meetsPending (entered (at_ 4 gd) gd hW) [(gd, .sc 0, 0), (gd, .sc 1, 0)] = false) := reads_decide (by decide +kernel)
/-- The compositor of die 0, and code of a grid. -/
def sFw : State := { State.reset.withFetchWord 96 (0x383 + 4 * 1024) with cur := some (.firmware 0) }
theorem meets_SystemInstructions_compositor : let u := entered sFw (.firmware 0) hW
    firmwareDie (.firmware 0) = some 0 ∧ firmwareDie gd = none ∧ (envAt sFw (.firmware 0) hW false).parts ≠ []
    ∧ (readCsr u 0 0x111).isSome = true ∧ meetsPending u (cellsOf u .W (.firmware 0) 0 1 (.w 3) 0) = false ∧ Issues sFw (.firmware 0) hW { anchored := true } :=
  ⟨by decide, by decide, by decide +kernel, by decide +kernel, by decide +kernel, issues_check (by decide +kernel)⟩
theorem meets_SystemInstructions_invalidate : Reads sFw (.firmware 0) hW { anchored := true } [.reg (.w 2) 2, .reg (.w 4) 1] (fun _ v =>
    diesUp v ≠ [] ∧ ((entered sFw (.firmware 0) hW).ctx (.firmware 0)).wait = none ∧ sFw.tlbis = []) := reads_decide (by decide +kernel)

/-! Events -/

/-- A copy of 64 bytes in `sh` at the head of channel 15, begun or not. -/
def sCopy (begun : Bool) : State :=
  let o := { newOp (at_ 3 tm) (envAt (at_ 3 tm) tm hT false) (.copy ⟨.sh, 0x100⟩ ⟨.sh, 0x200⟩ 64) (some .copy) with chan := some 15, begun := begun }
  { (at_ 3 tm).modCore 0 (fun c => { c with chans := c.chans.set 15 ⟨0, [o.id], begun⟩ }) with ops := [o], opNum := o.id + 1 }
theorem meets_EngineEvents_begin : (chanOf (sCopy false) 0 15).map (fun k => (k.running, k.ops.head?)) = some (false, some 1)
    ∧ ((sCopy false).op? 1).isSome = true := by decide +kernel
theorem meets_EngineEvents : let s := sCopy true
    let o := ((s.op? 1).getD default)
    (s.op? 1).isSome = true ∧ o.kind = .copy ⟨.sh, 0x100⟩ ⟨.sh, 0x200⟩ 64 ∧ o.finished = false ∧ o.suspended = false ∧ o.cancel = false
    ∧ o.barrier = none ∧ atFront s o = true ∧ o.done < 64 ∧ (s.team? o.team).isSome = true
    ∧ okWith (places s o ⟨.sh, 0x200⟩ 0 64 .read) (fun l => okWith (places s o ⟨.sh, 0x100⟩ 0 64 .write) (fun m =>
      decide (l.length = m.length ∧ m.Nodup ∧ placesWait s o (l ++ m) = false ∧ (badAt s (unitTeams s o.team) l).isNone = true ∧ engineFits s o (m.zip (gatherBytes s o l)) = true))) = true := by
  decide +kernel
theorem meets_EngineEvents_end : let s := (sCopy true).modOp 1 (fun o => { o with finished := true })
    (s.op? 1).map (fun o => (o.finished, olderOps s o, decide (o.flush ≤ s.tick), o.owed)) = some (true, [], true, 0) ∧ s.hasCtx tm = true := by decide +kernel

/-- A product of tile 3 in the matrix queue; it has begun or not. -/
def sProduct (begun : Bool) : State :=
  let k : OpKind := .product 3 0 1 1 1 64 false ⟨.bf16, .none, 0, 0, 0, 0, 128, 0⟩ ⟨.bf16, .none, 0, 0, 8192, 8192, 128, 0⟩ none none
  let o := { newOp sMat (envAt sMat tm hT false) k (some .matrix) with begun := begun }
  { sMat.modCore 0 (fun c => { c with mq := [o.id] }) with ops := [o], opNum := o.id + 1 }
theorem meets_MatrixEvents_start : let s := sProduct false
    (firstOf s (startable s 0)).map (fun o => o.id) = some 1 ∧ (s.op? 1).map (fun o => affordable s o) = some true ∧ (s.core? 0).isSome = true := by decide +kernel
theorem meets_MatrixEvents_retire : let s := sProduct true
    (s.op? 1).map (fun o => (o.begun, o.finished)) = some (true, false) ∧ (tileOf s 0 3).isSome = true
    ∧ (queuedPair s 0).map (fun o => o.id) = [1] := by decide +kernel
theorem meets_MatrixEvents_load : let s := { sMat with ops := [newOp sMat (envAt sMat tm hT false) (.formeLoad 0 0 (List.replicate 64 1)) none] }
    (s.op? 1).map (fun o => decide (o.kind = .formeLoad 0 0 (List.replicate 64 1))) = some true
    ∧ ((s.core? 0).bind (fun x => x.recs[0]?)).isSome = true := by decide +kernel
theorem meets_MatrixEvents_grant : let s := sMat.modCore (Config.coresPerDie * 0 + 0) (fun c => { c with alloc := [(tm, 31, none)] })
    tm.team? = some ⟨0, 0⟩ ∧ (s.core? (Config.coresPerDie * 0 + 0)).map (fun x => (decide (x.alloc = [(tm, 31, none)]),
      ((List.range x.tiles.length).filter (fun i => ((x.tiles[i]?).map (fun (k : Tile) => k.freeTo ⟨0, 0⟩)).getD false)).length)) = some (true, 31) := by
  decide +kernel
theorem meets_MatrixEvents_sum : [[(0, Val.fin false 1 0)]].length = 1 ∧ [[Val.fin false 1 0]].length = 1 ∧ 1 ≤ 64 := by decide

/-- Two held writes of one byte, the older one past its window; a checkpoint past its own. -/
def sHeld : State := { at_ 3 tm with
  tick := 10 ^ 9
  galley := [⟨0, ⟨0, 0⟩, [(64, 1)], 0, none, 0, false, [], false⟩, ⟨0, ⟨0, 0⟩, [(64, 2)], 10 ^ 9, none, 0, false, [], false⟩] }
theorem meets_HeldWrites : let due := fun h : Held => h.core = 0 ∧ h.sealed = false ∧ h.p + Config.galleyWindow ≤ sHeld.tick
    (sHeld.galley.filter (fun h => decide (due h))).map (fun h => h.bytes) = [[(64, 1)]]
    ∧ sHeld.mem.wf = true ∧ (∃ e ∈ [(64, (1 : Byte))], ∃ d ∈ [(64, (2 : Byte))], e.1 = d.1) ∧ ([(64, (1 : Byte))].map (fun e => e.1)).Nodup := by
  decide +kernel
/-- The writes in the other order: the older one, not yet due, keeps the younger one back; and one whose due writes meet no other. -/
theorem meets_HeldWrites_back : let s := { sHeld with galley := sHeld.galley.reverse }
    let due := fun h : Held => h.core = 0 ∧ h.sealed = false ∧ h.p + Config.galleyWindow ≤ s.tick
    let meets := fun g h : Held => ∃ b ∈ g.bytes, ∃ e ∈ h.bytes, e.1 = b.1
    (s.galley.map (fun h => decide (due h)) = [false, true] ∧ ∃ g ∈ s.galley.take 1, ¬due g ∧ ∀ h ∈ s.galley.drop 1, meets g h)
    ∧ ∀ g ∈ s.galley.drop 1, ∀ h ∈ s.galley.drop 1, ¬due g → due h → ¬meets g h := by decide +kernel
/-- A checkpoint at the end of its window, and one nanosecond later. -/
theorem meets_HeldWrites_checkpoint : let s (n : Nat) := { (sHeld).modTeam ⟨0, 0⟩ (fun x => { x with
      ckpts := (x.ckpt0.map (fun k => { k with valid := false, c := 0 })).toList }) with tick := n }
    let late (n : Nat) := ((s n).team? ⟨0, 0⟩).map (fun x => x.ckpts.map (fun k => (k.valid, decide (k.c + Config.galleyWindow < (s n).tick))))
    late Config.galleyWindow = some [(false, false)] ∧ late (Config.galleyWindow + 1) = some [(false, true)] := by
  decide +kernel
/-- A cell of the strike map that names no core; a first abort. -/
theorem meets_HeldWrites_errors : (∀ k < 8, strikeCode sHeld 0 5119 k / 2 ^ 12 = 1 →
      residents sHeld (160 * (strikeCode sHeld 0 5119 k / 2 ^ 10 % 4) + strikeCode sHeld 0 5119 k % 2 ^ 10) = []) ∧ haltedDie sHeld 0 = false
    ∧ haltedDie (sHeld.modTeam ⟨0, 0⟩ (fun x => { x with state := .stopped .debug })) 0 = true
    ∧ (sHeld.team? ⟨0, 0⟩).map (fun x => (x.present, x.aborts.contains (x.epoch, 64), x.die)) = some (true, false, 0)
    ∧ unitNr sHeld ⟨0, 0⟩ = false ∧ twinsOf sHeld ⟨0, 0⟩ = [] := by decide +kernel

/-- A team whose role has ended; one that is saved; one that is stopped for the debug agent. -/
theorem meets_TeamEvents : let s := (at_ 3 tm).modTeam ⟨0, 0⟩ (fun x => { x with roles := x.roles.map (fun r => { r with ended := true }) })
    (s.team? ⟨0, 0⟩).map (teamDone s ⟨0, 0⟩) = some true ∧ ((at_ 3 tm).team? ⟨0, 0⟩).map (teamDone (at_ 3 tm) ⟨0, 0⟩) = some false
    ∧ (s.context? 0).map (spent s) = some false := by decide +kernel
def sSaved : State := { (at_ 3 tm).modTeam ⟨0, 0⟩ (fun x => { x with state := .saved }) with
  saved := [⟨⟨0, 0⟩, .running, [(4, 1)], [], [], [], [], 0, [], [], false, 2 ^ 20, 0⟩] }
theorem meets_TeamEvents_saved : (savedUnit sSaved ⟨0, 0⟩).map (fun v => v.id) = [⟨0, 0⟩]
    ∧ (places? sSaved ⟨0, 0⟩).map (fun l => l.map (fun e => e.1.id)) = some [⟨0, 0⟩] ∧ (sSaved.team? ⟨0, 0⟩).isSome = true
    ∧ (sSaved.team? ⟨0, 0⟩).map (fun x => x.late.isEmpty) = some true ∧ ([(4, (1 : Byte))].map (fun e => e.1)).Nodup
    ∧ (∀ e ∈ [(4, (1 : Byte))], e.1 < 2 ^ 20) ∧ sSaved.mem.wf = true := by decide +kernel
/-- A team whose role has ended and whose private stack is still to go out; the team that has only just started. -/
theorem meets_TeamEvents_flush : let s := { (at_ 3 tm).modTeam ⟨0, 0⟩ (fun x => { x with roles := x.roles.map (fun r => { r with ended := true }) }) with
      pvCache := [⟨0, ⟨0, 0⟩, [(64, 1)], 0, none, 0, false, [], false⟩]
      tick := 10 ^ 9 }
    (s.team? ⟨0, 0⟩).map (fun x => (teamDone s ⟨0, 0⟩ x, teamOver s ⟨0, 0⟩ x, teamFlushes s ⟨0, 0⟩ x)) = some (false, true, true)
    ∧ ((at_ 3 tm).team? ⟨0, 0⟩).map (fun x => teamOver (at_ 3 tm) ⟨0, 0⟩ x) = some false ∧ isShadow ⟨0, 0⟩ = false := by decide +kernel
theorem meets_TeamEvents_debug : let s := (at_ 3 tm).modTeam ⟨0, 0⟩ (fun x => { x with state := .stopped .debug })
    (s.team? ⟨0, 0⟩).map (fun x => decide (x.state = .stopped .debug)) = some true ∧ (s.ctx sl).live = true := by decide +kernel
/-- The budget is spent while a unit waits. -/
theorem meets_TeamEvents_spent : let s := ((at_ 3 tm).modContext 0 (fun x => { x with waitb := 1, used := 10 ^ 9 })).modCtx tm (fun x => { x with
      wait := some (.pbar 0 0) })
    (s.context? 0).map (spent s) = some true ∧ (s.team? ⟨0, 0⟩).map (fun y => (y.ctx, decide (y.state = .running), y.leaving)) = some (0, true, false) := by
  decide +kernel

theorem meets_WaitEvents : let s := (at_ 3 tm).modCtx tm (fun x => { x with wait := some (.nap 0) })
    (s.ctx tm).wait = some (.nap 0) ∧ 0 ≤ s.tick ∧ s.hasCtx tm = true ∧ tm ∈ unitOf s tm := by decide +kernel
theorem meets_WaitEvents_translation : let s := (at_ 3 tm).modDie 0 (fun d => { d with merge := [(0, 0x10000)] })
    (s.die? 0).map (fun d => d.merge.contains (0, 0x10000)) = some true ∧ walkWaits s 0 0x10000 = false ∧ okWith (walk s 0 0x10000) (fun _ => true) = true := by decide +kernel
theorem meets_WaitEvents_launch : let s := (at_ 3 tm).modLaunch 0 (fun l => { l with arrived := [(0, 0)] })
    (s.launch? 0).map (fun l => l.arrived.any (fun a => a.1 == 0 && a.2 ≤ s.treeCycle)) = some true
    ∧ (get? 5 [(5, PBar.mk 0 1 0 [] [] true 0)]).map (fun b => decide (b.releasing = true ∧ b.due ≤ s.treeCycle)) = some true
    ∧ 3 ∈ [0, 3] := by decide +kernel
/-- Service 3, which is not listed, and a fault ring with one entry to free. -/
theorem meets_WaitEvents_service : let s := ((at_ 3 tm).modCtx tm (fun x => { x with wait := some (.service 3 []) })).modContext 0 (fun x => { x with
      frProd := 1 })
    (s.ctx tm).wait = some (.service 3 []) ∧ s.hasCtx tm = true ∧ (s.ctx tm).stop = none ∧ onCore s ⟨0, 0⟩ = true ∧ s.pldm.activating = false
    ∧ (s.context? 0).map (fun x => (decide (x.frFree < x.frProd), x.frHeld.isEmpty)) = some (true, true) := by decide +kernel

/-- A queue whose ring lies at 0x200000, with a launch packet of one team in its first slot: descriptor, role table and arguments at
0x201000, 0x202000 and 0x203000. -/
def ringQueue : HQueue := ⟨0, 0, 0, 0, 8, 0x200000, 0x204000, 0, 1, 1, 0, 0, [], none, 0, 0, 0⟩
def sRing : State :=
  { State.reset.withFetchWord 96 (3 * 1024) with
    queues := [ringQueue]
    mem := ⟨[(0x10000, 1), (0x10002, 2), (0x20000, 0x0F), (0x200000, 1), (0x200004, 1), (0x200011, 0x10), (0x200012, 0x20), (0x200019, 0x30),
      (0x20001A, 0x20), (0x201009, 0x20), (0x20100A, 0x20), (0x201020, 1), (0x201024, 1), (0x202000, 0x41), (0x202001, 0x47), (0x202002, 0x52),
      (0x202003, 0x54), (0x202004, 1), (0x202008, 1), (0x202041, 1), (0x202042, 1), (0x202043, 1)]⟩ }
/-- The packet, and the launch as it is read. -/
def ringSlot : List Byte := le4 1 ++ le4 1 ++ List.replicate 8 0 ++ leBytes 8 0x201000 ++ leBytes 8 0x203000 ++ List.replicate 32 0
def ringLaunch : List Byte := ringSlot ++ List.replicate 264 0 ++ leBytes 8 0x202000 ++ List.replicate 16 0 ++ le4 1 ++ le4 1 ++ List.replicate 216 0
  ++ le4 0x54524741 ++ le4 1 ++ [1, 0, 0, 0] ++ List.replicate 52 0 ++ [0, 1, 1, 1] ++ List.replicate 124 0
theorem ring_reads {va n : Nat} (h : va / 65536 = 32) (hn : va % 65536 + n ≤ 65536) : vaRead sRing 0 va n = .ok (sRing.mem.bytes va n) := by
  have hw : walk sRing 0 va = .ok ⟨0x0F, 30⟩ := by
    rw [walk_page sRing 0 (show va / 65536 = 0x200000 / 65536 by omega)]; exact okWith_eq (by decide +kernel)
  have hp : Leaf.place ⟨0x0F, 30⟩ va = va := by
    simp only [Leaf.place, show bit 0x0F 5 = false from rfl, Bool.false_eq_true, if_false]; omega
  have hs : Leaf.serves ⟨0x0F, 30⟩ va .read = true := by
    unfold Leaf.serves
    rw [show decide (hostBase ≤ va) = false by rw [decide_eq_false_iff_not, show hostBase = 2 ^ 56 from rfl]; omega]; decide
  have := vaRead_page (s := sRing) rfl rfl hw hs (by decide) hn (by rw [hp]; simp only [Config.dramBytes]; omega)
  rwa [hp] at this
theorem meets_QueueEvents_slot : (sRing.queue? 0) = some ringQueue ∧ slotAt sRing ringQueue = some ringSlot ∧ field ringSlot 0 4 / 2 % 8 = 0 := by
  refine ⟨by decide +kernel, ?_, by decide +kernel⟩
  have h : (ringQueue.state = 1 ∧ ringQueue.rd < ringQueue.notify ∧ ringQueue.ready.isEmpty = true)
    ∧ ringQueue.ring + 64 * (ringQueue.rd % ringQueue.slots) = 0x200000 ∧ ringQueue.ctx = 0 := by decide
  unfold slotAt
  rw [if_pos h.1, h.2.1, h.2.2, ring_reads (va := 0x200000) (n := 64) (by decide) (by decide)]
  decide +kernel
theorem meets_QueueEvents_read : launchBytes sRing 0 ringSlot = ringLaunch := by
  have a : field ringSlot 0x20 4 = 0 ∧ field ringSlot 0x10 8 = 0x201000 ∧ field ringSlot 0x18 8 = 0x203000 := by decide +kernel
  have b : field (sRing.mem.bytes 0x201000 256) 8 8 = 0x202000 := by decide +kernel
  unfold launchBytes
  simp only [a.1, a.2.1, a.2.2, Nat.min_zero, ring_reads (va := 0x201000) (n := 256) (by decide) (by decide), b,
    ring_reads (va := 0x202000) (n := 192) (by decide) (by decide), ring_reads (va := 0x203000) (n := 0) (by decide) (by decide)]
  decide +kernel
theorem meets_QueueEvents : let w : Packet := ⟨sRing.opNum, none, launchBytes sRing 0 ringSlot, 0⟩
    w.ok = true ∧ w.type = 0 ∧ descOk w.desc = true ∧ tableOk w.table (bit w.head 9) = true := by
  rw [meets_QueueEvents_read]; decide +kernel
/-- The packet at the head of its queue, its cores there. -/
theorem meets_QueueEvents_place : let p : Packet := ⟨1, none, ringLaunch, 0⟩
    let s := sRing.modQueue 0 (fun x => { x with ready := [p] })
    (s.queue? 0).map (fun x => (placementOf s x p).isSome) = some true ∧ p.type = 0 ∧ p.recK = none ∧ gridDone s 0 = false
    ∧ gridDone { s with teams := [] } 0 = true ∧ s.mem.wf = true ∧ ((get? p.rec_ s.retained).getD (List.replicate 512 0)).length = 512 := by decide +kernel
/-- A barrier-AND packet whose signal, at 0x205000, is satisfied (0), or not (1), or has failed (2^63). -/
theorem meets_QueueEvents_barrier : let s (n : Nat) := { sRing with mem := sRing.mem.writes (placed 0x205000 (leBytes 8 n)) }
    let p : Packet := ⟨0, none, le4 (1 + 2 * 2) ++ le4 1 ++ leBytes 8 0x205000 ++ List.replicate 48 0, 0⟩
    p.type = 2 ∧ p.recK = none ∧ (sample (s 0) 0 [0x205000]).2 = [] ∧ sample (s 1) 0 [0x205000] = (false, [0x205000])
    ∧ (sample (s (2 ^ 63 + 1)) 0 [0x205000]).1 = true
    ∧ vaHeld (s 0) 0 0x205000 8 = false ∧ (s 0).bad = [] := by decide +kernel
/-- A signal whose place a held write meets; one that none meets, with the value 3. -/
theorem meets_QueueEvents_waits : let s : State := { sRing with
      mem := sRing.mem.writes (placed 0x205000 (leBytes 8 3))
      galley := [⟨0, ⟨0, 0⟩, [(0x205004, 1)], 0, none, 0, false, [], false⟩] }
    [0x205000, 0x205008].filter (fun a => vaHeld s 0 a 8) = [0x205000] ∧ vaHeld sRing 0 0x205000 8 = false ∧ sRing.signals = []
    ∧ okWith (vaRead sRing 0 0x205000 8) (fun bs => leNat bs == 0) = true
    ∧ okWith (vaPlaces sRing 0 0x205000 8 .write) (fun l => l == (List.range 8).map (0x205000 + ·)) = true := by decide +kernel

/-- The last byte of the aperture, one past it, and an atomic on the last word of host memory. -/
theorem meets_HostAccesses : aperture State.reset (2 ^ 38 - 1) 1 = some (2 ^ 38 - 1) ∧ aperture State.reset (2 ^ 38 - 1) 2 = none
    ∧ linkOp .add = true ∧ (2 ^ 57 - 8) % 8 = 0 ∧ 2 ^ 56 ≤ 2 ^ 57 - 8 ∧ linkOp .umin = false := by decide +kernel

/-- A command of the mailbox that runs, with its arguments. -/
def sMail (code : BitVec 16) (args : List DWord) : State := { State.reset with
  boot := .running
  mem := ⟨[(0x1010, 2)]⟩
  mailbox := { Mailbox.reset with code := code, seq := 7, busy := true, args := args } }
theorem meets_MailboxCommands : runs (sMail 1 []) 2 7 = false ∧ runs (sMail 0x10 []) 0x10 7 = true ∧ allowed (sMail 0x10 []) 0x10 = false
    ∧ runs (sMail 0x0C []) 0x0C 7 = true ∧ allowed (sMail 0x0C []) 0x0C = true ∧ listedCode 0x0C = false ∧ inRecovery (sMail 1 []) = false := by
  decide +kernel
/-- A descriptor at 0x1000 whose fault ring has 2^2 entries. -/
theorem meets_MailboxCommands_context : let s := sMail 1 [0x1000]
    runs s 1 7 = true ∧ arg s 0 % 8 = 0 ∧ arg s 0 + 256 ≤ Config.dramBytes ∧ descFirst (s.mem.bytes (arg s 0) 256) = true
    ∧ s.contexts = [] ∧ lowestFree 64 (fun n => (s.context? n).isSome) = some 0
    ∧ descAgain (s.mem.bytes (arg s 0) 256) = true ∧ (State.context? { s with contexts := [loadContext 0] } 0).isSome = true := by decide +kernel
/-- The greatest home, priority and ring, at the last places of the address space. -/
theorem meets_MailboxCommands_queue : let s := { sMail 3 [0, 3, 3, 16, 2 ^ 57 - 4096, 2 ^ 57 - 8] with contexts := [loadContext 0] }
    runs s 3 7 = true ∧ (s.context? (arg s 0)).isSome = true ∧ arg s 1 < 4 ∧ arg s 2 < 4 ∧ 3 ≤ arg s 3 ∧ arg s 3 ≤ 16 ∧ arg s 4 % 4096 = 0
    ∧ arg s 4 < 2 ^ 57 ∧ arg s 5 % 8 = 0 ∧ arg s 5 < 2 ^ 57
    ∧ lowestFree 1024 (fun n => ((s.queue? n).map (fun q => q.state == 1 || q.state == 2)).getD false) = some 0
    ∧ (State.queue? { s with queues := [ringQueue] } 0).map (fun q => q.state) = some 1 := by decide +kernel
theorem meets_MailboxCommands_team : let s := { at_ 3 tm with mailbox := { Mailbox.reset with code := 5, seq := 7, busy := true, args := [0, 0, 0] } }
    runs s 5 7 = true ∧ namedTeam s = some ⟨0, 0⟩ ∧ (s.context? (arg s 0)).isSome = true ∧ (s.team? ⟨0, 0⟩).isSome = true
    ∧ descAgain (s.mem.bytes 0 256) = true := by decide +kernel
theorem meets_MailboxCommands_package : arg (sMail 7 [1]) 0 < 2 ∧ 2 ≤ arg (sMail 7 [2]) 0 ∧ runs (sMail 8 [15, 1024, 1023, 60000]) 8 7 = true
    ∧ (sMail 8 []).domain? 15 = none ∧ hostOk (2 ^ 56 - 65536) 65536 = true ∧ hostOk (2 ^ 57 - 32) 32 = true
    ∧ (State.domain? { sMail 9 [0] with domains := [dom] } 0).map (fun d => decide (d.state = .excluded)) = some false
    ∧ inRecovery { sMail 16 [] with boot := .recovery } = true := by decide +kernel

/-- Access port commands: an invalid one (operation 6), and a read, an addition and a copy of 8 bytes. -/
def sPort : State := { sRing with
  dies := sRing.dies.map (fun d => { d with acc := { d.acc with addr := 0x200000, dst := 0x200100 } }) }
theorem meets_CompositorRegisters : let r := acc sPort 0
    (sPort.die? 0).isSome = true ∧ (PortCmd.of 6).invalid r = true ∧ portCheck sPort r (PortCmd.of 2) = none ∧ portCheck sPort r (PortCmd.of 0x80005) = none
    ∧ okWith (portPlaces sPort r (PortCmd.of 2)) (fun p => p == ((List.range 4).map (fun i => 0x200000 + i), (List.range 4).map (fun i => 0x200000 + i))) = true
    ∧ okWith (portPlaces sPort r (PortCmd.of 0x80005)) (fun p => p == ((List.range 8).map (fun i => 0x200000 + i), (List.range 8).map (fun i => 0x200100 + i)))
      = true ∧ sPort.galley = [] ∧ sPort.pages.train = false ∧ ∀ i < 8, ∀ j < 8, 0x200000 + i ≠ 0x200100 + j := by decide +kernel
/-- Queue 0 is selected, active and at home on die 0; a record at 0x206000 that holds no launch. -/
theorem meets_CompositorRegisters_queue : (sPort.queue? (acc sPort 0).qsel).map (fun q => (q.state, q.home, q.ready.isEmpty)) = some (1, 0, true)
    ∧ (acc sPort 0).dones = [] ∧ 256 ≤ (0xFFFFFFFF : Word).toNat ∧ (255 : Word).toNat < 256 := by decide +kernel
/-- The record of a launch: `recordPacket` reads at 0x204000 what `launchBytes` reads of the ring. -/
theorem meets_CompositorRegisters_dispatch : let p : Packet := ⟨0x200000, some 0, ringLaunch, 0⟩
    p.ok = true ∧ p.type = 0 ∧ descOk p.desc = true ∧ tableOk p.table (bit p.head 9) = true := by decide +kernel

theorem meets_ControlPages : readOnly 0 false 0 = true ∧ 0 ≤ 13 ∧ (1 : Word).getLsbD 0 = true ∧ ({ State.reset with pages := { Pages.reset with dbgen := true } }).pages.held = false
    ∧ (0 : Nat) + Config.barrierRelease ≤ 120 ∧ State.reset.pages.savedAt + 10 ^ 9 ≤ 10 ^ 9 ∧ State.reset.tick < State.reset.pages.savedAt + 10 ^ 9 := by
  decide +kernel
/-- The images of an empty flash do not serve. -/
theorem meets_PowerUp : State.reset.boot = .cold ∧ slotReason State.reset State.reset.mram.bootSel ≠ 0 ∧ slotReason State.reset (1 - State.reset.mram.bootSel) ≠ 0
    ∧ linkLanes true 0xFFFFFFFF ≠ 0 ∧ linkLanes true 0xFFFF0000 ≠ 0 ∧ linkLanes false 0xFFFF0000 = 0 ∧ State.reset.limit = none
    ∧ (∀ d ∈ State.reset.dies, d.limit = none) ∧ (0xA5A5 : Word) ≠ 0 := by decide +kernel
/-- Die 1 at a step of DRAM and of photonics. -/
def sBoot (phase step : Nat) : State := State.reset.modDie 1 (fun d =>
  let phot : PhotRegs := { d.phot with
    go := true
    step := step
    result := 2
    rings := [(127, true, 5)]
    lost := [(126, 10)]
    conn := [(1, true, 1, 2, 3, 48), (2, false, 2, 2, 3, 50), (3, true, 3, 0, 0, 0)]
    draining := [(2, 2, 3, 50)] }
  { d with phase := phase, dram := { d.dram with go := true, step := step, result := 1 }, phot := phot })
theorem meets_BringUp : (∀ k < 4, dramRuns (sBoot 0 k) 1 k = true ∧ photRuns (sBoot 0 k) 1 k = true)
    ∧ ((sBoot 6 0).die? 1).map (fun d => (d.dram.go, d.phase, d.dram.result)) = some (true, 6, 1)
    ∧ ((sBoot 7 0).die? 1).map (fun d => (d.phot.go, d.phase, d.phot.result)) = some (true, 7, 2)
    ∧ ((sBoot 0 0).die? 1).map (fun d => ((ringOf d.phot 127).1, get? 126 d.phot.lost)) = some (true, some 10)
    ∧ 0xFF ∈ spareMap (sBoot 0 0) 1 63 15 ∧ 151 ∉ spareMap (sBoot 0 0) 1 63 15 := by decide +kernel
/-- Entries of the connection table: a free one, one being tuned, one torn down, one in error; a request of 16 wavelengths, of 17, and one
to the own die. -/
theorem meets_BringUp_circuits : ((sBoot 0 0).die? 1).map (fun d => [0, 1, 2, 3].map (connOf d.phot))
      = some [(false, 0, 0, 0, 0), (true, 1, 2, 3, 48), (false, 2, 2, 3, 50), (true, 3, 0, 0, 0)]
    ∧ connWaves (16 * 2 ^ 19 + 2 * 2 ^ 15) = 16 ∧ connDest (16 * 2 ^ 19 + 2 * 2 ^ 15) = 2 ∧ waveChoices State.reset 1 2 16 = [48] ∧ waveChoices (sBoot 0 0) 1 2 12 = [52]
    ∧ 16 < connWaves (17 * 2 ^ 19) ∧ connDest (1 * 2 ^ 15) = 1 := by decide +kernel
/-- An entry whose circuit is being torn down while it holds a new request; requests that keep an entry as it is, and that change it. -/
theorem meets_BringUp_draining : let s := State.reset.modDie 1 (fun d => { d with phot := { d.phot with
      conn := [(1, true, 1, 2, 3, 48), (3, true, 3, 0, 0, 0)]
      draining := [(1, 2, 0, 50)] } })
    (s.die? 1).map (fun d => d.phot.draining.any (fun c => c.1 == 1)) = some true
    ∧ ((sBoot 0 0).die? 1).map (fun d => d.phot.draining.any (fun c => c.1 == 1)) = some false
    ∧ connWaves (2 * 2 ^ 19 + 3 * 2 ^ 15) = 2 ∧ connDest (2 * 2 ^ 19 + 3 * 2 ^ 15) = 3 ∧ connWaves 0 = 0 ∧ connDest 0 = 0
    ∧ connWaves (1 * 2 ^ 19 + 3 * 2 ^ 15) ≠ 2 := by decide +kernel
-- FIPS 202: SHAKE256 of the empty message
theorem test_shake256 : shake256 [] 8 = [0x46, 0xB9, 0xDD, 0x2B, 0x0B, 0xA8, 0x8D, 0x13] := by decide +kernel
-- RFC 8032, 7.4, the blank message: key, and signature in two halves, as little-endian numbers
theorem test_ed448 : ed448Verify (leBytes 57 0x806125e8afbe1afad16c0fe5f13d78d61b06c7469b7624f1ed7867e9805da70e8a1f0ea7852434a11d6ad46a61ec87e72cfd61b4599b44d75f) []
    (leBytes 57 0x8039fd1ba2d09bc528787dd4dd227afdf28182624f033f232b1f591ad423d84f07d2343e844a50fb2dae76f9880d3c021f2557e4bbf6373a53
      ++ leBytes 57 0x26652eff0858d9718c2663735af04911b6dbf4a013a13085dacdc7c59ab92d8504410bc08d5d925b342d1c5d6c003ef69d8ab1d428200dff) = true := by decide +kernel
theorem meets_FirmwareUpdate : let s (x : UpdSt) : State := { State.reset with pldm := { Pldm.reset with state := x, comp := 1, size := 2 ^ 23, staged := [1] } }
    (s .idle).pldm.state = .idle ∧ (s .learn).pldm.state = .learn ∧ (s .ready).pldm.state = .ready ∧ (s .ready).pldm.staged ≠ []
    ∧ (s .ready).pldm.activating = false ∧ (s .download).pldm.state = .download ∧ (List.replicate 1024 (0 : Byte)).length ≤ 1024
    ∧ (2 ^ 23 - 1024) + 1024 ≤ (s .download).pldm.size ∧ (s .verify).pldm.state = .verify ∧ (s .apply).pldm.state = .apply
    ∧ ({ State.reset with pldm := { Pldm.reset with activating := true } }).pldm.until_ ≤ State.reset.tick := by decide +kernel
/-- The domain in each of its conditions. -/
theorem meets_Membership : let s (d : Domain) : State := { State.reset with
      tick := 10 ^ 12
      domains := [d]
      pages := { Pages.reset with dierst := 0 } }
    (s dom).domain? 0 = some dom ∧ overdue (s dom) dom 1 = true ∧ 1 ∈ dom.others ∧ overdue (s dom) { dom with suspected := [1] } 1 = false
    ∧ mustPropose { dom with state := .acked, suspected := [1] } = false ∧ collStopped (s dom) = false
    ∧ collStopped State.reset = true ∧ 1 ∉ dom.dropped ∧ stillHolds (s dom) dom 1 = false
    ∧ 1 ∈ dom.members ∧ dom.own ∈ [0, 1] ∧ dom.ackedNum < 1 ∧ dom.view < 1 ∧ dom.proposal = none ∧ dom.colls = []
    ∧ (∀ r ∈ [0, 1], r = dom.own ∨ r = 1 ∨ (get? r dom.acks).isSome = true)
    ∧ (∃ r ∈ [0, 1, 2], r ≠ dom.own ∧ r ≠ 1 ∧ get? r dom.acks = none) ∧ 0 ≤ dom.view ∧ dom.own ∉ [1] := by decide +kernel
/-- A collective of sequence 5 that its member has written. -/
def coll5 : Collective := ⟨5, 1, 0, true, [], [], 2, 1, [], [], true, none, [], true, [], [], [], false⟩
theorem meets_Membership_join : let d : Domain := { dom with ranks := 3 }
    2 ∉ d.members ∧ d.state = .normal ∧ 2 < d.ranks ∧ d.coordinator = some d.own ∧ d.offer = none ∧ d.suspected = []
    ∧ Domain.quiet { d with colls := [coll5] } = false
    ∧ Domain.coordinator { d with own := 1 } = some 0 ∧ Domain.coordinator { d with own := 1 } ≠ some 1 ∧ Domain.quiet { d with frozen := true } = true
    ∧ (∀ r ∈ [0, 1, 2], r = 2 ∨ r ∈ [0, 1]) := by decide +kernel
theorem meets_CollectiveFlits : let c := coll5
    takesFlits dom 0 = true ∧ takesFlits dom 1 = false ∧ collStopped { State.reset with pages := { Pages.reset with dierst := 0 } } = false
    ∧ (dom.colls.find? (fun c => c.seq == 5)).isNone = true ∧ { dom with colls := [c] }.colls.find? (fun c => c.seq == 5) = some c
    ∧ c.written = true ∧ { c with written := false }.written = false ∧ 5 < { dom with nextSeq := 6 }.nextSeq := by decide +kernel

/-! The step, the encoding, the memory -/

/-- `ADD.L v3, v1, 5` at address 0, fetched by slice 0. -/
def sAdd : State := { State.reset.withFetchWord 96 (0x040 + 7 * 2 ^ 13 + 2 ^ 17 + 3 * 2 ^ 34 + 1 * 2 ^ 45 + 5 * 2 ^ 56) with cur := some sl }
def fetches (s : State) (c : CtxId) (i : Instr) : Bool :=
  match fetch s c with
  | .word w => okWith (decode (envOf s c) w) (fun j => j == i) && (c.level ≠ 3 || wordLevel w ≠ 4)
  | _ => false
theorem meets_StepRuns : fetches sAdd sl (.add h0 .i32 false (.v 3) (.v 1) (.imm 5)) = true := by decide +kernel
theorem meets_StepRuns_picked : let u := begin_ sAdd
    u.inbox = [] ∧ u.timers.find? (fun e => decide (e.1 ≤ u.cycle)) = none ∧ dueEvent (tidy u) = none
    ∧ picked (tidy u) (tries (tidy u)) = some sl := by decide +kernel
/-- `ICMP.G p2, g1, 9` at address 0 and `BR.G p2` behind it, fetched by the group's context. -/
def sFuse : State :=
  let s := State.reset.withFetchWord 96 (imf 0x05D 2 (1 + 3 * 128) 0x1E2 0x101 9)
  { s with mem := s.mem.writes (placed 12 (leBytes 12 (imf 0x002 2 2 0 0x1E2 7))), cur := some gr }
/-- An instruction that starts no group; and `ICMP` and `BR`, which are one. -/
theorem meets_StepRuns_fused : fuseCount sAdd sl (sAdd.ctx sl).pc = 0 ∧ fuseCount sFuse gr (sFuse.ctx gr).pc = 1 ∧ (match attemptOne sFuse gr with
    | .next t => t.took == .issued
    | _ => false) = true := by decide +kernel
/-! Clauses with further hypotheses, at the limits of their ranges -/

/-- Channel 1 is assigned to the team, channel 0 is not. -/
theorem meets_MoveResults_special : let s := (at_ 3 tm).modTeam ⟨0, 0⟩ (fun x => { x with chans := 2 })
    3 < (s.ctx sl).lanes.length ∧ (s.team? ⟨0, 0⟩).map (fun y => (y.chans.getLsbD 0, y.chans.getLsbD 1, (chanOf s y.core 1).isSome))
      = some (false, true, true) ∧ sl.team? = some ⟨0, 0⟩ ∧ (⟨0, 0⟩ : TeamId).num < 640 ∧ (s.launch? 0).isSome = true := by decide +kernel
/-- A barrier object that alone is skew, and one that alone ends past `sh`. -/
theorem meets_EngineChecks_barrier : (8 : Nat) % 16 ≠ 0 ∧ inSpace (at_ 3 tm) ⟨0, 0⟩ ⟨.sh, 2 ^ 20⟩ 16 = false
    ∧ inSpace (at_ 3 tm) ⟨0, 0⟩ ⟨.sh, 0x200⟩ 64 = true := by decide +kernel
/-- No collective or flit of the domain meets sequence 5; and every root is a member. -/
theorem meets_CollectiveInstructions_entry : (∀ f ∈ dom.early, f.1 ≠ dom.nextSeq) ∧ dom.members.contains 0 = true
    ∧ (∀ k ∈ dom.colls, k.seq < dom.nextSeq) ∧ (at_ 3 tm).hasCtx tm = true := by decide +kernel
/-- A request granted, one for 20 tiles, and one of another team for 20 more; and a request for more tiles than are free. -/
theorem meets_MatrixEvents_grants : let other : CtxId := .team ⟨0, 1⟩ 0
    let old : List (CtxId × Nat × Option (List Nat)) := [(.team ⟨1, 0⟩ 0, 1, some [3])]
    let s := sMat.modCore 0 (fun c => { c with alloc := old ++ (tm, 20, none) :: [(other, 20, none)] })
    (s.core? 0).map (fun x =>
      let freeFor := fun q => (List.range x.tiles.length).filter (fun i => ((x.tiles[i]?).map (fun (k : Tile) => k.freeTo q)).getD false)
      (decide (∀ k ∈ x.tiles, k.ownedBy ⟨0, 1⟩ = false), decide (20 ≤ (freeFor ⟨0, 0⟩).length),
        decide (((freeFor ⟨0, 1⟩).filter (fun i => !((freeFor ⟨0, 0⟩).take 20).contains i)).length < 20), decide ((freeFor ⟨0, 0⟩).length < 32)))
      = some (true, true, true, true)
    ∧ (∀ a ∈ old, a.1 ≠ tm ∧ a.2.2.isSome = true) ∧ other.team? = some ⟨0, 1⟩ ∧ other ≠ tm ∧ pairOf 0 % 80 < 72 := by decide +kernel
/-- A link that trains, with a write of host memory due. -/
theorem meets_HeldWrites_training : let s := { sHeld with pages := { sHeld.pages with train := true }, galley :=
      [⟨0, ⟨0, 0⟩, [(2 ^ 56, 1)], 0, none, 0, false, [], false⟩] }
    s.pages.train = true ∧ (∀ h ∈ s.galley, ∃ b ∈ h.bytes, 2 ^ 56 ≤ b.1 ∧ b.1 < 2 ^ 57) ∧ (⟨0, 0⟩ : TeamId) ≠ compTeam
    ∧ (sHeld.team? ⟨0, 0⟩).map (fun x => (target? x sHeld.tick).isSome) = some true := by decide +kernel
theorem meets_WaitEvents_others : let s := (at_ 3 tm).modCtx tm (fun x => { x with wait := some (.nap 0) })
    sl ∉ unitOf s tm ∧ (∀ k ∈ gridTeams s 1, tm.team? ≠ some k) := by decide +kernel
/-- A block that is uncorrectable; an access that is not the link's; one past region 1. -/
theorem meets_HostAccesses_bad : badAt { State.reset with bad := [(64, 64)] } [] ((List.range 4).map (100 + ·)) = some 100
    ∧ badAt State.reset [] ((List.range 4).map (100 + ·)) = none ∧ (4 : Nat) % 8 ≠ 0 ∧ 2 ^ 40 ≤ 2 ^ 40 := by decide +kernel
/-- A descriptor that no held write meets, and one that one does. -/
theorem meets_MailboxCommands_held : let s := { sMail 1 [0x1000] with galley := [⟨0, ⟨0, 0⟩, [(0x10FF, 1)], 0, none, 0, false, [], false⟩] }
    mustWait s [compTeam] (arg s 0) 256 = true ∧ mustWait (sMail 1 [0x1000]) [compTeam] 0x1000 256 = false
    ∧ (badAt (sMail 1 [0x1000]) [compTeam] ((List.range 256).map (0x1000 + ·))).isNone = true := by decide +kernel
/-- Data of a read that is uncorrectable, and an access that has waited too long. -/
theorem meets_CompositorRegisters_abort : badAt { sPort with bad := [(0x200000, 64)] } [] ((List.range 4).map (0x200000 + ·)) = some 0x200000
    ∧ (acc sPort 0).timedOut = false ∧ (sPort.queue? 5).isNone = true ∧ dispatchHeld sPort 0 0 = false := by decide +kernel
theorem meets_ControlPages_retrain : let s := { State.reset with pages := { Pages.reset with linkup := true, retries := 15 } }
    15 ≤ s.pages.retries ∧ s.pages.linkup = true ∧ inRecovery s = false ∧ inRecovery { s with boot := .recovery } = true ∧ s.tick < s.pages.govAt
    ∧ s.pages.govAt ≤ { s with tick := 10000 }.tick := by decide +kernel
/-- Lanes that pass at the limit of the skew, and one past it; a training past its limit; a die that comes out of its reset last. -/
theorem meets_PowerUp_training : let lane (k : Nat) : LaneTrain := { (default : LaneTrain) with found := true, skew := BitVec.ofNat 16 k, good := true }
    passing [lane 64] = 1 ∧ passing [lane 65] = 0 ∧ passing (List.replicate 32 (lane 64)) = 0xFFFFFFFF
    ∧ (let s := { State.reset with tick := 20000000, pages := { Pages.reset with train := true } }
      s.pages.trainAt + 20000000 ≤ s.tick ∧ pastLimit s s.limit = false ∧ s.dies.find? (lateDie s) = none)
    ∧ (let s := State.reset.modDie 2 (fun d => { d with phase := 5, phaseBy := some 0 })
      (s.dies.find? (lateDie s)).map (fun d => (d.num, d.phase)) = some (2, 5) ∧ (s.die? 2).map (fun d => (d.phase, d.dram.go)) = some (5, false)
      ∧ ∀ x ∈ s.dies, x.phase = 5 → x.num = 2) ∧ State.reset.pages.dierst.getLsbD 3 = true := by decide +kernel
/-- Measurements of every channel and layer; a removed ring; the steps that follow one another. -/
theorem meets_BringUp_steps : let all := (List.range 64).flatMap (fun i => (List.range 16).map (fun l =>
      ({ channel := i, layer := l, rdLo := 10, rdHi := 25, wrLo := 0, wrHi := 15 } : DelayMeas)))
    (∀ m ∈ all, m.rdLo.toNat + 15 ≤ m.rdHi.toNat ∧ m.wrLo.toNat + 15 ≤ m.wrHi.toNat) ∧ all.length = 1024
    ∧ stepReady 0x7 3 = true ∧ ((0x7#4 ||| (1#4 <<< 3)) = 0xF) ∧ (∀ x ∈ (sBoot 6 3).dies, x.phase = 6 → x.num = 1)
    ∧ (∀ x ∈ (sBoot 7 3).dies, x.phase ≠ 6) ∧ (∀ x ∈ (sBoot 7 3).dies, x.phase = 7 → x.num = 1)
    ∧ (∀ e ∈ [Die.reset 0], ({ e with phot := { e.phot with done := 4 } }).phot.done.getLsbD 2 = true) := by decide +kernel
/-- No command runs; one runs that need not wait. -/
theorem meets_FirmwareUpdate_command : (commandEnded State.reset).boot = State.reset.boot ∧ (commandEnded State.reset).mailbox.busy = false
    ∧ (commandEnded (sMail 7 [1])).boot = .running ∧ (commandEnded (sMail 7 [1])).mailbox.busy = false ∧ (1 : Nat) ∉ [2] := by decide +kernel
/-- Member 1 of two is overdue, then member 2 of three: without a quorum, and with one. -/
theorem meets_Membership_quorum : let s : State := { State.reset with tick := 10 ^ 12, pages := { Pages.reset with dierst := 0 } }
    let d : Domain := { dom with ranks := 3, members := [0, 1, 2], heard := [(1, 10 ^ 12, false), (2, 0, false)] }
    let left (d : Domain) := d.members.filter (fun r => !(d.suspected ++ d.others.filter (overdue s d)).contains r)
    overdue s dom 1 = true ∧ left dom = [0] ∧ 2 * (left dom).length ≤ dom.members.length
    ∧ overdue s d 2 = true ∧ left d = [0, 1] ∧ d.members.length < 2 * (left d).length ∧ (left d).head? = some d.own := by decide +kernel
/-- A domain that stalls without a quorum; a description that differs. -/
theorem meets_CollectiveFlits_differ : let s : State := { State.reset with pages := { Pages.reset with dierst := 0 } }
    collStalled s { dom with noQuorum := true } = true ∧ collStalled s dom = false ∧ Flit.desc? (.down 1 []) = some 1 ∧ coll5.desc ≠ 1 := by
  decide +kernel
/-- Word n at address 0, and whether it decodes there for a context. -/
def decodesAt (n : Nat) (c : CtxId) : Option Bool :=
  let s := { State.reset.withFetchWord 96 n with cur := some c }
  match fetch s c with
  | .word w => some (okWith (decode (envOf s c) w) (fun _ => true))
  | _ => none
/-- A word that does not decode, on a slice and on a team context, with tickets and without; a word of scope W, which decodes. -/
theorem meets_StepRuns_refused : decodesAt 0x3FF sl = some false ∧ decodesAt (0x3FF + 3 * 1024) tm = some false ∧ ((at_ 0 sl).ctx sl).tickets = []
    ∧ ((at_ 0 tm).ctx tm).tickets ≠ [] ∧ ((at_ 3 tm).ctx tm).tickets = [] ∧ decodesAt (4 * 1024) tm = some true ∧ tm.level = 3 := by decide +kernel
/-- An access of the host that waits for a link that trains, before an event that does not come over it. -/
theorem meets_StepRuns_inbox : let s := { sAdd with pages := { sAdd.pages with train := true } }
    hostWaits s (.notify 0 8 1) = true ∧ [Instr.notify 1 8 1, .powerGood].find? (fun j => !overLink j) = some .powerGood
    ∧ hostWaits s .powerGood = false ∧ overLink (.notify 1 8 1) = true := by decide +kernel

theorem meets_EncodeDecode : ∃ f, (Instr.mad h0 .i32 false (.v 255) (.v 0) (.v 1) (.v 254)).fields = some f
    ∧ wellFormed (.mad h0 .i32 false (.v 255) (.v 0) (.v 1) (.v 254)) = true := ⟨_, rfl, by decide +kernel⟩
theorem meets_DecodeEncode : okWith (decode ⟨256, false⟩ (BitVec.ofNat 96 (0x040 + 7 * 2 ^ 13))) (fun _ => true) = true := by decide +kernel
/-- A step from reset, and one that stores. -/
theorem meets_MemoryCanonical : State.reset.mem.wf = true ∧ sAdd.mem.wf = true
    ∧ (match step sAdd with
      | .next t => t.took == .issued && t.mem.wf
      | _ => false) = true := by decide +kernel
/-- The result of the instruction, four cycles on. -/
theorem test_step_add : (match exec (.add h0 .i32 false (.v 3) (.v 1) (.imm 5)) (regs sAdd sl [(.v 2 1, 0xFFFFFFFE)]) with
    | .next t => some ((t.ctx sl).pc, (t.ctx sl).cell (.v 2 3), (t.ctx sl).through (.v 2 3))
    | _ => none) = some (1, 0, 3) := by decide +kernel

end Sys2Proof.Tests
end

section
/-! SUPPORT. How a proof says that an operation leaves the memory alone, or keeps its canonical form (R29, R232; log 4). -/

namespace Sys2Proof.Machine

/-! Answers of a body, choices, folds -/

/-- The state that an answer of a body carries. -/
def Res.state : Res → State
  | .next s | .jump s | .done s | .stall s _ | .hold s | .trap s _ | .raised s | .gone s => s

section
variable (s : State) (w : Wait) (f : FaultInfo)
@[simp] theorem Res.state_next : (Res.next s).state = s := rfl
@[simp] theorem Res.state_jump : (Res.jump s).state = s := rfl
@[simp] theorem Res.state_done : (Res.done s).state = s := rfl
@[simp] theorem Res.state_stall : (Res.stall s w).state = s := rfl
@[simp] theorem Res.state_hold : (Res.hold s).state = s := rfl
@[simp] theorem Res.state_trap : (Res.trap s f).state = s := rfl
@[simp] theorem Res.state_raised : (Res.raised s).state = s := rfl
@[simp] theorem Res.state_gone : (Res.gone s).state = s := rfl
end

@[simp] theorem State.mem_ite {p : Prop} [Decidable p] (s t : State) : (if p then s else t).mem = if p then s.mem else t.mem :=
  apply_ite State.mem p s t
@[simp] theorem Res.state_ite {p : Prop} [Decidable p] (r q : Res) :
    (if p then r else q).state = if p then r.state else q.state := apply_ite Res.state p r q

/-- A run over a list, none of whose steps touches the memory. -/
theorem State.mem_foldl {α : Type} {f : State → α → State} (hf : ∀ s a, (f s a).mem = s.mem) (l : List α) (s : State) :
    (l.foldl f s).mem = s.mem := by
  induction l generalizing s with
  | nil => rfl
  | cons a l ih => exact (ih _).trans (hf s a)

@[simp] theorem State.fresh_mem (s : State) : s.fresh.2.mem = s.mem := rfl

/-! The canonical form -/

/-- A run over a list, each of whose steps keeps the canonical form. -/
theorem State.wf_foldl {α : Type} {f : State → α → State} (hf : ∀ s a, s.mem.wf = true → (f s a).mem.wf = true) (l : List α)
    {s : State} (h : s.mem.wf = true) : (l.foldl f s).mem.wf = true := by
  induction l generalizing s with
  | nil => exact h
  | cons a l ih => exact ih (hf s a h)

/-- The next state of an outcome, if it has one, has the memory in its canonical form where the state before had it. -/
def KeepsForm (s : State) (o : Host.Outcome State Fault Refusal) : Prop := ∀ t, o = .next t → s.mem.wf = true → t.mem.wf = true
@[simp] theorem keepsForm_next {s t : State} : KeepsForm s (.next t) ↔ (s.mem.wf = true → t.mem.wf = true) :=
  ⟨fun h => h t rfl, fun h u hu => by cases hu; exact h⟩
@[simp] theorem keepsForm_fault (s : State) (f : Fault) : KeepsForm s (.fault f) := fun _ h => by cases h
@[simp] theorem keepsForm_ite {p : Prop} [Decidable p] {s : State} {a b : Host.Outcome State Fault Refusal} :
    KeepsForm s (if p then a else b) ↔ (p → KeepsForm s a) ∧ (¬ p → KeepsForm s b) := by
  split <;> simp_all

/-- Whatever a body answers, it keeps the canonical form. -/
def BodyKeeps (body : Env → State → Res) : Prop := ∀ e {s}, s.mem.wf = true → (body e s).state.mem.wf = true
theorem BodyKeeps.of_mem {body : Env → State → Res} (h : ∀ e s, (body e s).state.mem = s.mem) : BodyKeeps body :=
  fun e s hs => by rw [h e s]; exact hs

end Sys2Proof.Machine
end

section
/-! SUPPORT. The operations over the state: a write of a unit is held in its galley (R232), so that `putBytes` alone touches the memory; and an
instruction keeps the canonical form if its body does. -/

namespace Sys2Proof.Machine

/-! Writing registers -/

@[simp] theorem writeAll_mem (s : State) (ws : List (CtxId × Loc × Word)) (f : Ctx → List (Loc × Word) → Ctx) :
    (writeAll s ws f).mem = s.mem := by
  unfold writeAll
  rw [State.mem_foldl]
  simp

/-! The galley (R243, R280, R281) -/

@[simp] theorem abortSoon_mem (s : State) (t : TeamId) (pa : Nat) : (abortSoon s t pa).mem = s.mem := by simp [abortSoon]
@[simp] theorem holdBy_mem (s : State) (t : TeamId) (who : List CtxId) (part p : Nat) (bs : List (Nat × Byte))
    (key : Option EffKey) : (holdBy s t who part p bs key).mem = s.mem := by
  unfold holdBy
  split <;> simp
@[simp] theorem holdAt_mem (s : State) (t : TeamId) (p : Nat) (bs : List (Nat × Byte)) (key : Option EffKey) :
    (holdAt s t p bs key).mem = s.mem := by simp [holdAt]
@[simp] theorem holdWrite_mem (s : State) (t : TeamId) (bs : List (Nat × Byte)) (key : Option EffKey) :
    (holdWrite s t bs key).mem = s.mem := by simp [holdWrite]
@[simp] theorem compHold_mem (s : State) (bs : List (Nat × Byte)) : (compHold s bs).mem = s.mem := rfl
theorem putBytes_wf {s : State} (bs : List (Nat × Byte)) (h : s.mem.wf = true) : (putBytes s bs).mem.wf = true :=
  Memory.wf_writes bs h

/-! The signature of proof and audit mode (R295) -/

@[simp] theorem sign_mem (s : State) (t : TeamId) (v : DWord) : (sign s t v).mem = s.mem := by
  unfold sign
  split <;> simp

/-! Translation (R264 to R267) -/

@[simp] theorem startWalk_mem (s : State) (core ctx va : Nat) : (startWalk s core ctx va).mem = s.mem := by simp [startWalk]

/-! Faults (R249 to R257) -/

@[simp] theorem rollbackPath_mem (s : State) (c : CtxId) : (rollbackPath s c).mem = s.mem := by
  cases c <;> rfl
@[simp] theorem writeRing_mem (s : State) (ctx : Nat) (entry : List Byte) : (writeRing s ctx entry).mem = s.mem := by
  unfold writeRing
  split
  · rfl
  · split
    · simp only [State.modContext_mem]; split <;> simp
    · rfl
@[simp] theorem flushRing_mem (s : State) (ctx : Nat) : (flushRing s ctx).mem = s.mem := by
  unfold flushRing
  split <;> simp
@[simp] theorem stopTeam_mem (s : State) (t : TeamId) (why : Stop) : (stopTeam s t why).mem = s.mem := rfl
@[simp] theorem standAt_mem (s : State) (p : Pending) : (standAt s p).mem = s.mem := rfl
@[simp] theorem fireTrigger_mem (s : State) (src : Nat) (tag : Word) (ctx : Nat) (pc : Word) :
    (fireTrigger s src tag ctx pc).mem = s.mem := by simp [fireTrigger]
@[simp] theorem faultTrigger_mem (s : State) (t : TeamId) (p : Pending) : (faultTrigger s t p).mem = s.mem := by
  simp [faultTrigger]
@[simp] theorem reportHost_mem (s : State) (t : TeamId) (r : Nat) (p : Pending) : (reportHost s t r p).mem = s.mem := by
  simp only [reportHost, State.mem_ite, stopTeam_mem, State.modCtxs_mem]
  rw [State.mem_foldl (fun _ _ => stopTeam_mem _ _ _)]
  simp only [ite_self]
  split <;> simp
@[simp] theorem toHost_mem (s : State) (t : TeamId) (r : Nat) (p : Pending) : (toHost s t r p).mem = s.mem := by simp [toHost]
@[simp] theorem toDebug_mem (s : State) (t : TeamId) (r : Nat) (p : Pending) : (toDebug s t r p).mem = s.mem := by
  unfold toDebug
  rw [State.mem_foldl] <;> simp
@[simp] theorem deliver_mem (s : State) (t : TeamId) (r : Nat) (entry : Word) (p : Pending) :
    (deliver s t r entry p).mem = s.mem := by
  unfold deliver
  split <;> simp
@[simp] theorem route_mem (s : State) (t : TeamId) (r : Nat) (p : Pending) : (route s t r p).mem = s.mem := by
  unfold route
  repeat' split
  all_goals simp
@[simp] theorem raise_mem (s : State) (c : CtxId) (sc : Nat) (f : FaultInfo) : (raise s c sc f).mem = s.mem := by
  unfold raise
  dsimp only
  split <;> cases c <;> simp

/-! Barrier objects (R188, R189) -/

@[simp] theorem setBar_mem (s : State) (t : TeamId) (a : Nat) (b : Bar) : (setBar s t a b).mem = s.mem := by
  unfold setBar
  split <;> simp
@[simp] theorem wakeBar_mem (s : State) (t : TeamId) (a : Nat) : (wakeBar s t a).mem = s.mem := rfl
@[simp] theorem rouseTeam_mem (s : State) (t : TeamId) : (rouseTeam s t).mem = s.mem := rfl
@[simp] theorem advanceBar_mem (s : State) (t : TeamId) (a : Nat) : (advanceBar s t a).mem = s.mem := by simp [advanceBar]
@[simp] theorem deliverBar_mem (s : State) (t : TeamId) (a n : Nat) : (deliverBar s t a n).mem = s.mem := by simp [deliverBar]
@[simp] theorem returnFrom_mem (s : State) (t : TeamId) (r : Nat) : (returnFrom s t r).mem = s.mem := by
  unfold returnFrom
  split
  · dsimp only
    rw [State.mem_foldl, State.modTeam_mem, State.mem_foldl]
    · intro s c; split <;> simp
    · simp
  · rfl
@[simp] theorem deliverQueued_mem (s : State) (t : TeamId) : (deliverQueued s t).mem = s.mem := by
  unfold deliverQueued
  repeat' split
  all_goals simp

/-! The frame of every instruction -/

@[simp] theorem galleyBar_mem {s : State} {r : Res} (t : TeamId) (bs : List (Nat × Byte)) (h : r.state.mem = s.mem) :
    (galleyBar s t bs r).state.mem = s.mem := by
  unfold galleyBar
  split <;> simp [h]
@[simp] theorem retire_mem (s : State) (e : Env) (ids : List Nat) (advance : Bool) : (retire s e ids advance).mem = s.mem := rfl
@[simp] theorem stand_mem (s : State) (e : Env) (w : Wait) : (stand s e w).mem = s.mem := rfl
@[simp] theorem countEffect_mem (s : State) (cs : List CtxId) : (countEffect s cs).mem = s.mem := rfl
@[simp] theorem guardedOff_mem (s : State) (how : How) (cs : List CtxId) : (guardedOff s how cs).mem = s.mem := by
  simp [guardedOff]
theorem issueWord_wf (h : Head) (how : How) (m : XMode) (c : CtxId) {body : Env → State → Res} (hb : BodyKeeps body) {s : State}
    (hs : s.mem.wf = true) : (issueWord h how m c body s).mem.wf = true := by
  unfold issueWord
  dsimp only
  split
  · simpa using hs
  · have ht := hb ⟨c, .L, h, unitOf s c, m.parts.filter (fun p => guardOn s .L p.1 p.2 h.guard)⟩ hs
    split
    case h_1 hr | h_2 hr | h_3 hr => rw [hr] at ht; exact ht
    all_goals exact hs
@[simp] theorem unmade_mem (s t : State) : (unmade s t).mem = s.mem := rfl
@[simp] theorem holdWith_mem (s : State) (e : Env) (w : Wait) : (holdWith s e w).state.mem = s.mem := rfl
@[simp] theorem faultAt_mem (s : State) (e : Env) (f : FaultInfo) : (faultAt s e f).mem = s.mem := by simp [faultAt]
theorem issueBody_wf (h : Head) (how : How) (c : CtxId) {body : Env → State → Res} (hb : BodyKeeps body) {s : State}
    (hs : s.mem.wf = true) : (issueBody h how c body s).mem.wf = true := by
  unfold issueBody
  dsimp only
  split
  · simpa using hs
  · split
    · exact hs
    · split
      · exact hs
      · generalize (if how.raw = true then [] else participants s h.scope c (unitOf s c) h.guard) = parts
        split
        · simpa using hs
        · have ht := hb ⟨c, h.scope, h, unitOf s c, parts⟩ hs
          split
          case h_4 => exact hs
          case h_6 => simpa using hs
          all_goals next hr => rw [hr] at ht; exact ht
theorem ended_keeps {s t : State} (h : s.mem.wf = true → t.mem.wf = true) : KeepsForm s (ended t) := by
  unfold ended
  split
  · exact keepsForm_fault _ _
  · exact keepsForm_next.2 h
/-- An instruction keeps the form if its body does. -/
theorem issue_keeps {h : Head} {how : How} {body : Env → State → Res} (hb : BodyKeeps body) (s : State) :
    KeepsForm s (issue h how body s) := by
  unfold issue
  split
  · exact keepsForm_fault _ _
  · split
    · exact keepsForm_next.2 (issueWord_wf _ _ _ _ hb)
    · split
      · exact keepsForm_fault _ _
      · split
        · split
          · split
            · simp
            · exact keepsForm_fault _ _
          · exact keepsForm_fault _ _
        · dsimp only
          split
          · exact keepsForm_next.2 id
          · split
            · split
              · simp
              · split
                · exact keepsForm_next.2 id
                · exact ended_keeps fun hs => issueBody_wf _ _ _ hb hs
            · exact ended_keeps fun hs => issueBody_wf _ _ _ hb hs

/-! Results -/

@[simp] theorem emitWith_mem (s : State) (ws : List (CtxId × Loc × Word)) (f : State → Ctx → List (Loc × Word) → Ctx) :
    (emitWith s ws f).state.mem = s.mem := by
  unfold emitWith
  split <;> simp
@[simp] theorem emitFixed_mem (e : Env) (s : State) (ws : List (CtxId × Loc × Word)) : (emitFixed e s ws).state.mem = s.mem := by
  simp [emitFixed]
@[simp] theorem emitNow_mem (s : State) (ws : List (CtxId × Loc × Word)) : (emitNow s ws).state.mem = s.mem := by simp [emitNow]
@[simp] theorem emitVar_mem (e : Env) (s : State) (acq : Bool) (ws : List (CtxId × Loc × Word)) :
    (emitVar e s acq ws).state.mem = s.mem := by
  have h := emitWith_mem s.fresh.2 ws (fun _ x v => { x with vars := x.vars ++ [⟨s.fresh.1, v, e.h.hints.la.toNat, false, acq⟩] })
  unfold emitVar
  dsimp only
  split
  · next t ht => rw [ht] at h; split <;> simpa using h
  · exact h

end Sys2Proof.Machine
end

section
/-! SUPPORT. Operands: reading one and writing one leaves the memory alone, role queues included. -/

namespace Sys2Proof.Machine

/-! Role queues (R191 to R194) -/

@[simp] theorem setQueue_mem (s : State) (t : TeamId) (q : Nat) (x : QueueSt) : (setQueue s t q x).mem = s.mem := rfl
@[simp] theorem placeElem_mem (s : State) (t : TeamId) (x : QueueSt) (i m : Nat) (v : Word) :
    (placeElem s t x i m v).mem = s.mem := by
  unfold placeElem
  split <;> simp
theorem popElems_mem {s u : State} {t : TeamId} {q k : Nat} {ws : List Word} (h : popElems s t q k = .ok (ws, u)) :
    u.mem = s.mem := by
  unfold popElems at h
  split at h
  · cases h
  · next x _ =>
    split at h
    · cases h
    · split at h
      · cases h
      · split at h
        · cases h
        · cases h
          simp only [setQueue_mem]
          exact State.mem_foldl (fun _ _ => by simp) _ _
@[simp] theorem addElems_mem (s : State) (t : TeamId) (r q : Nat) (x : QueueSt) (vs : List Word) :
    (addElems s t r q x vs).mem = s.mem := by
  simp only [addElems, rouseTeam_mem, setQueue_mem]
  rw [State.mem_foldl]
  simp
theorem pushElems_mem {s u : State} {t : TeamId} {r q : Nat} {vs : List Word} (h : pushElems s t r q vs = .ok u) :
    u.mem = s.mem := by
  unfold pushElems at h
  split at h
  · cases h
  · split at h
    · cases h
    · cases h; simp
@[simp] theorem QBar.res_state (s : State) (b : QBar) : (b.res s).state = s := by cases b <;> rfl

/-! Reading sources -/

theorem column_mem {e : Env} {s u : State} {o : Operand} {vs : List Nat} (h : column e s o = .ok (vs, u)) : u.mem = s.mem := by
  unfold column at h
  split at h
  · cases h; rfl
  · split at h
    · next hp => cases h; exact popElems_mem hp
    · cases h
  · split at h <;> cases h
    rfl
  · split at h <;> cases h
    rfl
theorem columns_mem {e : Env} {s u : State} {os : List Operand} {vs : List (List Nat)} (h : columns e s os = .ok (vs, u)) :
    u.mem = s.mem := by
  induction os generalizing s vs with
  | nil => cases h; rfl
  | cons o os ih =>
    unfold columns at h
    split at h
    · cases h
    · next hc =>
      split at h
      · cases h
      · next hs => cases h; exact (ih hs).trans (column_mem hc)

/-! Destinations -/

theorem pushOuts_mem {e : Env} {s u : State} {outs : List ((CtxId × Nat) × List Out)} (h : pushOuts e s outs = .ok u) :
    u.mem = s.mem := by
  unfold pushOuts at h
  split at h
  · cases h; rfl
  · exact pushElems_mem h
@[simp] theorem store_mem (e : Env) (s : State) (rd : Ready) (outs : List ((CtxId × Nat) × List Out)) :
    (store e s rd outs).state.mem = s.mem := by
  unfold store
  split
  · simp
  · next h => split <;> simp [pushOuts_mem h]
@[simp] theorem pureBody_mem (rd : Ready) (srcs : List Operand) (f : List Nat → List Out) (e : Env) (s : State) :
    (pureBody rd srcs f e s).state.mem = s.mem := by
  unfold pureBody
  split
  · simp
  · next h => simp [columns_mem h]

end Sys2Proof.Machine
end

section
/-! SUPPORT. Local memory: a store is held in the galley, so that the memory stays as it is. -/

namespace Sys2Proof.Machine

/-! Addresses -/

theorem checkPv_mem {e : Env} {s : State} {al n : Nat} {w : Want} {l : List ((CtxId × Nat) × Nat)} {r : Res}
    (h : checkPv e s al n w l = .no r) : r.state.mem = s.mem := by
  unfold checkPv at h
  dsimp only at h
  split at h
  · split at h
    · cases h; exact State.mem_foldl (fun _ _ => by simp) _ _
    · cases h; rfl
  · split at h
    · cases h; rfl
    · split at h <;> cases h
      rfl
theorem checkAccess_mem {e : Env} {s : State} {sp : Space} {al n : Nat} {w : Want} {l : List ((CtxId × Nat) × Nat)} {r : Res}
    (h : checkAccess e s sp al n w l = .no r) : r.state.mem = s.mem := by
  unfold checkAccess at h
  dsimp only at h
  split at h
  · cases h; rfl
  · split at h
    · split at h
      · cases h; rfl
      · exact checkPv_mem h
    · split at h <;> cases h
      rfl

/-! Values in memory -/

@[simp] theorem writePv_mem (s : State) (t : TeamId) (who : List CtxId) (bs : List (Nat × Byte)) :
    (writePv s t who bs).mem = s.mem := rfl

/-! Loads and stores (R168 to R171) -/

@[simp] theorem loadBody_mem (o : MemOrd) (sp : Space) (al n k : Nat) (f : Nat → Nat) (d a : Reg) (off : Src) (e : Env)
    (s : State) : (loadBody o sp al n k f d a off e s).state.mem = s.mem := by
  unfold loadBody
  split
  · rfl
  · split
    · simp
    · next hc =>
      split
      · next hr => rw [checkAccess_mem hr, columns_mem hc]
      · split
        · rfl
        · split <;> simp [columns_mem hc]
@[simp] theorem storeBody_mem (o : MemOrd) (sp : Space) (al n k : Nat) (d a : Reg) (off : Src) (e : Env) (s : State) :
    (storeBody o sp al n k d a off e s).state.mem = s.mem := by
  unfold storeBody
  split
  · rfl
  · split
    · simp
    · next hc =>
      split
      · next hr => rw [checkAccess_mem hr, columns_mem hc]
      · split
        · rfl
        · dsimp only
          split
          · rw [Res.state_next, State.mem_foldl, State.fresh_mem, columns_mem hc]
            simp
          · rw [galleyBar_mem, State.fresh_mem, columns_mem hc]
            rw [Res.state_next, State.mem_foldl]
            simp

/-! Effects (R288 to R290) -/

@[simp] theorem countUp_mem (s : State) (n : Nat) : (countUp s n).mem = s.mem := rfl
@[simp] theorem logEffect_mem (s : State) (e : Effect) : (logEffect s e).mem = s.mem := by simp [logEffect]
@[simp] theorem atomOne_mem (s : State) (t : TeamId) (who : List CtxId) (sp : EngSpace) (op : AtomOp) (w p : Nat) (x : Access)
    (b : Nat) (cmp : Option Nat) : (atomOne s t who sp op w p x b cmp).2.mem = s.mem := by
  unfold atomOne
  dsimp only
  split <;> simp
@[simp] theorem atomAll_mem (s : State) (t : TeamId) (who : List CtxId) (sp : EngSpace) (op : AtomOp) (w p : Nat)
    (arg : Access → Nat × Option Nat) (l : List Access) : (atomAll s t who sp op w p arg l).2.mem = s.mem := by
  induction l generalizing s with
  | nil => rfl
  | cons x r ih => exact (ih _).trans (atomOne_mem ..)
@[simp] theorem atomBody_mem (o : MemOrd) (w : Width) (sp : Space) (op : AtomOp) (cas result : Bool) (d : Reg)
    (srcs : List Operand) (e : Env) (s : State) : (atomBody o w sp op cas result d srcs e s).state.mem = s.mem := by
  unfold atomBody
  dsimp only
  split
  · rfl
  · split
    · simp
    · next hc =>
      split
      · next hr => rw [checkAccess_mem hr, columns_mem hc]
      · split
        · rfl
        · split
          · rfl
          · split
            · simp
            · simp
            · rw [galleyBar_mem, State.fresh_mem, columns_mem hc]
              split <;> simp

/-! Fences (R172) -/

@[simp] theorem fenceBody_mem (o : MemOrd) (e : Env) (s : State) : (fenceBody o e s).state.mem = s.mem := by simp [fenceBody]

end Sys2Proof.Machine
end

section
/-! SUPPORT. Engine operations: what one delivers is held in the galley; the completion of one of a saved team writes the save area. -/

namespace Sys2Proof.Machine

/-! Issue (R175 to R177) -/

@[simp] theorem setHandle_mem (s : State) (c : CtxId) (n : Nat) (h : HandleSt) : (setHandle s c n h).mem = s.mem := rfl
@[simp] theorem beginOp_mem (s : State) (o : Op) (h : Option (BitVec 4)) : (beginOp s o h).mem = s.mem := by
  unfold beginOp
  repeat' split
  all_goals simp
@[simp] theorem modChan_mem (s : State) (core k : Nat) (f : Chan → Chan) : (modChan s core k f).mem = s.mem := rfl
@[simp] theorem queueChan_mem (s : State) (o : Op) (k : Nat) : (queueChan s o k).mem = s.mem := by simp [queueChan]
@[simp] theorem queueGather_mem (s : State) (o : Op) : (queueGather s o).mem = s.mem := by simp [queueGather]
@[simp] theorem chanIssue_mem (s : State) (e : Env) (ch : BitVec 4) (kind : OpKind) (al : List (Nat × Nat))
    (rs : List (EP × Nat)) (bar : Option Nat) (h : Option (BitVec 4)) (red : Option (Nat × EP × Nat)) :
    (chanIssue s e ch kind al rs bar h red).state.mem = s.mem := by
  unfold chanIssue
  repeat' split
  all_goals simp
theorem engineSrcs_mem {k : List Nat → State → Res} (hk : ∀ v u, (k v u).state.mem = u.mem) (e : Env) (s : State)
    (srcs : List Operand) : (engineSrcs e s srcs k).state.mem = s.mem := by
  unfold engineSrcs
  split
  · simp
  · next h => rw [hk, columns_mem h]
@[simp] theorem gatherIssue_mem (gath : Bool) (k : BitVec 3) (dsp ssp : EngSpace) (d a b : Reg) (done : Done) (e : Env)
    (s : State) : (gatherIssue gath k dsp ssp d a b done e s).state.mem = s.mem := by
  refine engineSrcs_mem (fun v s => ?_) ..
  dsimp only
  repeat' split
  all_goals simp
@[simp] theorem batomIssue_mem (op : AtomOp) (w64 : Bool) (dsp : EngSpace) (d a b : Reg) (done : Done) (e : Env) (s : State) :
    (batomIssue op w64 dsp d a b done e s).state.mem = s.mem := by
  unfold batomIssue
  refine engineSrcs_mem (fun v s => ?_) ..
  dsimp only
  repeat' split
  all_goals simp

/-! Places (R176, R267) -/

@[simp] theorem tryAgain_mem (s : State) (id : Nat) : (tryAgain s id).mem = s.mem := rfl
@[simp] theorem engineWait_mem (s : State) (o : Op) (reads : List Nat) : (engineWait s o reads).mem = s.mem := by
  unfold engineWait
  split <;> simp
@[simp] theorem suspendOp_mem (s : State) (o : Op) (c : Cause) (va : Nat) : (suspendOp s o c va).mem = s.mem := by
  unfold suspendOp
  repeat' split
  all_goals simp
@[simp] theorem awaitWalk_mem (s : State) (o : Op) (va : Nat) : (awaitWalk s o va).mem = s.mem := by
  unfold awaitWalk
  split <;> simp

/-! Ends (R177, R179) -/

@[simp] theorem freeChan_mem (s : State) (core k id : Nat) : (freeChan s core k id).mem = s.mem := by simp [freeChan]
@[simp] theorem freeGather_mem (s : State) (core id : Nat) : (freeGather s core id).mem = s.mem := by
  unfold freeGather
  dsimp only
  split <;> simp
@[simp] theorem finishOp_mem (s : State) (o : Op) (code : Nat) : (finishOp s o code).mem = s.mem := by
  unfold finishOp
  split <;> simp

/-! The save area's scope registers (R260) -/

theorem intoSaveArea_wf {s : State} (t : TeamId) (h : s.mem.wf = true) : (intoSaveArea s t).mem.wf = true := by
  unfold intoSaveArea
  split
  · exact putBytes_wf _ h
  · exact h
theorem completeOp_wf {s : State} (o : Op) (h : s.mem.wf = true) : (completeOp s o).mem.wf = true := by
  unfold completeOp
  dsimp only
  repeat' split
  all_goals exact intoSaveArea_wf _ (by simpa using h)

/-! Delivery (R178 to R183, R189) -/

theorem unreachedBy_keeps {finish : State → Op → Nat → State} (hf : ∀ s o n, (finish s o n).mem = s.mem) (s : State) (o : Op)
    (r : Reach) : KeepsForm s (unreachedBy finish s o r) := by
  cases r <;> simp [unreachedBy, hf]
@[simp] theorem unreached_keeps (s : State) (o : Op) (r : Reach) : KeepsForm s (unreached s o r) :=
  unreachedBy_keeps finishOp_mem s o r
@[simp] theorem engineWrite_mem (s : State) (o : Op) (p : EP) (off : Nat) (l : List Nat) (bs : List Byte) :
    (engineWrite s o p off l bs).mem = s.mem := by simp [engineWrite]
@[simp] theorem blockDone_mem (s : State) (o : Op) (n len : Nat) : (blockDone s o n len).mem = s.mem := by
  unfold blockDone
  repeat' split
  all_goals simp
@[simp] theorem copyBlock_keeps (s : State) (o : Op) (dst : EP) (len : Nat) (src : Nat → Except Reach (List Nat))
    (data : List Nat → Nat → List Byte) : KeepsForm s (copyBlock s o dst len src data) := by
  unfold copyBlock
  dsimp only
  repeat' split
  all_goals simp
theorem enginePoint_mem {s u : State} {o : Op} {point op kind addr inc part : Nat} {result : DWord} {b : Bool}
    (h : enginePoint s o point op kind addr inc part result = some (b, u)) : u.mem = s.mem := by
  unfold enginePoint at h
  split at h
  · cases h; rfl
  · split at h
    · split at h <;> cases h <;> rfl
    · split at h <;> cases h
      exact logEffect_mem _ _
@[simp] theorem redBlock_keeps (s : State) (o : Op) (op : AtomOp) (dst src : EP) (len : Nat) :
    KeepsForm s (redBlock s o op dst src len) := by
  unfold redBlock
  dsimp only
  split
  · simp
  · split
    · simp
    · simp
    · split
      · simp
      · split
        · simp
        · next h => simp [enginePoint_mem h]
@[simp] theorem moveElement_keeps (s : State) (o : Op) (count : Nat) (from_ to_ : Except Reach (List Nat)) (dst : EP)
    (off : Nat) : KeepsForm s (moveElement s o count from_ to_ dst off) := by
  unfold moveElement
  dsimp only
  repeat' split
  all_goals simp
@[simp] theorem atomStep_keeps (s : State) (o : Op) (op : AtomOp) (w64 : Bool) (slot : Nat) (dst : EP) (val cmp : Nat) :
    KeepsForm s (atomStep s o op w64 slot dst val cmp) := by
  unfold atomStep
  dsimp only
  split
  · simp
  · simp
  · split
    · simp
    · split
      · simp
      · next h =>
        simp only [keepsForm_next, finishOp_mem, State.modOp_mem, engineWrite_mem]
        split <;> simp [enginePoint_mem h]
theorem execResultArrival_keeps (_c : CtxId) (id : Nat) (s : State) : KeepsForm s (execResultArrival _c id s) := by
  simp [execResultArrival]
theorem execChannelOperationBegin_keeps (die core ch : Nat) (s : State) :
    KeepsForm s (execChannelOperationBegin die core ch s) := by
  unfold execChannelOperationBegin
  dsimp only
  split <;> simp
theorem execOperationCompletion_keeps (id : Nat) (s : State) : KeepsForm s (execOperationCompletion id s) := by
  unfold execOperationCompletion
  split
  · split
    · simp
    · split
      · simp
      · exact keepsForm_next.2 (completeOp_wf _)
  · simp

/-! Waiting for engines (R184 to R187) -/

@[simp] theorem cwaitBody_mem (cls : OpClass) (n : BitVec 6) (e : Env) (s : State) : (cwaitBody cls n e s).state.mem = s.mem := by
  simp [cwaitBody]
@[simp] theorem chwaitBody_mem (ch : BitVec 4) (a : Src) (e : Env) (s : State) : (chwaitBody ch a e s).state.mem = s.mem := by
  unfold chwaitBody
  split
  · simp
  · next h =>
    split
    · simp
    · dsimp only
      split <;> simp [columns_mem h]
@[simp] theorem hwaitBody_mem (a : BitVec 4) (e : Env) (s : State) : (hwaitBody a e s).state.mem = s.mem := by
  unfold hwaitBody
  split <;> simp
@[simp] theorem htestBody_mem (d : BitVec 3) (a : BitVec 4) (e : Env) (s : State) : (htestBody d a e s).state.mem = s.mem := by
  unfold htestBody
  split <;> simp
@[simp] theorem cancelOp_mem (s : State) (id : Nat) : (cancelOp s id).mem = s.mem := by
  unfold cancelOp
  repeat' split
  all_goals simp
@[simp] theorem hcancelBody_mem (a : BitVec 4) (e : Env) (s : State) : (hcancelBody a e s).state.mem = s.mem := by
  unfold hcancelBody
  split
  · rfl
  · rw [Res.state_next, State.mem_foldl]
    intro s h
    split <;> simp

end Sys2Proof.Machine
end

section
/-! SUPPORT. Barrier objects: a write of one is held in the galley. -/

namespace Sys2Proof.Machine

theorem onObject_mem {f : State → Nat → Nat → Bar → Res} (hf : ∀ s a n b, (f s a n b).state.mem = s.mem) (srcs : List Operand)
    (writes : Bool) (e : Env) (s : State) : (onObject srcs writes f e s).state.mem = s.mem := by
  unfold onObject
  split
  · rfl
  · split
    · simp
    · next h =>
      dsimp only
      split
      · simp
      · split
        · rfl
        · split
          · rw [galleyBar_mem _ _ (hf ..), columns_mem h]
          · rw [hf, columns_mem h]
@[simp] theorem barwBody_mem (a : Reg) (b : Src) (e : Env) (s : State) : (barwBody a b e s).state.mem = s.mem := by
  unfold barwBody
  split
  · rfl
  · rfl
  · refine onObject_mem (fun s o g k => ?_) ..
    split <;> simp

/-! BAR (R190) -/

@[simp] theorem arrive_mem (s : State) (t : TeamId) (l : List Arrival) : (arrive s t l).mem = s.mem := by
  unfold arrive
  exact (State.mem_foldl (fun _ _ => by simp) _ _).trans (State.mem_foldl (fun _ _ => by simp) _ _)
@[simp] theorem barBody_mem (a : Reg) (b : Src) (e : Env) (s : State) : (barBody a b e s).state.mem = s.mem := by
  unfold barBody
  dsimp only
  split
  · split <;> rfl
  · split
    · rfl
    · split
      · simp
      · next h =>
        split
        · rfl
        · split
          · rfl
          · split
            · rfl
            · split
              · rfl
              · rw [galleyBar_mem, columns_mem h]
                split <;> simp

end Sys2Proof.Machine
end

section
/-! SUPPORT. The cross-lane instructions leave the memory alone. -/

namespace Sys2Proof.Machine

/-! Lane sets (R153) -/

@[simp] theorem crossBody_mem (srcs : List Operand) (c : Reg) (f : List (Nat × List Nat) → Nat × List Nat → List Out) (e : Env)
    (s : State) : (crossBody srcs c f e s).state.mem = s.mem := by
  unfold crossBody
  split
  · rfl
  · split
    · rfl
    · split
      · simp
      · next h => simp [columns_mem h]
@[simp] theorem upperBody_mem (srcs : List Operand)
    (f : Env → State → List Nat → List (CtxId × Nat) → Except FaultInfo (List Out)) (e : Env) (s : State) :
    (upperBody srcs f e s).state.mem = s.mem := by
  unfold upperBody
  split
  · rfl
  · split
    · simp
    · next h => split <;> simp [columns_mem h]

end Sys2Proof.Machine
end

section
/-! SUPPORT. The control instructions leave the memory alone. -/

namespace Sys2Proof.Machine

/-! Slice by slice (R97) -/

@[simp] theorem spread_mem (s : State) (c : CtxId) (next : List (CtxId × Word)) : (spread s c next).mem = s.mem := by
  have h : (next.foldl (fun s n => s.modCtx n.1 (fun x => { x with pc := n.2 })) s).mem = s.mem :=
    State.mem_foldl (fun _ _ => by simp) _ _
  unfold spread
  dsimp only
  split
  · split <;> simp [h]
  · exact h
@[simp] theorem branchSlices_mem (e : Env) (s : State) (dest : CtxId → Word) (cond : CtxId → Except FaultInfo Bool) :
    (branchSlices e s dest cond).state.mem = s.mem := by
  unfold branchSlices
  dsimp only
  split <;> simp
@[simp] theorem branchUpper_mem (e : Env) (s : State) (dest : Word) (c : Except FaultInfo Bool) :
    (branchUpper e s dest c).state.mem = s.mem := by
  unfold branchUpper
  split <;> simp
@[simp] theorem branchLanes_mem (e : Env) (s : State) (dest : Word) (t : List (CtxId × Nat)) :
    (branchLanes e s dest t).state.mem = s.mem := by
  unfold branchLanes
  split
  · rfl
  · split
    · rfl
    · split
      · rfl
      · rw [Res.state_next, State.mem_foldl]
        simp
@[simp] theorem branchBody_mem (y : Scope) (neg : Bool) (a : Option (BitVec 3)) (dest : State → CtxId → Word) (e : Env)
    (s : State) : (branchBody y neg a dest e s).state.mem = s.mem := by
  unfold branchBody
  split <;> simp
theorem withTarget_mem {body : (State → CtxId → Word) → Env → State → Res} (hb : ∀ f e s, (body f e s).state.mem = s.mem)
    (b : Reg) (e : Env) (s : State) : (withTarget b body e s).state.mem = s.mem := by
  unfold withTarget
  dsimp only
  split
  · simp
  · next h => rw [hb, columns_mem h]

/-! Calls, returns and loops (R103, R104) -/

@[simp] theorem callBody_mem (dest : State → CtxId → Word) (e : Env) (s : State) : (callBody dest e s).state.mem = s.mem := by
  simp [callBody]
@[simp] theorem retBody_mem (e : Env) (s : State) : (retBody e s).state.mem = s.mem := by simp [retBody]
@[simp] theorem loopBody_mem (d : BitVec 2) (off : Word) (e : Env) (s : State) : (loopBody d off e s).state.mem = s.mem := by
  unfold loopBody
  dsimp only
  generalize hr : emitNow s _ = r
  have h : r.state.mem = s.mem := by rw [← hr, emitNow_mem]
  split
  · split <;> simpa using h
  · exact h

/-! Divergence and parting (R98, R101) -/

@[simp] theorem rcvBody_mem (off : Word) (e : Env) (s : State) : (rcvBody off e s).state.mem = s.mem := by simp [rcvBody]
@[simp] theorem regangBody_mem (e : Env) (s : State) : (regangBody e s).state.mem = s.mem := by
  unfold regangBody
  split <;> simp

/-! EXIT (R100, R105) -/

@[simp] theorem endPath_mem (unit : List CtxId) (n : Nat) (s : State) : (endPath unit n s).mem = s.mem := by
  induction n generalizing s with
  | zero => rfl
  | succ n ih =>
    unfold endPath
    dsimp only
    split
    · rfl
    · split
      · rfl
      · rw [ih, State.modCtxs_mem]
@[simp] theorem unarrive_mem (s : State) (t : TeamId) (u : CtxId) : (unarrive s t u).mem = s.mem := by
  unfold unarrive
  split
  · rw [State.mem_foldl]
    simp
  · rfl
@[simp] theorem advanceAll_mem (s : State) (t : TeamId) : (advanceAll s t).mem = s.mem := by
  unfold advanceAll
  rw [State.mem_foldl]
  simp
@[simp] theorem modPbar_mem (s : State) (id : Nat) (f : PBar → PBar) : (modPbar s id f).mem = s.mem := rfl
@[simp] theorem closePbar_mem (s : State) (id : Nat) : (closePbar s id).mem = s.mem := by
  unfold closePbar
  split <;> simp
@[simp] theorem pbarEnd_mem (s : State) (t : TeamId) (r : Nat) : (pbarEnd s t r).mem = s.mem := by
  unfold pbarEnd
  rw [State.mem_foldl]
  simp
@[simp] theorem endRole_mem (s : State) (t : TeamId) (r : Nat) : (endRole s t r).mem = s.mem := by simp [endRole]
@[simp] theorem exitLanes_mem (s : State) (t : TeamId) (r : Nat) (ls : List (CtxId × Nat)) :
    (exitLanes s t r ls).mem = s.mem := by
  simp only [exitLanes, advanceAll_mem, endRole_mem, State.modCtxs_mem, State.modTeam_mem]
  rw [State.mem_foldl]
  simp
@[simp] theorem exitBody_mem (e : Env) (s : State) : (exitBody e s).state.mem = s.mem := by
  unfold exitBody
  refine galleyBar_mem _ _ ?_
  split
  · simp
  · simp
  · dsimp only
    rw [Res.state_next, exitLanes_mem, State.mem_foldl]
    simp

/-! VOTE (R94) -/

@[simp] theorem voteBody_mem (y : Scope) (neg : Bool) (k : VoteKind) (d a : BitVec 3) (e : Env) (s : State) :
    (voteBody y neg k d a e s).state.mem = s.mem := by simp [voteBody]

/-! Traps and waiting (R115 to R118) -/

@[simp] theorem endPaths_mem (s : State) (t : TeamId) (r : Nat) : (endPaths s t r).mem = s.mem := by
  unfold endPaths
  rw [State.mem_foldl]
  intro s g
  split
  · rw [State.mem_foldl]
    simp
  · simp
@[simp] theorem tretBody_mem (e : Env) (s : State) : (tretBody e s).state.mem = s.mem := by simp [tretBody]
@[simp] theorem napBody_mem (n : Src) (e : Env) (s : State) : (napBody n e s).state.mem = s.mem := by
  unfold napBody
  split
  · split <;> rfl
  · split
    · simp
    · next h =>
      dsimp only
      split <;> simp [columns_mem h]

end Sys2Proof.Machine
end

section
/-! SUPPORT. Matrix instructions: what a drain writes is held in the galley, and a load only reads. -/

namespace Sys2Proof.Machine

/-! Stores with unspecified cells -/

@[simp] theorem modTile_mem (s : State) (core k : Nat) (f : Tile → Tile) : (modTile s core k f).mem = s.mem := rfl

/-! Records (R204 to R208) -/

@[simp] theorem obresBody_mem (f : Fmt) (sp : Sparsity) (blk : BlkLen) (scl : ScaleKind) (d a b : Reg) (base : Option Reg)
    (e : Env) (s : State) : (obresBody f sp blk scl d a b base e s).state.mem = s.mem := by
  unfold obresBody
  refine engineSrcs_mem (fun v s => ?_) ..
  dsimp only
  repeat' split
  all_goals simp

/-! The queue at work (R211, R214, R217, R229) -/

@[simp] theorem leaveQueue_mem (s : State) (o : Op) (code : Nat) : (leaveQueue s o code).mem = s.mem := by simp [leaveQueue]
@[simp] theorem pumpOne_mem (s : State) (id : Nat) : (pumpOne s id).mem = s.mem := by
  unfold pumpOne
  repeat' split
  all_goals simp
@[simp] theorem pump_mem (s : State) (core : Nat) : (pump s core).mem = s.mem := by
  unfold pump
  rw [State.mem_foldl]
  simp
@[simp] theorem accept_mem (s : State) (o : Op) (h : Option (BitVec 4)) : (accept s o h).mem = s.mem := by simp [accept]
@[simp] theorem startProduct_mem (s : State) (o : Op) : (startProduct s o).mem = s.mem := by
  unfold startProduct
  split <;> simp
theorem execProductStart_keeps (id : Nat) (s : State) : KeepsForm s (execProductStart id s) := by
  unfold execProductStart
  split
  · simp
  · dsimp only
    split
    · simp
    · split
      · rw [keepsForm_next, pump_mem, State.mem_foldl] <;> simp
      · simp
theorem execProductRetire_keeps (id : Nat) (s : State) : KeepsForm s (execProductRetire id s) := by
  unfold execProductRetire
  repeat' split
  all_goals simp
theorem execFormeLoadFinish_keeps (id : Nat) (s : State) : KeepsForm s (execFormeLoadFinish id s) := by
  unfold execFormeLoadFinish
  repeat' split
  all_goals simp

/-! OBREL, OBLD, OBSC (R209, R210) -/

@[simp] theorem obrelBody_mem (a : Reg) (e : Env) (s : State) : (obrelBody a e s).state.mem = s.mem := by
  unfold obrelBody
  refine engineSrcs_mem (fun v s => ?_) ..
  dsimp only
  repeat' split
  all_goals simp
@[simp] theorem formeLoadBody_mem (scales : Bool) (d a : Reg) (off : Src) (e : Env) (s : State) :
    (formeLoadBody scales d a off e s).state.mem = s.mem := by
  unfold formeLoadBody
  refine engineSrcs_mem (fun v s => ?_) ..
  dsimp only
  repeat' split
  all_goals simp

/-! Products at issue (R212, R213, R215) -/

@[simp] theorem productAccept_mem (s : State) (e : Env) (pair : Bool) (tile aId bId sw k : Nat) (ra rb : Rec)
    (masks : Option (List (List Nat))) (rows : Option (List (List Byte))) (ready : Nat) :
    (productAccept s e pair tile aId bId sw k ra rb masks rows ready).state.mem = s.mem := by simp [productAccept]
@[simp] theorem productBody_mem (kind : Prod) (at_ bt : Fmt) (pair : Bool) (d a b c : Reg) (e : Env) (s : State) :
    (productBody kind at_ bt pair d a b c e s).state.mem = s.mem := by
  unfold productBody
  refine engineSrcs_mem (fun v s => ?_) ..
  dsimp only
  repeat' split
  all_goals simp

/-! Tiles (R218 to R224) -/

@[simp] theorem allocSoon_mem (s : State) (core : Nat) : (allocSoon s core).mem = s.mem := rfl
@[simp] theorem accaBody_mem (d a : Reg) (e : Env) (s : State) : (accaBody d a e s).state.mem = s.mem := by
  unfold accaBody
  dsimp only
  split
  · next ks _ =>
    generalize hr : store e s .now [((e.c, 0), [(d, 2, ks.headD 0 + 2 ^ 32 * tileMask ks)])] = r
    have h : r.state.mem = s.mem := by rw [← hr, store_mem]
    split
    · exact h
    · exact h
  · rfl
  · refine engineSrcs_mem (fun v s => ?_) ..
    split <;> simp
@[simp] theorem accfBody_mem (a : Reg) (e : Env) (s : State) : (accfBody a e s).state.mem = s.mem := by
  unfold accfBody
  refine engineSrcs_mem (fun v s => ?_) ..
  dsimp only
  repeat' split
  all_goals simp
@[simp] theorem acczBody_mem (a : Reg) (e : Env) (s : State) : (acczBody a e s).state.mem = s.mem := by
  unfold acczBody
  refine engineSrcs_mem (fun v s => ?_) ..
  dsimp only
  repeat' split
  all_goals simp
@[simp] theorem accldBody_mem (f : Fmt) (sp : EngSpace) (d a b : Reg) (done : Option (BitVec 4)) (e : Env) (s : State) :
    (accldBody f sp d a b done e s).state.mem = s.mem := by
  unfold accldBody
  refine engineSrcs_mem (fun v s => ?_) ..
  dsimp only
  repeat' split
  all_goals simp
@[simp] theorem accstBody_mem (add : Bool) (f : Fmt) (rnd : Rnd) (sat sr : Bool) (sp : EngSpace) (d a b : Reg)
    (done : Option (BitVec 4)) (e : Env) (s : State) : (accstBody add f rnd sat sr sp d a b done e s).state.mem = s.mem := by
  unfold accstBody
  refine engineSrcs_mem (fun v s => ?_) ..
  dsimp only
  repeat' split
  all_goals simp

/-! Fragments (R224) -/

theorem fragment_mem {f : State → Nat → List ((CtxId × Nat) × Nat) → Res} (hf : ∀ s k l, (f s k l).state.mem = s.mem)
    (tile row : Reg) (wait : Bool) (e : Env) (s : State) : (fragment tile row wait f e s).state.mem = s.mem := by
  refine engineSrcs_mem (fun v s => ?_) ..
  dsimp only
  repeat' split
  all_goals simp [hf]
@[simp] theorem accrdBody_mem (f : Fmt) (d : BitVec 8) (a b : Reg) (e : Env) (s : State) :
    (accrdBody f d a b e s).state.mem = s.mem :=
  fragment_mem (fun _ _ _ => emitNow_mem _ _) ..
@[simp] theorem accwrBody_mem (f : Fmt) (d : Reg) (a : BitVec 8) (b : Reg) (e : Env) (s : State) :
    (accwrBody f d a b e s).state.mem = s.mem := by
  refine fragment_mem (fun s k l => ?_) ..
  split <;> simp

/-! Delivery of loads and drains -/

@[simp] theorem unreachedTile_keeps (s : State) (o : Op) (r : Reach) : KeepsForm s (unreachedTile s o r) :=
  unreachedBy_keeps (fun _ _ _ => by simp) s o r
@[simp] theorem loadRow_keeps (s : State) (o : Op) (tile : Nat) (f : Fmt) (src : EP) (pitch : Nat) :
    KeepsForm s (loadRow s o tile f src pitch) := by
  unfold loadRow
  dsimp only
  split
  · simp
  · split <;> simp
@[simp] theorem putGen_mem (s : State) (l : Option (CtxId × Nat)) (g : Option Word) : (putGen s l g).mem = s.mem := by
  unfold putGen
  split <;> simp
@[simp] theorem drainOne_keeps (s : State) (o : Op) (t : Tile) (f : Fmt) (rnd : Rnd) (sat : Bool) (sr : Option (CtxId × Nat))
    (dst : EP) (pitch : Nat) : KeepsForm s (drainOne s o t f rnd sat sr dst pitch) := by
  unfold drainOne
  dsimp only
  split
  · simp
  · split
    · simp
    · split <;> simp
@[simp] theorem drainSign_mem (s : State) (o : Op) (t : Tile) (f : Fmt) (rnd : Rnd) (sat : Bool) (dst : EP) (pitch i : Nat) :
    (drainSign s o t f rnd sat dst pitch i).mem = s.mem := by
  unfold drainSign
  rw [State.mem_foldl]
  simp
@[simp] theorem drainAdd_keeps (s : State) (o : Op) (t : Tile) (f : Fmt) (rnd : Rnd) (sat : Bool) (dst : EP) (pitch : Nat) :
    KeepsForm s (drainAdd s o t f rnd sat dst pitch) := by
  have signs (l : List Nat) : (l.foldl (fun s i => drainSign s o t f rnd sat dst pitch i) s).mem = s.mem :=
    State.mem_foldl (fun _ _ => by simp) _ _
  unfold drainAdd
  dsimp only
  split
  · simp
  · split
    · simp
    · split
      · simp
      · split
        · simp [signs]
        · rw [keepsForm_next, pump_mem, leaveQueue_mem, holdAt_mem, State.mem_foldl, signs]
          · exact id
          · intro s p
            split
            · next h => exact enginePoint_mem h
            · rfl

end Sys2Proof.Machine
end

section
/-! SUPPORT. Seals, checkpoints and rollback; the release of a galley's held writes is what writes the memory, byte by byte (R281). -/

namespace Sys2Proof.Machine

/-! Checkpoints (R282, R283) -/

@[simp] theorem startCheckpoint_mem (s : State) (t : TeamId) : (startCheckpoint s t).mem = s.mem := by
  unfold startCheckpoint
  split <;> simp
@[simp] theorem sealTeam_mem (s : State) (t : TeamId) : (sealTeam s t).mem = s.mem := by
  unfold sealTeam
  split <;> simp

/-! Held writes discarded (R280, R289) -/

@[simp] theorem discardHeld_mem (s : State) (ts : List TeamId) : (discardHeld s ts).mem = s.mem := rfl

/-! The spool (R309 to R311) -/

@[simp] theorem queueDraw_mem (s : State) (n : Nat) (q : Spooler) : (queueDraw s n q).mem = s.mem := rfl
@[simp] theorem leaveSpool_mem (s : State) (n : Nat) (c : CtxId) : (leaveSpool s n c).mem = s.mem := rfl
@[simp] theorem leaveSpools_mem (s : State) (t : TeamId) : (leaveSpools s t).mem = s.mem := rfl
@[simp] theorem Spooler.give_mem (s : State) (q : Spooler) (i : Option Nat) : (q.give s i).mem = s.mem := by
  unfold Spooler.give
  split
  · rw [State.mem_foldl]
    simp
  · split <;> simp
theorem spoolMove_mem {s u : State} {n die : Nat} (h : spoolMove s n die = some u) : u.mem = s.mem := by
  unfold spoolMove at h
  split at h
  · cases h
  · split at h
    · cases h
    · dsimp only at h
      split at h
      · cases h; simp
      · split at h
        · split at h <;> cases h
          simp
        · split at h <;> cases h <;> simp
@[simp] theorem serveAll_mem (fuel : Nat) (s : State) (n die : Nat) : (serveAll fuel s n die).mem = s.mem := by
  induction fuel generalizing s with
  | zero => rfl
  | succ fuel ih =>
    unfold serveAll
    split
    · next h => rw [ih, spoolMove_mem h]
    · rfl
@[simp] theorem serveSpool_mem (s : State) (n die : Nat) : (serveSpool s n die).mem = s.mem := by simp [serveSpool]

/-! Rollback (R285, R286) -/

@[simp] theorem dropOp_mem (s : State) (o : Op) : (dropOp s o).mem = s.mem := by
  unfold dropOp
  split <;> simp
@[simp] theorem cancelOps_mem (s : State) (t : TeamId) (epoch : Nat) : (cancelOps s t epoch).mem = s.mem := by
  simp only [cancelOps]; rw [State.mem_foldl] <;> simp
@[simp] theorem restoreHoldings_mem (s : State) (t : TeamId) (k : Ckpt) : (restoreHoldings s t k).mem = s.mem := rfl
@[simp] theorem restoreTeam_mem (s : State) (t : TeamId) (k : Ckpt) : (restoreTeam s t k).mem = s.mem := by
  simp only [restoreTeam, leaveSpools_mem, State.modTeam_mem]
  rw [State.mem_foldl]
  simp
@[simp] theorem rollbackUnit_mem (s : State) (t : TeamId) (d : Nat) : (rollbackUnit s t d).mem = s.mem := by
  simp only [rollbackUnit, countUp_mem]
  rw [State.mem_foldl]
  · simp
  · intro s u; split <;> simp

/-! Seal points (R198, R199) -/

@[simp] theorem clearSealers_mem (s : State) (ts : List TeamId) : (clearSealers s ts).mem = s.mem := by
  unfold clearSealers
  rw [State.mem_foldl]
  simp
@[simp] theorem sealDraw_mem (s : State) (ts : List TeamId) : (sealDraw s ts).mem = s.mem := by simp [sealDraw]
@[simp] theorem passSeal_mem (s : State) (ts : List TeamId) (tile : Bool) : (passSeal s ts tile).mem = s.mem := by
  have incs (u : State) (f : Team → Team) : (ts.foldl (fun s t => s.modTeam t f) u).mem = u.mem :=
    State.mem_foldl (fun _ _ => by simp) _ _
  unfold passSeal
  refine (clearSealers_mem _ _).trans ((State.mem_foldl (fun _ _ => sealTeam_mem _ _) _ _).trans
    ((State.mem_foldl (fun s a => ?_) _ _).trans ?_))
  · simp
  · simp [incs]
@[simp] theorem releaseProof_mem (s : State) (ts : List TeamId) : (releaseProof s ts).mem = s.mem := rfl
@[simp] theorem teamFault_mem (s : State) (t : TeamId) (f : FaultInfo) : (teamFault s t f).mem = s.mem := by simp [teamFault]
@[simp] theorem proofSeal_mem (s : State) (ts : List TeamId) (tile : Bool) : (proofSeal s ts tile).mem = s.mem := by
  unfold proofSeal
  dsimp only
  split
  · simp
  · split
    · rw [State.mem_foldl] <;> simp
    · rw [State.mem_foldl] <;> simp
@[simp] theorem auditSeal_mem (s : State) (ts : List TeamId) (tile : Bool) : (auditSeal s ts tile).mem = s.mem := by
  unfold auditSeal
  dsimp only
  split
  · rw [State.mem_foldl] <;> simp
  · simp only [passSeal_mem, State.mem_ite]
    split
    · rfl
    · split <;> simp
@[simp] theorem closeSeal_mem (s : State) (ts : List TeamId) (tile : Bool) : (closeSeal s ts tile).mem = s.mem := by
  unfold closeSeal
  split <;> simp
@[simp] theorem sealPoint_mem (tile nr : Bool) (d : Reg) (pd : BitVec 3) (e : Env) (s : State) :
    (sealPoint tile nr d pd e s).state.mem = s.mem := by
  unfold sealPoint
  extract_lets t r ws here u ts other draws v
  have hu : u.mem = s.mem := by simp only [u, State.mem_ite, State.modTeam_mem, ite_self]
  have hv : v.mem = s.mem := by simp only [v, State.mem_ite, sealDraw_mem, hu, ite_self]
  split
  · rfl
  · split
    · exact hu
    · split
      · exact hu
      · split
        · exact hu
        · split
          · exact hu
          · split
            · exact hv
            · rw [Res.state_done, closeSeal_mem, hv]

/-! Steps that befall checkpoints and galleys -/

@[simp] theorem releaseHoldings_mem (s : State) (t : TeamId) (epoch : Nat) : (releaseHoldings s t epoch).mem = s.mem := rfl
theorem execCheckpointValid_keeps (t : TeamId) (s : State) : KeepsForm s (execCheckpointValid t s) := by
  unfold execCheckpointValid
  repeat' split
  all_goals simp
/-- What a galley releases is the one thing that grid code writes to memory (R281). -/
theorem execGalleyRelease_keeps (die core : Nat) (s : State) : KeepsForm s (execGalleyRelease die core s) :=
  keepsForm_next.2 (State.wf_foldl (fun _ (h : Held) => putBytes_wf h.bytes) _)

end Sys2Proof.Machine
end

section
/-! SUPPORT. Collectives: what one writes is held in the galley. -/

namespace Sys2Proof.Machine

/-! Domains (R320) -/

@[simp] theorem modColl_mem (s : State) (dom seq : Nat) (f : Collective → Collective) : (modColl s dom seq f).mem = s.mem := rfl
@[simp] theorem kick_mem (s : State) (dom : Nat) : (kick s dom).mem = s.mem := by
  unfold kick
  split <;> simp
@[simp] theorem collDone_mem (s : State) (dom : Nat) (c : Collective) (code detail : Nat) :
    (collDone s dom c code detail).mem = s.mem := by
  simp only [collDone, kick_mem, State.later_mem]
  split <;> simp
@[simp] theorem endAll_mem (s : State) (dom code detail : Nat) : (endAll s dom code detail).mem = s.mem := by
  unfold endAll
  split
  · rw [State.mem_foldl]
    simp
  · rfl
@[simp] theorem sendFlit_mem (s : State) (d : Domain) (c : Collective) (dest : Nat) (f : Flit) :
    (sendFlit s d c dest f).mem = s.mem := rfl
@[simp] theorem sendAll_mem (s : State) (d : Domain) (c : Collective) (dest : List Nat) (f : Flit) :
    (sendAll s d c dest f).mem = s.mem := by
  unfold sendAll
  rw [State.mem_foldl]
  simp

/-! The steps of a collective at this member -/

@[simp] theorem collStuck_keeps (s : State) (o : Op) (d : Domain) (c : Collective) (r : Reach) :
    KeepsForm s (collStuck s o d c r) := by
  cases r <;> simp [collStuck]
@[simp] theorem collRead_keeps (s : State) (o : Op) (j : CollJob) (d : Domain) (c : Collective) (piece : Nat × Nat) :
    KeepsForm s (collRead s o j d c piece) := by
  unfold collRead
  split
  · simp
  · split <;> simp
@[simp] theorem collBegin_mem (s : State) (o : Op) (j : CollJob) (d : Domain) (c : Collective) :
    (collBegin s o j d c).mem = s.mem := by
  unfold collBegin
  extract_lets es p block seen u v
  have hv : v.mem = s.mem := by simp [v, u]
  clear_value v
  split
  · simp [hv]
  · rw [State.mem_foldl, hv]
    simp
  · simp [hv]
  · exact hv
@[simp] theorem collClimb_mem (s : State) (j : CollJob) (d : Domain) (c : Collective) : (collClimb s j d c).mem = s.mem := by
  unfold collClimb
  dsimp only
  repeat' split
  all_goals simp
@[simp] theorem holdColl_mem (s : State) (o : Op) (bs : List (Nat × Byte)) : (holdColl s o bs).mem = s.mem := by simp [holdColl]
@[simp] theorem collPut_keeps (s : State) (o : Op) (j : CollJob) (d : Domain) (c : Collective) (bs : List (Nat × List Word))
    (piece : Nat × Nat) : KeepsForm s (collPut s o j d c bs piece) := by
  unfold collPut
  split
  · simp
  · split <;> simp
@[simp] theorem collWrote_mem (s : State) (d : Domain) (c : Collective) : (collWrote s d c).mem = s.mem := by
  unfold collWrote
  split <;> simp
@[simp] theorem collSettle_mem (s : State) (d : Domain) (c : Collective) : (collSettle s d c).mem = s.mem := by
  unfold collSettle
  split <;> simp
@[simp] theorem collConfirm_mem (s : State) (d : Domain) (c : Collective) : (collConfirm s d c).mem = s.mem := by
  simp [collConfirm]
@[simp] theorem collFin_mem (s : State) (d : Domain) (c : Collective) : (collFin s d c).mem = s.mem := by simp [collFin]
@[simp] theorem collRun_keeps (s : State) (o : Op) (j : CollJob) (d : Domain) (c : Collective) :
    KeepsForm s (collRun s o j d c) := by
  have h : (collClimb s j d c).mem = s.mem := collClimb_mem ..
  unfold collRun
  generalize collClimb s j d c = u at h
  dsimp only
  split
  · simp [h]
  · split
    · simp [h]
    · split
      · simp [h]
      · split
        · intro t ht hs
          exact collPut_keeps _ _ _ _ _ _ _ t ht (by rw [h]; exact hs)
        · simp [h]
@[simp] theorem collGo_keeps (s : State) (o : Op) (j : CollJob) : KeepsForm s (collGo s o j) := by
  unfold collGo
  repeat' split
  all_goals simp

/-! Collective flits taken (R321, R326, R328, R343) -/

@[simp] theorem collDiffer_mem (s : State) (d : Domain) (c : Collective) : (collDiffer s d c).mem = s.mem := by simp [collDiffer]
@[simp] theorem collClash_mem (s : State) (d : Domain) (c : Collective) : (collClash s d c).mem = s.mem := by simp [collClash]
@[simp] theorem clashAgain_mem (s : State) (dom : Nat) : (clashAgain s dom).mem = s.mem := by
  unfold clashAgain
  split
  · rw [State.mem_foldl]
    simp
  · rfl
@[simp] theorem collTake_mem (s : State) (d : Domain) (c : Collective) (f : Flit) : (collTake s d c f).mem = s.mem := by
  simp [collTake]
@[simp] theorem takeEarly_mem (s : State) (dom seq : Nat) : (takeEarly s dom seq).mem = s.mem := by
  unfold takeEarly
  split
  · rfl
  · dsimp only
    rw [State.mem_foldl]
    · simp
    · intro s e; split <;> simp
@[simp] theorem drainEarly_mem (s : State) (d : Domain) : (drainEarly s d).mem = s.mem := by
  unfold drainEarly
  split
  · rfl
  · rw [State.mem_foldl]
    simp
@[simp] theorem flitIn_keeps (dom : Nat) (tag : BitVec 16) (seq : Nat) (from_ : Domain → Nat) (f : Flit) (s : State) :
    KeepsForm s (flitIn dom tag seq from_ f s) := by
  unfold flitIn
  dsimp only
  repeat' split
  all_goals simp

/-! COLL and VIEW (R322, R323, R326, R329) -/

@[simp] theorem acceptColl_mem (s : State) (o : Op) (j : CollJob) : (acceptColl s o j).mem = s.mem := by
  unfold acceptColl
  split <;> simp
@[simp] theorem collBody_mem (op : CollOp) (red : CollRed) (ty : CollTy) (pol : CollPolicy) (h : BitVec 4) (a b c : Reg)
    (e : Env) (s : State) : (collBody op red ty pol h a b c e s).state.mem = s.mem := by
  unfold collBody
  refine engineSrcs_mem (fun v s => ?_) ..
  dsimp only
  repeat' split
  all_goals simp
@[simp] theorem viewBody_mem (d a : Reg) (e : Env) (s : State) : (viewBody d a e s).state.mem = s.mem := by
  unfold viewBody
  refine engineSrcs_mem (fun v s => ?_) ..
  dsimp only
  repeat' split
  all_goals simp

/-! Steps that befall collective flits (R321, R326, R328, R343) -/

theorem execCollectiveFlit_keeps (dom : Nat) (tag : BitVec 16) (seq sender : Nat) (f : Flit) (s : State) :
    KeepsForm s (execCollectiveFlit dom tag seq sender f s) := by simp [execCollectiveFlit]
theorem execFlitResend_keeps (dom : Nat) (s : State) : KeepsForm s (execFlitResend dom s) := by
  unfold execFlitResend
  split
  · simp
  · rw [keepsForm_next, State.mem_foldl] <;> simp
theorem execFin_keeps (dom : Nat) (tag : BitVec 16) (seq pos : Nat) (s : State) : KeepsForm s (execFin dom tag seq pos s) := by
  simp [execFin]
theorem execConfirm_keeps (dom : Nat) (tag : BitVec 16) (seq : Nat) (s : State) : KeepsForm s (execConfirm dom tag seq s) := by
  simp [execConfirm]
theorem execDelivery_keeps (id : Nat) (s : State) : KeepsForm s (execDelivery id s) := by
  unfold execDelivery
  repeat' split
  all_goals simp

end Sys2Proof.Machine
end

section
/-! SUPPORT. The membership protocol leaves the memory alone. -/

namespace Sys2Proof.Machine

/-! What the protocol counts with -/

@[simp] theorem tell_mem (s : State) (d : Domain) (dest : Nat) (m : Instr) : (tell s d dest m).mem = s.mem := rfl
@[simp] theorem tellAll_mem (s : State) (d : Domain) (dest : List Nat) (m : Instr) : (tellAll s d dest m).mem = s.mem := by
  unfold tellAll
  rw [State.mem_foldl]
  simp
@[simp] theorem markViewchg_mem (s : State) (rs : List (TeamId × Nat)) (dom v : Nat) : (markViewchg s rs dom v).mem = s.mem := by
  unfold markViewchg
  rw [State.mem_foldl]
  simp

/-! Installing a view (R333, R334) -/

@[simp] theorem installView_mem (s : State) (dom v : Nat) (m : List Nat) (seq : Word) :
    (installView s dom v m seq).mem = s.mem := by
  unfold installView
  split
  · rfl
  · simp only [kick_mem, markViewchg_mem, clashAgain_mem, State.mem_ite, State.modDomain_mem]
    rw [State.mem_foldl] <;> simp
@[simp] theorem exclude_mem (s : State) (dom v : Nat) : (exclude s dom v).mem = s.mem := by
  unfold exclude
  split <;> simp

/-! Proposing (R331, R332) -/

@[simp] theorem commitView_mem (s : State) (dom : Nat) : (commitView s dom).mem = s.mem := by
  unfold commitView
  repeat' split
  all_goals simp
@[simp] theorem propose_mem (s : State) (dom : Nat) : (propose s dom).mem = s.mem := by
  unfold propose
  split <;> simp
@[simp] theorem suspect_mem (s : State) (dom : Nat) (rs : List Nat) : (suspect s dom rs).mem = s.mem := by
  unfold suspect
  dsimp only
  split
  · split <;> simp
  · simp

/-! Heartbeats (R330, R332, R338) -/

theorem execHeartbeatSend_keeps (dom : Nat) (s : State) : KeepsForm s (execHeartbeatSend dom s) := by
  unfold execHeartbeatSend
  split <;> simp
@[simp] theorem answerOutside_mem (s : State) (d : Domain) (r : Nat) : (answerOutside s d r).mem = s.mem := by
  simp [answerOutside]
theorem received_keeps {s : State} {f : Domain → State} (hf : ∀ d, (f d).mem = s.mem) (dom : Nat) :
    KeepsForm s (received dom s f) := by
  unfold received
  split <;> simp [hf]
theorem execHeartbeat_keeps (dom rank view : Nat) (hold : Bool) (s : State) :
    KeepsForm s (execHeartbeat dom rank view hold s) := by
  refine received_keeps (fun d => ?_) _
  repeat' split
  all_goals simp
theorem execSuspicion_keeps (dom rank : Nat) (s : State) : KeepsForm s (execSuspicion dom rank s) := by
  unfold execSuspicion
  split <;> simp

/-! Proposals and commits (R331) -/

theorem execPropose_keeps (dom v : Nat) (members : List Nat) (proposer : Nat) (s : State) :
    KeepsForm s (execPropose dom v members proposer s) := by
  refine received_keeps (fun d => ?_) _
  repeat' split
  all_goals simp
theorem execAck_keeps (dom v rank : Nat) (seq : Word) (s : State) : KeepsForm s (execAck dom v rank seq s) := by
  refine received_keeps (fun d => ?_) _
  repeat' split
  all_goals simp
theorem execViewCommit_keeps (dom v : Nat) (members : List Nat) (seq : Word) (s : State) :
    KeepsForm s (execViewCommit dom v members seq s) := by
  refine received_keeps (fun d => ?_) _
  repeat' split
  all_goals simp
theorem execProposeTimeout_keeps (dom : Nat) (s : State) : KeepsForm s (execProposeTimeout dom s) := by
  unfold execProposeTimeout
  repeat' split
  all_goals simp
theorem execCommitTimeout_keeps (dom : Nat) (s : State) : KeepsForm s (execCommitTimeout dom s) := by
  unfold execCommitTimeout
  repeat' split
  all_goals simp
theorem execMessageResend_keeps (dom : Nat) (s : State) : KeepsForm s (execMessageResend dom s) := by
  unfold execMessageResend
  split
  · simp
  · rw [keepsForm_next, State.mem_foldl] <;> simp

/-! Joining (R336) -/

@[simp] theorem commitJoin_mem (s : State) (d : Domain) (v : Nat) (m : List Nat) : (commitJoin s d v m).mem = s.mem := by
  simp [commitJoin]
@[simp] theorem noteJoinAck_mem (s : State) (dom rank : Nat) : (noteJoinAck s dom rank).mem = s.mem := by
  unfold noteJoinAck
  dsimp only
  repeat' split
  all_goals simp
@[simp] theorem answerOffer_mem (s : State) (dom : Nat) : (answerOffer s dom).mem = s.mem := by
  unfold answerOffer
  repeat' split
  all_goals simp
theorem execJoinReq_keeps (dom rank : Nat) (s : State) : KeepsForm s (execJoinReq dom rank s) := by
  refine received_keeps (fun d => ?_) _
  repeat' split
  all_goals simp
theorem execJoinOffer_keeps (dom v : Nat) (members : List Nat) (coordinator : Nat) (s : State) :
    KeepsForm s (execJoinOffer dom v members coordinator s) := by
  refine received_keeps (fun d => ?_) _
  repeat' split
  all_goals simp
theorem execJoinAck_keeps (dom v rank : Nat) (s : State) : KeepsForm s (execJoinAck dom v rank s) := by
  refine received_keeps (fun d => ?_) _
  repeat' split
  all_goals simp

/-! Halted dies (R338) -/

@[simp] theorem noteHalts_mem (s : State) : (noteHalts s).mem = s.mem := by
  have beats (u : State) (l : List Domain) : (l.foldl (fun s d =>
      if d.state = .excluded ∨ d.state = .joining then s
      else tellAll s d d.others (.heartbeat d.num d.own d.view true)) u).mem = u.mem :=
    State.mem_foldl (fun _ _ => by simp) _ _
  have kicks (u : State) (l : List Domain) : (l.foldl (fun s d => kick s d.num) u).mem = u.mem :=
    State.mem_foldl (fun _ _ => by simp) _ _
  unfold noteHalts
  rw [State.mem_foldl]
  intro s x
  simp [beats, kicks]

end Sys2Proof.Machine
end

section
/-! SUPPORT. Teams: a save writes the save area, a restore the save area and the records of the cores, byte by byte. -/

namespace Sys2Proof.Machine

/-! The start of a team (R24) -/

@[simp] theorem haveCore_mem (s : State) (n : Nat) : (haveCore s n).mem = s.mem := by simp [haveCore]
@[simp] theorem putTeam_mem (s : State) (t : TeamId) (x : Team) : (putTeam s t x).mem = s.mem := by simp [putTeam]

/-! The end of a team -/

@[simp] theorem writeBackPv_mem (s : State) (t : TeamId) (core : Nat) : (writeBackPv s t core).mem = s.mem := by
  simp [writeBackPv]
@[simp] theorem endHold_mem (s : State) (t : TeamId) : (endHold s t).mem = s.mem := rfl
@[simp] theorem releaseEffects_mem (s : State) (t : TeamId) (ctx : Nat) : (releaseEffects s t ctx).mem = s.mem := by
  simp [releaseEffects]
@[simp] theorem giveUp_mem (s : State) (t : TeamId) (core : Nat) : (giveUp s t core).mem = s.mem := rfl
@[simp] theorem freeTeam_mem (s : State) (t : TeamId) : (freeTeam s t).mem = s.mem := by
  unfold freeTeam
  split <;> simp
theorem execTeamEnd_keeps (t : TeamId) (s : State) : KeepsForm s (execTeamEnd t s) := by
  unfold execTeamEnd
  split <;> simp

/-! Killing a team (R360, R396) -/

@[simp] theorem killRecord_mem (s : State) (ts : List TeamId) : (killRecord s ts).mem = s.mem := by
  unfold killRecord
  split <;> simp
@[simp] theorem killTeam_mem (s : State) (t : TeamId) (code : Nat) : (killTeam s t code).mem = s.mem := by
  unfold killTeam
  split
  · rfl
  · split
    · rfl
    · simp only [freeTeam_mem, State.modLaunch_mem]
      rw [State.mem_foldl] <;> simp
@[simp] theorem killTeams_mem (s : State) (ts : List TeamId) (code : Nat) : (killTeams s ts code).mem = s.mem := by
  unfold killTeams
  exact (State.mem_foldl (fun _ _ => by simp) _ _).trans (State.mem_foldl (fun _ _ => by simp) _ _)

/-! Pre-emption (R258 to R260) -/

@[simp] theorem parkOp_mem (s : State) (o : Op) : (parkOp s o).mem = s.mem := by
  unfold parkOp
  split <;> simp
@[simp] theorem preemptTeam_mem (s : State) (t : TeamId) (hold : Bool) : (preemptTeam s t hold).mem = s.mem := by
  simp only [preemptTeam]; rw [State.mem_foldl] <;> simp
@[simp] theorem preempt_mem (s : State) (t : TeamId) (hold : Bool) : (preempt s t hold).mem = s.mem := by
  unfold preempt
  rw [State.mem_foldl]
  simp

/-! The save area (R260): its regions in order, each from a 4 KiB boundary on. The fields within a region are the model's. -/

theorem saveTeam_wf {s : State} (t : TeamId) (h : s.mem.wf = true) : (saveTeam s t).mem.wf = true := by
  unfold saveTeam
  split
  · exact h
  · split
    · exact h
    · simpa using putBytes_wf _ h
@[simp] theorem leaveStacks_mem (s : State) : (leaveStacks s).mem = s.mem := by
  unfold leaveStacks
  exact (State.mem_foldl (fun _ _ => by simp) _ _).trans (State.mem_foldl (fun _ _ => by simp) _ _)
/-- Every save of a team that leaves writes its save area (R260). -/
theorem saveAll_wf {s : State} (h : s.mem.wf = true) : (saveAll s).mem.wf = true := by
  unfold saveAll
  exact State.wf_foldl (fun _ t => saveTeam_wf t) _ (by simpa using h)

/-! Restore (R261) -/

@[simp] theorem moveEffects_mem (s : State) (t : TeamId) (ctx old new : Nat) : (moveEffects s t ctx old new).mem = s.mem := rfl
@[simp] theorem resumeOp_mem (s : State) (core : Nat) (o : Op) : (resumeOp s core o).mem = s.mem := by
  unfold resumeOp
  dsimp only
  split <;> simp
theorem recordCores_wf {s : State} (n : Nat) (h : s.mem.wf = true) : (recordCores s n).mem.wf = true := by
  unfold recordCores
  split
  · exact h
  · dsimp only
    split
    · rw [State.mem_foldl]
      · exact h
      · intro s i; split <;> simp
    · exact putBytes_wf _ h
theorem restoreSaved_wf {s : State} (v : SavedTeam) (core : Nat) (h : s.mem.wf = true) :
    (restoreSaved s v core).mem.wf = true := by
  unfold restoreSaved
  split
  · exact h
  · refine recordCores_wf _ ?_
    rw [State.mem_foldl (fun _ _ => by simp)]
    simp only [moveEffects_mem, State.modCtxs_mem, State.modCore_mem]
    exact putBytes_wf _ (putBytes_wf _ (by simpa using h))
@[simp] theorem deliverLate_mem (s : State) (t : TeamId) : (deliverLate s t).mem = s.mem := by
  unfold deliverLate
  rw [State.mem_foldl] <;> simp
theorem restoreUnit_wf {s : State} (t : TeamId) (h : s.mem.wf = true) : (restoreUnit s t).mem.wf = true := by
  unfold restoreUnit
  split
  · rw [State.mem_foldl (fun _ _ => by simp)]
    exact State.wf_foldl (fun _ _ => restoreSaved_wf _ _) _ h
  · exact h
theorem execTeamRestore_keeps (t : TeamId) (s : State) : KeepsForm s (execTeamRestore t s) := keepsForm_next.2 (restoreUnit_wf t)
theorem execTeamReschedule_keeps (t : TeamId) (s : State) : KeepsForm s (execTeamReschedule t s) :=
  keepsForm_next.2 (restoreUnit_wf t)

/-! The accumulator allocator (R219, R225) -/

@[simp] theorem grantAll_mem (fuel : Nat) (s : State) (core : Nat) : (grantAll fuel s core).mem = s.mem := by
  induction fuel generalizing s with
  | zero => rfl
  | succ fuel ih =>
    unfold grantAll
    split
    · rfl
    · dsimp only
      split
      · rfl
      · rw [ih, State.modCore_mem]
theorem execAccaGrant_keeps (die core : Nat) (s : State) : KeepsForm s (execAccaGrant die core s) := by
  unfold execAccaGrant
  dsimp only
  split <;> simp

/-! Strikes and aborts (R277, R287, R298) -/

@[simp] theorem stopUnit_mem (s : State) (t : TeamId) (f : FaultInfo) : (stopUnit s t f).mem = s.mem := by simp [stopUnit]
@[simp] theorem rollbackAll_mem (s : State) (t : TeamId) (d : Nat) : (rollbackAll s t d).mem = s.mem := by
  unfold rollbackAll
  dsimp only
  split <;> simp
@[simp] theorem strikeUnit_mem (s : State) (t : TeamId) (cell : Nat) : (strikeUnit s t cell).mem = s.mem := by
  unfold strikeUnit
  split
  · rfl
  · split
    · split
      · rfl
      · rw [stopUnit_mem, State.mem_foldl]
        simp
    · simp
theorem execStrikeReport_keeps (die cell : Nat) (s : State) : KeepsForm s (execStrikeReport die cell s) := by
  unfold execStrikeReport
  rw [keepsForm_next, State.mem_foldl] <;> simp
@[simp] theorem abortUnit_mem (s : State) (t : TeamId) (pa : Nat) : (abortUnit s t pa).mem = s.mem := by
  unfold abortUnit
  split
  · rfl
  · split
    · rfl
    · split
      · simp
      · rw [rollbackAll_mem, State.mem_foldl]
        simp
@[simp] theorem foundBad_mem (s : State) (pa : Nat) : (foundBad s pa).mem = s.mem := rfl
theorem execAbortCompletion_keeps (t : TeamId) (pa : Nat) (s : State) : KeepsForm s (execAbortCompletion t pa s) := by
  simp [execAbortCompletion]

/-! The waiting budget (R262, R263) -/

theorem execWaitbudget_keeps (ctx : Nat) (s : State) : KeepsForm s (execWaitbudget ctx s) := by
  unfold execWaitbudget
  split
  · simp
  · split
    · simp
    · dsimp only
      rw [keepsForm_next, State.mem_foldl] <;> simp

/-! Translation (R264 to R268) -/

@[simp] theorem modWalks_mem (s : State) (home : Nat × Nat → Bool) (f : List Nat → List Nat) : (modWalks s home f).mem = s.mem :=
  rfl
theorem execTranslationWalk_keeps (die ctx va : Nat) (s : State) : KeepsForm s (execTranslationWalk die ctx va s) := by
  unfold execTranslationWalk
  split
  · simp
  · split
    · simp
    · dsimp only
      split
      · simp
      · rw [keepsForm_next, State.mem_foldl] <;> simp
@[simp] theorem invalidate_mem (s : State) (ctl a : Nat) : (invalidate s ctl a).mem = s.mem := rfl
@[simp] theorem ackTlbi_mem (s : State) (die : Nat) : (ackTlbi s die).mem = s.mem := by
  unfold ackTlbi
  split <;> simp
theorem execTlbiAck_keeps (die : Nat) (s : State) : KeepsForm s (execTlbiAck die s) := by simp [execTlbiAck]

/-! Naps, W scope, the power budget, the snapshot -/

theorem execNapExpiry_keeps (c : CtxId) (s : State) : KeepsForm s (execNapExpiry c s) := by
  unfold execNapExpiry
  split <;> simp
theorem execWScopeExecution_keeps (launch role : Nat) (s : State) : KeepsForm s (execWScopeExecution launch role s) := by
  simp [execWScopeExecution]
theorem execBudgetRefill_keeps (s : State) : KeepsForm s (execBudgetRefill s) := by
  unfold execBudgetRefill
  rw [keepsForm_next, State.mem_foldl] <;> simp
theorem execGovernorUpdate_keeps (watts rate : BitVec 16) (s : State) : KeepsForm s (execGovernorUpdate watts rate s) := by
  simp [execGovernorUpdate]
theorem execSnapshotLatch_keeps (s : State) : KeepsForm s (execSnapshotLatch s) := by
  unfold execSnapshotLatch
  split
  · simp
  · dsimp only
    split
    · simp
    · split
      · simp
      · split <;> simp

/-! Single steps (R270) -/

theorem execSingleStep_keeps (t : TeamId) (group slice : Nat) (s : State) : KeepsForm s (execSingleStep t group slice s) := by
  unfold execSingleStep
  split <;> simp
@[simp] theorem stepStop_mem (s : State) (t : TeamId) (u : CtxId) (p : Pending) (partu : Bool) :
    (stepStop s t u p partu).mem = s.mem := rfl

end Sys2Proof.Machine
end

section
/-! SUPPORT. Queues and packets: the compositor writes records and copies packets byte by byte; its signals are held. -/

namespace Sys2Proof.Machine

/-! The compositor's accesses -/

@[simp] theorem vaReport_mem (s : State) (ctx va n : Nat) : (vaReport s ctx va n).mem = s.mem := by
  unfold vaReport
  repeat' split
  all_goals simp
theorem vaWrite_wf {s u : State} {ctx va : Nat} {bs : List Byte} (hw : vaWrite s ctx va bs = .ok u) (h : s.mem.wf = true) :
    u.mem.wf = true := by
  unfold vaWrite at hw
  split at hw <;> cases hw
  exact putBytes_wf _ h
@[simp] theorem vaPut_mem (s : State) (ctx va : Nat) (bs : List Byte) : (vaPut s ctx va bs).mem = s.mem := by
  unfold vaPut
  split <;> simp
@[simp] theorem completeSignal_mem (s : State) (ctx va code : Nat) : (completeSignal s ctx va code).mem = s.mem := by
  unfold completeSignal
  repeat' split
  all_goals simp
@[simp] theorem flushSignals_mem (s : State) : (flushSignals s).mem = s.mem := by
  unfold flushSignals
  rw [State.mem_foldl]
  simp
@[simp] theorem completePacket_mem (s : State) (q : HQueue) (p : Packet) (code : Nat) :
    (completePacket s q p code).mem = s.mem := by
  unfold completePacket
  split <;> simp

/-! Placement (R306 to R309) -/

theorem putRecord_wf {s : State} (q : HQueue) (p : Packet) (off : Nat) (bs : List Byte) (h : s.mem.wf = true) :
    (putRecord s q p off bs).mem.wf = true := by
  unfold putRecord
  split
  · split
    · simpa using h
    · exact h
  · exact putBytes_wf _ h
theorem placeLaunch_wf {s : State} (q : HQueue) (p : Packet) (us vs : List (List Nat)) (h : s.mem.wf = true) :
    (placeLaunch s q p us vs).mem.wf = true := by
  unfold placeLaunch
  refine recordCores_wf _ (putRecord_wf _ _ _ _ (putRecord_wf _ _ _ _ ?_))
  rw [State.mem_foldl (fun _ _ => putTeam_mem _ _ _), State.mem_foldl (fun _ _ => putTeam_mem _ _ _)]
  exact h

/-! Dispatch in ring order (R303, R304) -/

theorem copyBlocks_wf {ctx fuel src dst len : Nat} {s u : State} (hc : copyBlocks ctx fuel s src dst len = .ok u)
    (h : s.mem.wf = true) : u.mem.wf = true := by
  induction fuel generalizing s src dst len with
  | zero => cases hc; exact h
  | succ fuel ih =>
    unfold copyBlocks at hc
    split at hc
    · cases hc; exact h
    · dsimp only at hc
      split at hc
      · split at hc
        · next hw => exact ih hc (vaWrite_wf hw h)
        · cases hc
      · cases hc
theorem copyPacket_wf {s u : State} {q : HQueue} {p : Packet} (hc : copyPacket s q p = .ok u) (h : s.mem.wf = true) :
    u.mem.wf = true :=
  copyBlocks_wf hc h
@[simp] theorem popReady_mem (s : State) (q : Nat) : (popReady s q).mem = s.mem := rfl
@[simp] theorem startSampling_mem (s : State) (q : HQueue) (p : Packet) : (startSampling s q p).mem = s.mem := rfl
theorem advanceQueue_wf (fuel : Nat) {s : State} (q : Nat) (h : s.mem.wf = true) : (advanceQueue fuel s q).mem.wf = true := by
  induction fuel generalizing s with
  | zero => exact h
  | succ fuel ih =>
    unfold advanceQueue
    split
    · exact h
    · split
      · simpa using h
      · split
        · exact h
        · split
          · exact ih (by simpa using h)
          · split
            · split
              · exact ih (by simpa using h)
              · exact h
            · split
              · next hc => exact ih (by simpa using copyPacket_wf hc h)
              · simpa using h
            · exact h
theorem serveQueue_wf {s : State} (q : Nat) (h : s.mem.wf = true) : (serveQueue s q).mem.wf = true := advanceQueue_wf _ q h
theorem execPlacement_keeps (q : Nat) (s : State) : KeepsForm s (execPlacement q s) := by
  unfold execPlacement
  split
  · simp
  · split
    · exact keepsForm_next.2 (serveQueue_wf q)
    · split
      · exact keepsForm_next.2 fun h => serveQueue_wf q (by simpa using placeLaunch_wf _ _ _ _ h)
      · simp
theorem execBarrierAndSample_keeps (q : Nat) (s : State) : KeepsForm s (execBarrierAndSample q s) := by
  have reports (ctx : Nat) (l : List Nat) : (l.foldl (fun s a => vaReport s ctx a 8) s).mem = s.mem :=
    State.mem_foldl (fun _ _ => by simp) _ _
  unfold execBarrierAndSample
  split
  · simp
  · split
    · simp
    · dsimp only
      split
      · exact keepsForm_next.2 fun h => serveQueue_wf q (by simpa [reports] using h)
      · split
        · exact keepsForm_next.2 fun h => serveQueue_wf q (by simpa [reports] using h)
        · simp [reports]

/-! Consumption of a ring (R351) -/

theorem execPacketConsume_keeps (q : Nat) (s : State) : KeepsForm s (execPacketConsume q s) := by
  unfold execPacketConsume
  split
  · simp
  · extract_lets whole p u v w x y
    refine keepsForm_next.2 fun h => serveQueue_wf q ?_
    have hv : v.mem.wf = true := by
      simp only [v]
      split
      · exact putRecord_wf _ _ _ _ (putRecord_wf _ _ _ _ h)
      · exact h
    simpa [y, x, w] using hv

/-! The end of a grid (R307, R358, R359) -/

@[simp] theorem endGrid_mem (s : State) (launch : Nat) : (endGrid s launch).mem = s.mem := by
  unfold endGrid
  repeat' split
  all_goals simp
theorem execGridEnd_keeps (launch : Nat) (s : State) : KeepsForm s (execGridEnd launch s) := by simp [execGridEnd]

/-! Destroying a queue (R360) -/

@[simp] theorem destroyQueue_mem (s : State) (n : Nat) : (destroyQueue s n).mem = s.mem := by
  unfold destroyQueue
  split
  · rfl
  · split
    · rfl
    · rw [State.modQueue_mem, State.mem_foldl, State.mem_foldl] <;> simp

/-! Time slices (R305) -/

theorem execTimeSliceEnd_keeps (ctx : Nat) (s : State) : KeepsForm s (execTimeSliceEnd ctx s) := by
  unfold execTimeSliceEnd
  split
  · simp
  · rw [keepsForm_next, State.mem_foldl] <;> simp

end Sys2Proof.Machine
end

section
/-! SUPPORT. Power-up, update and reset: a scrub and a reset drop bytes of the memory, which keeps the order of those that stay. -/

namespace Sys2Proof.Machine

/-! Images (R366, R367) -/

@[simp] theorem measureSlot_mem (s : State) (slot : Nat) : (measureSlot s slot).mem = s.mem := rfl
@[simp] theorem authenticate_mem (s : State) : (authenticate s).mem = s.mem := by simp [authenticate]

/-! The steps of DRAM and photonics (R385, R388) -/

@[simp] theorem goDram_mem (s : State) (k step : Nat) : (goDram s k step).mem = s.mem := by
  unfold goDram
  split <;> simp
@[simp] theorem goPhot_mem (s : State) (k step : Nat) : (goPhot s k step).mem = s.mem := by
  unfold goPhot
  split <;> simp
@[simp] theorem dramResult_mem (s : State) (k code : Nat) : (dramResult s k code).mem = s.mem := rfl
@[simp] theorem photResult_mem (s : State) (k code : Nat) : (photResult s k code).mem = s.mem := rfl
@[simp] theorem repairLane_mem (s : State) (die : Nat) (f : LaneFault) : (repairLane s die f).mem = s.mem := by
  unfold repairLane
  dsimp only
  split
  · rfl
  · split <;> simp
theorem execBondLaneRepair_keeps (die : Nat) (failing : List LaneFault) (s : State) :
    KeepsForm s (execBondLaneRepair die failing s) := by
  unfold execBondLaneRepair
  split
  · simp
  · rw [keepsForm_next, dramResult_mem, State.modDie_mem, State.mem_foldl] <;> simp
theorem execTimingCalibration_keeps (die : Nat) (meas : List DelayMeas) (s : State) :
    KeepsForm s (execTimingCalibration die meas s) := by simp [execTimingCalibration]
theorem execRefreshSetup_keeps (die : Nat) (s : State) : KeepsForm s (execRefreshSetup die s) := by simp [execRefreshSetup]
theorem execRefreshRejudge_keeps (die : Nat) (temp : BitVec 16) (s : State) : KeepsForm s (execRefreshRejudge die temp s) := by
  simp [execRefreshRejudge]
theorem scrubDram_wf {s : State} (die : Nat) (h : s.mem.wf = true) : (scrubDram s die).mem.wf = true := Memory.wf_filter _ h
theorem execLight_keeps (die : Nat) (strong : Bool) (s : State) : KeepsForm s (execLight die strong s) := by simp [execLight]
theorem execTune_keeps (die : Nat) (heats : List (Nat × BitVec 12)) (s : State) : KeepsForm s (execTune die heats s) := by
  simp [execTune]
theorem execLock_keeps (die : Nat) (rings : List Nat) (s : State) : KeepsForm s (execLock die rings s) := by simp [execLock]
theorem execDefaultCircuits_keeps (die : Nat) (s : State) : KeepsForm s (execDefaultCircuits die s) := by
  simp [execDefaultCircuits]

/-! The reset of a die (R384) -/

@[simp] theorem saveCounters_mem (s : State) : (saveCounters s).mem = s.mem := rfl
@[simp] theorem emptyDie_mem (s : State) (k : Nat) : (emptyDie s k).mem = s.mem := by
  simp only [emptyDie, killTeams_mem]
  rw [State.mem_foldl]
  simp
@[simp] theorem dieDown_mem (s : State) (k : Nat) : (dieDown s k).mem = s.mem := by simp [dieDown]
theorem execDierstSet_keeps (die : Nat) (s : State) : KeepsForm s (execDierstSet die s) := by simp [execDierstSet]
@[simp] theorem bootFail_mem (s : State) (step : Nat) : (bootFail s step).mem = s.mem := by
  unfold bootFail
  rw [State.mem_foldl]
  simp
theorem scrubSram_wf {s : State} (k : Nat) (h : s.mem.wf = true) : (scrubSram s k).mem.wf = true := Memory.wf_filter _ h
@[simp] theorem startCompositor_mem (s : State) (k : Nat) : (startCompositor s k).mem = s.mem := rfl
@[simp] theorem beginDram_mem (s : State) : (beginDram s).mem = s.mem := by
  unfold beginDram
  dsimp only
  split
  · rw [State.mem_foldl]
    simp
  · rfl
@[simp] theorem beginRun_mem (s : State) : (beginRun s).mem = s.mem := by
  have starts (l : List Nat) :
      (l.foldl (fun s k => startCompositor (s.modDie k (fun d => { d with phase := 0 })) k) s).mem = s.mem :=
    State.mem_foldl (fun _ _ => by simp) _ _
  unfold beginRun
  simp [starts]
@[simp] theorem advanceDies_mem (s : State) : (advanceDies s).mem = s.mem := by
  unfold advanceDies
  dsimp only
  split
  · rw [State.mem_foldl]
    simp
  · split
    · rw [State.mem_foldl]
      simp
    · rfl
theorem execScrub_keeps (die : Nat) (s : State) : KeepsForm s (execScrub die s) := by
  unfold execScrub
  split
  · exact keepsForm_next.2 (scrubDram_wf die)
  · split
    · refine keepsForm_next.2 fun h => ?_
      rw [beginRun_mem]
      exact scrubSram_wf die h
    · simp
@[simp] theorem dieUp_mem (s : State) (k : Nat) : (dieUp s k).mem = s.mem := by simp [dieUp]
@[simp] theorem dieReady_mem (s : State) (k : Nat) : (dieReady s k).mem = s.mem := by simp [dieReady]
theorem execDierstClear_keeps (die : Nat) (s : State) : KeepsForm s (execDierstClear die s) := by simp [execDierstClear]
theorem execDramStepEnd_keeps (die : Nat) (s : State) : KeepsForm s (execDramStepEnd die s) := by
  unfold execDramStepEnd
  split <;> simp
theorem execPhotonicStepEnd_keeps (die : Nat) (s : State) : KeepsForm s (execPhotonicStepEnd die s) := by
  unfold execPhotonicStepEnd
  split <;> simp

/-! Power-up, the link, reset (R383, R384, R386, R387) -/

@[simp] theorem startSequencer_mem (s : State) : (startSequencer s).mem = s.mem := rfl
theorem execPowerGood_keeps (s : State) : KeepsForm s (execPowerGood s) := by simp [execPowerGood]
@[simp] theorem trainLink_mem (s : State) : (trainLink s).mem = s.mem := rfl
theorem execOscclk_keeps (s : State) : KeepsForm s (execOscclk s) := by simp [execOscclk]
@[simp] theorem trainFails_mem (s : State) : (trainFails s).mem = s.mem := by simp [trainFails]
theorem execLinkUp_keeps (lanes : List LaneTrain) (zeroAt : Nat) (errors : List (List (BitVec 16))) (s : State) :
    KeepsForm s (execLinkUp lanes zeroAt errors s) := by
  unfold execLinkUp
  split
  · simp
  · dsimp only
    split
    · simp
    · split
      · simp
      · split
        · simp
        · rw [keepsForm_next, State.mem_foldl] <;> simp
theorem execTrain_keeps (s : State) : KeepsForm s (execTrain s) := by simp [execTrain]
theorem execLinkRetrain_keeps (s : State) : KeepsForm s (execLinkRetrain s) := by simp [execLinkRetrain]
theorem execLinkRetry_keeps (s : State) : KeepsForm s (execLinkRetry s) := by simp [execLinkRetry]
theorem execStepLimitExpiry_keeps (s : State) : KeepsForm s (execStepLimitExpiry s) := by
  unfold execStepLimitExpiry
  repeat' split
  all_goals simp
/-- What a reset keeps of memory it keeps in its form (R384). -/
theorem lasting_wf {m : Memory} (h : m.wf = true) : (lasting m).wf = true := Memory.wf_filter _ h
theorem resetPackage_wf {s : State} (h : s.mem.wf = true) : (resetPackage s).mem.wf = true := lasting_wf h
theorem execPowerLoss_keeps (s : State) : KeepsForm s (execPowerLoss s) := keepsForm_next.2 lasting_wf
@[simp] theorem countSecond_mem (s : State) (d : Die) : (countSecond s d).mem = s.mem := rfl
theorem execCounterSave_keeps (s : State) : KeepsForm s (execCounterSave s) := by
  unfold execCounterSave
  split
  · simp
  · rw [keepsForm_next, saveCounters_mem, State.mem_foldl] <;> simp

/-! Rings in service (R389) -/

theorem execRingLockLoss_keeps (die ring : Nat) (s : State) : KeepsForm s (execRingLockLoss die ring s) := by
  unfold execRingLockLoss
  split <;> simp
theorem execRingRemoval_keeps (die ring : Nat) (s : State) : KeepsForm s (execRingRemoval die ring s) := by
  unfold execRingRemoval
  split <;> simp

/-! The connection table (R316, R317) -/

@[simp] theorem setConn_mem (s : State) (die n : Nat) (e : Bool × Nat × Nat × Nat × Nat) : (setConn s die n e).mem = s.mem := rfl
@[simp] theorem connSet_mem (s : State) (die n : Nat) (v : Word) : (connSet s die n v).mem = s.mem := by
  unfold connSet
  split
  · rfl
  · split
    · rfl
    · dsimp only
      split <;> simp
theorem execConnValidSet_keeps (die n : Nat) (v : Word) (s : State) : KeepsForm s (execConnValidSet die n v s) := by
  simp [execConnValidSet]
@[simp] theorem connClear_mem (s : State) (die n : Nat) (v : Word) : (connClear s die n v).mem = s.mem := by
  unfold connClear
  split <;> simp
theorem execConnValidClear_keeps (die n : Nat) (v : Word) (s : State) : KeepsForm s (execConnValidClear die n v s) := by
  simp [execConnValidClear]
theorem execCircuitTuned_keeps (die n : Nat) (s : State) : KeepsForm s (execCircuitTuned die n s) := by
  unfold execCircuitTuned
  split <;> simp
theorem execTearDownDone_keeps (die n : Nat) (s : State) : KeepsForm s (execTearDownDone die n s) := by simp [execTearDownDone]

/-! Firmware update (R369, R370) -/

@[simp] theorem answer_mem (s : State) (cmd code : Nat) (data : List Nat) : (answer s cmd code data).mem = s.mem := rfl
@[simp] theorem inUpdate_mem (s : State) (cmd : Nat) (ok : Bool) (f : Pldm → Pldm) : (inUpdate s cmd ok f).mem = s.mem := by
  simp [inUpdate]
theorem execQuerydeviceidentifiers_keeps (s : State) : KeepsForm s (execQuerydeviceidentifiers s) := by
  simp [execQuerydeviceidentifiers]
theorem execGetfirmwareparameters_keeps (s : State) : KeepsForm s (execGetfirmwareparameters s) := by
  simp [execGetfirmwareparameters]
theorem execRequestupdate_keeps (s : State) : KeepsForm s (execRequestupdate s) := by simp [execRequestupdate]
theorem execPasscomponenttable_keeps (component : BitVec 16) (s : State) : KeepsForm s (execPasscomponenttable component s) := by
  simp [execPasscomponenttable]
theorem execUpdatecomponent_keeps (component : BitVec 16) (size : Nat) (s : State) :
    KeepsForm s (execUpdatecomponent component size s) := by simp [execUpdatecomponent]
theorem execRequestfirmwaredata_keeps (off : Nat) (data : List Byte) (s : State) :
    KeepsForm s (execRequestfirmwaredata off data s) := by
  unfold execRequestfirmwaredata
  split
  · exact keepsForm_next.2 (putBytes_wf _)
  · simp
theorem execTransfercomplete_keeps (ok : Bool) (s : State) : KeepsForm s (execTransfercomplete ok s) := by
  simp [execTransfercomplete]
theorem execVerifycomplete_keeps (s : State) : KeepsForm s (execVerifycomplete s) := by simp [execVerifycomplete]
theorem execApplycomplete_keeps (s : State) : KeepsForm s (execApplycomplete s) := by simp [execApplycomplete]
theorem execGetstatus_keeps (s : State) : KeepsForm s (execGetstatus s) := by simp [execGetstatus]
theorem execCancelupdatecomponent_keeps (s : State) : KeepsForm s (execCancelupdatecomponent s) := by
  simp [execCancelupdatecomponent]
theorem execCancelupdate_keeps (s : State) : KeepsForm s (execCancelupdate s) := by simp [execCancelupdate]

end Sys2Proof.Machine
end

section
/-! SUPPORT. The floating-point instructions that draw from a generator leave the memory alone. -/

namespace Sys2Proof.Machine

@[simp] theorem setGen_mem (s : State) (p : CtxId × Nat) (g : Word) : (setGen s p g).mem = s.mem := rfl
@[simp] theorem srBody_mem (d : Reg) (srcs : List Operand) (f : Word → List Nat → Nat × Word) (e : Env) (s : State) :
    (srBody d srcs f e s).state.mem = s.mem := by
  unfold srBody
  split
  · simp
  · next h =>
    rw [store_mem, State.mem_foldl, columns_mem h]
    simp
@[simp] theorem seedBody_mem (b : Src) (e : Env) (s : State) : (seedBody b e s).state.mem = s.mem := by
  unfold seedBody
  split
  · simp
  · next h =>
    rw [Res.state_next, State.mem_foldl, columns_mem h]
    simp

end Sys2Proof.Machine
end

section
/-! SUPPORT. The mailbox: an answer is written byte by byte, and RESET resets the package. -/

namespace Sys2Proof.Machine

/-! Running a command (R362) -/

@[simp] theorem endCommand_mem (s : State) (err : Nat) (results : List Nat) : (endCommand s err results).mem = s.mem := rfl
/-- A mailbox command keeps the form if what it does keeps it. -/
theorem commandOn_keeps {s : State} {f : State → State} (hf : s.mem.wf = true → (f s).mem.wf = true) (code seq : BitVec 16)
    (touches : List (Nat × Nat)) : KeepsForm s (commandOn code seq s touches f) := by
  unfold commandOn
  split
  · simp
  · split
    · simp
    · split
      · simp
      · exact keepsForm_next.2 hf
@[simp] theorem badArgument_mem (s : State) : (badArgument s).mem = s.mem := rfl
@[simp] theorem noResource_mem (s : State) : (noResource s).mem = s.mem := rfl
theorem withBytes_mem {s : State} {f : List Byte → State} (hf : ∀ bs, (f bs).mem = s.mem) (a n : Nat) :
    (withBytes s a n f).mem = s.mem := by
  unfold withBytes
  split
  · simp
  · exact hf _

/-! Contexts (R363, R396) -/

@[simp] theorem createContext_mem (s : State) : (createContext s).mem = s.mem := by
  unfold createContext
  dsimp only
  split
  · simp
  · refine withBytes_mem (fun d => ?_) _ _
    split
    · simp
    · split <;> simp
theorem execCreateCtx_keeps (seq : BitVec 16) (s : State) : KeepsForm s (execCreateCtx seq s) := commandOn_keeps (by simp) _ _ _
@[simp] theorem destroyContext_mem (s : State) : (destroyContext s).mem = s.mem := by
  unfold destroyContext
  dsimp only
  split
  · simp
  · simp only [endCommand_mem, invalidate_mem]
    rw [State.mem_foldl]
    simp
theorem execDestroyCtx_keeps (seq : BitVec 16) (s : State) : KeepsForm s (execDestroyCtx seq s) := commandOn_keeps (by simp) _ _ _

/-! Queues (R350, R360) -/

@[simp] theorem createQueue_mem (s : State) : (createQueue s).mem = s.mem := by
  unfold createQueue
  split <;> simp
theorem execCreateQueue_keeps (seq : BitVec 16) (s : State) : KeepsForm s (execCreateQueue seq s) :=
  commandOn_keeps (by simp) _ _ _
theorem execDestroyQueue_keeps (seq : BitVec 16) (s : State) : KeepsForm s (execDestroyQueue seq s) := by
  unfold execDestroyQueue command
  refine commandOn_keeps ?_ _ _ _
  split <;> simp

/-! Teams (R396) -/

@[simp] theorem retryWaits_mem (s : State) (t : TeamId) : (retryWaits s t).mem = s.mem := by
  unfold retryWaits
  split <;> simp
@[simp] theorem resumeTeam_mem (s : State) (t : TeamId) : (resumeTeam s t).mem = s.mem := by
  unfold resumeTeam
  rw [State.mem_foldl] <;> simp
@[simp] theorem resume_mem (s : State) : (resume s).mem = s.mem := by
  unfold resume
  split
  · simp
  · split
    · simp
    · refine withBytes_mem (fun d => ?_) _ _
      split
      · simp
      · rw [endCommand_mem, State.mem_foldl] <;> simp
theorem execResume_keeps (seq : BitVec 16) (s : State) : KeepsForm s (execResume seq s) := commandOn_keeps (by simp) _ _ _
theorem execKill_keeps (seq : BitVec 16) (s : State) : KeepsForm s (execKill seq s) := by
  unfold execKill command
  refine commandOn_keeps ?_ _ _ _
  split <;> simp

/-! The aperture, domains (R320, R336, R346) -/

theorem execSetap_keeps (seq : BitVec 16) (s : State) : KeepsForm s (execSetap seq s) := by
  unfold execSetap command
  refine commandOn_keeps ?_ _ _ _
  split <;> simp
@[simp] theorem createDomain_mem (s : State) : (createDomain s).mem = s.mem := by simp [createDomain]
theorem execDomainCreate_keeps (seq : BitVec 16) (s : State) : KeepsForm s (execDomainCreate seq s) :=
  commandOn_keeps (by simp) _ _ _
@[simp] theorem rejoinDomain_mem (s : State) : (rejoinDomain s).mem = s.mem := by
  unfold rejoinDomain
  split <;> simp
theorem execDomainRejoin_keeps (seq : BitVec 16) (s : State) : KeepsForm s (execDomainRejoin seq s) :=
  commandOn_keeps (by simp) _ _ _

/-! RESYNC and ATTEST (R368, R372) -/

@[simp] theorem noteCorrected_mem (s : State) (i : Nat) : (noteCorrected s i).mem = s.mem := by simp [noteCorrected]
theorem resync_wf {s : State} (h : s.mem.wf = true) : (resync s).mem.wf = true := by
  unfold resync
  dsimp only
  split
  · simpa using h
  · rw [endCommand_mem]
    refine putBytes_wf _ ?_
    rw [State.mem_foldl]
    · exact h
    · simp
theorem execResync_keeps (seq : BitVec 16) (s : State) : KeepsForm s (execResync seq s) := commandOn_keeps resync_wf _ _ _
theorem attest_wf {s : State} (h : s.mem.wf = true) : (attest s).mem.wf = true := by
  unfold attest
  split
  · simpa using h
  · exact putBytes_wf _ h
theorem execAttest_keeps (seq : BitVec 16) (s : State) : KeepsForm s (execAttest seq s) := commandOn_keeps attest_wf _ _ _

/-! Images in the recovery profile (R371), reset (R384), every other code -/

theorem imageWrite_wf {s : State} (h : s.mem.wf = true) : (imageWrite s).mem.wf = true := by
  unfold imageWrite
  dsimp only
  split
  · simpa using h
  · exact putBytes_wf _ h
theorem execImageWrite_keeps (seq : BitVec 16) (s : State) : KeepsForm s (execImageWrite seq s) :=
  commandOn_keeps imageWrite_wf _ _ _
@[simp] theorem imageCommit_mem (s : State) : (imageCommit s).mem = s.mem := by simp [imageCommit]
theorem execImageCommit_keeps (seq : BitVec 16) (s : State) : KeepsForm s (execImageCommit seq s) :=
  commandOn_keeps (by simp) _ _ _
theorem execReset_keeps (seq : BitVec 16) (s : State) : KeepsForm s (execReset seq s) := commandOn_keeps resetPackage_wf _ _ _
theorem execOtherCommandCode_keeps (seq code : BitVec 16) (s : State) : KeepsForm s (execOtherCommandCode seq code s) := by
  simp [execOtherCommandCode]

/-! The activation of firmware (R369, R370) -/

@[simp] theorem raiseSvn_mem (s : State) (slot type : Nat) : (raiseSvn s slot type).mem = s.mem := rfl
@[simp] theorem restartCompositors_mem (s : State) : (restartCompositors s).mem = s.mem := by
  unfold restartCompositors
  rw [State.mem_foldl]
  simp
theorem runCommand_keeps (s : State) : KeepsForm s (runCommand s) := by
  unfold runCommand
  dsimp only
  split
  · exact execCreateCtx_keeps _ s
  · exact execDestroyCtx_keeps _ s
  · exact execCreateQueue_keeps _ s
  · exact execDestroyQueue_keeps _ s
  · exact execResume_keeps _ s
  · exact execKill_keeps _ s
  · exact execSetap_keeps _ s
  · exact execDomainCreate_keeps _ s
  · exact execDomainRejoin_keeps _ s
  · exact execResync_keeps _ s
  · exact execAttest_keeps _ s
  · exact execImageWrite_keeps _ s
  · exact execImageCommit_keeps _ s
  · exact execReset_keeps _ s
  · exact execOtherCommandCode_keeps _ _ s
theorem commandEnded_wf {s : State} (h : s.mem.wf = true) : (commandEnded s).mem.wf = true := by
  unfold commandEnded
  split
  · exact h
  · split
    · next t hr => exact (runCommand_keeps s t hr h :)
    · exact h
theorem execActivatefirmware_keeps (s : State) : KeepsForm s (execActivatefirmware s) := by
  unfold execActivatefirmware
  split
  · simp
  · split
    · exact keepsForm_next.2 commandEnded_wf
    · split
      · simp
      · extract_lets k u m pl v all taken w pg x
        have hv (h : s.mem.wf = true) : v.mem.wf = true := by
          simp only [v, u, answer_mem]
          split
          · exact commandEnded_wf h
          · exact h
        have hx (h : s.mem.wf = true) : x.mem.wf = true := by
          simp only [x, w, restartCompositors_mem]
          exact putBytes_wf _ (hv h)
        split
        · exact keepsForm_next.2 hv
        · split
          · rw [keepsForm_next, State.mem_foldl]
            · exact hx
            · simp
          · exact keepsForm_next.2 hx
theorem execActivationTimeout_keeps (s : State) : KeepsForm s (execActivationTimeout s) := by simp [execActivationTimeout]
@[simp] theorem writeCmd_mem (s : State) (v : Word) : (writeCmd s v).mem = s.mem := by simp [writeCmd]

end Sys2Proof.Machine
end

section
/-! SUPPORT. Moves leave the memory alone. -/

namespace Sys2Proof.Machine

@[simp] theorem handleMove_mem (d a : BitVec 4) (e : Env) (s : State) : (handleMove d a e s).state.mem = s.mem := by
  simp [handleMove]

end Sys2Proof.Machine
end

section
/-! SUPPORT. What the host reaches: it writes byte by byte, and a write of RSTCMD resets the package. -/

namespace Sys2Proof.Machine

/-! The control pages -/

@[simp] theorem readPage_mem (s : State) (f : Nat) (expert : Bool) (off : Nat) : (readPage s f expert off).2.mem = s.mem := by
  unfold readPage
  dsimp only
  split
  · rfl
  · split
    · rfl
    · split <;> simp
@[simp] theorem writeExunlk_mem (s : State) (f : Nat) (v : DWord) : (writeExunlk s f v).mem = s.mem := by simp [writeExunlk]
@[simp] theorem writeExunlkWord_mem (s : State) (f : Nat) (high : Bool) (v : Word) :
    (writeExunlkWord s f high v).mem = s.mem := by
  simp [writeExunlkWord]
@[simp] theorem writeDierst_mem (s : State) (v : Word) : (writeDierst s v).mem = s.mem := by
  unfold writeDierst
  rw [State.mem_foldl]
  simp
theorem writeRstcmd_wf {s : State} (v : Word) (h : s.mem.wf = true) : (writeRstcmd s v).mem.wf = true := by
  unfold writeRstcmd
  split
  · exact resetPackage_wf h
  · exact h
@[simp] theorem writeHeld_mem (s : State) (v : Word) : (writeHeld s v).mem = s.mem := by simp [writeHeld]
@[simp] theorem writeDbgtrig_mem (s : State) (v : Word) : (writeDbgtrig s v).mem = s.mem := by simp [writeDbgtrig]
@[simp] theorem writeDram_mem (s : State) (k : Nat) (v : Word) : (writeDram s k v).mem = s.mem := by simp [writeDram]
@[simp] theorem writePhot_mem (s : State) (k : Nat) (v : Word) : (writePhot s k v).mem = s.mem := by simp [writePhot]
@[simp] theorem writeConn_mem (s : State) (k n : Nat) (v : Word) : (writeConn s k n v).mem = s.mem := by simp [writeConn]
/-- A write of a register of the control pages; one of them resets the package (R384). -/
theorem writePage_wf {s : State} (f : Nat) (expert : Bool) (off : Nat) (v : Word) (h : s.mem.wf = true) :
    (writePage s f expert off v).mem.wf = true := by
  unfold writePage
  dsimp only
  split
  · simpa using h
  · split
    · simpa using h
    · split
      · exact writeRstcmd_wf _ h
      all_goals simpa using h
theorem outsideRecovery_wf {s : State} {f : State → State} (hf : s.mem.wf = true → (f s).mem.wf = true) (h : s.mem.wf = true) :
    (outsideRecovery s f).mem.wf = true := by
  unfold outsideRecovery
  split
  · exact h
  · exact hf h
theorem execRegisterWrite_keeps (f : Nat) (expert : Bool) (off : Nat) (v : Word) (s : State) :
    KeepsForm s (execRegisterWrite f expert off v s) := keepsForm_next.2 (outsideRecovery_wf (writePage_wf f expert off v))
theorem execExunlk_keeps (f : Nat) (v : DWord) (s : State) : KeepsForm s (execExunlk f v s) :=
  keepsForm_next.2 (outsideRecovery_wf (by simp))
theorem execRstcmd_keeps (v : Word) (s : State) : KeepsForm s (execRstcmd v s) :=
  keepsForm_next.2 (outsideRecovery_wf (writeRstcmd_wf v))
theorem execHeld_keeps (v : Word) (s : State) : KeepsForm s (execHeld v s) := keepsForm_next.2 (outsideRecovery_wf (by simp))
theorem execDbgtrig_keeps (v : Word) (s : State) : KeepsForm s (execDbgtrig v s) :=
  keepsForm_next.2 (outsideRecovery_wf (by simp))
@[simp] theorem hostReads_mem (s : State) (f off : Nat) : (hostReads s f off).mem = s.mem := by
  unfold hostReads
  dsimp only
  split <;> simp
theorem execFlerrs_keeps (s : State) : KeepsForm s (execFlerrs s) := by simp [execFlerrs]
theorem execLcdatal_keeps (s : State) : KeepsForm s (execLcdatal s) := by simp [execLcdatal]

/-! Doorbells (R348, R349) -/

@[simp] theorem withPage_mem (s : State) (q : Nat) : (withPage s q).mem = s.mem := by simp [withPage]
@[simp] theorem notifyWrite_mem (s : State) (q bytes : Nat) (v : DWord) : (notifyWrite s q bytes v).mem = s.mem := by
  simp [notifyWrite]
theorem execNotify_keeps (q bytes : Nat) (value : DWord) (s : State) : KeepsForm s (execNotify q bytes value s) :=
  keepsForm_next.2 (outsideRecovery_wf (by simp))

/-! Region 0 (R346, R362, R371) -/

/-- A read that leaves the memory alone. -/
def ReadKeeps {α : Type} (s : State) (x : α × State) : Prop := x.2.mem = s.mem
theorem readKeeps_ite {α : Type} {s : State} {p : Prop} [Decidable p] {a b : α × State} (ha : ReadKeeps s a)
    (hb : ReadKeeps s b) : ReadKeeps s (if p then a else b) := by
  split
  · exact ha
  · exact hb
theorem readRegion0_keeps (s : State) (o n : Nat) : ReadKeeps s (readRegion0 s o n) := by
  have same (bs : List Byte) : ReadKeeps s (bs, s) := rfl
  unfold readRegion0
  refine readKeeps_ite rfl (readKeeps_ite (same _) (readKeeps_ite (same _) (readKeeps_ite (same _)
    (readKeeps_ite ?_ (readKeeps_ite ?_ (same _))))))
  · extract_lets f expert
    refine readKeeps_ite (same _) ?_
    split
    next hr => exact (congrArg (fun x => x.2.mem) hr).symm.trans (readPage_mem ..)
  · split <;> exact same _
theorem writeRegion0_wf {s : State} (o : Nat) (bs : List Byte) (h : s.mem.wf = true) : (writeRegion0 s o bs).mem.wf = true := by
  unfold writeRegion0
  dsimp only
  split
  · simpa using h
  · split
    · exact h
    · split
      · split
        · exact h
        · split
          · simpa using h
          · split
            · exact h
            · exact writePage_wf _ _ _ _ h
      · simpa using h

/-! Region 1 and link atomics (R245, R346, R347) -/

theorem hostGets_wf {s : State} {f : List Byte → State} (hf : ∀ bs, s.mem.wf = true → (f bs).mem.wf = true) (p n : Nat)
    (h : s.mem.wf = true) : (hostGets s p n f).mem.wf = true := by
  unfold hostGets
  split
  · simpa using h
  · exact hf _ h
theorem linkAt_wf {s : State} (p : Nat) (op : AtomOp) (v c : DWord) (h : s.mem.wf = true) : (linkAt s p op v c).mem.wf = true :=
  hostGets_wf (fun bs hs => by rw [State.say_mem]; exact putBytes_wf _ hs) _ _ h
theorem hostAtomic_wf {s : State} (p : Option Nat) (a : Nat) (op : AtomOp) (v c : DWord) (h : s.mem.wf = true) :
    (hostAtomic s p a op v c).mem.wf = true := by
  unfold hostAtomic
  split
  · exact h
  · split
    · exact linkAt_wf _ _ _ _ h
    · exact h
theorem execHostApertureAccess_keeps (off : Nat) (acc : HostAccess) (s : State) :
    KeepsForm s (execHostApertureAccess off acc s) := by
  unfold execHostApertureAccess
  refine keepsForm_ite.2 ⟨fun _ => ?_, fun _ => ?_⟩
  · extract_lets o
    have hm := readRegion0_keeps s o
    -- The read stays opaque: comparing it unfolded would evaluate its bounds, large literals, on an unknown offset.
    obtain ⟨R, hR⟩ : ∃ R, readRegion0 s o = R := ⟨_, rfl⟩
    rw [hR] at hm ⊢
    cases acc with
    | read n =>
      refine keepsForm_next.2 fun h => ?_
      rw [State.say_mem, show (R n).2.mem = s.mem from hm n]
      exact h
    | write bs => exact keepsForm_next.2 (writeRegion0_wf _ _)
    | atomic op v c => exact keepsForm_next.2 (by simp)
  · cases acc with
    | read n =>
      refine keepsForm_next.2 fun h => ?_
      cases aperture s off n with
      | some p => exact hostGets_wf (fun _ hs => by rw [State.say_mem]; exact hs) _ _ h
      | none => exact h
    | write bs =>
      refine keepsForm_next.2 fun h => ?_
      cases aperture s off bs.length with
      | some p => exact putBytes_wf _ h
      | none => exact h
    | atomic op v c => exact keepsForm_next.2 (hostAtomic_wf _ _ _ _ _)
theorem execLinkAtomic_keeps (addr : DWord) (op : AtomOp) (value compare : DWord) (s : State) :
    KeepsForm s (execLinkAtomic addr op value compare s) := keepsForm_next.2 (hostAtomic_wf _ _ _ _ _)

end Sys2Proof.Machine
end

section
/-! SUPPORT. System instructions: the access port and DISPATCH write byte by byte. -/

namespace Sys2Proof.Machine

/-! SYSCALL (R120, R365) -/

@[simp] theorem syscallBody_mem (n : Word) (e : Env) (s : State) : (syscallBody n e s).state.mem = s.mem := by
  unfold syscallBody
  split <;> simp
@[simp] theorem postService_mem (s : State) (t : TeamId) (args : List Word) : (postService s t args).2.mem = s.mem := by
  unfold postService
  split
  · rfl
  · split
    · exact writeRing_mem ..
    · rfl
@[simp] theorem service_mem (s : State) (t : TeamId) (args : List Word) (n : Word) : (service s t args n).2.2.mem = s.mem := by
  unfold service
  split
  · rfl
  · split
    · rfl
    · split
      · exact postService_mem ..
      · rfl
theorem execSyscallAnswer_keeps (t : TeamId) (role : Nat) (s : State) : KeepsForm s (execSyscallAnswer t role s) := by
  unfold execSyscallAnswer
  dsimp only
  split
  · split
    · rw [keepsForm_next, State.modCtx_mem, service_mem]
      exact id
    · simp
  · simp
  · simp

/-! TLBI (R121) -/

@[simp] theorem tlbiBody_mem (a b : Reg) (e : Env) (s : State) : (tlbiBody a b e s).state.mem = s.mem := by
  unfold tlbiBody
  split
  · rfl
  · split <;> rfl
  · split
    · simp
    · next h =>
      dsimp only
      split
      · simp [columns_mem h]
      · rw [holdWith_mem, State.mem_foldl] <;> simp [columns_mem h]

/-! The access port (R374) -/

@[simp] theorem modAcc_mem (s : State) (die : Nat) (f : AccRegs → AccRegs) : (modAcc s die f).mem = s.mem := rfl
@[simp] theorem portFail_mem (s : State) (die : Nat) (c : PortCmd) (cause : Nat) : (portFail s die c cause).mem = s.mem := rfl
theorem portDo_wf {s : State} (die : Nat) (c : PortCmd) (src dst : List Nat) (h : s.mem.wf = true) :
    (portDo s die c src dst).mem.wf = true := by
  unfold portDo
  dsimp only
  rw [modAcc_mem]
  split
  · exact h
  · exact putBytes_wf _ h
  · exact putBytes_wf _ h
  · exact putBytes_wf _ h
  · split
    · exact putBytes_wf _ h
    · exact h
  · exact putBytes_wf _ h
theorem portAccess_wf {s t : State} {die : Nat} {w : Word} (ht : portAccess s die w = some t) (h : s.mem.wf = true) :
    t.mem.wf = true := by
  unfold portAccess at ht
  dsimp only at ht
  split at ht
  · cases ht
    simpa using h
  · split at ht
    · cases ht
      simpa using h
    · split at ht
      · cases ht
        simpa using h
      · split at ht
        · cases ht
        · split at ht
          · cases ht
            simpa using h
          · cases ht
            exact portDo_wf _ _ _ _ h
theorem execRequestTimeout_keeps (t : TeamId) (pa : Nat) (s : State) : KeepsForm s (execRequestTimeout t pa s) := by
  simp [execRequestTimeout]
theorem portStep_keeps (s : State) (die : Nat) (w : Word) (ok : PortCmd → Bool) : KeepsForm s (portStep s die w ok) := by
  unfold portStep
  split
  · simp
  · split
    · next ht => exact keepsForm_next.2 (portAccess_wf ht)
    · simp
theorem execAccessRead_keeps (die : Nat) (c : Word) (s : State) : KeepsForm s (execAccessRead die c s) := portStep_keeps _ _ _ _
theorem execAccessWrite_keeps (die : Nat) (c : Word) (s : State) : KeepsForm s (execAccessWrite die c s) := portStep_keeps _ _ _ _
theorem execAccessAdd_keeps (die : Nat) (c : Word) (s : State) : KeepsForm s (execAccessAdd die c s) := portStep_keeps _ _ _ _
theorem execAccessExch_keeps (die : Nat) (c : Word) (s : State) : KeepsForm s (execAccessExch die c s) := portStep_keeps _ _ _ _
theorem execAccessCas_keeps (die : Nat) (c : Word) (s : State) : KeepsForm s (execAccessCas die c s) := portStep_keeps _ _ _ _
theorem execAccessCopy_keeps (die : Nat) (c : Word) (s : State) : KeepsForm s (execAccessCopy die c s) := portStep_keeps _ _ _ _
theorem execAccessInvalid_keeps (die : Nat) (c : Word) (s : State) : KeepsForm s (execAccessInvalid die c s) :=
  portStep_keeps _ _ _ _

/-! Queue registers, DISPATCH and DONE (R373, R375) -/

@[simp] theorem readQnotl_mem (s : State) (die : Nat) : (readQnotl s die).2.mem = s.mem := rfl
theorem execQnotl_keeps (die : Nat) (s : State) : KeepsForm s (execQnotl die s) := by simp [execQnotl]
@[simp] theorem writeQrdl_mem (s : State) (die : Nat) (v : Word) : (writeQrdl s die v).mem = s.mem := by simp [writeQrdl]
theorem execQrdl_keeps (die : Nat) (v : Word) (s : State) : KeepsForm s (execQrdl die v s) := by simp [execQrdl]
theorem dispatchRecord_wf {s : State} (die : Nat) (v : Word) (h : s.mem.wf = true) : (dispatchRecord s die v).mem.wf = true := by
  unfold dispatchRecord
  dsimp only
  split
  · simpa using h
  · split
    · simpa using h
    · split
      · simpa using h
      · refine serveQueue_wf _ ?_
        rw [State.modQueue_mem]
        refine putRecord_wf _ _ _ _ ?_
        rw [State.mem_foldl]
        · exact h
        · simp
theorem execDispatch_keeps (die : Nat) (k : Word) (s : State) : KeepsForm s (execDispatch die k s) := by
  refine keepsForm_next.2 fun h => ?_
  split
  · exact h
  · exact dispatchRecord_wf _ _ h
@[simp] theorem readDone_mem (s : State) (die : Nat) : (readDone s die).2.mem = s.mem := by
  unfold readDone
  split <;> rfl
theorem execDone_keeps (die : Nat) (s : State) : KeepsForm s (execDone die s) := by simp [execDone]

/-! CSRR and CSRW (R122, R373, R382) -/

theorem readCsr_mem {s t : State} {die n : Nat} {w : Word} (h : readCsr s die n = some (w, t)) : t.mem = s.mem := by
  have plain {x : Word × State} (hx : x.2.mem = s.mem) (h : some x = some (w, t)) : t.mem = s.mem := by
    cases h
    exact hx
  unfold readCsr at h
  dsimp only at h
  split at h
  · split at h
    · exact plain (readPage_mem ..) h
    · cases h
  · split at h
    · cases h
    · split at h
      · exact plain rfl h
      · split at h
        case h_11 => exact plain (readQnotl_mem ..) h
        case h_18 => exact plain (readDone_mem ..) h
        case h_19 => cases h
        all_goals exact plain rfl h
/-- What a write of a register answers keeps the canonical form. -/
def CsrWrite.Keeps (s : State) (r : CsrWrite) : Prop := ∀ t, r = .ok t → s.mem.wf = true → t.mem.wf = true
@[simp] theorem CsrWrite.keeps_ok {s t : State} : (CsrWrite.ok t).Keeps s ↔ (s.mem.wf = true → t.mem.wf = true) :=
  ⟨fun h => h t rfl, fun h u hu => by cases hu; exact h⟩
@[simp] theorem CsrWrite.keeps_illegal (s : State) : CsrWrite.illegal.Keeps s := fun _ h => by cases h
@[simp] theorem CsrWrite.keeps_wait (s : State) : CsrWrite.wait.Keeps s := fun _ h => by cases h
theorem writeCsr_keeps (s : State) (die n : Nat) (v : Word) : (writeCsr s die n v).Keeps s := by
  unfold writeCsr
  dsimp only
  split
  · split
    · simp
    · split
      · simp
      · split
        · simp
        · exact CsrWrite.keeps_ok.2 (writePage_wf _ _ _ _)
  · split
    · simp
    · split
      · simp
      · split
        case h_8 =>
          split
          · next ht => exact CsrWrite.keeps_ok.2 (portAccess_wf ht)
          · simp
        case h_14 =>
          split
          · simp
          · exact CsrWrite.keeps_ok.2 (dispatchRecord_wf _ _)
        all_goals simp
@[simp] theorem csrrBody_mem (d : Reg) (n : Word) (e : Env) (s : State) : (csrrBody d n e s).state.mem = s.mem := by
  unfold csrrBody
  split
  · rfl
  · split
    · rfl
    · split
      · rfl
      · next h => rw [store_mem, readCsr_mem h]
theorem csrwBody_keeps (n : Word) (a : Reg) : BodyKeeps (csrwBody n a) := by
  intro e s hs
  unfold csrwBody
  split
  · exact hs
  · split
    · simpa using hs
    · next h =>
      split
      · exact hs
      · exact hs
      · next hw => exact writeCsr_keeps _ _ _ _ _ hw (columns_mem h ▸ hs)

/-! The fault ring (R364) -/

theorem execFaultRingEntryFree_keeps (ctx : Nat) (s : State) : KeepsForm s (execFaultRingEntryFree ctx s) := by
  unfold execFaultRingEntryFree
  split <;> simp

end Sys2Proof.Machine
end

section
/-! SUPPORT. Work instructions leave the memory alone. -/

namespace Sys2Proof.Machine

/-! QTRY, QCNT, QCFG -/

theorem tryPop_mem {s u : State} {t : TeamId} {q : Nat} {w : Option Word} (h : tryPop s t q = .ok (w, u)) : u.mem = s.mem := by
  unfold tryPop at h
  split at h
  · next hp =>
    cases h
    exact popElems_mem hp
  · cases h
    rfl
  · cases h
theorem tryPush_mem {s u : State} {t : TeamId} {r q : Nat} {v : Word} {b : Bool} (h : tryPush s t r q v = .ok (b, u)) :
    u.mem = s.mem := by
  unfold tryPush at h
  split at h
  · next hp =>
    cases h
    exact pushElems_mem hp
  · cases h
    rfl
  · cases h
  · split at h
    · cases h
      rfl
    · cases h
theorem ok_of_map_eq_ok {ε α β : Type} {f : α → β} {x : Except ε α} {b : β} (h : x.map f = .ok b) : ∃ a, x = .ok a ∧ f a = b := by
  cases x with
  | error => cases h
  | ok a => exact ⟨a, rfl, Except.ok.inj h⟩
theorem tryAll_mem {e : Env} {q : Nat} {d : Reg} {pc : BitVec 3} {push : Bool} {l : List ((CtxId × Nat) × List Nat)}
    {s u : State} {outs : List Tried} (h : tryAll e q d pc push s l = .ok (outs, u)) : u.mem = s.mem := by
  induction l generalizing s u outs with
  | nil =>
    cases h
    rfl
  | cons p rest ih =>
    unfold tryAll at h
    dsimp only at h
    split at h
    · cases h
    · next o t hone =>
      obtain ⟨⟨_, _⟩, hr, hx⟩ := ok_of_map_eq_ok h
      cases hx
      refine (ih hr).trans ?_
      split at hone
      · obtain ⟨⟨_, _⟩, hp, hx⟩ := ok_of_map_eq_ok hone
        cases hx
        exact tryPush_mem hp
      · obtain ⟨⟨w, _⟩, hp, hx⟩ := ok_of_map_eq_ok hone
        cases w <;> cases hx <;> exact tryPop_mem hp
@[simp] theorem qtryBody_mem (d : Reg) (q : BitVec 5) (push : Option Reg) (pc : BitVec 3) (e : Env) (s : State) :
    (qtryBody d q push pc e s).state.mem = s.mem := by
  unfold qtryBody
  split
  · simp
  · next h =>
    split
    · simp
    · next ht => rw [store_mem, tryAll_mem ht, columns_mem h]
@[simp] theorem qcntBody_mem (d : Reg) (q : BitVec 5) (e : Env) (s : State) : (qcntBody d q e s).state.mem = s.mem := by
  unfold qcntBody
  split <;> simp
@[simp] theorem qcfgBody_mem (q : BitVec 5) (a b c : Reg) (e : Env) (s : State) : (qcfgBody q a b c e s).state.mem = s.mem := by
  unfold qcfgBody
  refine engineSrcs_mem (fun v s => ?_) ..
  dsimp only
  repeat' split
  all_goals simp

/-! TILE (R197, R198, R200) -/

@[simp] theorem queueLanes_mem (s : State) (e : Env) (ks : List ((CtxId × Nat) × EffKey)) : (queueLanes s e ks).mem = s.mem := by
  simp [queueLanes]
@[simp] theorem giveDraws_mem (d : Reg) (pd : BitVec 3) (e : Env) (s : State) (ks : List ((CtxId × Nat) × EffKey)) :
    (giveDraws d pd e s ks).state.mem = s.mem := by
  unfold giveDraws
  dsimp only
  rw [store_mem, countEffect_mem, State.mem_foldl] <;> simp
@[simp] theorem tileLanes_mem (d : Reg) (pd : BitVec 3) (e : Env) (s : State) : (tileLanes d pd e s).state.mem = s.mem := by
  unfold tileLanes
  dsimp only
  split
  · simp
  · split
    · rfl
    · split
      · simp
      · split <;> simp

/-! PBAR (R201) -/

@[simp] theorem arrivePbar_mem (s : State) (id : Nat) (who : TeamId × Nat) : (arrivePbar s id who).mem = s.mem := by
  simp [arrivePbar]
@[simp] theorem pbarBody_mem (kind : PbarKind) (a : Src) (e : Env) (s : State) : (pbarBody kind a e s).state.mem = s.mem := by
  unfold pbarBody
  dsimp only
  split
  · split <;> rfl
  · refine engineSrcs_mem (fun v s => ?_) ..
    split
    · rfl
    · cases kind <;> dsimp only <;> split <;> simp
theorem execPbarRelease_keeps (id : Nat) (s : State) : KeepsForm s (execPbarRelease id s) := by
  unfold execPbarRelease
  split
  · simp
  · split
    · simp
    · rw [keepsForm_next, State.mem_foldl] <;> simp

end Sys2Proof.Machine
end

section
/-! SUPPORT. `XISSUE`: every word it issues keeps the canonical form, and so does their run. -/

namespace Sys2Proof.Machine

/-- Instructions whose body leaves the memory alone keep its form. -/
theorem issue_mem_keeps {h : Head} {how : How} {body : Env → State → Res} (hb : ∀ e s, (body e s).state.mem = s.mem) (s : State) :
    KeepsForm s (issue h how body s) := issue_keeps (.of_mem hb) s
theorem alu_keeps (h : Head) (d : Reg) (n : Nat) (srcs : List Operand) (f : List Nat → Nat) (s : State) :
    KeepsForm s (alu h d n srcs f s) :=
  issue_mem_keeps (pureBody_mem _ _ _) s
theorem alu2_keeps (h : Head) (d : Reg) (n : Nat) (d2 : Reg) (srcs : List Operand) (f : List Nat → Nat × Nat) (s : State) :
    KeepsForm s (alu2 h d n d2 srcs f s) := issue_mem_keeps (pureBody_mem _ _ _) s
theorem special_keeps (h : Head) (d : Reg) (n : Nat) (a : Reg) (f : Nat → Nat) (s : State) : KeepsForm s (special h d n a f s) :=
  issue_mem_keeps (pureBody_mem _ _ _) s
theorem execCvt_keeps (h : Head) (dst src : NumTy) (rnd : Rnd) (sat sr : Bool) (d a : Reg) (s : State) :
    KeepsForm s (execCvt h dst src rnd sat sr d a s) := by
  unfold execCvt
  split
  · exact issue_mem_keeps (srBody_mem _ _ _) s
  · exact alu_keeps _ _ _ _ _ s
theorem execPack_keeps (h : Head) (f : Fmt) (rnd : Rnd) (sat sr : Bool) (d a : Reg) (b : Src) (s : State) :
    KeepsForm s (execPack h f rnd sat sr d a b s) := by
  unfold execPack
  split
  · exact issue_mem_keeps (srBody_mem _ _ _) s
  · exact alu_keeps _ _ _ _ _ s
theorem execMov_keeps (h : Head) (d a : Reg) (s : State) : KeepsForm s (execMov h d a s) := by
  unfold execMov
  split
  · exact issue_mem_keeps (handleMove_mem _ _) s
  · exact alu_keeps _ _ _ _ _ s
theorem execSincos_keeps (h : Head) (d a : Reg) (s : State) : KeepsForm s (execSincos h d a s) := special_keeps _ _ _ _ _ s
/-- So does the meaning of a word that `XISSUE` may issue (R111). -/
theorem execWord_keeps (i : Instr) (s : State) : KeepsForm s (execWord i s) := by
  cases i with
  | add | sub | mul | mulh | mad | madw | min | max | abs | neg | and | or | xor | not | andn | shl | shr | sar | shf | rot | bfe
    | bfi | popc | clz | brev | prmt | sel | icmp | lea | dp4 | dp2 | sad | clamp | fadd | fsub | fmul | ffma | fmin | fmax | fcmp
    | fclass | frnd | fscale | fexp | unpk | hadd2 | hmul2 | hfma2 | hmin2 | hmax2 | dot2f | movi | plop | p2r =>
    exact alu_keeps _ _ _ _ _ s
  | addc | subb => exact alu2_keeps _ _ _ _ _ _ s
  | rcp | rsq | sqrt | ex2 | lg2 | sin | cos | tanh | rred => exact special_keeps _ _ _ _ _ s
  | sincos => exact execSincos_keeps _ _ _ s
  | cvt => exact execCvt_keeps _ _ _ _ _ _ _ _ s
  | pack => exact execPack_keeps _ _ _ _ _ _ _ _ s
  | mov => exact execMov_keeps _ _ _ s
  | seed => exact issue_mem_keeps (seedBody_mem _) s
  | registerToPredicate => exact issue_mem_keeps (pureBody_mem _ _ _) s
  | ld => exact issue_mem_keeps (loadBody_mem _ _ _ _ _ _ _ _ _) s
  | st => exact issue_mem_keeps (storeBody_mem _ _ _ _ _ _ _ _) s
  | atom | red | cas => exact issue_mem_keeps (atomBody_mem _ _ _ _ _ _ _ _) s
  | _ => exact keepsForm_next.2 id
/-- The run of the words of an `XISSUE`, by induction on them (R112). -/
theorem runWords_wf (l : List ((CtxId × Nat) × BitVec 96)) (env : DecEnv) (ws : List (BitVec 96)) (k : Nat) {r : WordRun}
    (h : r.state.mem.wf = true) : (runWords l env k ws r).state.mem.wf = true := by
  induction ws generalizing k r with
  | nil => exact h
  | cons w ws ih =>
    unfold runWords
    split
    · exact ih _ h
    · dsimp only
      split
      · next ht =>
        have hw := execWord_keeps _ _ _ ht h
        split
        · exact h
        · exact h
        · split
          · exact h
          · exact ih _ hw
      · exact h
@[simp] theorem gatherResult_mem (s t : State) (written : List (CtxId × Loc)) (la : Nat) (arrived : Bool) :
    (gatherResult s t written la arrived).2.mem = t.mem := by
  unfold gatherResult
  dsimp only
  rw [State.mem_foldl] <;> simp
@[simp] theorem wordsResult_mem (e : Env) (s : State) (r : WordRun) (la : Nat) : (wordsResult e s r la).mem = r.state.mem := by
  unfold wordsResult
  dsimp only
  split <;> simp
theorem xissueBody_keeps (a : Reg) : BodyKeeps (xissueBody a) := by
  intro e s hs
  unfold xissueBody
  extract_lets l env bad k0 words r t
  have hr : r.state.mem.wf = true := runWords_wf _ _ _ _ hs
  clear_value bad
  cases bad with
  | cons => exact hs
  | nil =>
    dsimp only
    split
    · split
      · exact hr
      · simpa using hr
    · simpa using hr
    · simpa [t] using hr

end Sys2Proof.Machine
end

section
/-! SUPPORT. Every instruction and every step keeps the canonical form. -/

namespace Sys2Proof.Machine

theorem execNop_keeps (h : Head) (s : State) : KeepsForm s (execNop h s) := issue_mem_keeps (fun _ _ => rfl) s
theorem execTrap_keeps (h : Head) (code : Word) (s : State) : KeepsForm s (execTrap h code s) :=
  issue_mem_keeps (fun _ _ => rfl) s
theorem execBkpt_keeps (h : Head) (s : State) : KeepsForm s (execBkpt h s) := issue_mem_keeps (fun _ _ => by split <;> rfl) s
theorem execRdsr_keeps (h : Head) (d : Reg) (n : BitVec 12) (s : State) : KeepsForm s (execRdsr h d n s) :=
  issue_mem_keeps (fun _ _ => store_mem ..) s
theorem execWrsr_keeps (h : Head) (n : BitVec 12) (a : Reg) (s : State) : KeepsForm s (execWrsr h n a s) := by
  refine issue_mem_keeps (fun e s => ?_) s
  split
  · simp
  · next hc => rw [Res.state_next, State.modTeam_mem, columns_mem hc]
theorem execSnap_keeps (h : Head) (a : Reg) (s : State) : KeepsForm s (execSnap h a s) := by
  refine issue_mem_keeps (fun e s => ?_) s
  split
  · simp
  · next hc =>
    rw [← columns_mem hc, Res.state_next]
    split
    · split <;> simp
    · rfl
theorem execReduce_keeps (h : Head) (ty : NumTy) (op : RedOp) (d a : Reg) (pc : Option (BitVec 3)) (s : State) :
    KeepsForm s (execReduce h ty op d a pc s) := by
  unfold execReduce
  split
  · exact issue_mem_keeps (crossBody_mem _ _ _) s
  · exact issue_mem_keeps (upperBody_mem _ _) s
theorem execBallot_keeps (h : Head) (d : Reg) (a : BitVec 3) (c : Option Reg) (s : State) :
    KeepsForm s (execBallot h d a c s) := by
  unfold execBallot
  split
  · exact issue_mem_keeps (crossBody_mem _ _ _) s
  · exact issue_mem_keeps (upperBody_mem _ _) s
theorem execBcopy_keeps (h : Head) (ch : BitVec 4) (dsp ssp : EngSpace) (d a b : Reg) (done : Done) (s : State) :
    KeepsForm s (execBcopy h ch dsp ssp d a b done s) :=
  issue_mem_keeps (fun e s => engineSrcs_mem (fun _ _ => chanIssue_mem ..) e s _) s
theorem execBfill_keeps (h : Head) (ch : BitVec 4) (dsp : EngSpace) (d a b : Reg) (done : Done) (s : State) :
    KeepsForm s (execBfill h ch dsp d a b done s) :=
  issue_mem_keeps (fun e s => engineSrcs_mem (fun _ _ => chanIssue_mem ..) e s _) s
theorem execBred_keeps (h : Head) (op : AtomOp) (ch : BitVec 4) (dsp ssp : EngSpace) (d a b : Reg) (done : Done) (s : State) :
    KeepsForm s (execBred h op ch dsp ssp d a b done s) :=
  issue_mem_keeps (fun e s => engineSrcs_mem (fun _ _ => chanIssue_mem ..) e s _) s
theorem execBari_keeps (h : Head) (a : Reg) (b : Src) (s : State) : KeepsForm s (execBari h a b s) :=
  issue_mem_keeps (fun e s => onObject_mem (fun _ _ _ _ => by split <;> simp) _ _ e s) s
theorem execBarx_keeps (h : Head) (a : Reg) (b : Src) (s : State) : KeepsForm s (execBarx h a b s) :=
  issue_mem_keeps (fun e s => onObject_mem (fun _ _ _ _ => by rw [Res.state_ite]; split <;> simp) _ _ e s) s
theorem execBara_keeps (h : Head) (a : Reg) (s : State) : KeepsForm s (execBara h a s) :=
  issue_mem_keeps (fun e s => onObject_mem (fun _ _ _ _ => by split <;> simp) _ _ e s) s
theorem execTile_keeps (h : Head) (nr : Bool) (d : Reg) (pd : BitVec 3) (s : State) : KeepsForm s (execTile h nr d pd s) := by
  unfold execTile
  split
  · exact issue_mem_keeps (sealPoint_mem _ _ _ _) s
  · exact issue_mem_keeps (tileLanes_mem _ _) s
/-- Whatever instruction or event it is, its meaning keeps the canonical form. -/
theorem exec_keeps (i : Instr) (s : State) : KeepsForm s (exec i s) := by
  -- SEAL and DONE have names that Lean reserves in the list of cases: they stand in its last case.
  have sealKeeps (h : Head) : KeepsForm s (exec (.seal h) s) := issue_mem_keeps (sealPoint_mem _ _ _ _) s
  have doneKeeps (die : Nat) : KeepsForm s (exec (.done die) s) := execDone_keeps die s
  cases i with
  | add | sub | mul | mulh | mad | madw | min | max | abs | neg | and | or | xor | not | andn | shl | shr | sar | shf | rot
    | bfe | bfi | popc | clz | brev | prmt | sel | icmp | lea | dp4 | dp2 | sad | clamp | fadd | fsub | fmul | ffma | fmin
    | fmax | fcmp | fclass | frnd | fscale | fexp | unpk | hadd2 | hmul2 | hfma2 | hmin2 | hmax2 | dot2f | movi | plop | p2r =>
    exact alu_keeps _ _ _ _ _ s
  | addc | subb => exact alu2_keeps _ _ _ _ _ _ s
  | rcp | rsq | sqrt | ex2 | lg2 | sin | cos | tanh | rred => exact special_keeps _ _ _ _ _ s
  | seed => exact issue_mem_keeps (seedBody_mem _) s
  | registerToPredicate | lcnt => exact issue_mem_keeps (pureBody_mem _ _ _) s
  | ld | ldx => exact issue_mem_keeps (loadBody_mem _ _ _ _ _ _ _ _ _) s
  | st | stx => exact issue_mem_keeps (storeBody_mem _ _ _ _ _ _ _ _) s
  | atom | red | cas => exact issue_mem_keeps (atomBody_mem _ _ _ _ _ _ _ _) s
  | fence => exact issue_mem_keeps (fenceBody_mem _) s
  | bgath | bscat => exact issue_mem_keeps (gatherIssue_mem _ _ _ _ _ _ _ _) s
  | batom => exact issue_mem_keeps (batomIssue_mem _ _ _ _ _ _ _) s
  | cwait => exact issue_mem_keeps (cwaitBody_mem _ _) s
  | chwait => exact issue_mem_keeps (chwaitBody_mem _ _) s
  | hwait => exact issue_mem_keeps (hwaitBody_mem _) s
  | htest => exact issue_mem_keeps (htestBody_mem _ _) s
  | hcancel => exact issue_mem_keeps (hcancelBody_mem _) s
  | barw => exact issue_mem_keeps (barwBody_mem _ _) s
  | bar => exact issue_mem_keeps (barBody_mem _ _) s
  | shfl | pswap | scan | matchLanes | firstl => exact issue_mem_keeps (crossBody_mem _ _ _) s
  | elect | bcast => exact issue_mem_keeps (upperBody_mem _ _) s
  | bra | br => exact issue_mem_keeps (branchBody_mem _ _ _ _) s
  | call => exact issue_mem_keeps (callBody_mem _) s
  | ret => exact issue_mem_keeps retBody_mem s
  | loop => exact issue_mem_keeps (loopBody_mem _ _) s
  | rcv => exact issue_mem_keeps (rcvBody_mem _) s
  | regang => exact issue_mem_keeps regangBody_mem s
  | exit => exact issue_mem_keeps exitBody_mem s
  | brx => exact issue_mem_keeps (withTarget_mem (fun _ => branchBody_mem _ _ _ _) _) s
  | callx => exact issue_mem_keeps (withTarget_mem callBody_mem _) s
  | vote => exact issue_mem_keeps (voteBody_mem _ _ _ _ _) s
  | tret => exact issue_mem_keeps tretBody_mem s
  | nap => exact issue_mem_keeps (napBody_mem _) s
  | obres => exact issue_mem_keeps (obresBody_mem _ _ _ _ _ _ _ _) s
  | obrel => exact issue_mem_keeps (obrelBody_mem _) s
  | obld | obsc => exact issue_mem_keeps (formeLoadBody_mem _ _ _ _) s
  | mma | mmag | mmas => exact issue_mem_keeps (productBody_mem _ _ _ _ _ _ _ _) s
  | acca => exact issue_mem_keeps (accaBody_mem _ _) s
  | accf => exact issue_mem_keeps (accfBody_mem _) s
  | accz => exact issue_mem_keeps (acczBody_mem _) s
  | accld => exact issue_mem_keeps (accldBody_mem _ _ _ _ _ _) s
  | accst => exact issue_mem_keeps (accstBody_mem _ _ _ _ _ _ _ _ _ _) s
  | accrd => exact issue_mem_keeps (accrdBody_mem _ _ _ _) s
  | accwr => exact issue_mem_keeps (accwrBody_mem _ _ _ _) s
  | coll => exact issue_mem_keeps (collBody_mem _ _ _ _ _ _ _ _) s
  | view => exact issue_mem_keeps (viewBody_mem _ _) s
  | syscall => exact issue_mem_keeps (syscallBody_mem _) s
  | tlbi => exact issue_mem_keeps (tlbiBody_mem _ _) s
  | csrr => exact issue_mem_keeps (csrrBody_mem _ _) s
  | qtry => exact issue_mem_keeps (qtryBody_mem _ _ _ _) s
  | qcnt => exact issue_mem_keeps (qcntBody_mem _ _) s
  | qcfg => exact issue_mem_keeps (qcfgBody_mem _ _ _ _) s
  | pbar => exact issue_mem_keeps (pbarBody_mem _ _) s
  | csrw => exact issue_keeps (csrwBody_keeps _ _) s
  | xissue => exact issue_keeps (xissueBody_keeps _) s
  | nop => exact execNop_keeps _ s
  | trap => exact execTrap_keeps _ _ s
  | bkpt => exact execBkpt_keeps _ s
  | cvt => exact execCvt_keeps _ _ _ _ _ _ _ _ s
  | pack => exact execPack_keeps _ _ _ _ _ _ _ _ s
  | sincos => exact execSincos_keeps _ _ _ s
  | reduce => exact execReduce_keeps _ _ _ _ _ _ s
  | ballot => exact execBallot_keeps _ _ _ _ s
  | mov => exact execMov_keeps _ _ _ s
  | rdsr => exact execRdsr_keeps _ _ _ s
  | wrsr h n a => exact execWrsr_keeps h n a s
  | bcopy => exact execBcopy_keeps _ _ _ _ _ _ _ _ s
  | bfill => exact execBfill_keeps _ _ _ _ _ _ _ s
  | bred => exact execBred_keeps _ _ _ _ _ _ _ _ _ s
  | bari => exact execBari_keeps _ _ _ s
  | barx => exact execBarx_keeps _ _ _ s
  | bara => exact execBara_keeps _ _ s
  | tile => exact execTile_keeps _ _ _ _ s
  | snap => exact execSnap_keeps _ _ s
  | resultArrival c id => exact execResultArrival_keeps c id s
  | channelOperationBegin => exact execChannelOperationBegin_keeps _ _ _ s
  | delivery => exact execDelivery_keeps _ s
  | operationCompletion => exact execOperationCompletion_keeps _ s
  | formeLoadFinish => exact execFormeLoadFinish_keeps _ s
  | productStart => exact execProductStart_keeps _ s
  | productRetire => exact execProductRetire_keeps _ s
  | accaGrant => exact execAccaGrant_keeps _ _ s
  | teamReschedule => exact execTeamReschedule_keeps _ s
  | checkpointValid => exact execCheckpointValid_keeps _ s
  | galleyRelease => exact execGalleyRelease_keeps _ _ s
  | abortCompletion => exact execAbortCompletion_keeps _ _ s
  | timeSliceEnd => exact execTimeSliceEnd_keeps _ s
  | waitbudget => exact execWaitbudget_keeps _ s
  | teamRestore => exact execTeamRestore_keeps _ s
  | teamEnd => exact execTeamEnd_keeps _ s
  | translationWalk => exact execTranslationWalk_keeps _ _ _ s
  | tlbiAck => exact execTlbiAck_keeps _ s
  | napExpiry => exact execNapExpiry_keeps _ s
  | pbarRelease => exact execPbarRelease_keeps _ s
  | wScopeExecution => exact execWScopeExecution_keeps _ _ s
  | packetConsume => exact execPacketConsume_keeps _ s
  | barrierAndSample => exact execBarrierAndSample_keeps _ s
  | placement => exact execPlacement_keeps _ s
  | gridEnd => exact execGridEnd_keeps _ s
  | createCtx => exact execCreateCtx_keeps _ s
  | destroyCtx => exact execDestroyCtx_keeps _ s
  | createQueue => exact execCreateQueue_keeps _ s
  | destroyQueue => exact execDestroyQueue_keeps _ s
  | resume => exact execResume_keeps _ s
  | kill => exact execKill_keeps _ s
  | setap => exact execSetap_keeps _ s
  | domainCreate => exact execDomainCreate_keeps _ s
  | domainRejoin => exact execDomainRejoin_keeps _ s
  | resync => exact execResync_keeps _ s
  | attest => exact execAttest_keeps _ s
  | imageWrite => exact execImageWrite_keeps _ s
  | imageCommit => exact execImageCommit_keeps _ s
  | reset => exact execReset_keeps _ s
  | accessRead => exact execAccessRead_keeps _ _ s
  | accessWrite => exact execAccessWrite_keeps _ _ s
  | accessAdd => exact execAccessAdd_keeps _ _ s
  | accessExch => exact execAccessExch_keeps _ _ s
  | accessCas => exact execAccessCas_keeps _ _ s
  | accessCopy => exact execAccessCopy_keeps _ _ s
  | accessInvalid => exact execAccessInvalid_keeps _ _ s
  | qnotl => exact execQnotl_keeps _ s
  | qrdl => exact execQrdl_keeps _ _ s
  | dispatch => exact execDispatch_keeps _ _ s
  | rstcmd => exact execRstcmd_keeps _ s
  | dierstSet => exact execDierstSet_keeps _ s
  | dierstClear => exact execDierstClear_keeps _ s
  | refreshSetup => exact execRefreshSetup_keeps _ s
  | scrub => exact execScrub_keeps _ s
  | defaultCircuits => exact execDefaultCircuits_keeps _ s
  | connValidSet => exact execConnValidSet_keeps _ _ _ s
  | connValidClear => exact execConnValidClear_keeps _ _ _ s
  | circuitTuned => exact execCircuitTuned_keeps _ _ s
  | tearDownDone => exact execTearDownDone_keeps _ _ s
  | ringRemoval => exact execRingRemoval_keeps _ _ s
  | held => exact execHeld_keeps _ s
  | dbgtrig => exact execDbgtrig_keeps _ s
  | exunlk => exact execExunlk_keeps _ _ s
  | registerWrite => exact execRegisterWrite_keeps _ _ _ _ s
  | heartbeatSend => exact execHeartbeatSend_keeps _ s
  | heartbeat => exact execHeartbeat_keeps _ _ _ _ s
  | suspicion => exact execSuspicion_keeps _ _ s
  | propose => exact execPropose_keeps _ _ _ _ s
  | ack => exact execAck_keeps _ _ _ _ s
  | viewCommit => exact execViewCommit_keeps _ _ _ _ s
  | proposeTimeout => exact execProposeTimeout_keeps _ s
  | commitTimeout => exact execCommitTimeout_keeps _ s
  | messageResend => exact execMessageResend_keeps _ s
  | joinReq => exact execJoinReq_keeps _ _ s
  | joinOffer => exact execJoinOffer_keeps _ _ _ _ s
  | joinAck => exact execJoinAck_keeps _ _ _ s
  | collectiveFlit => exact execCollectiveFlit_keeps _ _ _ _ _ s
  | flitResend => exact execFlitResend_keeps _ s
  | fin => exact execFin_keeps _ _ _ _ s
  | confirm => exact execConfirm_keeps _ _ _ s
  | requestTimeout => exact execRequestTimeout_keeps _ _ s
  | syscallAnswer => exact execSyscallAnswer_keeps _ _ s
  | dramStepEnd => exact execDramStepEnd_keeps _ s
  | photonicStepEnd => exact execPhotonicStepEnd_keeps _ s
  | faultRingEntryFree => exact execFaultRingEntryFree_keeps _ s
  | otherCommandCode => exact execOtherCommandCode_keeps _ _ s
  | governorUpdate => exact execGovernorUpdate_keeps _ _ s
  | strikeReport => exact execStrikeReport_keeps _ _ s
  | hostApertureAccess => exact execHostApertureAccess_keeps _ _ s
  | linkAtomic => exact execLinkAtomic_keeps _ _ _ _ s
  | notify => exact execNotify_keeps _ _ _ s
  | singleStep => exact execSingleStep_keeps _ _ _ s
  | bondLaneRepair => exact execBondLaneRepair_keeps _ _ s
  | timingCalibration => exact execTimingCalibration_keeps _ _ s
  | refreshRejudge => exact execRefreshRejudge_keeps _ _ s
  | light => exact execLight_keeps _ _ s
  | tune => exact execTune_keeps _ _ s
  | lock => exact execLock_keeps _ _ s
  | ringLockLoss => exact execRingLockLoss_keeps _ _ s
  | passcomponenttable => exact execPasscomponenttable_keeps _ s
  | updatecomponent => exact execUpdatecomponent_keeps _ _ s
  | requestfirmwaredata => exact execRequestfirmwaredata_keeps _ _ s
  | transfercomplete => exact execTransfercomplete_keeps _ s
  | linkUp => exact execLinkUp_keeps _ _ _ s
  | budgetRefill => exact execBudgetRefill_keeps s
  | snapshotLatch => exact execSnapshotLatch_keeps s
  | train => exact execTrain_keeps s
  | linkRetrain => exact execLinkRetrain_keeps s
  | flerrs => exact execFlerrs_keeps s
  | lcdatal => exact execLcdatal_keeps s
  | counterSave => exact execCounterSave_keeps s
  | powerGood => exact execPowerGood_keeps s
  | oscclk => exact execOscclk_keeps s
  | stepLimitExpiry => exact execStepLimitExpiry_keeps s
  | querydeviceidentifiers => exact execQuerydeviceidentifiers_keeps s
  | getfirmwareparameters => exact execGetfirmwareparameters_keeps s
  | requestupdate => exact execRequestupdate_keeps s
  | verifycomplete => exact execVerifycomplete_keeps s
  | applycomplete => exact execApplycomplete_keeps s
  | activatefirmware => exact execActivatefirmware_keeps s
  | getstatus => exact execGetstatus_keeps s
  | cancelupdatecomponent => exact execCancelupdatecomponent_keeps s
  | cancelupdate => exact execCancelupdate_keeps s
  | activationTimeout => exact execActivationTimeout_keeps s
  | powerLoss => exact execPowerLoss_keeps s
  | linkRetry => exact execLinkRetry_keeps s
  | _ => simp only [sealKeeps, doneKeeps]

end Sys2Proof.Machine
end

section
/-! SUPPORT. Whatever acts next keeps the canonical form: an event, an issue, or a cycle that passes. -/

namespace Sys2Proof.Machine

/-! One attempt of a unit -/

theorem attemptOne_keeps (s : State) (c : CtxId) : KeepsForm s (attemptOne s c) := by
  unfold attemptOne
  dsimp only
  split
  · simp
  · split <;> simp
  · split
    · split
      · split <;> simp
      · exact exec_keeps _ _
    · split <;> simp

/-! Fused groups (R162, R163) -/

@[simp] theorem heldBack_mem (s : State) (c : CtxId) (t : State) : (heldBack s c t).mem = s.mem := rfl
/-- The members of a fused group, by induction on how many are left; a group held back leaves the state before it (R163). -/
theorem fuseRest_keeps {s : State} (hs : s.mem.wf = true) (c : CtxId) (n : Nat) (pc : Word) (t : State) :
    KeepsForm t (fuseRest s c n pc t) := by
  induction n generalizing pc t with
  | zero => simp [fuseRest]
  | succ n ih =>
    unfold fuseRest
    extract_lets u
    split
    · next v hv =>
      have hw (h : t.mem.wf = true) : v.mem.wf = true := attemptOne_keeps u c v hv h
      split
      · exact keepsForm_next.2 fun _ => by rw [heldBack_mem]; exact hs
      · split
        · exact fun w hw' h => ih _ _ w hw' (hw h)
        · exact keepsForm_next.2 hw
    · exact attemptOne_keeps u c
theorem attempt_keeps (s : State) (c : CtxId) : KeepsForm s (attempt s c) := by
  unfold attempt
  dsimp only
  split
  · next t ht =>
    have hw := attemptOne_keeps s c t ht
    split
    · exact fun u hu h => fuseRest_keeps h _ _ _ _ u hu (hw h)
    · exact keepsForm_next.2 hw
  · exact attemptOne_keeps s c

/-! Segments and tickets -/

@[simp] theorem giveSeg_mem (s : State) (g : Seg) (c : CtxId) : (giveSeg s g c).mem = s.mem := by
  unfold giveSeg
  split <;> simp
@[simp] theorem handDown_mem (s : State) (c : CtxId) : (handDown s c).mem = s.mem := by
  unfold handDown
  rw [State.mem_foldl] <;> simp
@[simp] theorem tidyCtx_mem (s : State) (c : CtxId) : (tidyCtx s c).mem = s.mem := by
  unfold tidyCtx
  extract_lets x level top t
  have ht : t.mem = s.mem := by
    simp only [t]
    split
    · split
      · rfl
      · exact State.modCtx_mem ..
    · rfl
  clear_value t
  repeat' split
  all_goals simp [ht]
@[simp] theorem arriveW_mem (s : State) (c : CtxId) : (arriveW s c).mem = s.mem := by
  unfold arriveW
  split <;> simp
@[simp] theorem deliverView_mem (s : State) (t : TeamId) (r : Nat) : (deliverView s t r).mem = s.mem := by
  unfold deliverView
  repeat' split
  all_goals simp
@[simp] theorem deliverViews_mem (s : State) : (deliverViews s).mem = s.mem := by
  unfold deliverViews
  exact State.mem_foldl (fun _ _ => State.mem_foldl (fun _ _ => by simp) _ _) _ _
@[simp] theorem resetFaulted_mem (s : State) : (resetFaulted s).mem = s.mem := by
  unfold resetFaulted
  refine State.mem_foldl (fun s e => ?_) _ _
  split <;> simp
@[simp] theorem endSteps_mem (s : State) : (endSteps s).mem = s.mem := by
  unfold endSteps
  refine State.mem_foldl (fun s e => ?_) _ _
  split
  · dsimp only
    split <;> simp
  · rfl
/-- Of what needs no time, only the save of a team writes the memory. -/
theorem tidy_wf {s : State} (h : s.mem.wf = true) : (tidy s).mem.wf = true := by
  unfold tidy
  extract_lets t u v w x y
  have ht : t.mem.wf = true := by
    simp only [t, endSteps_mem, resetFaulted_mem, deliverViews_mem, noteHalts_mem]
    exact saveAll_wf h
  have hu : u.mem = t.mem := State.mem_foldl (fun _ _ => by simp) _ _
  have hv : v.mem = u.mem := (flushSignals_mem _).trans (State.mem_foldl (fun _ _ => by simp) _ _)
  have hw : w.mem = v.mem := State.mem_foldl (fun _ _ => by split <;> simp) _ _
  have hx : x.mem = w.mem := State.mem_foldl (fun s d => by cases s.domain? d.num <;> simp) _ _
  have hy : y.mem = x.mem := State.mem_foldl (fun _ _ => by simp) _ _
  rw [State.mem_foldl (fun _ _ => by simp), hy, hx, hw, hv, hu]
  exact ht

/-! After an instruction, and the passing of a cycle -/

@[simp] theorem noteStepOf_mem (s : State) (c : CtxId) (t : State) (k : TeamId) (x : Team) :
    (noteStepOf s c t k x).mem = t.mem := by
  unfold noteStepOf
  split
  · rfl
  · dsimp only
    repeat' split
    all_goals simp
@[simp] theorem noteStep_mem (s : State) (c : CtxId) (t : State) : (noteStep s c t).mem = t.mem := by
  unfold noteStep
  exact State.mem_foldl (fun _ _ => by simp) _ _
@[simp] theorem after_mem (s : State) (c : CtxId) (t : State) : (after s c t).mem = t.mem := by
  unfold after
  split
  · dsimp only
    rw [noteStep_mem]
    split <;> simp
  · split <;> simp
theorem waitOne_wf {s : State} (c : CtxId) (h : s.mem.wf = true) : (waitOne s c).mem.wf = true := by
  unfold waitOne
  split
  · next ht =>
    split
    · exact attempt_keeps s c _ ht h
    · exact h
  · exact h
theorem passCycle_wf {s : State} (cs : List CtxId) (h : s.mem.wf = true) : (passCycle s cs).mem.wf = true := by
  unfold passCycle
  extract_lets u v w t
  have hu : u.mem.wf = true := State.wf_foldl (fun _ c hs => waitOne_wf c hs) cs h
  have hw : w.mem = u.mem := State.mem_foldl (fun _ _ => by simp) _ _
  have ht : t.mem.wf = true := by
    simp only [t, State.passCycles_mem, hw]
    exact hu
  exact ht
/-- What a try pairs with a unit is the attempt of that unit. -/
theorem attempt_of_mem_tries {s : State} {e : CtxId × Host.Outcome State Fault Refusal} (h : e ∈ tries s) :
    e.2 = attempt s e.1 := by
  obtain ⟨c, -, rfl⟩ := List.mem_map.1 h
  rfl
theorem issueNext_keeps (s : State) : KeepsForm s (issueNext s) := by
  have tried {c : CtxId} {o : Host.Outcome State Fault Refusal}
      (h : ((picked s (tries s)).bind (fun c => (tries s).find? (fun e => e.1 = c))) = some (c, o)) : KeepsForm s o := by
    obtain ⟨d, -, hd⟩ := Option.bind_eq_some_iff.1 h
    rw [show o = attempt s c from attempt_of_mem_tries (List.mem_of_find?_eq_some hd)]
    exact attempt_keeps s c
  unfold issueNext
  dsimp only
  split
  · next t h =>
    rw [keepsForm_next, after_mem]
    exact tried h t rfl
  · next h => exact tried h
  · exact keepsForm_next.2 (passCycle_wf _)
/-- Whatever acts next: an event from outside, an outcome due, an event due by itself, or an issue. -/
theorem advance_keeps (s : State) : KeepsForm s (advance s) := by
  unfold advance
  split
  · exact exec_keeps _ _
  · split
    · exact exec_keeps _ _
    · dsimp only
      split
      · exact fun t ht h => exec_keeps _ _ t ht (tidy_wf h)
      · split
        · exact keepsForm_next.2 tidy_wf
        · exact fun t ht h => issueNext_keeps _ t ht (tidy_wf h)

end Sys2Proof.Machine
end

section
/-! SUPPORT. The step of the machine. -/

namespace Sys2Proof.Machine

theorem step_keeps (s : State) : KeepsForm s (step s) := advance_keeps (begin_ s)

end Sys2Proof.Machine
end

section
/-! The statement on the canonical form of memory. -/

namespace Sys2Proof

/-- Settles O59: the memory changes only by a byte written, which is inserted in its place, or by bytes dropped, and so stays in order
through each operation of each instruction and event. -/
theorem memoryCanonical : Obligations.MemoryCanonical := by
  unfold Obligations.MemoryCanonical
  exact fun s t hs ht => Machine.step_keeps s t ht hs

end Sys2Proof
end

section
/-! SUPPORT. Branches at the scopes above S: how they issue, and what their body answers once its condition is decided (R37, R95). -/

namespace Sys2Proof.Machine

/-- Above S scope a branch runs for its context, and is anchored by a vote or by a target in a queue register (R107). -/
theorem branchHow_upper {x : Scope} (hx : 2 ≤ x.level) (y : Scope) (a : Option (BitVec 3)) (r : Reg) :
    branchHow x y a r = { anchored := votes x y a || Reg.isQueue r } := by
  cases x with
  | L | S => exact absurd hx (by decide)
  | G | T | W => rfl

/-- A branch above S scope whose condition is decided sends its context to the target or on to the next word. -/
theorem branchBody_upper {s : State} {e : Env} {y : Scope} {neg b : Bool} {a : Option (BitVec 3)} (dest : State → CtxId → Word)
    (hx : 2 ≤ e.x.level) (hr : branchReady s e y a = true) (hc : condition s e.x e.c y neg a = .ok b) :
    branchBody y neg a dest e s = .jump (s.modCtx e.c (fun x => { x with pc := if b then dest s e.c else x.pc + 1 })) := by
  have upper : branchBody y neg a dest e s =
      if !branchReady s e y a then .stall s .result else branchUpper e s (dest s e.c) (condition s e.x e.c y neg a) := by
    unfold branchBody
    split
    · next h => exact absurd (h ▸ hx) (by decide)
    · next h => exact absurd (h ▸ hx) (by decide)
    · rfl
  rw [upper, hr, hc]
  rfl

/-- A body with a target in a register goes on with the target that was read. -/
theorem withTarget_read {s v : State} {c : CtxId} {h : Head} {raw : Bool} {r : Reg} {dest : CtxId → Word}
    (body : (State → CtxId → Word) → Env → State → Res) (ht : TargetRead s c h raw r v dest) :
    withTarget r body (envAt s c h raw) (entered s c h) = body (fun _ => dest) (envAt s c h raw) v := by
  obtain ⟨vals, hcols, rfl⟩ := ht
  simp only [withTarget, hcols]

/-- A branch above S scope, read through `body`, that has participants and whose condition is decided, issues to the jump. -/
theorem issuesTo_branchUpper {i : Instr} {s v : State} {c : CtxId} {h : Head} {y : Scope} {neg b : Bool} {a : Option (BitVec 3)}
    {r : Reg} {body : Env → State → Res} (dest : State → CtxId → Word) (hi : exec i s = issue h (branchHow h.scope y a r) body s)
    (hx : 2 ≤ h.scope.level) (hp : (envAt s c h false).parts ≠ [])
    (H : Issues s c h { anchored := votes h.scope y a || Reg.isQueue r })
    (hb : body (envAt s c h false) (entered s c h) = branchBody y neg a dest (envAt s c h false) v)
    (hr : branchReady v (envAt s c h false) y a = true) (hc : condition v h.scope c y neg a = .ok b) :
    IssuesTo i s c h false false (v.modCtx c (fun x => { x with pc := if b then dest v c else x.pc + 1 })) := by
  rw [branchHow_upper hx] at hi
  exact issuesTo_jump hi H (Or.inl hp) (hb.trans (branchBody_upper dest hx hr hc))

end Sys2Proof.Machine
end

section
/-! The statement on branches at G, T and W scope. -/

namespace Sys2Proof

open Machine

/-- Settles O14: each of the three branches issues to the jump of `issuesTo_branchUpper`; `BRA` has the condition that always holds, and
`BRX` jumps from the state in which its target was read. -/
theorem upperBranches : Obligations.UpperBranches := by
  unfold Obligations.UpperBranches
  intro h cs neg b a off r s c hx hp
  refine ⟨fun H => ?bra, fun H hr hc => ?br, fun v dest H ht hr hc => ?brx⟩
  case bra => exact issuesTo_branchUpper (b := true) (relTarget off) rfl hx hp H rfl rfl rfl
  case br =>
    have H' : Issues s c h { anchored := votes h.scope cs a || Reg.isQueue .zero } := (Bool.or_false _).symm ▸ H
    exact issuesTo_branchUpper (relTarget off) rfl hx hp H' rfl hr hc
  case brx => exact issuesTo_branchUpper (fun _ => dest) rfl hx hp H (withTarget_read (branchBody cs neg a) ht) hr hc

end Sys2Proof
end

section
/-! SUPPORT. Register instructions of one result (R125, R128 to R145): what runs through `alu` or `special` computes it. -/

namespace Sys2Proof.Machine

/-- An instruction that runs through `alu` has one fixed result. -/
theorem oneResult_alu {i : Instr} {h : Head} {d : Reg} {n : Nat} {srcs : List Operand} {f : List Nat → Nat}
    (hi : ∀ s, exec i s = alu h d n srcs f s) : OneResult i h d n srcs f :=
  computes_pure hi rfl rfl (by decide)
/-- One that runs through `special` has one variable result. -/
theorem lateResult_special {i : Instr} {h : Head} {d : Reg} {n : Nat} {a : Reg} {f : Nat → Nat}
    (hi : ∀ s, exec i s = special h d n a f s) : LateResult i h d n a f :=
  computes_pure hi rfl rfl (by decide)

end Sys2Proof.Machine
end

section
/-! The statements on integer, bit and floating-point instructions. -/

namespace Sys2Proof

open Machine

/-- Settles O1: every instruction of one result runs through `alu` with the function stated; `ADDC` and `SUBB` compute two results, the
second their carry or borrow out. -/
theorem integerResults : Obligations.IntegerResults := by
  unfold Obligations.IntegerResults
  refine ⟨fun h ty sat d a b c x p k cond => ?one, fun h ty d a b p => ⟨?addc, ?subb⟩⟩
  case one =>
    and_intros
    all_goals exact oneResult_alu fun _ => rfl
  case addc | subb => exact computes_pure (fun _ => rfl) rfl rfl (by decide)

/-- Settles O2: each of the instructions runs through `alu` with the function stated. -/
theorem bitResults : Obligations.BitResults := by
  unfold Obligations.BitResults
  intro h ty d a b c x right
  and_intros
  all_goals exact oneResult_alu fun _ => rfl

/-- Settles O4: each of the instructions runs through `alu` with the function stated, `CVT` and `PACK` in the form without SR. -/
theorem floatResults : Obligations.FloatResults := by
  unfold Obligations.FloatResults
  intro h f rnd sat dst src cond d a b c x p
  and_intros
  all_goals exact oneResult_alu fun _ => rfl

end Sys2Proof
end

section
/-! SUPPORT. The functions of the bit instructions, of narrowing and of atomics, as operations of bit vectors (R129, R132, R133, R173). -/

namespace Sys2Proof.Machine

/-! Shifts and rotations (R132) -/

section
variable {w : Nat}

theorem shlVal_toNat (x : BitVec w) (n : Nat) : shlVal w x.toNat n = (x <<< n).toNat := by
  rw [BitVec.toNat_shiftLeft, Nat.shiftLeft_eq, shlVal]
  split
  · next h => exact (Nat.mod_eq_zero_of_dvd (Nat.dvd_mul_left_of_dvd (Nat.pow_dvd_pow 2 h) _)).symm
  · rfl

theorem shrVal_toNat (x : BitVec w) (n : Nat) : shrVal w x.toNat n = (x >>> n).toNat := by
  rw [BitVec.toNat_ushiftRight, Nat.shiftRight_eq_div_pow, shrVal]
  split
  · next h => exact (Nat.div_eq_of_lt (Nat.lt_of_lt_of_le x.isLt (Nat.pow_le_pow_right Nat.zero_lt_two h))).symm
  · rfl

/-- A shift of w bits by more than w gives what the shift by w gives. -/
theorem div_two_pow_min {a : Nat} (h : a < 2 ^ w) (n : Nat) : a / 2 ^ min n w = a / 2 ^ n := by
  rcases Nat.le_total n w with hn | hn
  · rw [Nat.min_eq_left hn]
  · have hle : 2 ^ w ≤ 2 ^ n := Nat.pow_le_pow_right Nat.zero_lt_two hn
    rw [Nat.min_eq_right hn, Nat.div_eq_of_lt h, Nat.div_eq_of_lt (Nat.lt_of_lt_of_le h hle)]

theorem topBit_eq_msb (x : BitVec w) : x.toNat / 2 ^ (w - 1) % 2 = x.msb.toNat := by
  rw [BitVec.msb_eq_getLsbD_last, BitVec.getLsbD, Nat.testBit_eq_decide_div_mod_eq]
  rcases Nat.mod_two_eq_zero_or_one (x.toNat / 2 ^ (w - 1)) with h | h <;> simp [h]

/-- The complement of x in n · m values, divided by n and complemented again. -/
theorem compl_div_compl {n m x : Nat} (h : x < n * m) : n * m - 1 - (n * m - 1 - x) / n = x / n + (n * m - m) := by
  have hq : x / n < m := Nat.div_lt_of_lt_mul h
  have hm : m ≤ n * m := Nat.le_mul_of_pos_left m (Nat.pos_of_mul_pos_right (Nat.zero_lt_of_lt h))
  rw [Nat.sub_sub _ 1 x, Nat.add_comm 1, Nat.mul_sub_div x n m h]
  generalize x / n = q at hq
  omega

theorem sarVal_toNat (x : BitVec w) (n : Nat) : sarVal w x.toNat n = (x.sshiftRight n).toNat := by
  have hx := x.isLt
  have hk : 2 ^ min n w * 2 ^ (w - min n w) = 2 ^ w := by
    rw [← Nat.pow_add]
    congr 1
    omega
  rw [BitVec.toNat_sshiftRight, sarVal, topBit_eq_msb, Nat.shiftRight_eq_div_pow, Nat.shiftRight_eq_div_pow,
    div_two_pow_min hx]
  cases x.msb
  · simp
  · have hc := compl_div_compl (hk ▸ hx)
    have hlt : 2 ^ w - 1 - x.toNat < 2 ^ w := by omega
    rw [hk, div_two_pow_min hx, div_two_pow_min hlt] at hc
    simp [hc]

theorem rotVal_toNat (x : BitVec w) (n : Nat) (hw : 0 < w) : rotVal w x.toNat n = (x.rotateLeft n).toNat := by
  have hn : n % w < w := Nat.mod_lt n hw
  have hk : 2 ^ (w - n % w) * 2 ^ (n % w) = 2 ^ w := by
    rw [← Nat.pow_add]
    congr 1
    omega
  have hlow : x.toNat / 2 ^ (w - n % w) < 2 ^ (n % w) := Nat.div_lt_of_lt_mul (hk ▸ x.isLt)
  have hhigh : x.toNat * 2 ^ (n % w) % 2 ^ w = (x.toNat % 2 ^ (w - n % w)) <<< (n % w) := by
    rw [← hk, Nat.mul_mod_mul_right, Nat.shiftLeft_eq]
  rw [BitVec.toNat_rotateLeft, rotVal, Nat.shiftLeft_eq, Nat.shiftRight_eq_div_pow, hhigh,
    Nat.shiftLeft_add_eq_or_of_lt hlow]

theorem notBits_toNat (x : BitVec w) : notBits w x.toNat = (~~~x).toNat := by
  rw [BitVec.toNat_not, notBits, Nat.mod_eq_of_lt x.isLt]

end

/-! Bits counted and placed one by one -/

theorem foldl_add_toNat (p : Nat → Bool) (l : List Nat) (n : Nat) :
    l.foldl (fun n i => n + (p i).toNat) n = n + (l.filter p).length := by
  induction l generalizing n with
  | nil => rfl
  | cons i l ih =>
    rw [List.foldl_cons, ih, List.filter_cons]
    cases p i <;> simp [Nat.add_comm, Nat.add_left_comm]

theorem popc_toNat (y : Word) : popc y.toNat = ((List.range 32).filter (fun i => y.getLsbD i)).length := by
  rw [popc, foldl_add_toNat, Nat.zero_add]
  rfl

/-- A number formed from n bits stays below 2^n and has those bits. -/
theorem foldl_bits (p : Nat → Bool) (n : Nat) :
    (List.range n).foldl (fun m i => m + (p i).toNat * 2 ^ i) 0 < 2 ^ n
    ∧ ∀ i < n, ((List.range n).foldl (fun m i => m + (p i).toNat * 2 ^ i) 0).testBit i = p i := by
  induction n with
  | zero => simp
  | succ n ih =>
    obtain ⟨hlt, hbit⟩ := ih
    rw [List.range_succ, List.foldl_append]
    generalize (List.range n).foldl (fun m i => m + (p i).toNat * 2 ^ i) 0 = m at hlt hbit
    simp only [List.foldl_cons, List.foldl_nil]
    refine ⟨?_, fun i hi => ?_⟩
    · have hp : (p n).toNat * 2 ^ n ≤ 1 * 2 ^ n := Nat.mul_le_mul_right _ (Bool.toNat_le (p n))
      rw [Nat.pow_succ]
      omega
    · rw [Nat.add_comm m, Nat.mul_comm, Nat.testBit_two_pow_mul_add _ hlt]
      split
      · next h => exact hbit i h
      · next h =>
        obtain rfl : i = n := by omega
        cases p i <;> simp

theorem brev_testBit (y : Word) {i : Nat} (hi : i < 32) : (brev y.toNat).testBit i = y.getLsbD (31 - i) :=
  (foldl_bits (fun i => y.toNat.testBit (31 - i)) 32).2 i hi

theorem clz_spec (y : Word) : clz y.toNat ≤ 32 ∧ y.toNat < 2 ^ (32 - clz y.toNat)
    ∧ (y ≠ 0 → y.getLsbD (31 - clz y.toNat) = true) := by
  unfold clz
  split
  · next h => exact ⟨Nat.le_refl _, by simp [h], fun hy => absurd (BitVec.eq_of_toNat_eq h) hy⟩
  · next h =>
    have hl : y.toNat.log2 < 32 := (Nat.log2_lt h).2 y.isLt
    refine ⟨by omega, ?_, fun _ => ?_⟩
    · rw [show 32 - (31 - y.toNat.log2) = y.toNat.log2 + 1 by omega]
      exact Nat.lt_log2_self
    · rw [show 31 - (31 - y.toNat.log2) = y.toNat.log2 by omega]
      exact Nat.testBit_log2 h

/-! Results under a type (R129) -/

theorem lowBits_cast (n : Nat) (x : Int) : (lowBits n x : Int) = x % 2 ^ n := by
  have hn : ((2 ^ n : Nat) : Int) ≠ 0 := Int.natCast_ne_zero.2 (Nat.ne_of_gt (Nat.two_pow_pos n))
  rw [lowBits, Int.toNat_of_nonneg (Int.emod_nonneg _ hn), Int.natCast_pow]
  rfl

theorem two_pow_width (ty : IntTy) : 2 ^ ty.width = 2 * 2 ^ (ty.width - 1) := by
  cases ty <;> rfl

/-- A value of a type comes back from its low bits. -/
theorem intVal_lowBits {ty : IntTy} {x : Int} (h : intMin ty ≤ x) (h' : x ≤ intMax ty) :
    intVal ty (lowBits ty.width x) = x := by
  have hm : 0 < 2 ^ (ty.width - 1) := Nat.two_pow_pos _
  simp only [intVal, intMin, intMax, lowBits, two_pow_width ty, Bool.and_eq_true, decide_eq_true_eq] at *
  generalize 2 ^ (ty.width - 1) = m at *
  generalize ty.signed = b at *
  cases b <;> simp only [Bool.false_eq_true, if_false, if_true, false_and, true_and] at *
  case false =>
    rw [Int.emod_eq_of_lt h (by omega), Nat.mod_eq_of_lt (by omega)]
    omega
  case true =>
    rcases Int.lt_or_le x 0 with hx | hx
    · rw [← Int.add_emod_right, Int.emod_eq_of_lt (by omega) (by omega), Nat.mod_eq_of_lt (by omega), if_pos (by omega)]
      omega
    · rw [Int.emod_eq_of_lt hx (by omega), Nat.mod_eq_of_lt (by omega), if_neg (by omega)]
      omega

theorem intMin_le_intMax (ty : IntTy) : intMin ty ≤ intMax ty := by
  cases ty <;> decide

theorem clampInt_eq (ty : IntTy) (x : Int) :
    clampInt ty x = if x < intMin ty then intMin ty else if intMax ty < x then intMax ty else x := by
  have h := intMin_le_intMax ty
  unfold clampInt
  grind
theorem clampInt_mem (ty : IntTy) (x : Int) : intMin ty ≤ clampInt ty x ∧ clampInt ty x ≤ intMax ty :=
  ⟨Int.le_max_left _ _, Int.max_le.2 ⟨intMin_le_intMax ty, Int.min_le_left _ _⟩⟩

theorem words_of_full {ty : IntTy} (h : ty = .i32 ∨ ty = .n32 ∨ ty = .i64 ∨ ty = .n64) : 32 * ty.words = ty.width := by
  rcases h with rfl | rfl | rfl | rfl <;> rfl

/-! Atomics (R173) -/

section
variable {w : Nat} (x y : BitVec w)

theorem toInt_of_half (hw : 0 < w) : (if x.toNat < 2 ^ (w - 1) then (x.toNat : Int) else x.toNat - 2 ^ w) = x.toInt := by
  have h : 2 ^ w = 2 * 2 ^ (w - 1) := by
    rw [← Nat.pow_succ']
    congr 1
    omega
  rw [BitVec.toInt_eq_toNat_cond]
  push_cast
  split <;> split <;> omega

theorem apply_smin (hw : 0 < w) : apply .smin w x.toNat y.toNat = (if y.slt x then y else x).toNat := by
  simp only [apply, toInt_of_half _ hw, BitVec.slt, decide_eq_true_eq, apply_ite BitVec.toNat]
theorem apply_smax (hw : 0 < w) : apply .smax w x.toNat y.toNat = (if x.slt y then y else x).toNat := by
  simp only [apply, toInt_of_half _ hw, BitVec.slt, decide_eq_true_eq, apply_ite BitVec.toNat]
theorem apply_incw (hw : 0 < w) : apply .incw w x.toNat y.toNat = (if y.toNat ≤ x.toNat then 0 else x + 1).toNat := by
  have h1 : (1 : BitVec w).toNat = 1 := BitVec.toNat_one hw
  have hy := y.isLt
  simp only [apply]
  split
  · rfl
  · rw [BitVec.toNat_add, h1, Nat.mod_eq_of_lt (by omega)]
theorem apply_decw (hw : 0 < w) : apply .decw w x.toNat y.toNat = (if x = 0 ∨ y.toNat < x.toNat then y else x - 1).toNat := by
  have h0 : x.toNat = 0 ↔ x = 0 := by rw [← BitVec.toNat_inj]; rfl
  simp only [apply, h0]
  split
  · rfl
  · next h =>
    have h1 : (1 : BitVec w).toNat = 1 := BitVec.toNat_one hw
    have hx : x.toNat ≠ 0 := fun hx => h (Or.inl (h0.1 hx))
    rw [BitVec.toNat_sub_of_le (BitVec.le_def.2 (by omega)), h1]
end

end Sys2Proof.Machine
end

section
/-! The statement on the value functions. -/

namespace Sys2Proof

open Machine

/-- Settles O3: each function agrees with the operation of bit vectors by its own lemma; a result under SAT is the clamped value, which its
low bits determine. -/
theorem valueFunctions : Obligations.ValueFunctions := by
  unfold Obligations.ValueFunctions
  refine ⟨fun w x n y hw => ?bits, fun ty x hty => ?result, fun w x y c hw => ?atomics⟩
  case bits =>
    exact ⟨shlVal_toNat x n, shrVal_toNat x n, sarVal_toNat x n, rotVal_toNat x n hw, notBits_toNat x, popc_toNat y,
      fun i => brev_testBit y, clz_spec y⟩
  case result =>
    unfold intResult
    rw [words_of_full hty]
    obtain ⟨hmin, hmax⟩ := clampInt_mem ty x
    exact ⟨lowBits_cast _ x, (intVal_lowBits hmin hmax).trans (clampInt_eq ty x)⟩
  case atomics =>
    exact ⟨(BitVec.toNat_add x y).symm, (BitVec.toNat_and x y).symm, (BitVec.toNat_or x y).symm, (BitVec.toNat_xor x y).symm,
      rfl, rfl, rfl, apply_smin x y hw, apply_smax x y hw, apply_incw x y hw, apply_decw x y hw, rfl⟩

end Sys2Proof
end

section
/-! SUPPORT. Bodies that read operands and then do more than write results of them: stochastic conversions and `SEED` (R82, R83, R144),
`BCAST` (R161). -/

namespace Sys2Proof.Machine

variable {i : Instr} {s v : State} {c : CtxId} {h : Head} {how : How} {srcs : List Operand} {vals : List (List Nat)}

/-- Operands read where nobody takes part: nothing is read. -/
theorem operandsRead_none {e : Env} (hp : e.parts = []) (hr : OperandsRead e s srcs vals v) : vals = [] ∧ v = s := by
  simpa only [OperandsRead, hp, if_true] using hr
/-- Operands read where somebody takes part. -/
theorem columns_of_operandsRead {e : Env} (hp : e.parts ≠ []) (hr : OperandsRead e s srcs vals v) :
    columns e s srcs = .ok (vals, v) := by
  simpa only [OperandsRead, hp, if_false] using hr

/-- A stochastic conversion leaves the generators of its participants stepped and writes what each lane computed with its own (R83). -/
theorem results_srBody {d : Reg} {f : Word → List Nat → Nat × Word} (hi : exec i s = issue h how (srBody d srcs f) s)
    (H : Issues s c h how) (hraw : how.raw = false) (heff : how.effect = false)
    (hr : OperandsRead (envAt s c h false) (entered s c h) srcs vals v) :
    Results i s c h .fixed
      (((envAt s c h false).parts.zip vals).foldl (fun t e => setGen t e.1 (f (genOf v e.1) e.2).2) v)
      (((envAt s c h false).parts.zip vals).map (fun e => (e.1, [(d, 1, (f (genOf v e.1) e.2).1)]))) := by
  refine results_of_store hi H hraw heff (by decide) (fun hp => ?_) (fun hp => ?_)
  · simp only [srBody, columns_of_operandsRead hp hr, List.foldl_map, List.map_map]
    rfl
  · obtain ⟨-, rfl⟩ := operandsRead_none hp hr
    simp [hp]

/-- `SEED` sets the generators of its participants (R144). -/
theorem issuesTo_seed {x : Src} (H : Issues s c h { anchored := namesQueue [] [.src x] })
    (hr : OperandsRead (envAt s c h false) (entered s c h) [.src x] vals v) :
    IssuesTo (.seed h x) s c h false true (((envAt s c h false).parts.zip vals).foldl (fun t e =>
      setGen t e.1 (if e.2.headD 0 = 0 then 0x2545F491 else BitVec.ofNat 32 (e.2.headD 0))) v) := by
  have hi : exec (.seed h x) s = issue h { anchored := namesQueue [] [.src x] } (seedBody x) s := rfl
  by_cases hp : (envAt s c h false).parts = []
  · obtain ⟨-, rfl⟩ := operandsRead_none hp hr
    rw [hp]
    exact issuesTo_none hi H rfl hp
  · refine issuesTo_next hi H rfl hp ?_
    simp only [seedBody, columns_of_operandsRead hp hr]

/-- `BCAST` writes the register of the lane that its operand names (R161). -/
theorem results_bcast {d a : Reg} {x : Src} {l : CtxId × Nat} (H : Issues s c h upperHow) (hp : (envAt s c h false).parts ≠ [])
    (hb : settledBelow (entered s c h) c = true)
    (hr : OperandsRead (envAt s c h false) (entered s c h) [.src x] vals v)
    (hl : namedLane (viewBelow v c) h.scope c ((vals.headD []).headD 0) = some l) :
    Results (.bcast h d a x) s c h .varies v [((c, 0), [(d, 1, (readReg (viewBelow v c) .L l.1 l.2 a).toNat)])] := by
  refine results_of_store (how := upperHow) rfl H rfl rfl (by decide) (fun _ => ?_) (fun hn => absurd hn hp)
  have hc : (envAt s c h false).c = c := rfl
  have hx : (envAt s c h false).x = h.scope := rfl
  simp only [upperBody, hc, hx, hb, Bool.not_true, Bool.false_eq_true, if_false, columns_of_operandsRead hp hr, hl]

end Sys2Proof.Machine
end

section
/-! The statements on special functions and on the exchange between lanes. -/

namespace Sys2Proof

open Machine

/-- Settles O5: the special functions run through `special`; the stochastic conversions are cases of `results_srBody`, each with what one
lane computes from its generator. -/
theorem specialResults : Obligations.SpecialResults := by
  unfold Obligations.SpecialResults
  refine ⟨fun h rnd d a => ?special,
    fun h dst src f rnd sat d a x s c vals v => ⟨fun H hr => ?cvt, fun H hr => ?pack, issuesTo_seed⟩⟩
  case special =>
    and_intros
    all_goals exact lateResult_special fun _ => rfl
  case cvt => exact results_srBody (i := .cvt h dst src rnd sat true d a) rfl H rfl rfl hr
  case pack => exact results_srBody (i := .pack h f rnd sat true d a x) rfl H rfl rfl hr

/-- Settles O7: the instructions of L scope run `crossBody` and those above it `upperBody`; `REDUCE` and `BALLOT` do the one or the other
by their scope. -/
theorem laneExchange : Obligations.LaneExchange := by
  unfold Obligations.LaneExchange
  refine ⟨fun h mode seg d a c x p ty op excl float po m => ⟨?shfl, ?pswap, ?scan, ?matchLanes, ?firstl,
      fun hL => ?reduce, fun hL => ?ballot⟩,
    fun h d a x p ty op po m => ⟨fun hU => ?reduceUpper, fun hU => ?ballotUpper, ?elect,
      fun s c vals v l => results_bcast⟩⟩
  case shfl | pswap | scan | matchLanes | firstl => exact cross_result fun _ => rfl
  case reduce | ballot => exact cross_result fun _ => if_pos hL
  case reduceUpper | ballotUpper => exact upper_result (fun _ => if_neg hU) (fun _ _ _ _ => rfl)
  case elect => exact upper_result (fun _ => rfl) (fun _ _ _ _ => rfl)

end Sys2Proof
end

section
/-! SUPPORT. Moves, handles on their way, status registers (R127, R149, R152). -/

namespace Sys2Proof.Machine

section
variable {s v : State} {c : CtxId} {h : Head}

/-- `MOV` is a move between handles only where both of its registers are handles (R149). -/
theorem execMov_register {d a : Reg} (hq : ∀ m n, ¬(d = .h m ∧ a = .h n)) (s : State) :
    exec (.mov h d a) s = alu h d 1 [.reg a 1] (fun v => v.headD 0) s := by
  change execMov h d a s = _
  unfold execMov
  split
  · exact absurd ⟨rfl, rfl⟩ (hq _ _)
  · rfl

theorem results_rdsr {d : Reg} {n : BitVec 12} (H : Issues s c h { anchored := n = 0 || Reg.isQueue d, varying := true }) :
    Results (.rdsr h d n) s c h .varies (entered s c h)
      ((envAt s c h false).parts.map (fun e => (e, [(d, 1, statusVal (entered s c h) e.1 n)]))) :=
  results_of_store rfl H rfl rfl (by decide) (fun _ => rfl) (fun hp => ⟨rfl, by rw [hp]; rfl⟩)

/-- A move between handles, none of those moved empty, is on its way (R127, R149). -/
theorem issuesTo_handleMove {x y : BitVec 4} (H : Issues s c h { anchored := true })
    (he : ∀ p ∈ (envAt s c h false).parts, ((entered s c h).ctx p.1).h.getD y.toNat .empty ≠ .empty)
    (hp : (envAt s c h false).parts ≠ []) :
    IssuesTo (.mov h (.h x) (.h y)) s c h false true
      ((entered s c h).modCtxs ((envAt s c h false).parts.map (fun p => p.1)) (fun z => { z with
        hmoves := z.hmoves ++ [(x.toNat, z.h.getD y.toNat .empty, (entered s c h).cycle + fixedLatency h.scope)] })) := by
  have hi : exec (.mov h (.h x) (.h y)) s = issue h { anchored := true } (handleMove x y) s := rfl
  have hfull : (envAt s c h false).parts.any (fun p => ((entered s c h).ctx p.1).h.getD y.toNat .empty == .empty) = false := by
    simpa only [List.any_eq_false, beq_iff_eq] using he
  refine issuesTo_next hi H rfl hp ?_
  rw [handleMove, hfull]
  rfl

theorem issuesTo_wrsr {n : BitVec 12} {a : Reg} {vals : List (List Nat)} (H : Issues s c h { anchored := true })
    (hp : (envAt s c h false).parts ≠ []) (hr : OperandsRead (envAt s c h false) (entered s c h) [.reg a 1] vals v) :
    IssuesTo (.wrsr h n a) s c h false true
      (v.modTeam (envAt s c h false).team (fun t => { t with matstall := BitVec.ofNat 32 ((vals.headD []).headD 0) })) := by
  refine issuesTo_next (how := { anchored := true }) rfl H rfl hp ?_
  simp only [columns_of_operandsRead hp hr]

end

/-! Handles that fall due (R127) -/

@[simp] theorem Ctx.setCell_h (x : Ctx) (l : Loc) (w : Word) : (x.setCell l w).h = x.h := by cases l <;> rfl

/-- The moves between handles that are due are made. -/
theorem Ctx.settle_h (x : Ctx) (now : Nat) :
    (x.settle now).h = movedHandles x.h (x.hmoves.filter (fun e => e.2.2 ≤ now)) := by
  have h : ∀ (l : List PendWr) (y : Ctx), (l.foldl (fun y e => y.setCell e.loc e.val) y).h = y.h := by
    intro l
    induction l with
    | nil => exact fun _ => rfl
    | cons e l ih => exact fun y => (ih _).trans (Ctx.setCell_h ..)
  exact h _ _

/-- A handle move that is due has given its handle the value of the other one; before, the handle is as it was. -/
theorem settle_handle {z : Ctx} {now due k : Nat} {v : HandleSt} (hm : z.hmoves = [(k, v, due)]) (hk : k < z.h.length) :
    (z.settle now).h.getD k .empty = if due ≤ now then v else z.h.getD k .empty := by
  rw [Ctx.settle_h, hm]
  by_cases hd : due ≤ now
  · simp [movedHandles, hd, hk]
  · simp [movedHandles, hd]

end Sys2Proof.Machine
end

section
/-! SUPPORT. What a register reads that names no cell, `p7`, and the special registers (R13, R14, R22, R23). -/

namespace Sys2Proof.Machine

section
variable (s : State) (x : Scope) (c : CtxId) (k n : Nat)

@[simp] theorem reg_up_zero (r : Reg) : r.up 0 = r := by
  cases r with
  | sp y => cases y <;> rfl
  | v | g | t | w => simp [Reg.up]
  | _ => rfl

theorem readNat_one (r : Reg) : readNat s x c k 1 r = (readReg s x c k r).toNat := by
  change (readReg s x c k (r.up 0)).toNat + 2 ^ 32 * 0 = _
  rw [reg_up_zero]
  rfl

theorem readReg_special (y : Special) : readReg s x c k (.sp y) = readSpecial s c k y := rfl

/-- A pair read is one number, the lower register its lower half (R14). -/
theorem readNat_two (r : Reg) :
    readNat s x c k 2 r = (readReg s x c k r).toNat + 2 ^ 32 * (readReg s x c k (r.up 1)).toNat := by
  change (readReg s x c k (r.up 0)).toNat + 2 ^ 32 * ((readReg s x c k (r.up 1)).toNat + 2 ^ 32 * 0) = _
  rw [reg_up_zero]
  rfl

theorem natOf_eq_zero {l : List Word} (h : ∀ w ∈ l, w = 0) : natOf l = 0 := by
  induction l with
  | nil => rfl
  | cons w l ih =>
    rw [List.forall_mem_cons] at h
    rw [natOf, h.1, ih h.2]
    rfl

theorem readNat_zero : readNat s x c k n .zero = 0 := by
  refine natOf_eq_zero fun w hw => ?_
  obtain ⟨i, -, rfl⟩ := List.mem_map.1 hw
  rfl
theorem cellsOf_zero (val : Nat) : cellsOf s x c k n .zero val = [] := by
  rw [cellsOf, if_neg (by decide), List.filterMap_eq_nil_iff]
  exact fun _ _ => rfl
theorem cellsOf_p7 (val : Nat) : cellsOf s x c k n (.p 7) val = [] := if_pos rfl

variable {s x c k}

/-- `p7` of a lane that is there, or of a context, is true (R13). -/
theorem readCell_p7 (hk : x = .L → k < (s.ctx c).lanes.length) : readCell s x c k (.p 7) = 1 := by
  have lane (h : k < (s.ctx c).lanes.length) : (s.ctx c).cell (.lp k 7) = 1 := by
    simp only [Ctx.cell, List.getElem?_eq_getElem h]
    rfl
  cases x with
  | L => exact (if_pos rfl).trans (lane (hk rfl))
  | S | G | T | W => exact (if_pos rfl).trans rfl

theorem guardOn_p7 (neg : Bool) (hk : x = .L → k < (s.ctx c).lanes.length) : guardOn s x c k ⟨neg, 7⟩ = !neg := by
  rw [guardOn, readCell_p7 hk]
  cases neg <;> rfl

/-! Special registers of a unit of a team (R22, R23) -/

section
variable {t : TeamId} {y : Team} (k : Nat) (ht : c.team? = some t) (hy : s.team? t = some y)
include ht

theorem readSpecial_team (hn : t.num < 640) : readSpecial s c k .team = BitVec.ofNat 32 t.num := by
  have : t.num % shadowBase = t.num := Nat.mod_eq_of_lt (Nat.lt_trans hn (by decide))
  simp only [readSpecial, ht, Option.map_some, this, Option.getD_some]

include hy

/-- The record of the team that a unit belongs to. -/
theorem teamOf_eq : c.team?.bind s.team? = some y := by rw [ht]; exact hy

theorem readSpecial_pair : readSpecial s c k .pair = BitVec.ofNat 32 (pairOf y.core) := by
  simp only [readSpecial, teamOf_eq ht hy, Option.map_some, Option.getD_some]
theorem readSpecial_die : readSpecial s c k .die = BitVec.ofNat 32 (y.core / 160) := by
  simp only [readSpecial, teamOf_eq ht hy, Option.map_some, Option.getD_some]
  rfl
theorem readSpecial_tileinc : readSpecial s c k .tileinc = y.inc := by
  simp only [readSpecial, teamOf_eq ht hy, Option.map_some, Option.getD_some]
theorem readSpecial_ctx : readSpecial s c k .ctx = BitVec.ofNat 32 y.ctx := by
  cases c with
  | slice | group | team => simp only [readSpecial, teamOf_eq ht hy, Option.map_some, Option.getD_some]
  | grid | firmware => cases ht
/-- `%cwp` of a channel that the team does not own is 0. -/
theorem readSpecial_cwp_other {m : BitVec 4} (hm : y.chans.getLsbD m.toNat = false) : readSpecial s c k (.cwp m) = 0 := by
  simp only [readSpecial, teamOf_eq ht hy, hm, Bool.false_eq_true, if_false]
theorem readSpecial_cwp_own {m : BitVec 4} {z : Chan} (hm : y.chans.getLsbD m.toNat = true)
    (hz : chanOf s y.core m.toNat = some z) : readSpecial s c k (.cwp m) = z.cwp := by
  rw [chanOf] at hz
  simp only [readSpecial, teamOf_eq ht hy, hm, if_true, hz, Option.map_some, Option.getD_some]

end

theorem readSpecial_ctx_grid {m r : Nat} {l : Launch} (k : Nat) (hl : s.launch? m = some l) :
    readSpecial s (.grid m r) k .ctx = BitVec.ofNat 32 l.ctx := by
  simp only [readSpecial, hl, Option.map_some, Option.getD_some]

/-- The two words of a 64-bit count. -/
theorem words_of_count (m : Nat) :
    (BitVec.ofNat 32 m).toNat + 2 ^ 32 * (BitVec.ofNat 32 (m / 2 ^ 32)).toNat = m % 2 ^ 64 := by
  simp only [BitVec.toNat_ofNat]
  omega
end

end Sys2Proof.Machine
end

section
/-! The statement on moves, predicates, handles and status registers. -/

namespace Sys2Proof

open Machine

/-- Settles O6: moves and predicates run through `alu`, a move between handles is on its way until it is due, and each operand that names no
cell reads as the lemma on its register says. -/
theorem moveResults : Obligations.MoveResults := by
  unfold Obligations.MoveResults
  refine ⟨fun h d a imm table p q r w x => ?computed,
    fun h x y n a s c => ⟨issuesTo_handleMove, fun z now due v => settle_handle, fun vals v => issuesTo_wrsr⟩,
    fun s x c k n val neg => ?operands⟩
  case computed =>
    refine ⟨fun hq => oneResult_alu (execMov_register hq), ?movi, ?plop, ?p2r, ?r2p, fun n s c => results_rdsr⟩
    case movi | plop | p2r => exact oneResult_alu fun _ => rfl
    case r2p => exact computes_pure (fun _ => rfl) rfl rfl (by decide)
  case operands =>
    refine ⟨readNat_zero .., cellsOf_zero .., cellsOf_p7 .., fun hk => ⟨readCell_p7 hk, guardOn_p7 neg hk⟩, ?slice, ?group,
      ?team, ?grid, rfl, ?clk, ?clkhi, ?ref, ?refhi, ?clkPair, ?refPair⟩
    case slice =>
      rintro t g i rfl
      simp only [readReg_special]
      exact ⟨rfl, rfl, rfl⟩
    case group =>
      rintro t g rfl
      rw [readReg_special]
      rfl
    case team =>
      rintro t y ht hy
      simp only [readReg_special]
      exact ⟨readSpecial_team k ht, readSpecial_pair k ht hy, readSpecial_die k ht hy, readSpecial_ctx k ht hy,
        readSpecial_tileinc k ht hy, fun m => ⟨readSpecial_cwp_other k ht hy, fun z => readSpecial_cwp_own k ht hy⟩⟩
    case grid =>
      rintro m l rfl hl
      rw [readReg_special]
      exact readSpecial_ctx_grid k hl
    case clk | clkhi | ref | refhi =>
      rw [readNat_one]
      rfl
    case clkPair =>
      rw [readNat_two]
      exact words_of_count s.cycle
    case refPair =>
      rw [readNat_two]
      exact words_of_count s.tick

end Sys2Proof
end
